-- ==== Sys2Proof/Word.lean ====
section
/-! DEFINITION. The plainest types of the model: bytes, wheels, and the pair of values the manual gives one of
per wheel (00_scope.md, Conventions). -/

namespace Sys2Proof

/-- One byte, as it crosses the pit link or the cell port or stands in the settings image (R195). -/
abbrev Byte := BitVec 8

/-- The two wheels of the station's axle (00_scope.md, Wheels). -/
inductive Wheel where
  | l
  | r
deriving DecidableEq, Repr

/-- A value for each wheel, the suffix w of the manual. -/
structure LR (α : Type) where
  l : α
  r : α
deriving DecidableEq, Repr

variable {α β γ : Type}

/-- The value of one wheel. -/
def LR.get (p : LR α) : Wheel → α
  | .l => p.l
  | .r => p.r

/-- The pair with one wheel's value replaced. -/
def LR.put (p : LR α) (w : Wheel) (v : α) : LR α :=
  match w with
  | .l => { p with l := v }
  | .r => { p with r := v }

/-- The same value for both wheels. -/
def LR.both (v : α) : LR α := ⟨v, v⟩

/-- A function applied to each wheel's value. -/
def LR.map (f : α → β) (p : LR α) : LR β := ⟨f p.l, f p.r⟩

/-- A function of two values applied wheel by wheel. -/
def LR.zip (f : α → β → γ) (p : LR α) (q : LR β) : LR γ := ⟨f p.l q.l, f p.r q.r⟩

/-- Whether a test holds of both wheels. -/
def LR.all (f : α → Bool) (p : LR α) : Bool := f p.l && f p.r

/-- Whether a test holds of a wheel. -/
def LR.any (f : α → Bool) (p : LR α) : Bool := f p.l || f p.r

end Sys2Proof
end

