-- ==== Sys2Proof/Syntax.lean ====
section
/-! DEFINITION. The commands of the block: one constructor per row of spec/opcode_table.json, with the operands
each event or host command brings in from outside. -/

namespace Sys2Proof

/-- The six interlock and tool-home inputs (R171). -/
inductive Input where
  | clamped
  | guardClosed
  | estop
  | driveAtSpeed
  | homeL
  | homeR
deriving DecidableEq, Repr

/-- The kind of a reset, kept in the start fields (R194). -/
inductive ResetKind where
  | powerOn
  | resetLine
deriving DecidableEq, Repr

/-- The strap pins, read once at start (R192 step 1). -/
structure Straps where
  station : Fin 16
  car : Fin 16
  bogie : Fin 4
  /-- The two link-rate straps: 0, 1, 2 give 125, 250, 500 kbit/s, the fourth combination 125 kbit/s. -/
  linkRate : Fin 4
  /-- The port-rate strap: no is 57,600 baud, yes 115,200. -/
  portFast : Bool
deriving DecidableEq, Repr

/-- A frame of the pit link as a receiver takes it from the line (R86): the arbitration field, the kind code of the
header, the payload whose length the header gives, and the check. -/
structure LinkFrame where
  cls : BitVec 2
  station : Fin 16
  kind : BitVec 4
  payload : List Byte
  check : BitVec 16
deriving DecidableEq, Repr

/-- The commands: every row of spec/opcode_table.json. A host command carries the payload of its frame (R198);
a received frame is carried whole; the other events carry what they bring from the machine. -/
inductive Instr where
  /-- RESET (R192): the kind, the straps as they stand on the pins, and how many bytes of a write in progress had
  reached the store when the reset came (R190, R191). -/
  | reset (kind : ResetKind) (straps : Straps) (written : Nat)
  | announceTimerExpiry
  | visit (payload : List Byte)
  | measure (payload : List Byte)
  | cut (payload : List Byte)
  | hold (payload : List Byte)
  | resume (payload : List Byte)
  | feed (payload : List Byte)
  | withdraw (payload : List Byte)
  | release (payload : List Byte)
  | calibrate (payload : List Byte)
  | unlock (payload : List Byte)
  | writeSettings (payload : List Byte)
  | readSettings (payload : List Byte)
  | readStatus (payload : List Byte)
  | readResult (payload : List Byte)
  | readPeers (payload : List Byte)
  | readPasses (payload : List Byte)
  /-- DISCARDED_FRAME (R180, R181): the complete frame's bytes; or bytes received of a frame still to be assembled. -/
  | discardedFrame (frame : List Byte)
  /-- FRAME_GAP_TIMEOUT (R180): bytes of the incomplete frame that are not in the receive buffer yet. -/
  | frameGapTimeout (received : List Byte)
  /-- SETTINGS_WRITE_DONE (R190): the bytes of the store that read back otherwise than written, by image offset. -/
  | settingsWriteDone (misread : List (Nat × Byte))
  /-- CALIBRATION_WRITE_DONE (R191): as for SETTINGS_WRITE_DONE. -/
  | calibrationWriteDone (misread : List (Nat × Byte))
  | unlockTimerExpiry
  | watchdogExpiry
  /-- RAW_INPUT_CHANGE (R171): the input and its new raw level (yes is active). -/
  | rawInputChange (input : Input) (level : Bool)
  | debounceExpiry (input : Input)
  | homeTimerExpiry
  /-- ENCODER_PULSE (R33): the wheel, and what its radial probe reads at that moment, in µm (R41). -/
  | encoderPulse (wheel : Wheel) (probe : Int)
  | markLeadingEdge
  /-- MARK_TRAILING_EDGE (R25): what each wheel's radial probe reads at that moment, in µm, where the pulse's classing
  supplies a bin index (R34, R41; DESIGN CHOICE, log entry 8). Readings left unwritten are 0. -/
  | markTrailingEdge (probe : LR Int := ⟨0, 0⟩)
  | markTimerExpiry
  | driveTimerExpiry
  /-- TRACER_READING (R56): the tracer's wheel, the lateral and the radial position, in µm. -/
  | tracerReading (wheel : Wheel) (lateral : Int) (radial : Int)
  | sweepEnd (wheel : Wheel)
  | sweepTimerExpiry
  | transmitStart
  /-- ARBITRATION_LOST (R87): the bit of the arbitration field, in sending order, that read back dominant. -/
  | arbitrationLost (bit : Fin 6)
  | ownFrameError
  | listenOnlyEnd
  | frameSent
  /-- RECEIVE_ERROR (R97): the frame as received. -/
  | receiveError (frame : LinkFrame)
  | stateReceived (frame : LinkFrame)
  | ceilingReceived (frame : LinkFrame)
  | intentReceived (frame : LinkFrame)
  | claimReceived (frame : LinkFrame)
  | releaseReceived (frame : LinkFrame)
  /-- PEER_AGE_EXPIRY (R105): the station whose entry has been silent for more than 3P. -/
  | peerAgeExpiry (station : Fin 16)
  | violationTimerExpiry
  | peerWaitTimerExpiry
  | slideDone (wheel : Wheel)
  | slideFault (wheel : Wheel)
  | passTimerExpiry
  | backoffExpiry
deriving DecidableEq, Repr

end Sys2Proof
end

