-- ==== Sys2Proof/Config.lean ====
section
/-! DEFINITION. What is fixed for the machine: the periods and limits the manual states as numbers (not settings),
and the one value it leaves open. -/

namespace Sys2Proof.Config

/-- Microseconds in a millisecond: timers of the model count in the microseconds of R20's counter. -/
def ms : Nat := 1000

/-- Microseconds in a second. -/
def sec : Nat := 1000000

/-- The drive timer (R22, R24): 20 s. -/
def driveTime : Nat := 20 * sec

/-- The mark timer (R23, R26): 4 s. -/
def markTime : Nat := 4 * sec

/-- The sweep timer (R55, R63): 60 s. -/
def sweepTime : Nat := 60 * sec

/-- The home timer (R12): 30 s. -/
def homeTime : Nat := 30 * sec

/-- The debounce time of an input (R171): 10 ms. -/
def debounceTime : Nat := 10 * ms

/-- The listen-only period (R89): 2 s. -/
def listenOnlyTime : Nat := 2 * sec

/-- The greatest gap after a byte of an incomplete cell port frame (R180): 20 ms. -/
def frameGap : Nat := 20 * ms

/-- The unlock timer (R189): 5 s. -/
def unlockTime : Nat := 5 * sec

/-- The peer-wait limit (R134): 120 s. -/
def peerWaitTime : Nat := 120 * sec

/-- One step of the backoff timer (R160): 20 ms. -/
def backoffStep : Nat := 20 * ms

/-- The least and the greatest diameter handled, in µm (00_scope.md, Diameters; R32). -/
def minDiameter : Nat := 600000
def maxDiameter : Nat := 1300000

/-- The range of a measuring-wheel diameter, in µm (R37, R193). -/
def minMeasuring : Nat := 100000
def maxMeasuring : Nat := 250000

/-- FREE VALUE. The quotient of R36 when the named wheel gave no pulses in eight revolutions (C = 0): the divisor
2C is 0 and R36 states no result. Applied to the numerator. Nothing constrains it. DESIGN CHOICE, log entry 7. -/
opaque quotientByZero : Nat → Nat

end Sys2Proof.Config
end

