-- ==== Sys2Proof/Machine/Codes.lean ====
section
/-! DEFINITION. How fields are coded in bytes, and the check (chapter 13, R195 and R196). -/

namespace Sys2Proof.Machine

open Sys2Proof

/-- A one-byte unsigned field (R195). -/
def be1 (n : Nat) : List Byte := [BitVec.ofNat 8 n]

/-- A two-byte unsigned field, most significant byte first (R195). -/
def be2 (n : Nat) : List Byte := [BitVec.ofNat 8 (n / 256), BitVec.ofNat 8 n]

/-- A three-byte unsigned field, most significant byte first (R195). -/
def be3 (n : Nat) : List Byte := [BitVec.ofNat 8 (n / 65536), BitVec.ofNat 8 (n / 256), BitVec.ofNat 8 n]

/-- A four-byte unsigned field, most significant byte first (R195). -/
def be4 (n : Nat) : List Byte :=
  [BitVec.ofNat 8 (n / 16777216), BitVec.ofNat 8 (n / 65536), BitVec.ofNat 8 (n / 256), BitVec.ofNat 8 n]

/-- A signed quantity in two's complement over `bits` bits (R195). -/
def twos (bits : Nat) (i : Int) : Nat := (i % (2 ^ bits : Nat)).toNat

/-- A four-byte signed field (R195). -/
def sbe4 (i : Int) : List Byte := be4 (twos 32 i)

/-- A two-byte signed field (R195). -/
def sbe2 (i : Int) : List Byte := be2 (twos 16 i)

/-- The unsigned value of bytes sent most significant byte first (R195). -/
def ofBytes (bs : List Byte) : Nat := bs.foldl (fun acc b => acc * 256 + b.toNat) 0

/-- The signed value of a two-byte field in two's complement (R195). -/
def ofSigned2 (n : Nat) : Int := if n < 32768 then n else (n : Int) - 65536

/-- Marks packed from bit 0 upward into one byte (R195). -/
def packMarks : List Bool → Nat
  | [] => 0
  | b :: t => (if b then 1 else 0) + 2 * packMarks t

/-- Marks packed into as many bytes as they need, eight a byte. The first argument bounds the number of bytes. -/
def markBytes : Nat → List Bool → List Byte
  | 0, _ => []
  | n + 1, m => BitVec.ofNat 8 (packMarks (m.take 8)) :: markBytes n (m.drop 8)

/-- One shift of the check register: generator x^16 + x^12 + x^5 + 1 (R196). -/
def crcShift (r : BitVec 16) : BitVec 16 := if r.msb then (r <<< 1) ^^^ 0x1021#16 else r <<< 1

/-- One byte taken into the check register, most significant bit first (R196). -/
def crcByte (r : BitVec 16) (b : Byte) : BitVec 16 :=
  Nat.repeat crcShift 8 (r ^^^ (b.zeroExtend 16 <<< 8))

/-- The 16-bit check over bytes: register started at all ones, no final inversion (R196). -/
def crc16 (bs : List Byte) : BitVec 16 := bs.foldl crcByte 0xFFFF#16

/-- The check's two bytes, high byte first (R196). -/
def crcBytes (bs : List Byte) : List Byte := be2 (crc16 bs).toNat

end Sys2Proof.Machine
end

