-- ==== Sys2Proof/Machine/Image.lean ====
section
/-! DEFINITION. The stored-settings image (R187, R200): 1,026 addressed bytes of the non-volatile store, held as
the cells that differ from the image as shipped, addresses strictly rising. -/

namespace Sys2Proof.Machine

open Sys2Proof

/-- The image's size in bytes (R187). -/
def imageSize : Nat := 1026

/-- The image: the bytes that differ from the image as shipped, by offset, offsets rising. -/
abbrev Image := List Host.Cell

/-- The general block as shipped: the defaults of the Symbols table of 00_scope.md at the offsets of R200. The
entries the table marks "per installation" (D_m, E, Z, K_slots, W) stand at 0. DESIGN CHOICE, log entry 2. -/
def shippedGeneral : List Nat :=
  [0, 0, 0, 0, 0, 0, 0, 0, 0, 0, 0, 0] ++
  [3, 1, 144, 3, 32, 70, 35, 0, 200, 0, 50, 1, 44, 5, 220] ++
  [0, 0, 0, 0, 1, 144, 7, 208, 23, 112, 0, 0, 250, 3, 132, 0, 0] ++
  [0, 0, 0, 0]

/-- The sum without carry of the shipped general block's bytes at the even offsets, and at the odd (R187). -/
def shippedSums (odd : Nat) : Nat :=
  ((List.range 24).map fun i => shippedGeneral.getD (2 * i + odd) 0).sum % 256

/-- What an offset holds in the image as shipped: the general block, variant blocks of zeros, a good checksum.
DESIGN CHOICE, log entry 2. -/
def shippedByte (a : Nat) : Byte :=
  if a < 48 then BitVec.ofNat 8 (shippedGeneral.getD a 0)
  else if a = 1024 then BitVec.ofNat 8 (shippedSums 0)
  else if a = 1025 then BitVec.ofNat 8 (shippedSums 1)
  else 0#8

/-- The byte at an offset. -/
def imageGet : Image → Nat → Byte
  | [], a => shippedByte a
  | (k, v) :: t, a => if k = a then v else imageGet t a

/-- The cells with one byte stored, the canonical form kept: a byte equal to the shipped one has no cell. -/
def cellsPut : Image → Nat → Byte → Image
  | [], a, b => if b = shippedByte a then [] else [(a, b)]
  | (k, v) :: t, a, b =>
    if k < a then (k, v) :: cellsPut t a b
    else if k = a then (if b = shippedByte a then t else (a, b) :: t)
    else (if b = shippedByte a then (k, v) :: t else (a, b) :: (k, v) :: t)

/-- One byte stored. An offset the image does not have takes nothing (no accepted command writes one: R190). -/
def imagePut (m : Image) (a : Nat) (b : Byte) : Image := if a < imageSize then cellsPut m a b else m

/-- Several bytes stored, one after another. -/
def imagePutAll (m : Image) (ws : List (Nat × Byte)) : Image := ws.foldl (fun m w => imagePut m w.1 w.2) m

/-- `count` bytes from an offset on. -/
def imageBytes (m : Image) (off count : Nat) : List Byte := (List.range count).map fun i => imageGet m (off + i)

/-- The canonical form: offsets rising, inside the image, and no cell equal to the shipped byte. `least` is the
least offset the next cell may have. -/
def cellsWf (least : Nat) : Image → Bool
  | [] => true
  | (k, v) :: t => decide (least ≤ k) && decide (k < imageSize) && decide (v ≠ shippedByte k) && cellsWf (k + 1) t

/-- The canonical form of the image. -/
def imageWf (m : Image) : Bool := cellsWf 0 m

/-- The sum without carry of the bytes at the even (0) or odd (1) offsets 0 to 1,023 (R187). -/
def imageSum (m : Image) (odd : Nat) : Nat :=
  ((List.range 512).foldl (fun acc i => acc + (imageGet m (2 * i + odd)).toNat) 0) % 256

/-- Whether both checksum bytes equal the sums computed over the image (R187). -/
def imageGood (m : Image) : Bool :=
  decide ((imageGet m 1024).toNat = imageSum m 0) && decide ((imageGet m 1025).toNat = imageSum m 1)

/-- Whether an image offset is the spare byte of a variant block (R187, R200). -/
def isSpare (a : Nat) : Bool := decide (48 ≤ a) && decide (a < 1024) && decide ((a - 48) % 244 = 1)

end Sys2Proof.Machine
end

