-- ==== Sys2Proof/Machine/Settings.lean ====
section
/-! DEFINITION. The general settings, their clamping into the start copy (R193), the configuration digest (R194)
and the variant table (R67, R68). -/

namespace Sys2Proof.Machine

open Sys2Proof

/-- The general settings by the symbols of 00_scope.md (R187). -/
structure Settings where
  /-- D_m, per wheel. -/
  dm : LR Nat
  /-- E, per wheel. -/
  counts : LR Nat
  /-- S. -/
  slip : Nat
  /-- J. -/
  jump : Nat
  /-- J_t. -/
  jumpT : Nat
  /-- j_t. -/
  taping : Nat
  /-- F. -/
  flange : Nat
  /-- m. -/
  minCut : Nat
  /-- m_r. -/
  minRecut : Nat
  /-- p_f. -/
  finish : Nat
  /-- p_r. -/
  rough : Nat
  /-- Z. -/
  condemn : Nat
  /-- t_a. -/
  tolAxle : Nat
  /-- t_b. -/
  tolBogie : Nat
  /-- t_c. -/
  tolCar : Nat
  /-- K_slots. -/
  slots : Nat
  /-- P, in ms. -/
  announce : Nat
  /-- T_pass, in s. -/
  passTime : Nat
  /-- W, in ms. -/
  watch : Nat
  /-- Offsets 44 to 47 of the general block, which carry no setting (R200). -/
  spare : Nat
deriving DecidableEq, Repr

/-- An unsigned field of the image. -/
def imageField (m : Image) (off width : Nat) : Nat := ofBytes (imageBytes m off width)

/-- The general block as the image holds it, at the offsets of R200. -/
def readGeneral (m : Image) : Settings where
  dm := ⟨imageField m 0 4, imageField m 4 4⟩
  counts := ⟨imageField m 8 2, imageField m 10 2⟩
  slip := imageField m 12 1
  jump := imageField m 13 2
  jumpT := imageField m 15 2
  taping := imageField m 17 1
  flange := imageField m 18 1
  minCut := imageField m 19 2
  minRecut := imageField m 21 2
  finish := imageField m 23 2
  rough := imageField m 25 2
  condemn := imageField m 27 4
  tolAxle := imageField m 31 2
  tolBogie := imageField m 33 2
  tolCar := imageField m 35 2
  slots := imageField m 37 1
  announce := imageField m 38 2
  passTime := imageField m 40 2
  watch := imageField m 42 2
  spare := imageField m 44 4

/-- A value brought into its range: above it the top, below it the bottom (R193). -/
def clampTo (lo hi v : Nat) : Nat := max lo (min hi v)

/-- An odd value lowered by 1 (R193). -/
def lowerOdd (v : Nat) : Nat := v - v % 2

/-- The start copy made of the image's general settings, in the order of the table of R193. -/
def clampSettings (g : Settings) : Settings :=
  let m := clampTo 50 1000 g.minCut
  { dm := g.dm.map (clampTo Config.minMeasuring Config.maxMeasuring)
    counts := g.counts.map (clampTo 1024 65535)
    slip := clampTo 1 20 g.slip
    jump := clampTo 0 5000 g.jump
    jumpT := clampTo 0 5000 g.jumpT
    taping := clampTo 40 90 g.taping
    flange := clampTo 10 60 g.flange
    minCut := m
    minRecut := min (clampTo 20 200 g.minRecut) m
    finish := max (clampTo 100 1000 g.finish) m
    rough := clampTo 200 5000 g.rough
    condemn := lowerOdd (clampTo Config.minDiameter Config.maxDiameter g.condemn)
    tolAxle := lowerOdd (clampTo 0 2000 g.tolAxle)
    tolBogie := lowerOdd (clampTo 0 10000 g.tolBogie)
    tolCar := lowerOdd (clampTo 0 20000 g.tolCar)
    slots := clampTo 1 8 g.slots
    announce := (clampTo 100 1000 g.announce) / 50 * 50
    passTime := clampTo 60 1800 g.passTime
    watch := if g.watch = 0 then 0 else clampTo 500 10000 g.watch
    spare := g.spare }

/-- The settings' values in the order of R187, one number each. -/
def Settings.values (g : Settings) : List Nat :=
  [g.dm.l, g.dm.r, g.counts.l, g.counts.r, g.slip, g.jump, g.jumpT, g.taping, g.flange, g.minCut, g.minRecut,
   g.finish, g.rough, g.condemn, g.tolAxle, g.tolBogie, g.tolCar, g.slots, g.announce, g.passTime, g.watch]

/-- The settings whose start-copy value differs from the image's, by their place in the order of R187 (R193). -/
def changedSettings (g : Settings) : List Nat :=
  (List.range 21).filter fun i => decide (g.values.getD i 0 ≠ (clampSettings g).values.getD i 0)

/-- The general block in the byte layout of the image (R188, R200). -/
def Settings.bytes (g : Settings) : List Byte :=
  be4 g.dm.l ++ be4 g.dm.r ++ be2 g.counts.l ++ be2 g.counts.r ++ be1 g.slip ++ be2 g.jump ++ be2 g.jumpT ++
  be1 g.taping ++ be1 g.flange ++ be2 g.minCut ++ be2 g.minRecut ++ be2 g.finish ++ be2 g.rough ++ be4 g.condemn ++
  be2 g.tolAxle ++ be2 g.tolBogie ++ be2 g.tolCar ++ be1 g.slots ++ be2 g.announce ++ be2 g.passTime ++
  be2 g.watch ++ be4 g.spare

/-- The configuration digest: the check of R196 over t_a, t_b, t_c, Z, K_slots and P of the start copy (R194). -/
def configDigest (c : Settings) : BitVec 16 :=
  crc16 (be2 c.tolAxle ++ be2 c.tolBogie ++ be2 c.tolCar ++ be4 c.condemn ++ be1 c.slots ++ be2 c.announce)

/-- The start verdict of a variant (R68). -/
inductive Verdict where
  | usable
  | off
  | tapingNonzero
  | flangeRange
  | noSettings
deriving DecidableEq, Repr

/-- The place of a verdict in the list of R67 (R195). -/
def Verdict.code : Verdict → Nat
  | .usable => 0
  | .off => 1
  | .tapingNonzero => 2
  | .flangeRange => 3
  | .noSettings => 4

/-- One entry of the variant table (R67). -/
structure Variant where
  enable : Bool
  thickness : Nat
  heights : List Int
  verdict : Verdict
deriving DecidableEq, Repr

/-- The verdict of a variant at the load: the first test of R68 that applies. -/
def startVerdict (good : Bool) (taping : Nat) (enable : Bool) (thickness : Nat) (heights : List Int) : Verdict :=
  if !good then .noSettings
  else if !enable then .off
  else if heights.getD taping 0 ≠ 0 then .tapingNonzero
  else if thickness < 20000 ∨ 40000 < thickness then .flangeRange
  else .usable

/-- The offset of variant block k (R200). -/
def variantOffset (k : Nat) : Nat := 48 + 244 * k

/-- Variant block k of the image (R67, R200). -/
def loadVariant (m : Image) (good : Bool) (taping : Nat) (k : Nat) : Variant :=
  let o := variantOffset k
  let enable := decide (imageGet m o ≠ 0#8)
  let thickness := imageField m (o + 2) 2
  let heights := (List.range 120).map fun j => ofSigned2 (imageField m (o + 4 + 2 * j) 2)
  ⟨enable, thickness, heights, startVerdict good taping enable thickness heights⟩

/-- The variant table loaded at start (R67). -/
def loadVariants (m : Image) (good : Bool) (taping : Nat) : List Variant :=
  (List.range 4).map (loadVariant m good taping)

/-- A variant in the byte layout of its block, the spare byte 0 (R188, R200). DEDUCED, log entry 33. -/
def Variant.bytes (v : Variant) : List Byte :=
  be1 (if v.enable then 1 else 0) ++ be1 0 ++ be2 v.thickness ++ v.heights.flatMap sbe2

end Sys2Proof.Machine
end

