-- ==== Sys2Proof/Machine/Records.lean ====
section
/-! DEFINITION. The records of the thirteen blocks: every field the manual gives a block, and the value each takes
at a reset. Times of running timers are in microseconds, the unit of R20's counter. -/

namespace Sys2Proof.Machine

open Sys2Proof

/-! ## Visit Controller (chapter 1) -/

/-- The sixteen station states (R1). -/
inductive StationState where
  | start | invalid | idle | measuring | unmeasured | reconciling | ready | cutting | finished
  | aborting | aborted | condemned | passive | excluded | estop | silenced
deriving DecidableEq, Repr

/-- The cut sub-states (R10). -/
inductive CutSub where
  | waitGroup | waitSlot | pass | hold
deriving DecidableEq, Repr

/-- The visit record (R2). -/
structure VC where
  state : StationState
  /-- Absent outside CUTTING. -/
  sub : Option CutSub
  visitOpen : Bool
  settingsInvalid : Bool
  /-- The variant mask: bit k names variant k. -/
  mask : BitVec 4
  cutBegun : Bool
  passCompleted : Bool
  calRunning : Bool
  condPending : Bool
  returnState : Option StationState
  /-- The home timer: time left, absent when stopped. -/
  homeTimer : Option Nat
  homeTimeout : Bool
deriving DecidableEq, Repr

/-- The visit record after a reset (R2). -/
def VC.reset : VC where
  state := .start
  sub := none
  visitOpen := false
  settingsInvalid := false
  mask := 0#4
  cutBegun := false
  passCompleted := false
  calRunning := false
  condPending := false
  returnState := none
  homeTimer := none
  homeTimeout := false

/-! ## Revolution Timing Unit (chapter 2) -/

/-- What the RTU is doing (R21). -/
inductive RunKind where
  | none | measure | calibrate
deriving DecidableEq, Repr

/-- Why an attempt, a run or a measurement ended (R30, R65, R201). -/
inductive Reason where
  | none | slip | markFault | markLost | probeLiftoff | driveTimeout | diameterRange | unclamped | estop
  | silenced | runoutIncomplete | traceIncomplete | traceTimeout
deriving DecidableEq, Repr

/-- The slip test of one wheel (R29). -/
structure SlipResult where
  /-- C, the sum of the eight counts. -/
  total : Nat
  mean : Nat
  spread : Nat
  allowance : Nat
deriving DecidableEq, Repr

/-- The RTU's fields of the result record (R35). -/
structure RtuResult where
  run : RunKind
  attempts : Nat
  reason : Reason
  restarts : Nat
  clampSummary : Bool
  period : Option Nat
  window : LR (List Nat)
  slip : LR (Option SlipResult)
  diameter : LR (Option Nat)
deriving DecidableEq, Repr

/-- The measurement record of the RTU (R21), with the figures of the current run that R35 returns. -/
structure RTU where
  /-- The free-running counter (R20). -/
  counter : BitVec 32
  run : RunKind
  attempt : Nat
  driveTimer : Option Nat
  markTimer : Option Nat
  firstMark : Bool
  /-- Last mark time: the leading-edge capture of the last valid mark. -/
  lastMark : Option (BitVec 32)
  prevPeriod : Option Nat
  /-- Count since mark. -/
  count : LR Nat
  pulseOn : Bool
  /-- The capture at the leading edge of the pulse in progress (R25). -/
  capture : BitVec 32
  pulseWidth : Nat
  pulseCount : LR Nat
  /-- The revolution windows, oldest first. -/
  window : LR (List Nat)
  prevCount : LR (Option Nat)
  restarts : Nat
  clampSummary : Bool
  /-- The bin index last computed for each wheel (R33, R34). -/
  binIndex : LR (Option Nat)
  /-- The slip test of the last attempt that closed (R29). -/
  slip : LR (Option SlipResult)
  /-- The diameters computed by the last attempt that succeeded (R31). -/
  diameter : LR (Option Nat)
  /-- The figures of a run that is over, kept until the measurement or the calibration ends (R32, R35). -/
  handed : Option RtuResult
deriving DecidableEq, Repr

/-- The RTU's record after a reset or a visit end, the counter as given (R20, R21). -/
def RTU.reset (counter : BitVec 32) : RTU where
  counter := counter
  run := .none
  attempt := 0
  driveTimer := none
  markTimer := none
  firstMark := false
  lastMark := none
  prevPeriod := none
  count := .both 0
  pulseOn := false
  capture := 0#32
  pulseWidth := 0
  pulseCount := .both 0
  window := .both []
  prevCount := .both none
  restarts := 0
  clampSummary := false
  binIndex := .both none
  slip := .both none
  diameter := .both none
  handed := none

/-! ## Runout Capture Unit (chapter 3) -/

/-- The phase of the RCU (R39). -/
inductive RcuPhase where
  | idle | filling | held
deriving DecidableEq, Repr

/-- The gating state of a wheel (R43, R44); `opened` is OPEN. -/
inductive Gate where
  | seeking | candidate | opened
deriving DecidableEq, Repr

/-- The bin buffer and the per-wheel record (R38, R39). -/
structure RcuWheel where
  /-- The 256 bins. -/
  bins : List (Option Int)
  gate : Gate
  /-- The candidate's value and bin index. -/
  candidate : Option (Int × Nat)
  lastAccepted : Option Int
  lastIndex : Option Nat
  liftRev : Nat
  liftWindow : Nat
  liftMost : Nat
  runout : Option Int
deriving DecidableEq, Repr

/-- The per-wheel record after a reset or a visit end (R38, R39). -/
def RcuWheel.reset : RcuWheel where
  bins := List.replicate 256 none
  gate := .seeking
  candidate := none
  lastAccepted := none
  lastIndex := none
  liftRev := 0
  liftWindow := 0
  liftMost := 0
  runout := none

/-- The RCU: its phase and its two wheels (R38, R39). -/
structure RCU where
  phase : RcuPhase
  wheel : LR RcuWheel
deriving DecidableEq, Repr

/-- The RCU after a reset or a visit end (R39). -/
def RCU.reset : RCU := ⟨.idle, .both RcuWheel.reset⟩

/-! ## Profile Trace Unit (chapter 4) -/

/-- The phase of the PTU (R53). -/
inductive PtuPhase where
  | idle | sweepL | sweepR | complete | held
deriving DecidableEq, Repr

/-- One entry of a worn-profile record (R52). -/
structure Point where
  sum : Int
  count : Nat
  value : Option Int
  height : Option Int
deriving DecidableEq, Repr

/-- An absent point (R52). -/
def Point.absent : Point := ⟨0, 0, none, none⟩

/-- The completeness verdict of a record (R52, R62). -/
inductive TraceVerdict where
  | none
  | complete
  | tapingPoint
  /-- FLANGE_ZONE, with the lowest absent index in the zone. -/
  | flangeZone (index : Nat)
  /-- TOO_MANY_ABSENT, with the number absent. -/
  | tooManyAbsent (count : Nat)
deriving DecidableEq, Repr

/-- The worn-profile record and the sweep counters of one wheel (R52, R53). -/
structure PtuWheel where
  points : List Point
  verdict : TraceVerdict
  received : Nat
  outOfRange : Nat
  liftoffs : Nat
  reseats : Nat
  outside : Nat
  binned : Nat
  saturated : Nat
  reference : Option Int
  jumpRun : Nat
  /-- Time from the SWEEP order to its end, in ms; 0 until the sweep has ended. -/
  sweepTime : Nat
deriving DecidableEq, Repr

/-- A wheel's record and counters after a reset, a visit end and a measurement start (R52 to R54). -/
def PtuWheel.reset : PtuWheel where
  points := List.replicate 120 Point.absent
  verdict := .none
  received := 0
  outOfRange := 0
  liftoffs := 0
  reseats := 0
  outside := 0
  binned := 0
  saturated := 0
  reference := none
  jumpRun := 0
  sweepTime := 0

/-- The PTU (R52, R53). -/
structure PTU where
  phase : PtuPhase
  sweepTimer : Option Nat
  stray : Nat
  failing : Option Wheel
  wheel : LR PtuWheel
deriving DecidableEq, Repr

/-- The PTU after a reset, a visit end and a measurement start (R53, R54). -/
def PTU.reset : PTU := ⟨.idle, none, 0, none, .both PtuWheel.reset⟩

/-! ## Fit Engine (chapter 5) -/

/-- The fit state (R70). -/
inductive FitState where
  | empty | collecting | fitted | condemning
deriving DecidableEq, Repr

/-- The results of one variant of the effective set (R70, R83). -/
structure VariantFit where
  index : Nat
  /-- e_k,w. -/
  excess : LR Int
  /-- The lowest grid point where the excess stands (R83). -/
  at_ : LR Nat
  /-- d_k,w. -/
  depth : LR Int
  axle : Int
deriving DecidableEq, Repr

/-- The fit record (R70). -/
structure FitRecord where
  diameter : Option (LR Int)
  runout : Option (LR Int)
  /-- The worn heights of both wheels, 120 each, each present or absent. -/
  worn : Option (LR (List (Option Int)))
  results : List VariantFit
  chosen : Option Nat
  ceiling : Option (LR Int)
  state : FitState
deriving DecidableEq, Repr

/-- The fit record after a reset, a visit end and a measurement start (R70). -/
def FitRecord.reset : FitRecord := ⟨none, none, none, [], none, none, .empty⟩

/-- The ceiling status of the record (R76) and of a CEILING frame (R197). -/
inductive CeilStatus where
  | none | normal | condemned | passive | cleared
deriving DecidableEq, Repr

/-- The ceiling record (R76). -/
structure CeilingRecord where
  status : CeilStatus
  value : Option (LR Int)
  seq : Nat
  announced : Bool
  condemning : Option (LR Int)
deriving DecidableEq, Repr

/-- The ceiling record after a reset (R76). -/
def CeilingRecord.reset : CeilingRecord := ⟨.none, none, 0, false, none⟩

/-- The FE: the variant table, the effective variant set, the fit record and the ceiling record. -/
structure FE where
  variants : List Variant
  /-- The effective variant set of the visit, indices rising (R69). -/
  effective : List Nat
  fit : FitRecord
  ceil : CeilingRecord
deriving DecidableEq, Repr

/-! ## Link Controller (chapter 6) -/

/-- A frame as its block hands it to the LC (R90). A STATE's content is taken at each transmission. -/
inductive QFrame where
  | claim (pass : Nat)
  | release (pass : Nat)
  | ceiling (seq : Nat) (status : CeilStatus) (value : Option (LR Int))
  | intent (seq basis : Nat) (target : LR Int)
  | state
deriving DecidableEq, Repr

/-- Why the SCU asked a CLAIM back (R165, R168). -/
inductive Withdraw where
  | lost | givenUp
deriving DecidableEq, Repr

/-- A frame of the transmit queue (R93, R94, R96). -/
structure QEntry where
  frame : QFrame
  /-- In transmission. -/
  tx : Bool
  /-- Replaced while in transmission (R94). -/
  replaced : Bool
  /-- A withdrawal that waits for the end of the transmission (R96). -/
  withdraw : Option Withdraw
deriving DecidableEq, Repr

/-- The link record (R100), the announce timer (R91) and the frame on the line. -/
structure LC where
  /-- The transmit queue in sending order. -/
  queue : List QEntry
  overflow : Option QFrame
  /-- The station's frame on the line, as assembled at the start of the transmission (R90). -/
  onLine : Option LinkFrame
  rxErrors : Nat
  errRun : Nat
  errTotal : Nat
  /-- Listen-only time left, absent outside a listen-only period (R89). -/
  listenOnly : Option Nat
  listenPeriods : Nat
  txOverflow : Bool
  silenced : Bool
  /-- The announce timer's time left, absent when stopped (R91, R99). -/
  announce : Option Nat
  /-- Expiries that the listen period of START still waits for (R91). -/
  listenLeft : Nat
  expiryCount : Nat
deriving DecidableEq, Repr

/-- The LC after a reset, the announce timer started at P (R91, R100). -/
def LC.reset (announceMs : Nat) : LC where
  queue := []
  overflow := none
  onLine := none
  rxErrors := 0
  errRun := 0
  errTotal := 0
  listenOnly := none
  listenPeriods := 0
  txOverflow := false
  silenced := false
  announce := some (announceMs * Config.ms)
  listenLeft := 2
  expiryCount := 0

/-! ## Peer Table (chapter 7) -/

/-- The freshness of an entry (R103, R105). -/
inductive Freshness where
  | fresh | stale | restarted
deriving DecidableEq, Repr

/-- What every STATE sets in an entry (R103). -/
structure PeerState where
  car : Fin 16
  bogie : Fin 4
  status : StationState
  passesDone : Nat
  passesTotal : Nat
  digest : BitVec 16
  digestMatch : Bool
  annCeiling : Nat
  annIntent : Nat
  slotHeld : Bool
deriving DecidableEq, Repr

/-- A stored ceiling (R103, R109). -/
structure StoredCeiling where
  seq : Nat
  status : CeilStatus
  value : Option (LR Int)
deriving DecidableEq, Repr

/-- A stored or own intent (R103, R110, R117). -/
structure Intent where
  seq : Nat
  basis : Nat
  target : LR Int
deriving DecidableEq, Repr

/-- A peer entry (R103). -/
structure PeerEntry where
  station : Fin 16
  st : Option PeerState
  mismatchReported : Bool
  ceiling : Option StoredCeiling
  intent : Option Intent
  /-- Time since the last good frame, in µs. -/
  age : Nat
  freshness : Freshness
deriving DecidableEq, Repr

/-! ## Reconciliation Unit (chapter 8) -/

/-- The last computation: present exactly when plan state is FORMED (R117). -/
structure Plan where
  minAxle : Int
  minBogie : Int
  minCar : Int
  termAxle : Int
  termBogie : Int
  termCar : Int
  cap : Int
  target : LR Int
deriving DecidableEq, Repr

/-- The RU's record (R117). -/
structure RU where
  plan : Option Plan
  replanOwed : Bool
  intentSeq : Nat
  intent : Option Intent
  violation : Bool
  awaited : List (Fin 16)
  /-- Time on the violation timer, absent when stopped. -/
  violationTimer : Option Nat
  violationLatched : Bool
  /-- Time on the peer-wait timer, absent when stopped. -/
  peerWaitTimer : Option Nat
  peerWaitLatched : Bool
  replanCount : Nat
deriving DecidableEq, Repr

/-- The RU's record after a reset (0) or a visit end (the counter kept) (R117). -/
def RU.reset (intentSeq : Nat) : RU where
  plan := none
  replanOwed := false
  intentSeq := intentSeq
  intent := none
  violation := false
  awaited := []
  violationTimer := none
  violationLatched := false
  peerWaitTimer := none
  peerWaitLatched := false
  replanCount := 0

/-! ## Pass Controller (chapter 9) -/

/-- The kind of a pass (R138). -/
inductive PassKind where
  | rough | finish
deriving DecidableEq, Repr

/-- The state of a pass (R138). -/
inductive PassState where
  | queued | active | done | aborted
deriving DecidableEq, Repr

/-- Why a pass was aborted (R151, R201). -/
inductive AbortReason where
  | none | slideFaultL | slideFaultR | passTimeout | unclamped | estop | silenced
deriving DecidableEq, Repr

/-- A pass record (R138, R201). A slide whose depth is 0 is not ordered. -/
structure Pass where
  number : Nat
  kind : PassKind
  depth : LR Nat
  expected : LR Int
  state : PassState
  reason : AbortReason
  slideDone : LR Bool
deriving DecidableEq, Repr

/-- The pass timer (R137, R150). -/
inductive PassTimer where
  | stopped
  | running (left : Nat)
  | paused (left : Nat)
deriving DecidableEq, Repr

/-- The set of hold causes (R153). -/
structure HoldCauses where
  host : Bool
  watchdog : Bool
  guard_ : Bool
deriving DecidableEq, Repr

/-- The PC's record (R137). -/
structure PC where
  queue : List Pass
  surface : Option (LR Int)
  uncertain : Bool
  queueFinish : Option (LR Int)
  finishDone : Bool
  chosen : Option Nat
  /-- Plan deep, with the ROUGH passes the build required. -/
  planDeep : Option Nat
  rebuildOwed : Bool
  passesDone : Nat
  passesVisit : Nat
  holds : HoldCauses
  feed : Nat
  timer : PassTimer
  lastEnded : Option Pass
  stray : Nat
deriving DecidableEq, Repr

/-- No hold cause (R137). -/
def HoldCauses.empty : HoldCauses := ⟨false, false, false⟩

/-- The PC's record after a reset or a visit end (R137). -/
def PC.reset : PC where
  queue := []
  surface := none
  uncertain := false
  queueFinish := none
  finishDone := false
  chosen := none
  planDeep := none
  rebuildOwed := false
  passesDone := 0
  passesVisit := 0
  holds := HoldCauses.empty
  feed := 100
  timer := .stopped
  lastEnded := none
  stray := 0

/-! ## Slot Claim Unit (chapter 10) -/

/-- The slot state (R160). -/
inductive SlotState where
  | none | waiting | armed | backoff | held
deriving DecidableEq, Repr

/-- An entry of the claim list (R159). -/
structure Claim where
  station : Fin 16
  pass : Option Nat
deriving DecidableEq, Repr

/-- The SCU: the claim list (R159) and its record (R160). -/
structure SCU where
  claims : List Claim
  slot : SlotState
  ask : Bool
  claimPass : Option Nat
  backoff : Option Nat
  lost : Nat
  yields : Nat
deriving DecidableEq, Repr

/-- The SCU after a reset (R159, R160). -/
def SCU.reset : SCU := ⟨[], .none, false, none, none, 0, 0⟩

/-! ## Interlock Input Unit (chapter 11) -/

/-- One input: raw level, debounced level, debounce timer (R171). -/
structure InputLine where
  raw : Bool
  level : Bool
  timer : Option Nat
deriving DecidableEq, Repr

/-- The IIU: the six inputs (R171) and the home latches (R172). -/
structure IIU where
  clamped : InputLine
  guardClosed : InputLine
  estop : InputLine
  driveAtSpeed : InputLine
  homeL : InputLine
  homeR : InputLine
  latch : LR Bool
deriving DecidableEq, Repr

/-- The line of an input. -/
def IIU.line (u : IIU) : Input → InputLine
  | .clamped => u.clamped
  | .guardClosed => u.guardClosed
  | .estop => u.estop
  | .driveAtSpeed => u.driveAtSpeed
  | .homeL => u.homeL
  | .homeR => u.homeR

/-- The IIU with one input's line replaced. -/
def IIU.setLine (u : IIU) (i : Input) (x : InputLine) : IIU :=
  match i with
  | .clamped => { u with clamped := x }
  | .guardClosed => { u with guardClosed := x }
  | .estop => { u with estop := x }
  | .driveAtSpeed => { u with driveAtSpeed := x }
  | .homeL => { u with homeL := x }
  | .homeR => { u with homeR := x }

/-- An input at a reset: the debounced level at its start value, the timer started where the raw level differs
(R171). -/
def InputLine.atReset (raw start : Bool) : InputLine :=
  ⟨raw, start, if raw = start then none else some Config.debounceTime⟩

/-- The IIU after a reset, the raw levels as the lines stand: only ESTOP starts active (R171, R172). -/
def IIU.reset (u : IIU) : IIU where
  clamped := .atReset u.clamped.raw false
  guardClosed := .atReset u.guardClosed.raw false
  estop := .atReset u.estop.raw true
  driveAtSpeed := .atReset u.driveAtSpeed.raw false
  homeL := .atReset u.homeL.raw false
  homeR := .atReset u.homeR.raw false
  latch := .both false

/-- The IIU at power-on with every line at its start value. DESIGN CHOICE, log entry 4. -/
def IIU.powerOn : IIU :=
  IIU.reset
    { clamped := ⟨false, false, none⟩, guardClosed := ⟨false, false, none⟩, estop := ⟨true, true, none⟩,
      driveAtSpeed := ⟨false, false, none⟩, homeL := ⟨false, false, none⟩, homeR := ⟨false, false, none⟩,
      latch := .both false }

/-! ## Cell Port and Settings Store (chapter 12) -/

/-- The sixteen host commands (R182). -/
inductive HostCmd where
  | visit | measure | cut | hold | resume | feed | withdraw | release | calibrate | unlock | writeSettings
  | readSettings | readStatus | readResult | readPeers | readPasses
deriving DecidableEq, Repr

/-- The refusal reasons (R181). -/
inductive RefuseReason where
  | wrongState | badArgument | notClamped | locked | groupBusy | planTooDeep | storeFault | calRange
deriving DecidableEq, Repr

/-- A response of the cell port (R181). -/
inductive Response where
  | ok (cmd : HostCmd) (data : List Byte)
  | refused (cmd : HostCmd) (reason : RefuseReason)
  /-- STATUS: the status word in place of the data (R184). -/
  | status (cmd : HostCmd) (word : BitVec 16)
deriving DecidableEq, Repr

/-- The areas a write names (R189, R190). -/
inductive Area where
  | general | variants
deriving DecidableEq, Repr

/-- The unlock state with its 5 s timer's time left (R189). -/
inductive UnlockState where
  | closed
  | opened (area : Area) (left : Nat)
deriving DecidableEq, Repr

/-- The command watchdog (R186). -/
inductive Watchdog where
  | unarmed
  /-- RUNNING, with the time since the last command. -/
  | running (elapsed : Nat)
  | expired
deriving DecidableEq, Repr

/-- The CP: receive buffer with the gap since its last byte, status word, waiting command, new-result mark, unlock state, watchdog. -/
structure CP where
  /-- The bytes of the frame being assembled (R180). -/
  rxBuffer : List Byte
  /-- Time since its last byte, in µs; without meaning while the buffer is empty (R180). -/
  rxGap : Nat
  status : BitVec 16
  waiting : Option (HostCmd × List Byte)
  newResult : Bool
  unlock : UnlockState
  watchdog : Watchdog
deriving DecidableEq, Repr

/-- A write of the Settings Store between its first byte and the end of its readback (R190, R191): the image before
it, and the bytes written, in order, the checksum bytes last. -/
structure StoreWrite where
  before : Image
  bytes : List (Nat × Byte)
deriving DecidableEq, Repr

/-- A calibration from its acceptance to its response: the named wheel, D_ref, and D_m,new once computed
(R36, R37). -/
structure CalRun where
  wheel : Wheel
  dRef : Nat
  dNew : Option Nat
deriving DecidableEq, Repr

/-- The SS: the image, the start copy, the straps and the digest in force, and the writes in progress. -/
structure SS where
  image : Image
  startCopy : Settings
  straps : Straps
  digest : BitVec 16
  /-- A WRITE_SETTINGS being taken (R190). -/
  hostWrite : Option StoreWrite
  /-- A calibration write (R191). -/
  calWrite : Option StoreWrite
  calRun : Option CalRun
deriving DecidableEq, Repr

/-! ## The result record (R35, R51, R66, R83, R194) -/

/-- The start fields (R194). -/
structure StartFields where
  kind : ResetKind
  straps : Straps
  good : Bool
  /-- The sums computed, even and odd. -/
  sums : Nat × Nat
  /-- The checksum bytes found, even and odd. -/
  found : Nat × Nat
  /-- The settings the clamping changed, by their place in the order of R187. -/
  changed : List Nat
  digest : BitVec 16
  verdicts : List Verdict
deriving DecidableEq, Repr

/-- The FE's fields of the result record (R83). -/
structure FeResult where
  effective : List Nat
  fit : FitRecord
  /-- The flange thickness of the chosen variant. -/
  thickness : Option Nat
  /-- The ceilings held after the fit, or the condemning values. -/
  held : Option (LR Int)
deriving DecidableEq, Repr

/-- The result record: the start fields, and the blocks' fields, each empty until written. -/
structure ResultRecord where
  start : StartFields
  rtu : Option RtuResult
  rcu : Option (LR RcuWheel)
  /-- The PTU's record with the taping-point index and the flange-zone end in force; empty also for a measurement that
  ended before tracing began. -/
  ptu : Option (PTU × Nat × Nat)
  fe : Option FeResult
deriving DecidableEq, Repr

/-! ## Orders (00_scope.md, Connections) -/

/-- The orders the station gives on the order lines. -/
inductive Order where
  | measureSpeed
  | cutSpeed
  | stop
  | pass (wheel : Wheel) (depth : Nat) (variant : Option Nat) (feed : Nat)
  | holdSlide (wheel : Wheel)
  | rate (wheel : Wheel) (feed : Nat)
  | retract (wheel : Wheel)
  | sweep (wheel : Wheel)
  | park (wheel : Wheel)
deriving DecidableEq, Repr

/-- What the station has put on its output connections, oldest first: orders, responses on the cell port, frames
sent to their last check bit on the pit link. The MODEL's own record of outputs, DESIGN CHOICE, log entry 5. -/
structure Outputs where
  orders : List Order
  responses : List Response
  sent : List LinkFrame
deriving DecidableEq, Repr

end Sys2Proof.Machine
end

