-- ==== Sys2Proof/Machine/Queue.lean ====
section
/-! DEFINITION. The transmit queue of the Link Controller: order, replacement, room, overflow, withdrawal
(R93 to R96). -/

namespace Sys2Proof.Machine

open Sys2Proof

/-- The queue's capacity (R93). -/
def queueMax : Nat := 4

/-- The priority class of a kind (R86, R197). -/
def QFrame.cls : QFrame → Nat
  | .claim _ => 0
  | .release _ => 0
  | .ceiling _ _ _ => 1
  | .intent _ _ _ => 2
  | .state => 3

/-- The code of a kind (R197). -/
def QFrame.kindCode : QFrame → Nat
  | .claim _ => 1
  | .release _ => 2
  | .ceiling _ _ _ => 3
  | .intent _ _ _ => 4
  | .state => 5

/-- Two frames of one kind. -/
def sameKind (a b : QFrame) : Bool := a.kindCode == b.kindCode

/-- A kind whose queued frame a new one replaces: STATE, CEILING and INTENT, never CLAIM or RELEASE (R94). -/
def replaceable (f : QFrame) : Bool := decide (3 ≤ f.kindCode)

/-- A kind that may be dropped to make room: STATE or INTENT (R95). -/
def droppable (f : QFrame) : Bool := decide (4 ≤ f.kindCode)

/-- A frame as it enters the queue. -/
def QEntry.new (f : QFrame) : QEntry := ⟨f, false, false, none⟩

/-- An entry placed by class, and behind the older entries of its class (R93). -/
def queueInsert (e : QEntry) : List QEntry → List QEntry
  | [] => [e]
  | h :: t => if h.frame.cls ≤ e.frame.cls then h :: queueInsert e t else e :: h :: t

/-- A queued frame replaced in its place by a new one of its kind; one in transmission is marked replaced (R94). -/
def queueReplace (f : QFrame) (q : List QEntry) : List QEntry :=
  q.map fun e => if sameKind e.frame f then { e with frame := f, replaced := e.tx } else e

/-- The first entry satisfying a test removed. -/
def queueErase (p : QEntry → Bool) (q : List QEntry) : List QEntry := q.eraseP p

/-- Room made by dropping the oldest STATE not in transmission, or else the oldest INTENT (R95). -/
def queueDrop (q : List QEntry) : Option (List QEntry) :=
  let st := fun e : QEntry => e.frame.kindCode == 5 && !e.tx
  let it := fun e : QEntry => e.frame.kindCode == 4 && !e.tx
  if q.any st then some (queueErase st q)
  else if q.any it then some (queueErase it q)
  else none

/-- A frame for which the queue has no room and makes none: the overflow position (R95). DEDUCED, log entry 15. -/
def lcOverflow (f : QFrame) (c : LC) : LC :=
  match c.overflow with
  | none => { c with overflow := some f, txOverflow := true }
  | some o =>
    if sameKind o f || (droppable o && !droppable f) then { c with overflow := some f }
    else { c with txOverflow := true }

/-- A frame that replaces nothing enters the queue, makes room, or goes to the overflow position (R93, R95).
DEDUCED, log entry 15. -/
def lcPlace (f : QFrame) (c : LC) : LC :=
  if c.queue.length < queueMax then { c with queue := queueInsert (.new f) c.queue }
  else
    match queueDrop c.queue with
    | some q => { c with queue := queueInsert (.new f) q }
    | none => lcOverflow f c

/-- Whether the overflow position holds a frame that the new one replaces under R94. -/
def overflowReplaced (f : QFrame) (c : LC) : Bool :=
  replaceable f && (match c.overflow with
    | some o => sameKind o f
    | none => false)

/-- A frame handed to the LC (R93 to R95). -/
def lcHand (f : QFrame) (c : LC) : LC :=
  if replaceable f && c.queue.any (fun e => sameKind e.frame f) then { c with queue := queueReplace f c.queue }
  else if overflowReplaced f c then { c with overflow := some f }
  else lcPlace f c

/-- The overflow frame enters as soon as a frame has left the queue (R95). -/
def lcRefill (c : LC) : LC :=
  match c.overflow with
  | some f =>
    if c.queue.length < queueMax then { c with queue := queueInsert (.new f) c.queue, overflow := none } else c
  | none => c

/-- The answer to a withdrawal (R96); `waits` while the CLAIM is in transmission. -/
inductive WithdrawAnswer where
  | withdrawn | sent | waits
deriving DecidableEq, Repr

/-- An entry that is a CLAIM. -/
def isClaimEntry (e : QEntry) : Bool := e.frame.kindCode == 1

/-- The withdrawal of the station's queued CLAIM (R96, R101). -/
def lcWithdraw (why : Withdraw) (c : LC) : LC × WithdrawAnswer :=
  if c.silenced then (c, .withdrawn)
  else if c.queue.any (fun e => isClaimEntry e && !e.tx) then
    (lcRefill { c with queue := queueErase (fun e => isClaimEntry e && !e.tx) c.queue }, .withdrawn)
  else if c.queue.any isClaimEntry then
    ({ c with queue := c.queue.map fun e => if isClaimEntry e then { e with withdraw := some why } else e }, .waits)
  else
    match c.overflow with
    | some (.claim _) => ({ c with overflow := none }, .withdrawn)
    | _ => (c, .sent)

/-- A CLAIM in the queue or in the overflow position. -/
def claimQueued (c : LC) : Bool := c.queue.any isClaimEntry || c.overflow.any fun f => f.kindCode == 1

/-- The entry in transmission, if any. -/
def txEntry (c : LC) : Option QEntry := c.queue.find? (·.tx)

/-- The transmission ended without the frame being sent: its entry stays for the retry (R87, R88, R94). -/
def lcTxFailed (c : LC) : LC :=
  { c with queue := c.queue.map fun e => { e with tx := false, replaced := false }, onLine := none }

/-- The frame in transmission was sent: its entry leaves the queue, or stays with its new content if it was
replaced (R88, R94). -/
def lcTxSent (c : LC) : LC :=
  match txEntry c with
  | some e =>
    if e.replaced then lcTxFailed c
    else lcRefill { c with queue := queueErase (·.tx) c.queue, onLine := none }
  | none => c

/-- The withdrawal that waited takes the CLAIM out of the queue after a lost or failed transmission (R96). -/
def lcDropWithdrawn (c : LC) : LC :=
  lcRefill { c with queue := queueErase (fun e => isClaimEntry e && e.withdraw.isSome) c.queue }

end Sys2Proof.Machine
end

