-- ==== Sys2Proof/Machine/Flags.lean ====
section
/-! DEFINITION. The status word: its sixteen latched flags, which of them are critical, and latching (R183, R199). -/

namespace Sys2Proof.Machine

open Sys2Proof

/-- The flags other than EVENT, which is latched with every other flag (R183). -/
inductive Flag where
  | settingsInvalid | unknownMessage | duplicateId | passAborted | estopSeen | agreementTimeout | restarted
  | measureFailed | condemned | peerWait | configMismatch | commTimeout | oldResult | recutRequired | linkSilent
deriving DecidableEq, Repr

/-- The bit of a flag in the status word (R199). -/
def Flag.bit : Flag → Nat
  | .settingsInvalid => 14
  | .unknownMessage => 13
  | .duplicateId => 12
  | .passAborted => 11
  | .estopSeen => 10
  | .agreementTimeout => 9
  | .restarted => 8
  | .measureFailed => 7
  | .condemned => 6
  | .peerWait => 5
  | .configMismatch => 4
  | .commTimeout => 3
  | .oldResult => 2
  | .recutRequired => 1
  | .linkSilent => 0

/-- The word with one flag set. -/
def Flag.word (f : Flag) : BitVec 16 := 1#16 <<< f.bit

/-- EVENT, bit 15 (R199). -/
def eventWord : BitVec 16 := 0x8000#16

/-- A flag latched, EVENT with it (R183). -/
def latchWord (w : BitVec 16) (f : Flag) : BitVec 16 := w ||| f.word ||| eventWord

/-- Whether a flag is set. -/
def flagSet (w : BitVec 16) (f : Flag) : Bool := w.getLsbD f.bit

/-- Whether any critical flag is set: bits 9 to 14 (R199). -/
def anyCritical (w : BitVec 16) : Bool := decide (w &&& 0x7E00#16 ≠ 0#16)

/-- EVENT is set exactly when some other flag is set (R183). -/
def eventAgrees (w : BitVec 16) : Bool := w.getLsbD 15 == decide (w &&& 0x7FFF#16 ≠ 0#16)

/-- The status word after a reset: RESTARTED and EVENT (R183, R192). -/
def statusAtReset : BitVec 16 := latchWord 0#16 .restarted

end Sys2Proof.Machine
end

