-- ==== Sys2Proof/Machine/Boot.lean ====
section
/-! DEFINITION. What the start sequence makes of the straps and the image, block by block (R192 steps 1 to 6). -/

namespace Sys2Proof.Machine

open Sys2Proof

/-- The start copy of an image: clamped whether the checksum is good or bad (R192 step 4). -/
def bootCopy (m : Image) : Settings := clampSettings (readGeneral m)

/-- The SS after the start sequence: no write and no calibration in progress (R181, R192). -/
def bootSS (m : Image) (straps : Straps) : SS where
  image := m
  startCopy := bootCopy m
  straps := straps
  digest := configDigest (bootCopy m)
  hostWrite := none
  calWrite := none
  calRun := none

/-- The FE after the start sequence: the variant table loaded, the rest at its reset values (R67 to R70, R76). -/
def bootFE (m : Image) : FE where
  variants := loadVariants m (imageGood m) (bootCopy m).taping
  effective := []
  fit := FitRecord.reset
  ceil := CeilingRecord.reset

/-- The CP after the start sequence: RESTARTED latched, the new-result mark set (R180, R183, R185, R186, R189). -/
def bootCP : CP where
  rxBuffer := []
  rxGap := 0
  status := statusAtReset
  waiting := none
  newResult := true
  unlock := .closed
  watchdog := .unarmed

/-- The start fields (R194). -/
def bootStartFields (kind : ResetKind) (m : Image) (straps : Straps) : StartFields where
  kind := kind
  straps := straps
  good := imageGood m
  sums := (imageSum m 0, imageSum m 1)
  found := ((imageGet m 1024).toNat, (imageGet m 1025).toNat)
  changed := changedSettings (readGeneral m)
  digest := configDigest (bootCopy m)
  verdicts := (loadVariants m (imageGood m) (bootCopy m).taping).map (·.verdict)

/-- The result record after a reset: the start fields, the blocks' fields empty (R35, R51, R66, R83, R194). -/
def bootResult (kind : ResetKind) (m : Image) (straps : Straps) : ResultRecord where
  start := bootStartFields kind m straps
  rtu := none
  rcu := none
  ptu := none
  fe := none

/-- Straps with every pin at 0. DESIGN CHOICE, log entry 3. -/
def strapsLow : Straps := ⟨0, 0, 0, 0, false⟩

end Sys2Proof.Machine
end

