-- ==== Sys2Proof/Machine/State.lean ====
section
/-! DEFINITION. The state of the block, the reasons a step can stop, and the state right after reset. -/

namespace Sys2Proof.Machine

open Sys2Proof

/-- The faults of the block: none. The manual gives the block no fault that stops it; what goes wrong shows as a
flag, a reason or a state (chapter 12, R183). Safe: no behaviour is cut off. -/
inductive Fault where
deriving DecidableEq, Repr

/-- The refusals of a step. -/
inductive Refusal where
  /-- Raised by an arm of exec for a command without a meaning; no arm of this model raises it. Safe. -/
  | notModelled (mnemonic : String)
deriving DecidableEq, Repr

/-- The state of the WX-16: the queue of waiting commands, the records of its blocks, the result record, and the
record of its outputs. -/
structure State where
  /-- The commands waiting, first in, first out. -/
  pending : List Instr
  vc : VC
  rtu : RTU
  rcu : RCU
  ptu : PTU
  fe : FE
  lc : LC
  peers : List PeerEntry
  ru : RU
  pc : PC
  scu : SCU
  iiu : IIU
  cp : CP
  ss : SS
  result : ResultRecord
  out : Outputs
deriving DecidableEq, Repr

/-- The state right after a power-on reset of a station with the image as shipped (DESIGN CHOICE, log entry 2), every strap at 0
(DESIGN CHOICE, log entry 3) and every input at its start level (DESIGN CHOICE, log entry 4), an instant after step 6 of R192. -/
def State.reset : State where
  pending := []
  vc := VC.reset
  rtu := RTU.reset 0#32
  rcu := RCU.reset
  ptu := PTU.reset
  fe := bootFE []
  lc := LC.reset (bootCopy []).announce
  peers := []
  ru := RU.reset 0
  pc := PC.reset
  scu := SCU.reset
  iiu := IIU.powerOn
  cp := bootCP
  ss := bootSS [] strapsLow
  result := bootResult .powerOn [] strapsLow
  out := ⟨[], [], []⟩

end Sys2Proof.Machine
end

