-- ==== Sys2Proof/Machine/Ops.lean ====
section
/-! DEFINITION. The named operations over the state that every family shares: changing one block's record, latching
a flag, giving an order, answering the host, queueing a frame, moving the station state, changing the ceiling
record. -/

namespace Sys2Proof.Machine

open Sys2Proof

/-! ## One block's record changed -/

/-- The state with its `vc` changed. -/
def State.onVC (s : State) (f : VC → VC) : State := { s with vc := f s.vc }

/-- The state with its `rtu` changed. -/
def State.onRTU (s : State) (f : RTU → RTU) : State := { s with rtu := f s.rtu }

/-- The state with its `rcu` changed. -/
def State.onRCU (s : State) (f : RCU → RCU) : State := { s with rcu := f s.rcu }

/-- The state with its `ptu` changed. -/
def State.onPTU (s : State) (f : PTU → PTU) : State := { s with ptu := f s.ptu }

/-- The state with its `fe` changed. -/
def State.onFE (s : State) (f : FE → FE) : State := { s with fe := f s.fe }

/-- The state with its `lc` changed. -/
def State.onLC (s : State) (f : LC → LC) : State := { s with lc := f s.lc }

/-- The state with its `peers` changed. -/
def State.onPeers (s : State) (f : List PeerEntry → List PeerEntry) : State := { s with peers := f s.peers }

/-- The state with its `ru` changed. -/
def State.onRU (s : State) (f : RU → RU) : State := { s with ru := f s.ru }

/-- The state with its `pc` changed. -/
def State.onPC (s : State) (f : PC → PC) : State := { s with pc := f s.pc }

/-- The state with its `scu` changed. -/
def State.onSCU (s : State) (f : SCU → SCU) : State := { s with scu := f s.scu }

/-- The state with its `iiu` changed. -/
def State.onIIU (s : State) (f : IIU → IIU) : State := { s with iiu := f s.iiu }

/-- The state with its `cp` changed. -/
def State.onCP (s : State) (f : CP → CP) : State := { s with cp := f s.cp }

/-- The state with its `ss` changed. -/
def State.onSS (s : State) (f : SS → SS) : State := { s with ss := f s.ss }

/-- The state with its `result` changed. -/
def State.onResult (s : State) (f : ResultRecord → ResultRecord) : State := { s with result := f s.result }

/-- The state with its `out` changed. -/
def State.onOut (s : State) (f : Outputs → Outputs) : State := { s with out := f s.out }

/-! ## Outputs and notices -/

/-- A flag latched in the status word (R183). -/
def latch (f : Flag) (s : State) : State := s.onCP fun c => { c with status := latchWord c.status f }

/-- An order given on the order lines. -/
def order (o : Order) (s : State) : State := s.onOut fun t => { t with orders := t.orders ++ [o] }

/-- A response sent on the cell port, whole and at once (R181). DESIGN CHOICE, log entry 44. -/
def respond (r : Response) (s : State) : State := s.onOut fun t => { t with responses := t.responses ++ [r] }

/-- One more, saturating. -/
def satInc (top n : Nat) : Nat := min top (n + 1)

/-! ## What the rules read -/

/-- The start copy, from which every rule that names a setting reads it (R187). -/
def conf (s : State) : Settings := s.ss.startCopy

/-- The station number. -/
def ownStation (s : State) : Fin 16 := s.ss.straps.station

/-- The debounced level of an input (R171). -/
def level (s : State) (i : Input) : Bool := (s.iiu.line i).level

/-- The state whose rules the RU and the PC follow: in ESTOP the return state (R17, R118). -/
def effState (s : State) : StationState :=
  match s.vc.state, s.vc.returnState with
  | .estop, some r => r
  | st, _ => st

/-- The link status code of a state, absent for the two that are not sent (R1). -/
def linkCode : StationState → Option Nat
  | .start => none
  | .silenced => none
  | .idle => some 1
  | .invalid => some 2
  | .measuring => some 3
  | .unmeasured => some 4
  | .reconciling => some 5
  | .ready => some 6
  | .cutting => some 7
  | .finished => some 8
  | .aborting => some 9
  | .aborted => some 10
  | .condemned => some 11
  | .passive => some 12
  | .excluded => some 13
  | .estop => some 14

/-- The state that a link status code names (R1). -/
def stateOfCode : Nat → Option StationState
  | 1 => some .idle
  | 2 => some .invalid
  | 3 => some .measuring
  | 4 => some .unmeasured
  | 5 => some .reconciling
  | 6 => some .ready
  | 7 => some .cutting
  | 8 => some .finished
  | 9 => some .aborting
  | 10 => some .aborted
  | 11 => some .condemned
  | 12 => some .passive
  | 13 => some .excluded
  | 14 => some .estop
  | _ => none

/-- The pass at the head of the queue while it is ACTIVE (R138). -/
def activePass (s : State) : Option Pass :=
  match s.pc.queue with
  | p :: _ => if p.state = .active then some p else none
  | [] => none

/-- Whether a feed hold is in effect (R137, R153). -/
def HoldCauses.any (h : HoldCauses) : Bool := h.host || h.watchdog || h.guard_

/-! ## Frames and the station state -/

/-- A request to queue a frame: discarded in START and in SILENCED (R101). -/
def queueFrame (f : QFrame) (s : State) : State :=
  if s.vc.state = .start ∨ s.lc.silenced = true then s else s.onLC (lcHand f)

/-- IDLE and INVALID, the states an unlock lives in (R189). -/
def isOpenState (st : StationState) : Bool := st == .idle || st == .invalid

/-- The effects of leaving CUTTING that every exit shares: the sub-state is absent (R2), the hold causes are
emptied (R153), the two wait timers of the RU are stopped (R135). -/
def leaveCutting (s : State) : State :=
  ((s.onVC fun v => { v with sub := none }).onPC fun p => { p with holds := HoldCauses.empty }).onRU fun r =>
    { r with violationTimer := none, violationLatched := false, peerWaitTimer := none, peerWaitLatched := false }

/-- The station moved to a state: leaving CUTTING and leaving IDLE or INVALID take their effects, and a change of
the link status code queues a STATE (R1, R189). -/
def setStation (st : StationState) (s : State) : State :=
  let old := s.vc.state
  let s1 := s.onVC fun v => { v with state := st }
  let s2 := if old = .cutting ∧ st ≠ .cutting then leaveCutting s1 else s1
  let s3 := if isOpenState old && !isOpenState st then s2.onCP (fun c => { c with unlock := .closed }) else s2
  if linkCode st ≠ linkCode old ∧ (linkCode st).isSome then queueFrame .state s3 else s3

/-- A transition of the RU, the PC or the FE: in ESTOP it is applied to the return state (R17). -/
def setEffState (st : StationState) (s : State) : State :=
  if s.vc.state = .estop then s.onVC fun v => { v with returnState := some st } else setStation st s

/-! ## The ceiling record -/

/-- The next sequence: from 255 to 1, never to 0 (R76, R92). -/
def nextSeq (n : Nat) : Nat := n % 255 + 1

/-- The CEILING that the record stands for (R90). -/
def ceilingFrame (s : State) : QFrame := .ceiling s.fe.ceil.seq s.fe.ceil.status s.fe.ceil.value

/-- A change of the ceiling record: status and values taken, sequence advanced, announced in visit set, CEILING
queued (R76). The condemning values are cleared with PASSIVE and CLEARED (R80). -/
def changeCeiling (st : CeilStatus) (value : Option (LR Int)) (s : State) : State :=
  let s1 := s.onFE fun f =>
    { f with ceil :=
        { status := st, value := value, seq := nextSeq f.ceil.seq, announced := true,
          condemning := if st = .passive ∨ st = .cleared then none else f.ceil.condemning } }
  queueFrame (ceilingFrame s1) s1

/-- What became of an offer to the ceiling record. -/
inductive OfferResult where
  | same | changed | condemned
deriving DecidableEq, Repr

/-- Both values at or above the condemning limit Z. -/
def aboveLimit (s : State) (v : LR Int) : Bool := v.all fun x => decide (((conf s).condemn : Int) ≤ x)

/-- The values taken written, or kept as condemning values (R77, R78). -/
def takeCeiling (taken : LR Int) (fresh : Bool) (s : State) : State × OfferResult :=
  if aboveLimit s taken then
    if fresh ∨ s.fe.ceil.status ≠ .normal ∨ s.fe.ceil.value ≠ some taken then
      (changeCeiling .normal (some taken) s, .changed)
    else (s, .same)
  else
    (s.onFE fun f => { f with ceil := { f.ceil with condemning := some taken } }, .condemned)

/-- The Pass Controller's offer: the minimum of the offer and the ceiling held, ignored outside NORMAL (R78). -/
def offerCeiling (offer : LR Int) (s : State) : State × OfferResult :=
  match s.fe.ceil.status, s.fe.ceil.value with
  | .normal, some held => takeCeiling (LR.zip min offer held) false s
  | _, _ => (s, .same)

end Sys2Proof.Machine
end

