-- ==== Sys2Proof/Machine/Peers.lean ====
section
/-! DEFINITION. The Peer Table: entries, freshness, sequence order, classification and the group view (chapter 7). -/

namespace Sys2Proof.Machine

open Sys2Proof

/-- The wrap-order difference (a − b) modulo 255 (R106). -/
def seqDiff (a b : Nat) : Nat := (((a : Int) - (b : Int)) % 255).toNat

/-- a is newer than b in wrap order (R106). -/
def seqNewer (a b : Nat) : Bool := decide (1 ≤ seqDiff a b) && decide (seqDiff a b ≤ 127)

/-- a is older than b in wrap order (R106). -/
def seqOlder (a b : Nat) : Bool := decide (128 ≤ seqDiff a b)

/-- A new entry (R104). -/
def PeerEntry.new (n : Fin 16) : PeerEntry := ⟨n, none, false, none, none, 0, .fresh⟩

/-- The entry of a station number. -/
def findPeer (n : Fin 16) (t : List PeerEntry) : Option PeerEntry := t.find? fun e => e.station == n

/-- An entry put in its place in station-number order, replacing the one of its number (R102). -/
def putPeer (e : PeerEntry) : List PeerEntry → List PeerEntry
  | [] => [e]
  | h :: t => if h.station < e.station then h :: putPeer e t else if h.station = e.station then e :: t else e :: h :: t

/-- A good frame sets the age to 0, and the freshness to FRESH unless it is RESTARTED (R105). -/
def touchPeer (e : PeerEntry) : PeerEntry :=
  { e with age := 0, freshness := if e.freshness = .restarted then .restarted else .fresh }

/-- The restart found by a STATE with a stored ceiling present: sequence 0, or older than the stored one (R108). -/
def restartFound (e : PeerEntry) (ceilSeq : Nat) : Bool :=
  match e.ceiling with
  | some c => ceilSeq == 0 || seqOlder ceilSeq c.seq
  | none => false

/-- The restart taken (R108). -/
def markRestarted (e : PeerEntry) : PeerEntry :=
  { e with freshness := .restarted, ceiling := none, intent := none, mismatchReported := false }

/-- A STATE taken into its entry by the steps of R107; the digest match is in the fields given (R112). -/
def takeState (p : PeerState) (e : PeerEntry) : PeerEntry :=
  let e1 := touchPeer e
  let e2 := if restartFound e1 p.annCeiling then markRestarted e1 else e1
  let e3 := { e2 with st := some p }
  let e4 := if p.annIntent = 0 then { e3 with intent := none } else e3
  if p.digestMatch then e4 else { e4 with mismatchReported := true }

/-- Whether a STATE latches CONFIG_MISMATCH: the match is no and the entry has not reported it, a restart found by
the same frame having cleared the report (R108, R112). -/
def mismatchLatches (p : PeerState) (e : PeerEntry) : Bool :=
  !p.digestMatch && (restartFound e p.annCeiling || !e.mismatchReported)

/-- A CEILING taken or ignored by sequence order (R109). -/
def takeCeilingFrame (c : StoredCeiling) (e : PeerEntry) : PeerEntry :=
  let e1 := touchPeer e
  if e1.freshness = .restarted then { e1 with ceiling := some c, freshness := .fresh }
  else
    match e1.ceiling with
    | none => { e1 with ceiling := some c }
    | some old => if seqNewer c.seq old.seq then { e1 with ceiling := some c } else e1

/-- An INTENT is taken where none is stored or its sequence is the newer (R110). -/
def intentTaken (i : Intent) (e : PeerEntry) : Bool :=
  match e.intent with
  | none => true
  | some old => seqNewer i.seq old.seq

/-- An INTENT taken or ignored by sequence order (R110). -/
def takeIntentFrame (i : Intent) (e : PeerEntry) : PeerEntry :=
  let e1 := touchPeer e
  if intentTaken i e then { e1 with intent := some i } else e1

/-- The outdated mark of the stored ceiling (R107). -/
def ceilingOutdated (e : PeerEntry) : Bool :=
  match e.st, e.ceiling with
  | some p, some c => decide (p.annCeiling ≠ 0) && seqNewer p.annCeiling c.seq
  | _, _ => false

/-- The outdated mark of the stored intent (R107). -/
def intentOutdated (e : PeerEntry) : Bool :=
  match e.st, e.intent with
  | some p, some i => decide (p.annIntent ≠ 0) && seqNewer p.annIntent i.seq
  | _, _ => false

/-- Why an own-car entry is pending (R113). -/
inductive PendReason where
  | measuring | stale | restarted | digest | noCeiling
deriving DecidableEq, Repr

/-- The class of an own-car entry (R113). -/
inductive PeerClass where
  | notMember
  | pending (why : PendReason)
  | member
deriving DecidableEq, Repr

/-- A class without the reason that is shown for it (R113). -/
inductive ClassName where
  | notMember | pending | member
deriving DecidableEq, Repr

/-- The class, its pending reason left aside (R113). -/
def PeerClass.name : PeerClass → ClassName
  | .notMember => .notMember
  | .pending _ => .pending
  | .member => .member

/-- A class of pending. -/
def PeerClass.isPending : PeerClass → Bool
  | .pending _ => true
  | _ => false

/-- The current ceiling of an entry: stored, NORMAL or PASSIVE, and not outdated (R113). -/
def currentCeiling (e : PeerEntry) : Option (LR Int) :=
  match e.ceiling with
  | some c =>
    if (c.status = .normal ∨ c.status = .passive) ∧ ceilingOutdated e = false then c.value else none
  | none => none

/-- The statuses of a station that is not a member (R113 row 1). -/
def isOutStatus (st : StationState) : Bool := st == .idle || st == .invalid || st == .condemned || st == .excluded

/-- The statuses of a station without a ceiling (R113 row 2). -/
def isMeasureStatus (st : StationState) : Bool := st == .measuring || st == .unmeasured

/-- The class of an own-car entry, by the first row of R113 that applies. -/
def peerClass (p : PeerState) (e : PeerEntry) : PeerClass :=
  if isOutStatus p.status then .notMember
  else if isMeasureStatus p.status then .pending .measuring
  else if e.freshness = .stale then .pending .stale
  else if e.freshness = .restarted then .pending .restarted
  else if p.digestMatch = false then .pending .digest
  else if (currentCeiling e).isNone then .pending .noCeiling
  else .member

/-- One entry of the group view (R114), with the status that R131 asks for. -/
structure ViewEntry where
  station : Fin 16
  bogie : Fin 4
  status : StationState
  cls : PeerClass
  /-- For a member, the stored ceiling. -/
  ceiling : Option (LR Int)
  /-- The stored ceiling, whole: its taking and dropping are reported (R114). -/
  stored : Option StoredCeiling
  /-- The intent offered: stored and not outdated. -/
  intent : Option Intent
deriving DecidableEq, Repr

/-- An entry of the own car as the view shows it; none for one outside the car or unplaced (R113, R114). -/
def viewEntry (ownCar : Fin 16) (e : PeerEntry) : Option ViewEntry :=
  match e.st with
  | some p =>
    if p.car = ownCar then
      let c := peerClass p e
      some
        { station := e.station, bogie := p.bogie, status := p.status, cls := c
          ceiling := if c = .member then currentCeiling e else none
          stored := e.ceiling
          intent := if intentOutdated e then none else e.intent }
    else none
  | none => none

/-- An entry of the own car (R113). -/
def inOwnCar (ownCar : Fin 16) (e : PeerEntry) : Bool := (viewEntry ownCar e).isSome

/-- The group view (R114). -/
def groupView (s : State) : List ViewEntry := s.peers.filterMap (viewEntry s.ss.straps.car)

/-- Whether a same-car entry is pending (R132). -/
def anyPending (v : List ViewEntry) : Bool := v.any fun e => e.cls.isPending

/-- What a report to the RU is made of: a change of any of it is reported (R114). -/
structure ReportKey where
  station : Fin 16
  cls : ClassName
  ceiling : Option (LR Int)
  stored : Option StoredCeiling
  intent : Option Intent
deriving DecidableEq, Repr

/-- The reported part of a view entry (R114). DEDUCED, log entry 31. -/
def reportKey (e : ViewEntry) : ReportKey := ⟨e.station, e.cls.name, e.ceiling, e.stored, e.intent⟩

/-- The inputs of a re-plan that a view holds: each member with its bogie and its ceilings (R125). -/
def planInputs (v : List ViewEntry) : List (Fin 16 × Fin 4 × Option (LR Int)) :=
  v.filterMap fun e => if e.cls = .member then some (e.station, e.bogie, e.ceiling) else none

/-- Whether an entry in both views has changed class; a pending entry with another reason has not (R113, R125). -/
def classChanged (before after : List ViewEntry) : Bool :=
  after.any fun e => before.any fun o => o.station == e.station && decide (o.cls.name ≠ e.cls.name)

/-- Whether a report changes an input of the plan (R125). DEDUCED, log entry 32. -/
def inputsChanged (before after : List ViewEntry) : Bool :=
  decide (planInputs before ≠ planInputs after) || classChanged before after

/-- The statuses that fail the group-busy check (R16). -/
def isBusyStatus (st : StationState) : Bool :=
  isMeasureStatus st || st == .reconciling || st == .ready || st == .cutting || st == .aborting

/-- The group-busy check: a same-car entry busy, or stale (R16). -/
def groupBusy (s : State) : Bool :=
  s.peers.any fun e =>
    match e.st with
    | some p => decide (p.car = s.ss.straps.car) && (isBusyStatus p.status || e.freshness == .stale)
    | none => false

end Sys2Proof.Machine
end

