-- ==== Sys2Proof/Machine/Slots.lean ====
section
/-! DEFINITION. The Slot Claim Unit: the claim list and the reservation (chapter 10). -/

namespace Sys2Proof.Machine

open Sys2Proof

/-- The number of the head pass while it is ROUGH (R144, R163). -/
def headRough (s : State) : Option Nat :=
  match s.pc.queue with
  | p :: _ => if p.kind = .rough then some p.number else none
  | [] => none

/-- The count of the list exceeds K_slots (R160, R169). -/
def overSubscribed (s : State) : Bool := decide ((conf s).slots < s.scu.claims.length)

/-- The list without one station's entry. -/
def withoutClaim (n : Fin 16) (cs : List Claim) : List Claim := cs.filter fun c => decide (c.station ≠ n)

/-- The station's own entry removed from the list. -/
def removeOwnClaim (s : State) : State :=
  s.onSCU fun u => { u with claims := withoutClaim (ownStation s) u.claims }

/-- The test of R163: with the ask standing and no reservation, arm below K_slots or wait. While a CLAIM given up on the
line is still queued none is armed, so that the queue never holds a second one; the test is made again at the LC's
answer (R96). DEDUCED, log entry 22. -/
def slotTest (s : State) : State :=
  if s.scu.ask ∧ (s.scu.slot = .none ∨ s.scu.slot = .waiting) then
    if s.scu.claims.length < (conf s).slots then
      if claimQueued s.lc then s else
      let n := (headRough s).getD 1
      queueFrame (.claim n) (s.onSCU fun u => { u with slot := .armed, claimPass := some n })
    else s.onSCU fun u => { u with slot := .waiting }
  else s

/-- The Pass Controller's ask (R144, R163); an ask in BACKOFF waits for the timer. -/
def slotAsk (s : State) : State :=
  if s.scu.ask then s else slotTest (s.onSCU fun u => { u with ask := true })

/-- The backoff taken: (station number + 1) × 20 ms (R160, R165, R168). -/
def toBackoff (s : State) : State :=
  s.onSCU fun u =>
    { u with slot := .backoff, claimPass := none, backoff := some (((ownStation s).val + 1) * Config.backoffStep) }

/-- The station gives up its slot or its reservation (R168): what is given up depends on the slot state; the slot
state ends at NONE, the ask with it. DEDUCED, log entry 22. -/
def releaseClaim (s : State) : State :=
  let done := fun t : State =>
    t.onSCU fun u => { u with slot := .none, ask := false, claimPass := none, backoff := none }
  match s.scu.slot with
  | .held => queueFrame (.release (s.scu.claimPass.getD 1)) (done (removeOwnClaim s))
  | .armed =>
    let r := lcWithdraw .givenUp s.lc
    let s1 := s.onLC fun _ => r.1
    if r.2 = .sent ∧ s.scu.claims.any (fun c => c.station == ownStation s) then
      queueFrame (.release (s.scu.claimPass.getD 1)) (done (removeOwnClaim s1))
    else done s1
  | _ => done s

/-- The SCU told of the head pass's kind: a claim or reservation is kept while it is ROUGH and given up when it is
FINISH or the queue is empty (R158, R167, R168). -/
def slotHead (s : State) : State := if (headRough s).isSome then s else releaseClaim s

/-- A peer's entry removed; in WAITING every removal repeats the test (R161 to R163). -/
def removePeerClaim (n : Fin 16) (s : State) : State :=
  if s.scu.claims.any (fun c => c.station == n) then
    let s1 := s.onSCU fun u => { u with claims := withoutClaim n u.claims }
    if s1.scu.slot = .waiting then slotTest s1 else s1
  else s

/-- A peer's STATE with slot-held set appends an entry without a pass number (R162). -/
def appendHeldClaim (n : Fin 16) (s : State) : State :=
  if s.scu.claims.any (fun c => c.station == n) then s
  else s.onSCU fun u => { u with claims := u.claims ++ [⟨n, none⟩] }

/-- The reservation lost to another station's CLAIM (R165). A loss whose withdrawal already waits is not taken
again. -/
def reservationLost (s : State) : State :=
  if s.scu.slot = .armed ∧ s.lc.queue.any (fun e => isClaimEntry e && e.withdraw == some .lost) = false then
    let r := lcWithdraw .lost s.lc
    let s1 := (s.onLC fun _ => r.1).onSCU fun u => { u with lost := satInc 255 u.lost }
    if r.2 = .withdrawn then toBackoff s1 else s1
  else s

/-- A peer's CLAIM entered in the list, which is updated before the reservation is looked at (R161). -/
def claimHeard (n : Fin 16) (pass : Nat) (s : State) : State :=
  let cs := s.scu.claims
  let cs' := if cs.any (fun c => c.station == n) then
      cs.map fun c => if c.station = n then { c with pass := some pass } else c
    else cs ++ [⟨n, some pass⟩]
  reservationLost (s.onSCU fun u => { u with claims := cs' })

/-- The own CLAIM reported as sent (R164): the own entry joins at the tail; the list as it then stands keeps the
claim or makes the station yield (R168). A CLAIM whose reservation was given up is released at once (R96, R168), and an
ask that has come since is tested behind that RELEASE (R163). DEDUCED, log entry 22. -/
def ownClaimSent (pass : Nat) (givenUp : Bool) (s : State) : State :=
  let others := withoutClaim (ownStation s) s.scu.claims
  if givenUp ∨ s.scu.slot ≠ .armed then
    slotTest (queueFrame (.release pass) (s.onSCU fun u => { u with claims := others }))
  else if others.length < (conf s).slots then
    s.onSCU fun u => { u with claims := others ++ [⟨ownStation s, some pass⟩], slot := .held, ask := false }
  else
    queueFrame (.release pass)
      ((toBackoff (s.onSCU fun u => { u with claims := others })).onSCU fun u => { u with yields := satInc 255 u.yields })

end Sys2Proof.Machine
end

