-- ==== Sys2Proof/Machine/Plan.lean ====
section
/-! DEFINITION. The Reconciliation Unit's computation (chapter 8) and the Pass Controller's builds (section 9.2),
with the condemnation they may find (R13). -/

namespace Sys2Proof.Machine

open Sys2Proof

/-! ## Minima, cap and targets -/

/-- The least of both wheels over several stations. -/
def leastOf (own : LR Int) (others : List (LR Int)) : Int :=
  others.foldl (fun a p => min a (min p.l p.r)) (min own.l own.r)

/-- The ceilings of the members that pass a test. -/
def memberCeilings (v : List ViewEntry) (p : ViewEntry → Bool) : List (LR Int) :=
  v.filterMap fun e => if e.cls = .member ∧ p e = true then e.ceiling else none

/-- Minima, terms, cap and targets from the own ceilings and the view (R120, R121). -/
def computePlan (c : Settings) (bogie : Fin 4) (own : LR Int) (v : List ViewEntry) : Plan :=
  let ma := leastOf own []
  let mb := leastOf own (memberCeilings v fun e => e.bogie == bogie)
  let mc := leastOf own (memberCeilings v fun _ => true)
  let ta := ma + (c.tolAxle : Int)
  let tb := mb + (c.tolBogie : Int)
  let tc := mc + (c.tolCar : Int)
  let k := min ta (min tb tc)
  { minAxle := ma, minBogie := mb, minCar := mc, termAxle := ta, termBogie := tb, termCar := tc, cap := k
    target := own.map fun x => min x k }

/-- The own ceilings the RU reads: only from a NORMAL record (R119; R80). -/
def ownCeilings (s : State) : Option (LR Int) := if s.fe.ceil.status = .normal then s.fe.ceil.value else none

/-- The planning states (R118). -/
def isPlanning (st : StationState) : Bool := st == .reconciling || st == .ready || st == .cutting || st == .finished

/-- The RU plans: in a planning state, or in ESTOP with one as return state (R118). -/
def planning (s : State) : Bool := isPlanning (effState s)

/-! ## The intent and the plan -/

/-- A new own intent on the current targets and ceiling sequence, handed to the LC (R123). -/
def formIntent (target : LR Int) (s : State) : State :=
  let q := nextSeq s.ru.intentSeq
  let i : Intent := ⟨q, s.fe.ceil.seq, target⟩
  queueFrame (.intent i.seq i.basis i.target) (s.onRU fun r => { r with intentSeq := q, intent := some i })

/-- A plan taken: counted if it changes the targets after the first (R127), and a new intent formed if it is the
first, changes a target, or rests on a new ceiling sequence (R123). Also says whether the targets changed. -/
def takePlan (first : Bool) (p : Plan) (s : State) : State × Bool :=
  let changed := match s.ru.plan with
    | some q => decide (q.target ≠ p.target)
    | none => true
  let moved := match s.ru.intent with
    | some i => decide (i.basis ≠ s.fe.ceil.seq)
    | none => true
  let s1 := s.onRU fun r =>
    { r with plan := some p, replanCount := if !first && changed then satInc 255 r.replanCount else r.replanCount }
  (if first || changed || moved then formIntent p.target s1 else s1, changed)

/-- A re-plan with a plan formed: computed afresh with no entry pending; with one pending, owed, and a target above
a fallen own ceiling lowered to it (R125). -/
def replan (s : State) : State × Bool :=
  match s.ru.plan, ownCeilings s with
  | some p, some own =>
    if anyPending (groupView s) then
      takePlan false { p with target := LR.zip min p.target own } (s.onRU fun r => { r with replanOwed := true })
    else
      takePlan false (computePlan (conf s) s.ss.straps.bogie own (groupView s))
        (s.onRU fun r => { r with replanOwed := false })
  | _, _ => (s, false)

/-- The plan dropped (R128): everything but the counter and the replan count at its reset value, no frame sent. -/
def dropPlan (s : State) : State :=
  s.onRU fun r => { RU.reset r.intentSeq with replanCount := r.replanCount }

/-! ## Agreement -/

/-- A pair of targets out of tolerance: beyond t_c, or beyond t_b in the own bogie (R130). -/
def pairOut (c : Settings) (sameBogie : Bool) (a b : Int) : Bool :=
  decide ((c.tolCar : Int) < |a - b|) || (sameBogie && decide ((c.tolBogie : Int) < |a - b|))

/-- A member in ABORTING or ABORTED (R131). -/
def isAbortStatus (st : StationState) : Bool := st == .aborting || st == .aborted

/-- What the agreement check reads of a member beside its ceiling and its intent: its number, its bogie, and whether its
status is ABORTING or ABORTED (R130, R131). DEDUCED, log entry 31. -/
def checkKey (e : ViewEntry) : Option (Fin 16 × Fin 4 × Bool) :=
  if e.cls = .member then some (e.station, e.bogie, isAbortStatus e.status) else none

/-- A member is awaited: it offers no intent, or one on an older basis (R131). -/
def isAwaited (e : ViewEntry) : Bool :=
  e.cls == .member && !isAbortStatus e.status &&
    (match e.intent, e.stored with
     | some i, some c => seqOlder i.basis c.seq
     | _, _ => true)

/-- A member whose intent is compared: neither awaited nor aborted, with an intent (R130, R131). -/
def comparedIntent (e : ViewEntry) : Option (LR Int) :=
  if e.cls = .member ∧ isAbortStatus e.status = false ∧ isAwaited e = false then e.intent.map (·.target) else none

/-- Any of the four pairs with a member out of tolerance (R130). -/
def memberOut (c : Settings) (bogie : Fin 4) (own : LR Int) (e : ViewEntry) : Bool :=
  match comparedIntent e with
  | some t =>
    let b := e.bogie == bogie
    pairOut c b own.l t.l || pairOut c b own.l t.r || pairOut c b own.r t.l || pairOut c b own.r t.r
  | none => false

/-- The agreement findings re-evaluated, in READY and CUTTING and in ESTOP with either as return state (R132). In
FINISHED, where R132 does not keep them current, they hold their last values: DESIGN CHOICE, log entry 41. -/
def agree (s : State) : State :=
  if effState s = .ready ∨ effState s = .cutting then
    let v := groupView s
    let out := match s.ru.plan with
      | some p => v.any (memberOut (conf s) s.ss.straps.bogie p.target)
      | none => false
    s.onRU fun r => { r with violation := out, awaited := (v.filter isAwaited).map (·.station) }
  else s

/-- The intent agreement holds (R132). -/
def agreementHolds (s : State) : Bool := !s.ru.violation && s.ru.awaited.isEmpty

/-! ## Condemnation -/

/-- The queue discarded; the queue finish then equals the surface, where present (R137). DEDUCED, log entry 21. -/
def discardQueue (s : State) : State := s.onPC fun p => { p with queue := [], queueFinish := p.surface }

/-- Entry to CONDEMNED and its effects (R13, R80, R156). -/
def enterCondemned (s : State) : State :=
  let wasCutting := s.vc.state = .cutting
  let s1 := (discardQueue s).onPC fun p => { p with holds := HoldCauses.empty, timer := .stopped }
  let s2 := if wasCutting then order .stop s1 else s1
  let s3 := dropPlan (releaseClaim s2)
  let s4 := changeCeiling .condemned none s3
  setStation .condemned (latch .condemned (s4.onVC fun v => { v with condPending := false }))

/-- A condemnation found: at once, or pending, by the state in which it is found (R13). -/
def condemnationFound (s : State) : State :=
  let wait := s.onVC fun v => { v with condPending := true }
  match s.vc.state with
  | .reconciling => enterCondemned s
  | .ready => enterCondemned s
  | .finished => enterCondemned s
  | .aborted => enterCondemned s
  | .cutting => if (activePass s).isSome then wait else enterCondemned s
  | .aborting => wait
  | .estop => wait
  | .silenced => wait
  | _ => s

/-! ## The build -/

/-- The total depth of a wheel (R139). -/
def totalDepth (finishDone : Bool) (minRecut : Nat) (surface target : Int) : Nat :=
  let h := ((surface - target) / 2).toNat
  if finishDone then (if h = 0 then 0 else max h minRecut) else h

/-- The depth of a wheel in the i-th ROUGH pass, counted from 0: evenly split, the first ones 1 µm more (R140). -/
def roughDepth (r n i : Nat) : Nat := r / n + (if i < r % n then 1 else 0)

/-- A queued pass. -/
def queuedPass (number : Nat) (kind : PassKind) (depth : LR Nat) (before : LR Int) : Pass :=
  { number := number, kind := kind, depth := depth
    expected := LR.zip (fun b (d : Nat) => b - 2 * (d : Int)) before depth
    state := .queued, reason := .none, slideDone := .both false }

/-- The queue from the i-th of n ROUGH passes on, with the FINISH pass last (R140). `left` ROUGH passes remain. -/
def splitPasses (r fin : LR Nat) (n base : Nat) : Nat → Nat → LR Int → List Pass
  | 0, i, before => [queuedPass (base + i + 1) .finish fin before]
  | left + 1, i, before =>
    let p := queuedPass (base + i + 1) .rough (r.map fun x => roughDepth x n i) before
    p :: splitPasses r fin n base left (i + 1) p.expected

/-- The number of ROUGH passes (R140): ceil of the greater rough depth over p_r. -/
def roughCount (c : Settings) (r : LR Nat) : Nat := (max r.l r.r + c.rough - 1) / c.rough

/-- What a build comes to (R141, R142). -/
inductive BuildResult where
  | notMade
  | empty
  | deep (rough : Nat)
  | made (queue : List Pass) (finish : LR Int)
deriving DecidableEq, Repr

/-- A build from surfaces, finish done and targets (R139 to R141). -/
def buildFrom (c : Settings) (finishDone inCutting : Bool) (passesDone : Nat) (surface target : LR Int) : BuildResult :=
  let t := LR.zip (totalDepth finishDone c.minRecut) surface target
  let fin := t.map (min c.finish)
  let r := LR.zip (· - ·) t fin
  let n := roughCount c r
  let base := if inCutting then passesDone else 0
  if t.l = 0 ∧ t.r = 0 then .empty
  else if 8 < base + n + 1 then .deep n
  else .made (splitPasses r fin n base n 0 surface) (LR.zip (fun x (d : Nat) => x - 2 * (d : Int)) surface t)

/-- The build of the station: not made with surfaces absent or uncertain, or without targets (R142). -/
def buildResult (inCutting : Bool) (s : State) : BuildResult :=
  match s.pc.surface, s.ru.plan with
  | some sf, some p =>
    if s.pc.uncertain then .notMade
    else buildFrom (conf s) s.pc.finishDone inCutting s.pc.passesDone sf p.target
  | _, _ => .notMade

/-- The record of a build outside CUTTING: numbered from 1, passes done at 0 (R138, R141, R142). -/
def storeOutside (b : BuildResult) (s : State) : State :=
  match b with
  | .notMade => s
  | .empty => (discardQueue s).onPC fun p => { p with planDeep := none, passesDone := 0 }
  | .deep n => s.onPC fun p => { p with queue := [], queueFinish := none, planDeep := some n, passesDone := 0 }
  | .made q f => s.onPC fun p => { p with queue := q, queueFinish := some f, planDeep := none, passesDone := 0 }

/-- The station leaves CUTTING for FINISHED (R142, R149). -/
def enterFinished (s : State) : State := setStation .finished (releaseClaim (order .stop (discardQueue s)))

/-- A DEEP build in CUTTING moves the station to READY, and a build outside CUTTING is made at once (R11, R141). -/
def deepToReady (s : State) : State :=
  let s1 := latch .recutRequired (setStation .ready (releaseClaim (order .stop s)))
  storeOutside (buildResult false s1) s1

/-- A build made and taken in the state the station (in ESTOP, its return state) is in (R141, R142, R156). -/
def applyBuild (s : State) : State :=
  if s.vc.state = .cutting then
    match buildResult true s with
    | .notMade => s
    | .empty => enterFinished (s.onPC fun p => { p with planDeep := none })
    | .deep n => deepToReady (s.onPC fun p => { p with queue := [], queueFinish := none, planDeep := some n })
    | .made q f => slotHead (s.onPC fun p => { p with queue := q, queueFinish := some f, planDeep := none })
  else
    let b := buildResult false s
    let s1 := storeOutside b s
    if effState s = .finished ∧ b ≠ .notMade ∧ b ≠ .empty then latch .recutRequired (setEffState .ready s1)
    else if effState s = .ready ∧ b = .empty then setEffState .finished s1
    else s1

/-- The offer a recut thinner than m_r makes: the raised wheel s_w − 2m_r, the other its present ceiling (R143). -/
def raiseOffer (s : State) : Option (LR Int) :=
  match s.pc.surface, s.ru.plan, s.fe.ceil.value with
  | some sf, some p, some held =>
    if s.pc.finishDone = true ∧ s.pc.uncertain = false then
      let mr := (conf s).minRecut
      let thin := fun (x f : Int) => decide (0 < (x - f) / 2) && decide ((x - f) / 2 < (mr : Int))
      let offer := fun (x f h : Int) => if thin x f then x - 2 * (mr : Int) else h
      if thin sf.l p.target.l || thin sf.r p.target.r then
        some ⟨offer sf.l p.target.l held.l, offer sf.r p.target.r held.r⟩
      else none
    else none
  | _, _, _ => none

/-- The build with its raises: an offer that lowers the ceiling re-plans and builds again on the targets handed
back (R143). Each wheel is raised at most once on given surfaces, so `fuel` 3 does not run out. -/
def build : Nat → State → State
  | 0, s => applyBuild s
  | fuel + 1, s =>
    match raiseOffer s with
    | none => applyBuild s
    | some offer =>
      match offerCeiling offer s with
      | (s1, .condemned) => condemnationFound s1
      | (s1, .same) => applyBuild s1
      | (s1, .changed) => build fuel (replan s1).1

/-- The fuel of `build`. -/
def buildFuel : Nat := 3

/-- A target below its wheel's surface (R126, R142). -/
def targetBelowSurface (s : State) : Bool :=
  match s.pc.surface, s.ru.plan with
  | some sf, some p => decide (p.target.l < sf.l) || decide (p.target.r < sf.r)
  | _, _ => false

/-- The Pass Controller's part when the targets have changed, by the state (R126, R142, R156). -/
def targetsChanged (s : State) : State :=
  match effState s with
  | .ready => build buildFuel s
  | .cutting =>
    if s.vc.state = .cutting then
      if (activePass s).isSome then s.onPC fun p => { p with rebuildOwed := true } else build buildFuel s
    else s
  | .finished => if targetBelowSurface s then build buildFuel s else s
  | _ => s

/-- The targets handed on where a computation changed them (R124). -/
def handTargets (r : State × Bool) : State := if r.2 then targetsChanged r.1 else r.1

/-- The first plan after a measurement, formed when its three conditions hold (R119, R124, R142): the measured
diameters become the surfaces, the queue is built, and the station (in ESTOP, the return state) becomes READY. -/
def firstPlan (s : State) : State :=
  match effState s, ownCeilings s with
  | .reconciling, some own =>
    if anyPending (groupView s) then s
    else
      let p := computePlan (conf s) s.ss.straps.bogie own (groupView s)
      let s1 := (takePlan true p (s.onRU fun r => { r with replanOwed := false })).1
      let s2 := s1.onPC fun c =>
        { c with surface := s.fe.fit.diameter, uncertain := false, finishDone := false, chosen := s.fe.fit.chosen }
      agree (setEffState .ready (storeOutside (buildResult false s2) s2))
  | _, _ => s

/-- The RU's answer to a change of the own ceiling record (R79, R119, R125). -/
def ownCeilingChanged (s : State) : State :=
  if planning s then
    if s.ru.plan.isSome then agree (handTargets (replan s)) else firstPlan s
  else s

end Sys2Proof.Machine
end

