-- ==== Sys2Proof/Machine/Passes.lean ====
section
/-! DEFINITION. The Pass Controller's passes: start conditions, start, completion, abort, holds (sections 9.3 to 9.6),
with the cut sub-state (R10) and the RU's wait timers (R133 to R135) that follow from them. -/

namespace Sys2Proof.Machine

open Sys2Proof

/-! ## Start and sub-state -/

/-- The start conditions other than the claim, a feed hold, an ACTIVE pass and the station state (R144). -/
def groupReady (s : State) : Bool :=
  level s .clamped && level s .guardClosed && !level s .estop && !anyPending (groupView s) && agreementHolds s

/-- A slide is ordered in a pass when its depth there is above 0 (R138, R145). -/
def ordered (p : Pass) (w : Wheel) : Bool := decide (0 < p.depth.get w)

/-- The PASS order of a slide, where it is due: ordered, and not yet DONE (R145, R154). -/
def passOrder (p : Pass) (w : Wheel) (s : State) : State :=
  if ordered p w && !p.slideDone.get w then order (.pass w (p.depth.get w) s.pc.chosen s.pc.feed) s else s

/-- The head pass replaced. -/
def setHead (p : Pass) (s : State) : State := s.onPC fun c => { c with queue := p :: c.queue.tail }

/-- The start of the head pass, as one step (R145). CUT_SPEED recorded first, then PASS to L before R: DESIGN CHOICE, log
entry 39. -/
def startPass (p : Pass) (s : State) : State :=
  let p1 := { p with state := PassState.active }
  let s1 := passOrder p1 .r (passOrder p1 .l (order .cutSpeed s))
  (setHead p1 s1).onPC fun c => { c with timer := .running ((conf s).passTime * Config.sec) }

/-- The start conditions taken: the head pass starts, or asks for the slot it lacks (R144). -/
def tryStart (s : State) : State :=
  match s.pc.queue with
  | p :: _ =>
    if s.vc.state = .cutting ∧ (activePass s).isNone ∧ s.pc.holds.any = false ∧ groupReady s = true then
      if p.kind = .finish ∨ s.scu.slot = .held then startPass p s else slotAsk s
    else s
  | [] => s

/-- The cut sub-state (R10). -/
def cutSub (s : State) : Option CutSub :=
  if s.vc.state = .cutting then
    if s.pc.holds.any then some .hold
    else if (activePass s).isSome then some .pass
    else if groupReady s then some .waitSlot
    else some .waitGroup
  else none

/-- A wait timer of the RU: runs from 0 while its condition holds (R133, R134). -/
def waitTimer (on : Bool) (t : Option Nat) : Option Nat := if on then some (t.getD 0) else none

/-- The two wait timers follow the sub-state and the findings (R133 to R135). -/
def waitTimers (s : State) : State :=
  let wg := s.vc.sub == some .waitGroup
  let vio := wg && s.ru.violation
  let peer := wg && (anyPending (groupView s) || !s.ru.awaited.isEmpty)
  s.onRU fun r =>
    { r with
      violationTimer := waitTimer vio r.violationTimer, violationLatched := vio && r.violationLatched
      peerWaitTimer := waitTimer peer r.peerWaitTimer, peerWaitLatched := peer && r.peerWaitLatched }

/-- What follows from a change of any input of R10 and R144: the head pass started where its conditions hold, the
sub-state derived, the wait timers brought in step. -/
def settle (s : State) : State :=
  let s1 := tryStart s
  waitTimers (s1.onVC fun v => { v with sub := cutSub s1 })

/-! ## Holds -/

/-- The causes of a feed hold (R153). -/
inductive HoldCause where
  | host | watchdog | guard_
deriving DecidableEq, Repr

/-- A cause in the set. -/
def HoldCauses.add (h : HoldCauses) : HoldCause → HoldCauses
  | .host => { h with host := true }
  | .watchdog => { h with watchdog := true }
  | .guard_ => { h with guard_ := true }

/-- The pass timer paused, and resumed at the time it paused with (R150). -/
def PassTimer.pause : PassTimer → PassTimer
  | .running t => .paused t
  | t => t

def PassTimer.resume : PassTimer → PassTimer
  | .paused t => .running t
  | t => t

/-- HOLD to an ordered slide that has not returned DONE (R153). -/
def holdOrder (p : Pass) (w : Wheel) (s : State) : State :=
  if ordered p w && !p.slideDone.get w then order (.holdSlide w) s else s

/-- RATE to an ordered slide that has not returned DONE (R155). -/
def rateOrder (p : Pass) (w : Wheel) (s : State) : State :=
  if ordered p w && !p.slideDone.get w then order (.rate w s.pc.feed) s else s

/-- A cause added to the set of hold causes: from an empty set, with a pass ACTIVE, the slides get HOLD and the
pass timer pauses (R153, R175). L before R: DESIGN CHOICE, log entry 39. -/
def addHold (c : HoldCause) (s : State) : State :=
  let first := !s.pc.holds.any
  let s1 := s.onPC fun p => { p with holds := p.holds.add c }
  match activePass s with
  | some p =>
    if first then (holdOrder p .r (holdOrder p .l s1)).onPC fun c => { c with timer := c.timer.pause } else s1
  | none => s1

/-- Every cause removed: from a set not empty, with a pass ACTIVE, the slides get PASS again and the pass timer
resumes (R154). L before R: DESIGN CHOICE, log entry 39. -/
def clearHolds (s : State) : State :=
  let held := s.pc.holds.any
  let s1 := s.onPC fun p => { p with holds := HoldCauses.empty }
  match activePass s with
  | some p =>
    if held then (passOrder p .r (passOrder p .l s1)).onPC fun c => { c with timer := c.timer.resume } else s1
  | none => s1

/-! ## Completion -/

/-- The values offered to the ceiling record at a completion, from the new surface (R148). -/
def completionOffer (c : Settings) (p : Pass) : LR Int :=
  match p.kind with
  | .rough => p.expected.map fun x => x - 2 * (c.minRecut : Int)
  | .finish => p.expected

/-- Steps 1 and 2 of R147: the record DONE and out of the queue, the surfaces moved, the counts advanced. Finish done,
once set, stays set when a ROUGH pass of a recut completes. DESIGN CHOICE, log entry 40. -/
def completeRecord (p : Pass) (s : State) : State :=
  (s.onPC fun c =>
    { c with
      queue := c.queue.tail, lastEnded := some { p with state := .done }, timer := .stopped
      surface := some p.expected, passesDone := c.passesDone + 1, passesVisit := satInc 255 c.passesVisit
      finishDone := c.finishDone || p.kind == .finish }).onVC fun v => { v with passCompleted := true }

/-- What an offer's result brings about outside an abort (R78, R79). -/
def afterOffer (r : State × OfferResult) : State :=
  match r with
  | (s, .changed) => ownCeilingChanged s
  | (s, .condemned) => condemnationFound s
  | (s, .same) => s

/-- Step 4 of R147: a build owed is made on the targets now held. -/
def owedBuild (s : State) : State :=
  if s.pc.rebuildOwed then
    let s1 := s.onPC fun c => { c with rebuildOwed := false }
    if s1.vc.state = .cutting then agree (build buildFuel s1) else s1
  else s

/-- The completion of the ACTIVE pass, as one event (R147). -/
def completePass (p : Pass) (s : State) : State :=
  let s3 := afterOffer (offerCeiling (completionOffer (conf s) p) (completeRecord p s))
  let s4 := owedBuild s3
  if s4.vc.condPending then enterCondemned s4
  else if s4.vc.state = .cutting then
    let s6 := slotHead s4
    if s6.pc.queue.isEmpty then enterFinished s6 else settle s6
  else s4

/-! ## Abort -/

/-- The home latches at a RETRACT order: cleared, then set where the side's level is active (R172). -/
def latchesAtRetract (s : State) : State := s.onIIU fun u => { u with latch := ⟨u.homeL.level, u.homeR.level⟩ }

/-- The orders of an abort: RETRACT to both slides, STOP to the drive (R17, R151, R172); the home timeout is cleared by
a RETRACT order (R2). RETRACT L, RETRACT R, then STOP within the one event: DESIGN CHOICE, log entry 39. -/
def abortOrders (s : State) : State :=
  (latchesAtRetract (order .stop (order (.retract .r) (order (.retract .l) s)))).onVC fun v =>
    { v with homeTimeout := false }

/-- The record of an aborted pass and of the controller after it (R151). -/
def abortRecord (p : Pass) (why : AbortReason) (s : State) : State :=
  s.onPC fun c =>
    { c with
      queue := [], lastEnded := some { p with state := .aborted, reason := why }, timer := .stopped
      rebuildOwed := false, holds := HoldCauses.empty, queueFinish := none, uncertain := true }

/-- The offers at an abort: the expected diameter less one minimum recut, wheel by wheel (R152). -/
def abortOffer (c : Settings) (p : Pass) : LR Int := p.expected.map fun x => x - 2 * (c.minRecut : Int)

/-- What an abort's offer brings about: a condemnation it finds is pending (R13, R152). -/
def afterAbortOffer (r : State × OfferResult) : State :=
  match r with
  | (s, .changed) => ownCeilingChanged s
  | (s, .condemned) => s.onVC fun v => { v with condPending := true }
  | (s, .same) => s

/-- The abort of the ACTIVE pass, up to the state it leads to (R151, R152). -/
def abortPass (p : Pass) (why : AbortReason) (s : State) : State :=
  let s1 := afterAbortOffer (offerCeiling (abortOffer (conf s) p) (abortRecord p why (abortOrders s)))
  releaseClaim (latch .passAborted s1)

/-- The retract is complete once both home latches are set in ABORTING: ABORTED, or CONDEMNED if pending
(R12, R178). -/
def retractTest (s : State) : State :=
  if s.vc.state = .aborting ∧ s.iiu.latch.l = true ∧ s.iiu.latch.r = true then
    let s1 := s.onVC fun v => { v with homeTimer := none }
    if s1.vc.condPending then enterCondemned s1 else setStation .aborted s1
  else s

/-- An abort that leads to ABORTING, the home timer started and the plan dropped (R12, R128, R151).
DEDUCED, log entry 20. -/
def abortToAborting (p : Pass) (why : AbortReason) (s : State) : State :=
  let s1 := dropPlan (setStation .aborting (abortPass p why s))
  retractTest (s1.onVC fun v => { v with homeTimer := some Config.homeTime })

end Sys2Proof.Machine
end

