-- ==== Sys2Proof/Machine/Fit.lean ====
section
/-! DEFINITION. The end of a measurement and its result record (R7, R35), and the Fit Engine's fit (section 5.3). -/

namespace Sys2Proof.Machine

open Sys2Proof

/-! ## The result record -/

/-- The RTU's fields as they stand (R35). -/
def rtuSnapshot (why : Reason) (u : RTU) : RtuResult where
  run := u.run
  attempts := u.attempt
  reason := why
  restarts := u.restarts
  clampSummary := u.clampSummary
  period := u.prevPeriod
  window := u.window
  slip := u.slip
  diameter := u.diameter

/-- A fit was made (R70). -/
def fitMade (f : FitRecord) : Bool := f.state == .fitted || f.state == .condemning

/-- The FE's fields as they stand (R83). -/
def feSnapshot (f : FE) : FeResult where
  effective := f.effective
  fit := f.fit
  thickness := f.fit.chosen.bind fun k => (f.variants[k]?).map (·.thickness)
  held := if f.fit.state = .condemning then f.ceil.condemning else if fitMade f.fit then f.ceil.value else none

/-- The PTU's fields as they stand, empty where tracing has not begun (R66). -/
def ptuSnapshot (c : Settings) (u : PTU) : Option (PTU × Nat × Nat) :=
  if u.phase = .idle then none else some (u, c.taping, c.flange)

/-- The result record written at the end of a measurement, a new result for READ_RESULT (R35, R51, R66, R83, R185). -/
def writeResult (why : Reason) (s : State) : State :=
  let rtu := match s.rtu.handed with
    | some r => { r with reason := why }
    | none => rtuSnapshot why s.rtu
  ((s.onResult fun r =>
    { r with
      rtu := some rtu, rcu := some s.rcu.wheel
      ptu := ptuSnapshot (conf s) s.ptu, fe := some (feSnapshot s.fe) }).onCP fun c =>
    { c with newResult := true }).onRTU fun u => { u with handed := none }

/-- A measurement ended without success: the result record written; but for ESTOP and SILENCED, MEASURE_FAILED
latched and the station in UNMEASURED (R7, R17, R19, R30). -/
def measurementFails (why : Reason) (s : State) : State :=
  let s1 := writeResult why s
  match why with
  | .estop => s1
  | .silenced => s1
  | _ => setStation .unmeasured (latch .measureFailed s1)

/-! ## The fit -/

/-- The greatest difference of a variant's heights over the present worn heights, with the lowest point where it
stands (R72, R83). -/
def maxExcess : List Int → List (Option Int) → Nat → Option (Int × Nat) → Option (Int × Nat)
  | t :: ts, some w :: ws, j, best =>
    maxExcess ts ws (j + 1)
      (match best with
       | some (b, i) => if b < t - w then some (t - w, j) else some (b, i)
       | none => some (t - w, j))
  | _ :: ts, none :: ws, j, best => maxExcess ts ws (j + 1) best
  | _, _, _, best => best

/-- The profile excess of a variant on one wheel (R72). -/
def excess (v : Variant) (worn : List (Option Int)) : Int × Nat := (maxExcess v.heights worn 0 none).getD (0, 0)

/-- The results of one variant (R72, R73). -/
def fitVariant (minCut : Nat) (k : Nat) (v : Variant) (runout : LR Int) (worn : LR (List (Option Int))) : VariantFit :=
  let e := worn.map (excess v)
  let d := LR.zip (fun (x : Int × Nat) ρ => max x.1 ρ + (minCut : Int)) e runout
  { index := k, excess := e.map (·.1), at_ := e.map (·.2), depth := d, axle := max d.l d.r }

/-- The variant of the smallest axle depth, the lowest index among equals (R74). -/
def chooseVariant : List VariantFit → Option VariantFit
  | [] => none
  | f :: t =>
    match chooseVariant t with
    | some g => if g.axle < f.axle then some g else some f
    | none => some f

/-- The results over the effective variant set (R70, R72). -/
def fitResults (s : State) (runout : LR Int) (worn : LR (List (Option Int))) : List VariantFit :=
  s.fe.effective.filterMap fun k => (s.fe.variants[k]?).map fun v => fitVariant (conf s).minCut k v runout worn

/-- The fit ceilings (R75). -/
def fitCeilings (diameter : LR Int) (f : VariantFit) : LR Int := LR.zip (fun d x => d - 2 * x) diameter f.depth

/-- The fit's offer to the ceiling record: the minimum with the ceilings held where a NORMAL record has been
announced in the visit (R77). -/
def offerFit (c : LR Int) (s : State) : State × OfferResult :=
  let taken := match s.fe.ceil.status, s.fe.ceil.value with
    | .normal, some held => if s.fe.ceil.announced then LR.zip min c held else c
    | _, _ => c
  takeCeiling taken (!s.fe.ceil.announced) s

/-- The fit state set. -/
def setFitState (st : FitState) (s : State) : State := s.onFE fun f => { f with fit := { f.fit with state := st } }

/-- The end of a measurement whose fit is made: RECONCILING and a first plan where the group allows one, or
CONDEMNED (R7, R77, R82, R118). -/
def endFit (r : State × OfferResult) : State :=
  match r with
  | (s, .condemned) => enterCondemned (writeResult .none (setFitState .condemning s))
  | (s, _) => firstPlan (setStation .reconciling (writeResult .none (setFitState .fitted s)))

/-- The fit begun by the arrival of the worn heights (R71 to R77). DESIGN CHOICE, log entry 27. -/
def runFit (worn : LR (List (Option Int))) (s : State) : State :=
  let s1 := s.onFE fun f => { f with fit := { f.fit with worn := some worn } }
  match s1.fe.fit.diameter, s1.fe.fit.runout with
  | some d, some ρ =>
    let fs := fitResults s1 ρ worn
    match chooseVariant fs with
    | some best =>
      let c := fitCeilings d best
      let s2 := s1.onFE fun f =>
        { f with fit := { f.fit with results := fs, chosen := some best.index, ceiling := some c } }
      endFit (offerFit c s2)
    | none => s1
  | _, _ => s1

end Sys2Proof.Machine
end

