-- ==== Sys2Proof/Machine/Trace.lean ====
section
/-! DEFINITION. The Profile Trace Unit: sweeps, the range and jump tests, binning, the record and its completeness
(chapter 4). -/

namespace Sys2Proof.Machine

open Sys2Proof

/-- The wheel whose sweep is open (R55, R56). -/
def openSweep : PtuPhase → Option Wheel
  | .sweepL => some .l
  | .sweepR => some .r
  | _ => none

/-- The order SWEEP, the timer at 60 s and the phase of the wheel's sweep (R55). -/
def startSweep (w : Wheel) (s : State) : State :=
  order (.sweep w) (s.onPTU fun u =>
    { u with
      phase := match w with
        | .l => .sweepL
        | .r => .sweepR
      sweepTimer := some Config.sweepTime })

/-- A reading or an end of sweep that belongs to no open sweep, during tracing (R56). -/
def countStray (s : State) : State := s.onPTU fun u => { u with stray := satInc 65535 u.stray }

/-- A reading put to its grid point (R59, R60). -/
def binReading (x r : Int) (p : PtuWheel) : PtuWheel :=
  let j := (x + 500) / 1000
  if 0 ≤ j ∧ j ≤ 119 ∧ |x - 1000 * j| ≤ 250 then
    let pt := p.points.getD j.toNat Point.absent
    if pt.count < 65535 then
      { p with
        points := p.points.set j.toNat { pt with sum := pt.sum + r, count := pt.count + 1 }
        binned := satInc 65535 p.binned }
    else { p with saturated := satInc 65535 p.saturated }
  else { p with outside := satInc 65535 p.outside }

/-- A reading rejected by the jump test; the sixteenth in a run gives up the reference (R57, R58). -/
def jumpLiftoff (p : PtuWheel) : PtuWheel :=
  let p1 := { p with liftoffs := satInc 65535 p.liftoffs, jumpRun := p.jumpRun + 1 }
  if 16 ≤ p1.jumpRun then { p1 with reference := none, jumpRun := 0, reseats := satInc 255 p.reseats } else p1

/-- A reading taken into the open sweep: range test, jump test, capture window (R56 to R60). -/
def takeReading (jumpT : Nat) (x r : Int) (p : PtuWheel) : PtuWheel :=
  let p1 := { p with received := satInc 65535 p.received }
  if r < -50000 ∨ 50000 < r then { p1 with outOfRange := satInc 65535 p1.outOfRange }
  else
    let passes := match p1.reference with
      | some q => decide (jumpT = 0) || decide (|r - q| ≤ (jumpT : Int))
      | none => true
    if passes then binReading x r { p1 with reference := some r, jumpRun := 0 } else jumpLiftoff p1

/-- The value of a point at the sweep's end: the mean, rounded toward minus infinity (R61). -/
def Point.formed (p : Point) : Point := { p with value := if p.count = 0 then none else some (p.sum / (p.count : Int)) }

/-- The number of absent points. -/
def absentCount (ps : List Point) : Nat := (ps.filter fun p => p.count == 0).length

/-- The lowest absent index from 0 to F (R62). -/
def flangeGap (flange : Nat) (ps : List Point) : Option Nat :=
  let i := (ps.take (flange + 1)).findIdx fun p => p.count == 0
  if i < (ps.take (flange + 1)).length then some i else none

/-- The completeness verdict: the first test of R62 that fails. -/
def traceVerdict (taping flange : Nat) (ps : List Point) : TraceVerdict :=
  if (ps.getD taping Point.absent).count = 0 then .tapingPoint
  else
    match flangeGap flange ps with
    | some i => .flangeZone i
    | none => if 12 < absentCount ps then .tooManyAbsent (absentCount ps) else .complete

/-- The height of a formed point: its value referred to the taping point (R61). -/
def Point.referred (ref : Int) (p : Point) : Point := { p with height := p.value.map fun v => v - ref }

/-- The record formed at the end of its sweep (R61, R62); `left` is the time left on the sweep timer. -/
def formRecord (taping flange left : Nat) (p : PtuWheel) : PtuWheel :=
  let ps := p.points.map Point.formed
  let v := traceVerdict taping flange ps
  let ref := ((ps.getD taping Point.absent).value).getD 0
  { p with
    points := if v = .complete then ps.map (Point.referred ref) else ps
    verdict := v
    sweepTime := (Config.sweepTime - left) / Config.ms }

/-- The heights handed to the FE (R65). -/
def wornHeights (p : PtuWheel) : List (Option Int) := p.points.map (·.height)

/-- Tracing ended without a handover: the timer stopped, the phase HELD (R55, R63, R64). -/
def holdTrace (s : State) : State := s.onPTU fun u => { u with phase := .held, sweepTimer := none }

/-- The end of the open sweep: the record formed and tested; then the R sweep, the handover to the FE, or
TRACE_INCOMPLETE (R55, R61, R62, R65). -/
def endSweep (w : Wheel) (s : State) : State :=
  let left := s.ptu.sweepTimer.getD 0
  let p := formRecord (conf s).taping (conf s).flange left (s.ptu.wheel.get w)
  let s1 := s.onPTU fun u => { u with wheel := u.wheel.put w p, sweepTimer := none }
  if p.verdict = .complete then
    match w with
    | .l => startSweep .r s1
    | .r =>
      let s2 := s1.onPTU fun u => { u with phase := .complete }
      runFit (s2.ptu.wheel.map wornHeights) s2
  else measurementFails .traceIncomplete ((holdTrace s1).onPTU fun u => { u with failing := some w })

/-- Tracing ended from outside: PARK to the tracer of the open sweep, the records kept (R64). -/
def interruptTrace (s : State) : State :=
  match openSweep s.ptu.phase with
  | some w => holdTrace (order (.park w) s)
  | none => s

end Sys2Proof.Machine
end

