-- ==== Sys2Proof/Machine/Measure.lean ====
section
/-! DEFINITION. The Revolution Timing Unit and the Runout Capture Unit: runs, attempts, marks, windows, diameters,
calibration, sampling and runout (chapters 2 and 3), and the Settings Store's write (R190, R191). -/

namespace Sys2Proof.Machine

open Sys2Proof

/-! ## Writes of the Settings Store -/

/-- The bytes a write lays down: the data at their offsets, a spare byte as 0, then the two checksum bytes of the
image with that data (R190 steps 1 and 2). -/
def writeBytes (m : Image) (off : Nat) (data : List Byte) : List (Nat × Byte) :=
  let ds := data.zipIdx.map fun d => (off + d.2, if isSpare (off + d.2) then 0#8 else d.1)
  let m1 := imagePutAll m ds
  ds ++ [(1024, BitVec.ofNat 8 (imageSum m1 0)), (1025, BitVec.ofNat 8 (imageSum m1 1))]

/-- The write of the store begun: its bytes are in the image, its readback is to come (R190, R191).
DESIGN CHOICE, log entry 14. -/
def beginWrite (m : Image) (off : Nat) (data : List Byte) : Image × StoreWrite :=
  let ws := writeBytes m off data
  (imagePutAll m ws, ⟨m, ws⟩)

/-- The image after a readback that found the given bytes: each misread byte of the write stands as it read back
(R190 step 3). -/
def afterReadback (m : Image) (w : StoreWrite) (misread : List (Nat × Byte)) : Image :=
  imagePutAll m (misread.filter fun x => w.bytes.any fun y => y.1 == x.1)

/-- The image as a reset finds it: the first bytes of the write only (R190, R191). -/
def interruptedWrite (w : StoreWrite) (written : Nat) : Image := imagePutAll w.before (w.bytes.take written)

/-! ## The Runout Capture Unit -/

/-- A wheel at a window start; with J at 0 the gate is OPEN from here on (R40, R45). -/
def rcuWindow (jump : Nat) : RcuWheel := { RcuWheel.reset with gate := if jump = 0 then .opened else .seeking }

/-- A window start signalled to the RCU: ignored in a calibration run (R40). -/
def windowStart (s : State) : State :=
  if s.rtu.run = .measure then s.onRCU fun _ => ⟨.filling, .both (rcuWindow (conf s).jump)⟩ else s

/-- The RCU stopped: the phase HELD, any candidate discarded (R48, R50), at a DIAMETER_RANGE too, where R48 gives the
phase alone: DESIGN CHOICE, log entry 43. -/
def holdRcu (s : State) : State :=
  s.onRCU fun u => ⟨.held, u.wheel.map fun r => { r with candidate := none }⟩

/-- A lift-off counted (R46). -/
def countLiftoff (r : RcuWheel) : RcuWheel :=
  { r with
    liftRev := r.liftRev + 1, liftWindow := satInc 65535 r.liftWindow, liftMost := max r.liftMost (r.liftRev + 1) }

/-- A value written into its bin (R38). -/
def writeBin (i : Nat) (v : Int) (r : RcuWheel) : RcuWheel := { r with bins := r.bins.set i (some v) }

/-- A sample accepted: written, and the last accepted value (R43 to R45). -/
def acceptSample (i : Nat) (v : Int) (r : RcuWheel) : RcuWheel :=
  { writeBin i v r with gate := .opened, candidate := none, lastAccepted := some v }

/-- A sample become the candidate (R43). -/
def makeCandidate (i : Nat) (v : Int) (r : RcuWheel) : RcuWheel :=
  { r with gate := .candidate, candidate := some (v, i) }

/-- A rejected sample: a lift-off; with J above 0 the gate goes to SEEKING with nothing to compare to (R42 to R45). -/
def rejectSample (jump : Nat) (r : RcuWheel) : RcuWheel :=
  let r1 := countLiftoff r
  if jump = 0 then r1 else { r1 with gate := .seeking, candidate := none, lastAccepted := none }

/-- A sample put through the range test and the gate (R42 to R45). -/
def takeSample (jump : Nat) (i : Nat) (v : Int) (r : RcuWheel) : RcuWheel :=
  if v < -20000 ∨ 20000 < v then rejectSample jump r
  else if jump = 0 then acceptSample i v r
  else
    match r.gate, r.candidate, r.lastAccepted with
    | .opened, _, some a => if |v - a| ≤ (jump : Int) then acceptSample i v r else rejectSample jump r
    | .candidate, some (c, ci), _ =>
      if |v - c| ≤ (jump : Int) then acceptSample i v (writeBin ci c r) else makeCandidate i v r
    | _, _, _ => makeCandidate i v r

/-- The bins that hold a value. -/
def binValues (r : RcuWheel) : List Int := r.bins.filterMap id

/-- The largest bin value less the smallest (R48). -/
def spreadOf (vs : List Int) : Int :=
  match vs with
  | [] => 0
  | v :: t => t.foldl max v - t.foldl min v

/-- Every bin holds a value (R48). -/
def binsComplete (r : RcuWheel) : Bool := r.bins.all Option.isSome

/-! ## Runs and attempts -/

/-- Counting is allowed: a run is on and DRIVE_AT_SPEED is active (R24). -/
def counting (s : State) : Bool := decide (s.rtu.run ≠ .none) && level s .driveAtSpeed

/-- An attempt start (R23). -/
def attemptStart (s : State) : State :=
  windowStart (s.onRTU fun u =>
    { u with
      attempt := u.attempt + 1, window := .both [], count := .both 0, prevCount := .both none, prevPeriod := none
      lastMark := none, firstMark := false, pulseOn := false, restarts := 0, binIndex := .both none
      slip := .both none, diameter := .both none
      markTimer := if level s .driveAtSpeed then some Config.markTime else u.markTimer })

/-- A run begun: the drive ordered, the drive timer started unless the drive is at speed, attempt 1 (R22). -/
def startRun (k : RunKind) (s : State) : State :=
  attemptStart (order .measureSpeed (s.onRTU fun u =>
    { u with
      run := k, attempt := 0, clampSummary := false, handed := none, markTimer := none
      driveTimer := if level s .driveAtSpeed then none else some Config.driveTime }))

/-- A measurement run begun: the PTU's records and the fit record are emptied first (R22, R54, R70). -/
def startMeasurement (s : State) : State :=
  startRun .measure ((s.onPTU fun _ => PTU.reset).onFE fun f => { f with fit := FitRecord.reset })

/-- A reason that allows another attempt (R30). -/
def Reason.retries : Reason → Bool
  | .slip | .markFault | .markLost | .probeLiftoff => true
  | _ => false

/-- The RTU out of its run: both timers stopped, STOP to the drive, run NONE, attempt 0, its figures kept
(R30, R32). A field pulse in progress keeps its value, without effect, until the next attempt start or visit end
(DESIGN CHOICE, log entry 38). -/
def leaveRun (why : Reason) (s : State) : State :=
  order .stop (s.onRTU fun u =>
    { u with
      handed := some (rtuSnapshot why u), run := .none, attempt := 0, driveTimer := none, markTimer := none })

/-- The codes of the reasons in the result record and in the response to CALIBRATE (R198, R201). -/
def Reason.code : Reason → Nat
  | .none => 0
  | .slip => 1
  | .markFault => 2
  | .markLost => 3
  | .probeLiftoff => 4
  | .driveTimeout => 5
  | .diameterRange => 6
  | .unclamped => 7
  | .estop => 8
  | .silenced => 9
  | .runoutIncomplete => 10
  | .traceIncomplete => 11
  | .traceTimeout => 12

/-- The code of a wheel (R198). -/
def Wheel.code : Wheel → Nat
  | .l => 0
  | .r => 1

/-- The data of an OK response to CALIBRATE: wheel, reason, C, current D_m, D_m,new, an absent one 0 (R37, R198). -/
def calData (c : CalRun) (why : Reason) (total dm : Option Nat) : List Byte :=
  be1 (Wheel.code c.wheel) ++ be1 why.code ++ be4 (total.getD 0) ++ be4 (dm.getD 0) ++ be4 (c.dNew.getD 0)

/-- The calibration ended: the response sent, calibration running cleared, the RTU's fields of the result record
written as a new result (R35, R37). -/
def endCalibration (why : Reason) (r : Response) (s : State) : State :=
  let rtu := match s.rtu.handed with
    | some h => { h with reason := why }
    | none => rtuSnapshot why s.rtu
  (((((respond r s).onVC fun v => { v with calRunning := false }).onSS fun t => { t with calRun := none }).onResult
    fun t => { t with rtu := some rtu }).onCP fun c => { c with newResult := true }).onRTU
    fun u => { u with handed := none }

/-- The sum C of the named wheel, when the slip test was made (R37). -/
def calTotal (s : State) (w : Wheel) : Option Nat := (s.rtu.slip.get w).map (·.total)

/-- A calibration run ended without a result: where it is answered OK, with the wheel, the reason, and C when the slip
test was made (R30, R37). -/
def calibrationFails (why : Reason) (s : State) : State :=
  match s.ss.calRun with
  | some c =>
    match why with
    | .estop => endCalibration why (.refused .calibrate .wrongState) s
    | .silenced => latch .measureFailed (endCalibration why (.refused .calibrate .wrongState) s)
    | _ =>
      latch .measureFailed (endCalibration why (.ok .calibrate (calData c why (calTotal s c.wheel) none)) s)
  | none => s

/-- The end of a run without success, or cut short (R30, R50). -/
def endRun (why : Reason) (s : State) : State :=
  match s.rtu.run with
  | .measure => measurementFails why (holdRcu (leaveRun why s))
  | .calibrate => calibrationFails why (leaveRun why s)
  | .none => s

/-- The end of an attempt that does not succeed: another attempt if the reason and the count allow one (R30). -/
def endAttempt (why : Reason) (s : State) : State :=
  if why.retries ∧ s.rtu.attempt < 3 then attemptStart s else endRun why s

/-- A measurement cut short from outside, in whatever stage it is (R7, R17, R19, R64). PARK to the tracer is recorded
before STOP to the drive (DESIGN CHOICE, log entry 39). -/
def cutMeasurement (why : Reason) (s : State) : State :=
  if s.rtu.run = .measure then endRun why s
  else measurementFails why (order .stop (interruptTrace s))

/-! ## The end of a measurement's window -/

/-- The close handed to the RCU: the runout of both wheels, or RUNOUT_INCOMPLETE; then tracing begins
(R48, R49, R55). -/
def closeRcu (s : State) : State :=
  let s1 := holdRcu s
  if s1.rcu.wheel.all binsComplete then
    let ρ := s1.rcu.wheel.map fun r => spreadOf (binValues r)
    let s2 := s1.onRCU fun u => { u with wheel := LR.zip (fun (r : RcuWheel) x => { r with runout := some x }) u.wheel ρ }
    startSweep .l (s2.onFE fun f => { f with fit := { f.fit with runout := some ρ } })
  else measurementFails .runoutIncomplete s1

/-- The diameter of a wheel (R31). -/
def diameterOf (dm e total : Nat) : Nat := 2 * ((dm * total + 8 * e) / (16 * e))

/-- A diameter in the range handled (R32). -/
def inDiameterRange (d : Nat) : Bool := decide (Config.minDiameter ≤ d) && decide (d ≤ Config.maxDiameter)

/-- A measurement attempt succeeded: the diameters, the range test, and the close (R31, R32). -/
def measureClosed (total : LR Nat) (s : State) : State :=
  let d := LR.zip (fun (x : Nat × Nat) t => diameterOf x.1 x.2 t) (LR.zip Prod.mk (conf s).dm (conf s).counts) total
  let s1 := s.onRTU fun u => { u with diameter := d.map some }
  if d.all inDiameterRange then
    let s2 := leaveRun .none s1
    closeRcu (s2.onFE fun f =>
      { f with fit := { f.fit with diameter := some (d.map fun (x : Nat) => (x : Int)), state := .collecting } })
  else endRun .diameterRange s1

/-- The new measuring-wheel diameter (R36); with no pulses counted the quotient is a free value (DESIGN CHOICE, log entry 7). -/
def newMeasuring (e dRef total : Nat) : Nat :=
  let num := 16 * e * dRef + total
  if total = 0 then Config.quotientByZero num else num / (2 * total)

/-- The image offset of a wheel's D_m field (R200). -/
def dmOffset : Wheel → Nat
  | .l => 0
  | .r => 4

/-- A calibration attempt succeeded: the calibration write begun, or CAL_RANGE (R36, R37, R191).
DEDUCED, log entry 12. -/
def calibrateClosed (c : CalRun) (total : Nat) (s : State) : State :=
  let s1 := leaveRun .none s
  let d := newMeasuring ((conf s).counts.get c.wheel) c.dRef total
  if Config.minMeasuring ≤ d ∧ d ≤ Config.maxMeasuring then
    let b := beginWrite s.ss.image (dmOffset c.wheel) (be4 d)
    s1.onSS fun t => { t with image := b.1, calWrite := some b.2, calRun := some { c with dNew := some d } }
  else endCalibration .none (.refused .calibrate .calRange) s1

/-- The slip test's figures for one window (R29). -/
def slipTest (tolerance : Nat) (win : List Nat) : SlipResult :=
  let c := win.sum
  let mean := c / 8
  { total := c, mean := mean
    spread := win.foldl max 0 - win.foldl min (win.headD 0)
    allowance := mean * tolerance / 1000 }

/-- A wheel passes when its spread is no greater than its allowance (R29). -/
def slipPasses (r : SlipResult) : Bool := decide (r.spread ≤ r.allowance)

/-- The attempt closed: mark timer stopped, no bin index any more, the slip test applied: to both wheels in a
measurement run, to the named wheel in a calibration run (R29, R36). -/
def closeAttempt (s : State) : State :=
  let r := s.rtu.window.map (slipTest (conf s).slip)
  let s1 := s.onRTU fun u => { u with markTimer := none, binIndex := .both none }
  match s.ss.calRun, s.rtu.run with
  | some c, .calibrate =>
    let x := r.get c.wheel
    let s2 := s1.onRTU fun u => { u with slip := u.slip.put c.wheel (some x) }
    if slipPasses x then calibrateClosed c x.total s2 else endAttempt .slip s2
  | _, _ =>
    let s2 := s1.onRTU fun u => { u with slip := r.map some }
    if r.all slipPasses then measureClosed (r.map (·.total)) s2 else endAttempt .slip s2

/-! ## Bin indices and samples -/

/-- The bin index of a wheel from its count and previous count, and whether it was clamped (R33, R34). -/
def binOf (k n : Nat) : Nat × Bool := (min 255 (k * 256 / n), decide (255 < k * 256 / n))

/-- A wheel's bin index recomputed: in a measurement run, with a previous count that is not 0 (R33, R34, R36). -/
def computeBin (w : Wheel) (s : State) : State :=
  if s.rtu.run = .measure then
    match s.rtu.prevCount.get w with
    | some n =>
      if n = 0 then s
      else
        let b := binOf (s.rtu.count.get w) n
        s.onRTU fun u => { u with binIndex := u.binIndex.put w (some b.1), clampSummary := u.clampSummary || b.2 }
    | none => s
  else s

/-- The lift-offs of one revolution that end an attempt (R46). -/
def liftoffLimit : Nat := 17

/-- A supplied bin index: a sample where it differs from the last index, and PROBE_LIFTOFF at the 17th lift-off
(R41, R46). -/
def supplyBin (w : Wheel) (probe : Int) (s : State) : State :=
  match s.rtu.binIndex.get w with
  | some i =>
    let r := s.rcu.wheel.get w
    if s.rcu.phase = .filling ∧ r.lastIndex ≠ some i then
      let r1 := takeSample (conf s).jump i probe { r with lastIndex := some i }
      let s1 := s.onRCU fun u => { u with wheel := u.wheel.put w r1 }
      if r.liftRev < r1.liftRev ∧ liftoffLimit ≤ r1.liftRev then
        endAttempt .probeLiftoff (s1.onRCU fun u => { u with phase := .held })
      else s1
    else s
  | none => s

/-- Whether a wheel has a bin index to supply: its previous count present and not 0 (R33). -/
def hasBin (w : Wheel) (s : State) : Bool :=
  decide (s.rtu.run = .measure) && (match s.rtu.prevCount.get w with
    | some n => decide (n ≠ 0)
    | none => false)

/-- A wheel's bin index recomputed and supplied to the RCU, which samples the wheel's probe, reading `probe`, where the
index differs from the last (R33, R34, R41). -/
def supply (w : Wheel) (probe : Int) (s : State) : State :=
  if hasBin w s then supplyBin w probe (computeBin w s) else s

/-- Both wheels' bin indices supplied once a mark pulse has been classed, with both probes' readings of that moment
(R34, R41). L is supplied before R: DESIGN CHOICE, log entry 8. -/
def supplyBins (probe : LR Int) (s : State) : State := supply .r probe.r (supply .l probe.l s)

/-- One more pulse counted, modulo 2^32 (R21, R25). DESIGN CHOICE, log entry 11. -/
def pulseInc (n : Nat) : Nat := (n + 1) % 4294967296

/-- The counts an encoder pulse advances (R25). -/
def countPulse (w : Wheel) (u : RTU) : RTU :=
  { u with
    count := u.count.put w (pulseInc (u.count.get w))
    pulseCount := if u.pulseOn then u.pulseCount.put w (pulseInc (u.pulseCount.get w)) else u.pulseCount
    pulseWidth := if u.pulseOn ∧ w = .l then u.pulseWidth + 1 else u.pulseWidth }

/-- The width at which a mark pulse is a fault (R25). -/
def markFaultWidth : Nat := 65

/-- An encoder pulse while counting is allowed (R25, R33, R34, R41). DESIGN CHOICE, log entry 8. -/
def encoderPulse (w : Wheel) (probe : Int) (s : State) : State :=
  let s1 := s.onRTU (countPulse w)
  if s1.rtu.pulseOn then
    if w = .l ∧ markFaultWidth ≤ s1.rtu.pulseWidth then
      endAttempt .markFault (s1.onRTU fun u => { u with pulseOn := false })
    else s1
  else supply w probe s1

/-! ## Marks -/

/-- The effects of a restart: counted, the windows emptied, the previous counts and the previous period cleared, a
window start signalled (R28). -/
def restartWindows (s : State) : State :=
  windowStart (s.onRTU fun u =>
    { u with
      restarts := u.restarts + 1, window := .both [], prevCount := .both none, prevPeriod := none
      binIndex := .both none })

/-- The restart that ends an attempt with SLIP (R28). -/
def restartLimit : Nat := 4

/-- The mark that starts counting (R27). -/
def firstMark (t : BitVec 32) (u : RTU) : RTU :=
  { u with firstMark := true, lastMark := some t, count := u.pulseCount, markTimer := some Config.markTime }

/-- A steady revolution pushed onto both windows (R27). -/
def pushRevolution (t : BitVec 32) (period : Nat) (u : RTU) : RTU :=
  let n := LR.zip (fun a b => a - b) u.count u.pulseCount
  { u with
    window := LR.zip (fun w x => w ++ [x]) u.window n, prevCount := n.map some, prevPeriod := some period
    lastMark := some t, count := u.pulseCount, markTimer := some Config.markTime }

/-- The period between two captures, modulo 2^32 (R20, R27). -/
def periodOf (t : BitVec 32) (last : Option (BitVec 32)) : Nat := (t - last.getD 0#32).toNat

/-- An unsteady revolution: four times the difference exceeds the previous period (R28). -/
def unsteady (period : Nat) (prev : Option Nat) : Bool :=
  match prev with
  | some p => decide (p < 4 * ((period - p) + (p - period)))
  | none => false

/-- The lift-offs of the revolution start anew at a valid mark (R47). -/
def newRevolution (s : State) : State :=
  if s.rcu.phase = .filling then
    s.onRCU fun u => { u with wheel := u.wheel.map fun r => { r with liftRev := 0 } }
  else s

/-- A valid mark, with both probes' readings at its validation (R27 to R29). The fourth restart has every effect of a
restart before its attempt ends with SLIP. DEDUCED, log entry 9. -/
def validMark (probe : LR Int) (s : State) : State :=
  let t := s.rtu.capture
  let s0 := newRevolution s
  if s.rtu.firstMark then
    let period := periodOf t s.rtu.lastMark
    if unsteady period s.rtu.prevPeriod then
      let s1 := restartWindows s0
      if restartLimit ≤ s1.rtu.restarts then endAttempt .slip s1 else s1.onRTU (firstMark t)
    else
      let s1 := s0.onRTU (pushRevolution t period)
      if s1.rtu.window.all fun w => decide (8 ≤ w.length) then closeAttempt s1 else supplyBins probe s1
  else s0.onRTU (firstMark t)

/-- The trailing edge of a mark pulse in progress: noise, or a valid mark (R25). -/
def markPulseEnd (probe : LR Int) (s : State) : State :=
  let s1 := s.onRTU fun u => { u with pulseOn := false }
  if s.rtu.pulseWidth < 2 then supplyBins probe s1 else validMark probe s1

/-! ## DRIVE_AT_SPEED (R24) -/

/-- DRIVE_AT_SPEED becomes active in a run. -/
def driveAtSpeed (s : State) : State :=
  if s.rtu.run ≠ .none then s.onRTU fun u => { u with driveTimer := none, markTimer := some Config.markTime } else s

/-- DRIVE_AT_SPEED lost in a run: a restart, and the drive timer at 20 s (R24, R28). A pulse in progress is
forgotten with the counting (DEDUCED, log entry 10). The fourth restart has every effect of a restart before its
attempt ends with SLIP (DEDUCED, log entry 9). -/
def driveLost (s : State) : State :=
  if s.rtu.run ≠ .none then
    let s1 := restartWindows (s.onRTU fun u =>
      { u with markTimer := none, driveTimer := some Config.driveTime, pulseOn := false, firstMark := false })
    if restartLimit ≤ s1.rtu.restarts then endAttempt .slip s1 else s1
  else s

end Sys2Proof.Machine
end

