-- ==== Sys2Proof/Machine/Operands.lean ====
section
/-! DEFINITION. The operand forms: the payloads of the host commands (R182, R198) and the pit link frames
(R86, R97, R197), each read and written by the layouts of chapter 13. -/

namespace Sys2Proof.Machine

open Sys2Proof

/-! ## Host commands -/

/-- The command byte (R198). -/
def HostCmd.code : HostCmd → Nat
  | .visit => 1
  | .measure => 2
  | .cut => 3
  | .hold => 4
  | .resume => 5
  | .feed => 6
  | .withdraw => 7
  | .release => 8
  | .calibrate => 9
  | .unlock => 10
  | .writeSettings => 11
  | .readSettings => 12
  | .readStatus => 13
  | .readResult => 14
  | .readPeers => 15
  | .readPasses => 16

/-- The command that a command byte names (R182, R198). -/
def hostCmdOf : Nat → Option HostCmd
  | 1 => some .visit
  | 2 => some .measure
  | 3 => some .cut
  | 4 => some .hold
  | 5 => some .resume
  | 6 => some .feed
  | 7 => some .withdraw
  | 8 => some .release
  | 9 => some .calibrate
  | 10 => some .unlock
  | 11 => some .writeSettings
  | 12 => some .readSettings
  | 13 => some .readStatus
  | 14 => some .readResult
  | 15 => some .readPeers
  | 16 => some .readPasses
  | _ => none

/-- A payload length that a command's arguments take (R182, R198). -/
def lengthFits (c : HostCmd) (n : Nat) : Bool :=
  match c with
  | .visit => n == 1
  | .feed => n == 1
  | .withdraw => n == 0 || n == 8
  | .release => n == 1
  | .calibrate => n == 5
  | .unlock => n == 1
  | .writeSettings => decide (4 ≤ n) && decide (n ≤ 247)
  | .readSettings => n == 5
  | _ => n == 0

/-- The unsigned field of `width` bytes at an offset of a payload (R195). -/
def field (p : List Byte) (off width : Nat) : Nat := ofBytes ((p.drop off).take width)

/-- The wheel that a wheel byte names: 0 L, 1 R (R198). -/
def wheelOf : Nat → Option Wheel
  | 0 => some .l
  | 1 => some .r
  | _ => none

/-- The area that an area byte names for a write or an unlock: 1 GENERAL, 2 VARIANTS (R198). -/
def areaOf : Nat → Option Area
  | 1 => some .general
  | 2 => some .variants
  | _ => none

/-- The image offset where an area begins (R200). -/
def areaBase : Area → Nat
  | .general => 0
  | .variants => 48

/-- The size of an area in bytes (R187, R188). -/
def areaSize : Area → Nat
  | .general => 48
  | .variants => 976

/-- A complete frame of the cell port carries its length byte's payload and its check (R180). -/
def cellComplete (bs : List Byte) : Bool :=
  decide (2 ≤ bs.length) && decide (bs.length = (bs.getD 1 0#8).toNat + 4)

/-- A part of a frame not yet complete (R180). -/
def cellPartial (bs : List Byte) : Bool :=
  decide (1 ≤ bs.length) && (decide (bs.length < 2) || decide (bs.length < (bs.getD 1 0#8).toNat + 4))

/-- The check of a complete cell port frame matches (R180, R196). -/
def cellCheckOk (bs : List Byte) : Bool :=
  decide ((crc16 (bs.take (bs.length - 2))).toNat = ofBytes (bs.drop (bs.length - 2)))

/-- The command and payload of a complete frame with a good check and a known command byte (R180). -/
def cellCommand (bs : List Byte) : Option (HostCmd × List Byte) :=
  if cellComplete bs && cellCheckOk bs then
    (hostCmdOf (bs.getD 0 0#8).toNat).map fun c => (c, (bs.drop 2).take (bs.length - 4))
  else none

/-- The frame of a host command (R198). -/
def cellFrame (c : HostCmd) (payload : List Byte) : List Byte :=
  let body := be1 c.code ++ be1 payload.length ++ payload
  body ++ crcBytes body

/-- The code of a refusal reason (R198). -/
def RefuseReason.code : RefuseReason → Nat
  | .wrongState => 1
  | .badArgument => 2
  | .notClamped => 3
  | .locked => 4
  | .groupBusy => 5
  | .planTooDeep => 6
  | .storeFault => 7
  | .calRange => 8

/-- The bytes of a response frame (R198). -/
def responseFrame (r : Response) : List Byte :=
  let body := match r with
    | .ok c d => be1 0x80 ++ be1 c.code ++ be2 d.length ++ d
    | .refused c why => be1 0x81 ++ be1 c.code ++ be2 1 ++ be1 why.code
    | .status c w => be1 0x82 ++ be1 c.code ++ be2 2 ++ be2 w.toNat
  body ++ crcBytes body

/-! ## Pit link frames -/

/-- The five kinds (R86). -/
inductive FrameKind where
  | claim | release | ceiling | intent | state
deriving DecidableEq, Repr

/-- The kind codes (R197). -/
def FrameKind.code : FrameKind → BitVec 4
  | .claim => 1#4
  | .release => 2#4
  | .ceiling => 3#4
  | .intent => 4#4
  | .state => 5#4

/-- The priority classes (R86, R197). -/
def FrameKind.cls : FrameKind → BitVec 2
  | .claim => 0#2
  | .release => 0#2
  | .ceiling => 1#2
  | .intent => 2#2
  | .state => 3#2

/-- The kind that a code names; codes 0 and 6 to 15 name none (R197). -/
def kindOf (k : BitVec 4) : Option FrameKind :=
  if k = 1#4 then some .claim
  else if k = 2#4 then some .release
  else if k = 3#4 then some .ceiling
  else if k = 4#4 then some .intent
  else if k = 5#4 then some .state
  else none

/-- The header byte: kind in bits 7 to 4, payload length in bits 3 to 0 (R197). -/
def headerByte (kind : BitVec 4) (len : Nat) : Byte := BitVec.ofNat 8 (kind.toNat * 16 + len % 16)

/-- The check of a frame, over header and payload (R196). -/
def linkCheck (kind : BitVec 4) (payload : List Byte) : BitVec 16 := crc16 (headerByte kind payload.length :: payload)

/-- A frame with its check. -/
def makeFrame (k : FrameKind) (station : Fin 16) (payload : List Byte) : LinkFrame :=
  ⟨k.cls, station, k.code, payload, linkCheck k.code payload⟩

/-- The arbitration value: class times 16 plus the station number (R86). -/
def arbitration (f : LinkFrame) : Nat := f.cls.toNat * 16 + f.station.val

/-- A bit of the arbitration field in sending order, most significant first (R86); yes is recessive (R85). -/
def arbitrationBit (f : LinkFrame) (i : Fin 6) : Bool := (arbitration f).testBit (5 - i.val)

/-- A field's bits, most significant first (R86); yes is recessive, the value 1 (R85). -/
def fieldBits (width n : Nat) : List Bool := (List.range width).map fun i => n.testBit (width - 1 - i)

/-- The bits of a frame in sending order: start bit, arbitration field, header, payload, check, end field (R86). -/
def frameBits (f : LinkFrame) : List Bool :=
  false :: (fieldBits 6 (arbitration f) ++ fieldBits 8 (headerByte f.kind f.payload.length).toNat ++
    f.payload.flatMap (fun b => fieldBits 8 b.toNat) ++ fieldBits 16 f.check.toNat ++ List.replicate 8 true)

/-- The code of a ceiling status on the line (R197). -/
def CeilStatus.code : CeilStatus → Nat
  | .none => 0
  | .normal => 1
  | .condemned => 2
  | .passive => 3
  | .cleared => 4

/-- The ceiling status that a code names (R197). -/
def ceilStatusOf : Nat → Option CeilStatus
  | 1 => some .normal
  | 2 => some .condemned
  | 3 => some .passive
  | 4 => some .cleared
  | _ => none

/-- A diameter on the line: half of it in three bytes (R86, R195). -/
def linkDiameter (d : Int) : List Byte := be3 (d / 2).toNat

/-- The diameter that a field carries: twice the field (R86). -/
def diameterField (p : List Byte) (off : Nat) : Int := 2 * (field p off 3 : Int)

/-- A diameter in the range of R97. -/
def linkDiameterOk (d : Int) : Bool :=
  decide ((Config.minDiameter : Int) ≤ d) && decide (d ≤ (Config.maxDiameter : Int))

/-- The payload of a STATE (R197). -/
def statePayload (p : PeerState) : List Byte :=
  be1 (p.car.val * 16 + p.bogie.val * 4) ++ be1 ((linkCode p.status).getD 0) ++ be2 p.digest.toNat ++
  be1 p.annCeiling ++ be1 p.annIntent ++ be1 (if p.slotHeld then 1 else 0) ++ be1 (p.passesDone * 16 + p.passesTotal)

/-- The fields of a STATE, each in its range (R97, R197). The digest match is set against the own digest (R112). -/
def readState (own : BitVec 16) (p : List Byte) : Option PeerState :=
  if p.length = 8 then
    let b0 := field p 0 1
    let done := field p 7 1 / 16
    let total := field p 7 1 % 16
    match stateOfCode (field p 1 1) with
    | some st =>
      if done ≤ total ∧ done ≤ 8 ∧ total ≤ 8 then
        some
          { car := Fin.ofNat 16 (b0 / 16), bogie := Fin.ofNat 4 (b0 / 4), status := st
            passesDone := done, passesTotal := total
            digest := BitVec.ofNat 16 (field p 2 2), digestMatch := decide (field p 2 2 = own.toNat)
            annCeiling := field p 4 1, annIntent := field p 5 1, slotHeld := decide (field p 6 1 % 2 = 1) }
      else none
    | none => none
  else none

/-- The payload of a CEILING (R197). -/
def ceilingPayload (c : StoredCeiling) : List Byte :=
  be1 c.seq ++ be1 c.status.code ++
    (match c.value with
     | some v => linkDiameter v.l ++ linkDiameter v.r
     | none => [])

/-- The fields of a CEILING, each in its range, the length that of its status (R97, R197). -/
def readCeiling (p : List Byte) : Option StoredCeiling :=
  let q := field p 0 1
  if q = 0 then none
  else
    match ceilStatusOf (field p 1 1) with
    | some st =>
      if st = .normal ∨ st = .passive then
        let v : LR Int := ⟨diameterField p 2, diameterField p 5⟩
        if p.length = 8 ∧ v.all linkDiameterOk = true then some ⟨q, st, some v⟩ else none
      else if p.length = 2 then some ⟨q, st, none⟩ else none
    | none => none

/-- The payload of an INTENT (R197). -/
def intentPayload (i : Intent) : List Byte :=
  be1 i.seq ++ be1 i.basis ++ linkDiameter i.target.l ++ linkDiameter i.target.r

/-- The fields of an INTENT (R97, R197). DEDUCED, log entry 17. -/
def readIntent (p : List Byte) : Option Intent :=
  if p.length = 8 ∧ 1 ≤ field p 0 1 ∧ 1 ≤ field p 1 1 then
    some ⟨field p 0 1, field p 1 1, ⟨diameterField p 2, diameterField p 5⟩⟩
  else none

/-- The pass number of a CLAIM or a RELEASE (R97, R197). -/
def readPass (p : List Byte) : Option Nat :=
  if p.length = 1 ∧ 1 ≤ field p 0 1 ∧ field p 0 1 ≤ 8 then some (field p 0 1) else none

/-- The first three tests of R97 for one kind: check, kind, class. -/
def frameIs (k : FrameKind) (f : LinkFrame) : Bool :=
  decide (f.check = linkCheck f.kind f.payload) && decide (f.kind = k.code) && decide (f.cls = k.cls)

/-- A good frame of one kind: the five tests of R97. -/
def goodAs (k : FrameKind) (f : LinkFrame) : Bool :=
  frameIs k f &&
    (match k with
     | .claim => (readPass f.payload).isSome
     | .release => (readPass f.payload).isSome
     | .ceiling => (readCeiling f.payload).isSome
     | .intent => (readIntent f.payload).isSome
     | .state => (readState 0#16 f.payload).isSome)

/-- A good frame (R97). -/
def goodFrame (f : LinkFrame) : Bool :=
  match kindOf f.kind with
  | some k => goodAs k f
  | none => false

end Sys2Proof.Machine
end

