-- ==== Sys2Proof/Machine/Visit.lean ====
section
/-! DEFINITION. The Visit Controller: visit end, emergency stop, silence, and the effects of the visit-level host
commands once the cell port acts on them (chapter 1). -/

namespace Sys2Proof.Machine

open Sys2Proof

/-! ## Visit end (R14) -/

/-- The blocks' records of the visit emptied, but for the ceiling record and the claim. -/
def clearVisit (s : State) : State :=
  { s with
    vc := { s.vc with
      visitOpen := false, mask := 0#4, cutBegun := false, passCompleted := false, condPending := false
      homeTimeout := false }
    rtu := RTU.reset s.rtu.counter
    rcu := RCU.reset
    ptu := PTU.reset
    fe := { s.fe with effective := [], fit := FitRecord.reset }
    ru := RU.reset s.ru.intentSeq
    pc := PC.reset
    result := { s.result with rtu := none, rcu := none, ptu := none, fe := none } }

/-- The ceiling record at a visit end: CLEARED and announced if a CEILING was announced in the visit (R81). -/
def clearCeiling (s : State) : State :=
  if s.fe.ceil.announced then
    (changeCeiling .cleared none s).onFE fun f => { f with ceil := { f.ceil with announced := false } }
  else s

/-- A visit end (R14). -/
def visitEnd (s : State) : State := clearCeiling (clearVisit (releaseClaim s))

/-! ## Emergency stop (R17, R18) -/

/-- The work in progress stopped at entry to ESTOP, by the state left (R17). -/
def estopStops (old : StationState) (s : State) : State :=
  match old with
  | .measuring => cutMeasurement .estop s
  | .cutting =>
    match activePass s with
    | some p => abortPass p .estop s
    | none => releaseClaim (order .stop (discardQueue s))
  | .aborting => s.onVC fun v => { v with homeTimer := none }
  | .idle => endRun .estop s
  | _ => s

/-- Entry to ESTOP (R17). -/
def enterEstop (s : State) : State :=
  let old := s.vc.state
  let s1 := setStation .estop (latch .estopSeen (s.onVC fun v => { v with returnState := some old }))
  estopStops old s1

/-- ESTOP exit into ABORTED: plan, queue and surfaces gone, surface uncertain (R18, R128, R156). -/
def estopToAborted (s : State) : State :=
  setStation .aborted ((dropPlan s).onPC fun p =>
    { p with queue := [], surface := none, queueFinish := none, uncertain := true })

/-- ESTOP exit, by the first row of R18 that applies; the return state is then cleared. -/
def exitEstop (s : State) : State :=
  let s1 :=
    if s.vc.condPending then enterCondemned s
    else if s.vc.returnState = some .condemned then setStation .condemned s
    else if s.vc.returnState = some .measuring then setStation .unmeasured s
    else if s.vc.cutBegun then estopToAborted s
    else
      match s.vc.returnState with
      | some st => setStation st s
      | none => s
  s1.onVC fun v => { v with returnState := none }

/-- ESTOP becoming active: entry from any state but START and SILENCED; in SILENCED the flag alone (R17, R176). -/
def estopActive (s : State) : State :=
  match s.vc.state with
  | .start => s
  | .silenced => latch .estopSeen s
  | .estop => s
  | _ => enterEstop s

/-- ESTOP becoming inactive (R18, R176). -/
def estopInactive (s : State) : State := if s.vc.state = .estop then exitEstop s else s

/-! ## End of START (R3) -/

/-- The end of the listen period: IDLE or INVALID, and at once ESTOP where the level is active (R3, R192). -/
def endStart (s : State) : State :=
  let s1 :=
    if s.result.start.good then setStation .idle s
    else setStation .invalid (latch .settingsInvalid (s.onVC fun v => { v with settingsInvalid := true }))
  if level s1 .estop then estopActive s1 else s1

/-! ## Silence (R19, R99) -/

/-- The work in progress stopped at entry to SILENCED, by the state left (R19). -/
def silenceStops (old : StationState) (s : State) : State :=
  match old with
  | .measuring => cutMeasurement .silenced s
  | .idle => endRun .silenced s
  | .cutting =>
    match activePass s with
    | some p => abortPass p .silenced s
    | none => order .stop (discardQueue s)
  | _ => discardQueue s

/-- A duplicate station number detected: the LC latches DUPLICATE_ID, empties its queue and stops (R99); the VC
enters SILENCED (R19); the plan is dropped (R128). The home timer runs on: DEDUCED, log entry 26. A return state held in
ESTOP stands: DESIGN CHOICE, log entry 42. -/
def silence (s : State) : State :=
  let old := s.vc.state
  let s1 := (latch .duplicateId s).onLC fun c =>
    { c with queue := [], overflow := none, onLine := none, announce := none, silenced := true }
  let s2 := silenceStops old (setStation .silenced s1)
  dropPlan (releaseClaim s2)

/-! ## Visit-level commands (R4 to R6, R9, R15, R16, R36, R153 to R155) -/

/-- A refusal. -/
def refuse (c : HostCmd) (why : RefuseReason) (s : State) : State := respond (.refused c why) s

/-- An acceptance without data. -/
def accept (c : HostCmd) (s : State) : State := respond (.ok c []) s

/-- IDLE with calibration running clear (R4). -/
def freeIdle (s : State) : Bool := decide (s.vc.state = .idle) && !s.vc.calRunning

/-- IDLE or INVALID with calibration running clear (R4, R189, R190). -/
def freeOpen (s : State) : Bool := isOpenState s.vc.state && !s.vc.calRunning

/-- The enabled variants that lie in a mask (R5, R69). -/
def effectiveSet (vs : List Variant) (mask : Byte) : List Nat :=
  (List.range 4).filter fun k =>
    mask.getLsbD k && (match vs[k]? with
      | some v => decide (v.verdict = .usable)
      | none => false)

/-- VISIT(mask) (R4, R5). -/
def actVisit (p : List Byte) (s : State) : State :=
  let mask := p.headD 0#8
  let eff := effectiveSet s.fe.variants mask
  if freeIdle s = false then refuse .visit .wrongState s
  else if 16 ≤ mask.toNat ∨ eff = [] then refuse .visit .badArgument s
  else if level s .clamped = false then refuse .visit .notClamped s
  else
    let s1 := s.onVC fun v =>
      { v with
        visitOpen := true, mask := mask.truncate 4, cutBegun := false, passCompleted := false, condPending := false }
    let s2 := s1.onFE fun f => { f with effective := eff }
    startMeasurement (setStation .measuring (accept .visit s2))

/-- The states MEASURE is acted on in (R4). -/
def measureAllowed (s : State) : Bool :=
  match s.vc.state with
  | .unmeasured => true
  | .aborted => true
  | .reconciling => !s.vc.passCompleted
  | .ready => !s.vc.passCompleted
  | _ => false

/-- What MEASURE drops: in RECONCILING and READY the plan and the queue, in ABORTED the uncertain surfaces
(R6, R128, R152, R156). -/
def measureDrops (s : State) : State :=
  match s.vc.state with
  | .aborted => s.onPC fun c => { c with surface := none, queueFinish := none }
  | .unmeasured => s
  | _ =>
    (dropPlan s).onPC fun c =>
      { c with queue := [], surface := none, queueFinish := none, planDeep := none, rebuildOwed := false }

/-- MEASURE (R4, R6). -/
def actMeasure (_p : List Byte) (s : State) : State :=
  if measureAllowed s = false then refuse .measure .wrongState s
  else if level s .clamped = false then refuse .measure .notClamped s
  else startMeasurement (setStation .measuring (accept .measure (measureDrops s)))

/-- CUT (R4, R9). -/
def actCut (_p : List Byte) (s : State) : State :=
  if s.vc.state ≠ .ready then refuse .cut .wrongState s
  else if s.pc.planDeep.isSome then refuse .cut .planTooDeep s
  else settle ((setStation .cutting (accept .cut s)).onVC fun v => { v with cutBegun := true })

/-- HOLD (R4, R153). -/
def actHold (_p : List Byte) (s : State) : State :=
  if s.vc.state ≠ .cutting then refuse .hold .wrongState s
  else settle (addHold .host (accept .hold s))

/-- RESUME (R4, R154, R175). -/
def actResume (_p : List Byte) (s : State) : State :=
  if s.vc.state ≠ .cutting then refuse .resume .wrongState s
  else if level s .guardClosed = false then refuse .resume .wrongState s
  else settle (clearHolds (accept .resume s))

/-- FEED(percent) (R4, R155). RATE to L before R: DESIGN CHOICE, log entry 39. -/
def actFeed (p : List Byte) (s : State) : State :=
  if s.vc.state ≠ .ready ∧ s.vc.state ≠ .cutting then refuse .feed .wrongState s
  else
    let v := clampTo 50 120 (field p 0 1)
    let s1 := (respond (.ok .feed (be1 v)) s).onPC fun c => { c with feed := v }
    match activePass s1 with
    | some a => rateOrder a .r (rateOrder a .l s1)
    | none => s1

/-- The states WITHDRAW is acted on in (R4). -/
def withdrawAllowed (s : State) : Bool :=
  freeOpen s ||
    (match s.vc.state with
     | .unmeasured | .reconciling | .ready | .finished | .aborted | .condemned => true
     | _ => false)

/-- The diameters of a WITHDRAW: even, and from Z to 1,300,000 (R15). -/
def withdrawOk (s : State) (d : Nat) : Bool :=
  decide (d % 2 = 0) && decide ((conf s).condemn ≤ d) && decide (d ≤ Config.maxDiameter)

/-- WITHDRAW (R4, R15, R80, R129). -/
def actWithdraw (p : List Byte) (s : State) : State :=
  let d : LR Nat := ⟨field p 0 4, field p 4 4⟩
  if withdrawAllowed s = false then refuse .withdraw .wrongState s
  else if p ≠ [] ∧ d.all (withdrawOk s) = false then refuse .withdraw .badArgument s
  else
    let s1 := if s.vc.visitOpen then visitEnd s else s
    let s2 := (accept .withdraw s1).onVC fun v => { v with visitOpen := true }
    if p = [] then setStation .excluded s2
    else
      let di : LR Int := d.map fun (x : Nat) => (x : Int)
      setStation .passive (formIntent di (changeCeiling .passive (some di) s2))

/-- RELEASE(force) (R4, R16). DEDUCED, log entry 18. -/
def actRelease (p : List Byte) (s : State) : State :=
  let force := field p 0 1
  let checked := s.vc.state = .finished ∨ s.vc.state = .aborted ∨ s.vc.state = .passive
  let plain := s.vc.state = .unmeasured ∨ s.vc.state = .reconciling ∨ s.vc.state = .ready ∨
    s.vc.state = .excluded ∨ s.vc.state = .condemned
  if ¬checked ∧ ¬plain then refuse .release .wrongState s
  else if 1 < force then refuse .release .badArgument s
  else if checked ∧ force = 0 ∧ groupBusy s = true then refuse .release .groupBusy s
  else
    let s1 := visitEnd (accept .release s)
    setStation (if s1.vc.settingsInvalid then .invalid else .idle) s1

/-- CALIBRATE(wheel, D_ref) (R4, R36): accepted, its response is deferred to the end of the calibration. -/
def actCalibrate (p : List Byte) (s : State) : State :=
  let dRef := field p 1 4
  if freeIdle s = false then refuse .calibrate .wrongState s
  else
    match wheelOf (field p 0 1) with
    | none => refuse .calibrate .badArgument s
    | some w =>
      if dRef % 2 = 1 ∨ dRef < Config.minDiameter ∨ Config.maxDiameter < dRef then refuse .calibrate .badArgument s
      else if level s .clamped = false then refuse .calibrate .notClamped s
      else
        startRun .calibrate
          ((s.onVC fun v => { v with calRunning := true }).onSS fun t => { t with calRun := some ⟨w, dRef, none⟩ })

end Sys2Proof.Machine
end

