-- ==== Sys2Proof/Machine/Formats.lean ====
section
/-! DEFINITION. The host records: the status record, the result record, the peer record and the pass record, byte by
byte (R116, R157, R195, R201). What R201 leaves open is chosen here: DESIGN CHOICE, log entry 19. -/

namespace Sys2Proof.Machine

open Sys2Proof

/-! ## Fields -/

/-- Yes/no marks packed into as few bytes as hold them, at least one (R195). -/
def marks (m : List Bool) : List Byte := markBytes (max 1 ((m.length + 7) / 8)) m

/-- A section: its length in bytes, the length field counted, its presence bytes, its fields (R201). DESIGN CHOICE, log entry 19. -/
def section_ (presence : List Bool) (fields : List Byte) : List Byte :=
  let body := marks presence ++ fields
  be2 (body.length + 2) ++ body

/-- An optional field of one, two or four bytes, 0 where absent (R195). -/
def opt1 (v : Option Nat) : List Byte := be1 (v.getD 0)
def opt2 (v : Option Nat) : List Byte := be2 (v.getD 0)
def opt4 (v : Option Nat) : List Byte := be4 (v.getD 0)

/-- A signed quantity or a diameter for each wheel, L before R. -/
def pair4 (v : LR Int) : List Byte := sbe4 v.l ++ sbe4 v.r

/-- An optional pair, 0 where absent. -/
def optPair4 (v : Option (LR Int)) : List Byte := pair4 (v.getD (.both 0))

/-- A time of the model in whole milliseconds (00_scope.md, Times and counts). DEDUCED, log entry 37. -/
def toMs (t : Nat) : Nat := t / Config.ms

/-- The code of a station state in the host records (R201). -/
def stateCode (st : StationState) : Nat :=
  match st with
  | .start => 0
  | .silenced => 15
  | x => (linkCode x).getD 0

/-- The code of a cut sub-state, 0 absent (R201). -/
def subCode : Option CutSub → Nat
  | none => 0
  | some .waitGroup => 1
  | some .waitSlot => 2
  | some .pass => 3
  | some .hold => 4

/-- The code of a run kind: its place in R35 (R195). With no run the field is absent, and 0. -/
def RunKind.code : RunKind → Nat
  | .none => 0
  | .measure => 0
  | .calibrate => 1

/-- The code of a PTU phase: its place in R53. -/
def PtuPhase.code : PtuPhase → Nat
  | .idle => 0
  | .sweepL => 1
  | .sweepR => 2
  | .complete => 3
  | .held => 4

/-- The code of a fit state: its place in R70, in the result record too, where R83 names FITTED and CONDEMNING alone.
DESIGN CHOICE, log entry 19. -/
def FitState.code : FitState → Nat
  | .empty => 0
  | .collecting => 1
  | .fitted => 2
  | .condemning => 3

/-- The code of a slot state: its place in R160. -/
def SlotState.code : SlotState → Nat
  | .none => 0
  | .waiting => 1
  | .armed => 2
  | .backoff => 3
  | .held => 4

/-- The code of a pending reason (R201). -/
def PendReason.code : PendReason → Nat
  | .measuring => 1
  | .stale => 2
  | .restarted => 3
  | .digest => 4
  | .noCeiling => 5

/-! ## The status record -/

/-- The visit section: R2 in its order; the variant mask is one byte of marks, bit k for variant k. DESIGN CHOICE, log
entry 19. -/
def visitSection (v : VC) : List Byte :=
  section_ [v.sub.isSome, v.returnState.isSome, v.homeTimer.isSome]
    (be1 (stateCode v.state) ++ be1 (subCode v.sub) ++ marks [v.visitOpen, v.settingsInvalid] ++ be1 v.mask.toNat ++
     marks [v.cutBegun, v.passCompleted, v.calRunning, v.condPending] ++ opt1 (v.returnState.map stateCode) ++
     opt2 (v.homeTimer.map toMs) ++ marks [v.homeTimeout])

/-- The number of bins present (R39). -/
def binsPresent (r : RcuWheel) : Nat := (r.bins.filter Option.isSome).length

/-- A wheel's sampling fields while the RCU is filling (R51). -/
def fillingFields (r : RcuWheel) : List Byte := be2 (binsPresent r) ++ be1 r.liftRev

/-- The run section: R35 while a run is on, R51 while the RCU is filling, R66 while a sweep is open, one presence bit for
the fields of each. DESIGN CHOICE, log entry 19. -/
def runSection (s : State) : List Byte :=
  let run := decide (s.rtu.run ≠ .none)
  let filling := decide (s.rcu.phase = .filling)
  let sweep := (openSweep s.ptu.phase).isSome
  let w := s.ptu.wheel.get ((openSweep s.ptu.phase).getD .l)
  section_ [run, filling, sweep]
    ((if run then be1 s.rtu.run.code ++ be1 s.rtu.attempt ++ be1 s.rtu.restarts else [0, 0, 0]) ++
     (if filling then fillingFields s.rcu.wheel.l ++ fillingFields s.rcu.wheel.r else List.replicate 6 0) ++
     (if sweep then
        be1 s.ptu.phase.code ++ opt2 (s.ptu.sweepTimer.map toMs) ++ be2 w.received ++ be2 w.binned ++ be2 w.liftoffs
      else List.replicate 9 0))

/-- The ceiling and fit section: R84. -/
def ceilingSection (f : FE) : List Byte :=
  section_ [f.ceil.value.isSome, f.ceil.condemning.isSome, f.fit.chosen.isSome]
    (be1 f.ceil.status.code ++ optPair4 f.ceil.value ++ be1 f.ceil.seq ++ marks [f.ceil.announced] ++
     optPair4 f.ceil.condemning ++ be1 f.fit.state.code ++ opt1 f.fit.chosen)

/-- The pass number of a CLAIM or a RELEASE, absent in the other kinds (R100). -/
def QFrame.pass : QFrame → Option Nat
  | .claim n => some n
  | .release n => some n
  | _ => none

/-- A queued frame: kind, class, pass number (R100). -/
def queueFields (f : QFrame) : List Byte := be1 f.kindCode ++ be1 f.cls ++ opt1 f.pass

/-- The presence bits of the link section: the pass number of each queued frame, the overflow frame, its pass number
(R100). DESIGN CHOICE, log entry 19. -/
def linkPresence (c : LC) : List Bool :=
  c.queue.map (fun e => e.frame.pass.isSome) ++ [c.overflow.isSome, (c.overflow.bind QFrame.pass).isSome]

/-- The link section: R100 in its order; TX_OVERFLOW is a mark, 1 for set. DESIGN CHOICE, log entry 19. -/
def linkSection (c : LC) : List Byte :=
  section_ (linkPresence c)
    (be1 c.rxErrors ++ be1 c.errRun ++ be2 c.errTotal ++ opt2 (c.listenOnly.map toMs) ++ be1 c.listenPeriods ++
     marks [c.txOverflow, c.silenced] ++ be1 c.expiryCount ++ be1 c.queue.length ++
     c.queue.flatMap (fun e => queueFields e.frame) ++ ((c.overflow.map queueFields).getD [0, 0, 0]) ++
     marks [(c.queue.head?.map (·.tx)).getD false])

/-- The peers section: the four counts of R116. -/
def peersSection (s : State) : List Byte :=
  let v := groupView s
  section_ []
    (be1 s.peers.length ++ be1 (v.filter fun e => e.cls == .member).length ++
     be1 (v.filter fun e => e.cls.isPending).length ++
     be1 (s.peers.filter fun e => e.freshness == .stale).length)

/-- The first of the four pairs of a member that is out of tolerance: own wheel, member's wheel, difference, and
the tolerance it exceeds (R130, R136). DESIGN CHOICE, log entry 19. -/
def firstPairOut (c : Settings) (sameBogie : Bool) (own t : LR Int) : Option (Wheel × Wheel × Int × Nat) :=
  ([(Wheel.l, Wheel.l), (.l, .r), (.r, .l), (.r, .r)].find? fun p => pairOut c sameBogie (own.get p.1) (t.get p.2)).map
    fun p =>
      let d := |own.get p.1 - t.get p.2|
      (p.1, p.2, d, if (c.tolCar : Int) < d then c.tolCar else c.tolBogie)

/-- The first member in station-number order with a pair out of tolerance (R136). -/
def violationShown (s : State) : Option (Fin 16 × Wheel × Wheel × Int × Nat) :=
  if s.ru.violation then
    s.ru.plan.bind fun p =>
      (groupView s).findSome? fun e =>
        (comparedIntent e).bind fun t =>
          (firstPairOut (conf s) (e.bogie == s.ss.straps.bogie) p.target t).map fun x => (e.station, x)
  else none

/-- The lowest-numbered pending entry with its reason (R136). -/
def firstPending (v : List ViewEntry) : Option (Fin 16 × PendReason) :=
  v.findSome? fun e =>
    match e.cls with
    | .pending why => some (e.station, why)
    | _ => none

/-- The plan's seven figures: minima, terms, cap (R136). -/
def planFields (p : Plan) : List Byte :=
  sbe4 p.minAxle ++ sbe4 p.minBogie ++ sbe4 p.minCar ++ sbe4 p.termAxle ++ sbe4 p.termBogie ++ sbe4 p.termCar ++
  sbe4 p.cap

/-- An intent: sequence, basis, targets (R136). -/
def intentFields (i : Intent) : List Byte := be1 i.seq ++ be1 i.basis ++ pair4 i.target

/-- The pair shown for a violation: the difference in 4 bytes, the tolerance in 2 (R136). DESIGN CHOICE, log entry 19. -/
def violationFields (x : Fin 16 × Wheel × Wheel × Int × Nat) : List Byte :=
  be1 x.1.val ++ be1 (Wheel.code x.2.1) ++ be1 (Wheel.code x.2.2.1) ++ sbe4 x.2.2.2.1 ++ be2 x.2.2.2.2

/-- The reconciliation section: R136 in its order. Fields present together share a presence bit: DESIGN CHOICE, log
entry 19. -/
def reconciliationSection (s : State) : List Byte :=
  let v := groupView s
  let first := firstPending v
  let shown := violationShown s
  section_
    [s.ru.plan.isSome, s.ru.intent.isSome, first.isSome, shown.isSome, s.ru.violationTimer.isSome,
     s.ru.peerWaitTimer.isSome]
    (be1 (if s.ru.plan.isSome then 1 else 0) ++ marks [s.ru.replanOwed] ++
     ((s.ru.plan.map planFields).getD (List.replicate 28 0)) ++ optPair4 (s.ru.plan.map (·.target)) ++
     ((s.ru.intent.map intentFields).getD (List.replicate 10 0)) ++ be1 s.ru.intentSeq ++
     be1 (v.filter fun e => e.cls.isPending).length ++ opt1 (first.map (·.1.val)) ++ opt1 (first.map (·.2.code)) ++
     marks [s.ru.violation] ++ ((shown.map violationFields).getD (List.replicate 9 0)) ++
     be1 s.ru.awaited.length ++ s.ru.awaited.flatMap (fun n => be1 n.val) ++
     opt2 (s.ru.violationTimer.map toMs) ++ opt4 (s.ru.peerWaitTimer.map toMs))

/-- The code of a pass kind (R201). -/
def PassKind.code : PassKind → Nat
  | .rough => 1
  | .finish => 2

/-- The code of a pass state (R201). -/
def PassState.code : PassState → Nat
  | .queued => 1
  | .active => 2
  | .done => 3
  | .aborted => 4

/-- The code of an abort reason (R201). -/
def AbortReason.code : AbortReason → Nat
  | .none => 0
  | .slideFaultL => 1
  | .slideFaultR => 2
  | .passTimeout => 3
  | .unclamped => 4
  | .estop => 5
  | .silenced => 6

/-- The time left on a pass timer that is not stopped (R157). -/
def PassTimer.left : PassTimer → Option Nat
  | .stopped => none
  | .running t => some t
  | .paused t => some t

/-- The code of a pass timer's state: its place in R137. -/
def PassTimer.code : PassTimer → Nat
  | .stopped => 0
  | .running _ => 1
  | .paused _ => 2

/-- The set of hold causes as marks: HOST, WATCHDOG, GUARD from bit 0 up, 1 for a cause in the set (R137, R157). DESIGN
CHOICE, DESIGN CHOICE, log entry 19. -/
def HoldCauses.list (h : HoldCauses) : List Bool := [h.host, h.watchdog, h.guard_]

/-- The passes section: head pass, its number and kind under one presence bit, time left, hold causes (R157). DESIGN
CHOICE, DESIGN CHOICE, log entry 19. -/
def passesSection (p : PC) : List Byte :=
  section_ [p.queue.head?.isSome, p.timer.left.isSome]
    (opt1 (p.queue.head?.map (·.number)) ++ opt1 (p.queue.head?.map (·.kind.code)) ++
     opt4 (p.timer.left.map toMs) ++ marks p.holds.list)

/-- The own position in the claim list, when the own entry is present (R170). -/
def ownPosition (s : State) : Option Nat := s.scu.claims.findIdx? fun c => c.station == ownStation s

/-- The code of the ask: its place in R160 (R195). -/
def askCode (ask : Bool) : Nat := if ask then 0 else 1

/-- The slots section: R170 in its order. -/
def slotsSection (s : State) : List Byte :=
  section_ [s.scu.claimPass.isSome, s.scu.backoff.isSome, (ownPosition s).isSome]
    (be1 s.scu.slot.code ++ be1 (askCode s.scu.ask) ++ opt1 s.scu.claimPass ++ opt2 (s.scu.backoff.map toMs) ++
     be1 s.scu.claims.length ++ opt1 (ownPosition s) ++ be1 (conf s).slots ++ marks [overSubscribed s] ++
     be1 s.scu.lost ++ be1 s.scu.yields)

/-- The six inputs in the order of R171. -/
def IIU.lines (u : IIU) : List InputLine := [u.clamped, u.guardClosed, u.estop, u.driveAtSpeed, u.homeL, u.homeR]

/-- The interlocks section: R179 in its order. A debounced level is a mark, 1 for active; the levels, the timers running
and the home latches are 14 marks in two bytes. DESIGN CHOICE, log entry 19. -/
def interlocksSection (s : State) : List Byte :=
  let home := if s.vc.state = .aborting then s.vc.homeTimer else none
  section_ [home.isSome]
    (marks (s.iiu.lines.map (·.level) ++ s.iiu.lines.map (·.timer.isSome) ++ [s.iiu.latch.l, s.iiu.latch.r]) ++
     opt2 (home.map toMs) ++ marks [s.vc.homeTimeout])

/-- The status record (R201). -/
def statusRecord (s : State) : List Byte :=
  visitSection s.vc ++ runSection s ++ ceilingSection s.fe ++ linkSection s.lc ++ peersSection s ++
  reconciliationSection s ++ passesSection s.pc ++ slotsSection s ++ interlocksSection s

/-! ## The result record -/

/-- The start section: R194 in its order; the fourth link-rate combination reads as 125 kbit/s with its note (R192). -/
def startSection (f : StartFields) : List Byte :=
  let unused := decide (f.straps.linkRate.val = 3)
  section_ []
    (be1 (match f.kind with
      | .powerOn => 0
      | .resetLine => 1) ++
     be1 f.straps.station.val ++ be1 f.straps.car.val ++ be1 f.straps.bogie.val ++
     be1 (if unused then 0 else f.straps.linkRate.val) ++ be1 (if f.straps.portFast then 1 else 0) ++
     marks [unused] ++ be1 (if f.good then 0 else 1) ++ be1 f.sums.1 ++ be1 f.sums.2 ++ be1 f.found.1 ++
     be1 f.found.2 ++ be1 f.changed.length ++ f.changed.flatMap be1 ++ be2 f.digest.toNat ++
     f.verdicts.flatMap fun v => be1 v.code)

/-- A wheel's fields of the revolution timing section: window counts, slip test, diameter (R35). -/
def timingWheel (win : List Nat) (t : Option SlipResult) (d : Option Nat) : List Byte :=
  be1 win.length ++ win.flatMap be4 ++ opt4 (t.map (·.total)) ++ opt4 (t.map (·.mean)) ++ opt4 (t.map (·.spread)) ++
  opt4 (t.map (·.allowance)) ++ opt4 d

/-- The revolution timing section: R35 in its order; the first presence bit says that the section is written, the four
figures of a slip test share one, and an empty record has no field but its presence byte. DESIGN CHOICE, log entry 19. -/
def timingSection : Option RtuResult → List Byte
  | none => section_ [false] []
  | some r =>
    section_ [true, r.period.isSome, r.slip.l.isSome, r.diameter.l.isSome, r.slip.r.isSome, r.diameter.r.isSome]
      (be1 r.run.code ++ be1 r.attempts ++ be1 r.reason.code ++ be1 r.restarts ++ marks [r.clampSummary] ++
       opt4 r.period ++ timingWheel r.window.l r.slip.l r.diameter.l ++ timingWheel r.window.r r.slip.r r.diameter.r)

/-- The first absent bin (R51). -/
def firstAbsent (r : RcuWheel) : Option Nat := r.bins.findIdx? Option.isNone

/-- The bin of an extreme value: the lowest index where it stands (R51). -/
def binWith (v : Int) (r : RcuWheel) : Option Nat := r.bins.findIdx? fun b => b == some v

/-- The largest and the smallest bin value. -/
def largest (vs : List Int) : Int := vs.foldl max (vs.headD 0)
def smallest (vs : List Int) : Int := vs.foldl min (vs.headD 0)

/-- The bins of the extremes, when the runout was computed (R51). -/
def binLargest (r : RcuWheel) : Option Nat := r.runout.bind fun _ => binWith (largest (binValues r)) r
def binSmallest (r : RcuWheel) : Option Nat := r.runout.bind fun _ => binWith (smallest (binValues r)) r

/-- A wheel's fields of the runout section, the map of bins present last (R51, R201). DESIGN CHOICE, log entry 19. -/
def runoutWheel (r : RcuWheel) : List Byte :=
  sbe4 (r.runout.getD 0) ++ be2 (binsPresent r) ++ opt1 (firstAbsent r) ++ opt1 (binLargest r) ++
  opt1 (binSmallest r) ++ be2 r.liftWindow ++ be1 r.liftMost ++ markBytes 32 (r.bins.map Option.isSome)

/-- A wheel's presence bits of the runout section. -/
def runoutPresence (r : RcuWheel) : List Bool :=
  [r.runout.isSome, (firstAbsent r).isSome, (binLargest r).isSome, (binSmallest r).isSome]

/-- The runout section (R51), its first presence bit as in the timing section. DESIGN CHOICE, log entry 19. -/
def runoutSection : Option (LR RcuWheel) → List Byte
  | none => section_ [false] []
  | some p => section_ (true :: (runoutPresence p.l ++ runoutPresence p.r)) (runoutWheel p.l ++ runoutWheel p.r)

/-- The verdict, the failing test by its place in R62, and its index or number (R66). -/
def verdictFields : TraceVerdict → List Byte
  | .none => [0, 0, 0]
  | .complete => [1, 0, 0]
  | .tapingPoint => [2, 0, 0]
  | .flangeZone i => [2, 1] ++ be1 i
  | .tooManyAbsent n => [2, 2] ++ be1 n

/-- The presence bits of a verdict: its failing test, its index or number. -/
def verdictPresence : TraceVerdict → List Bool
  | .none => [false, false]
  | .complete => [false, false]
  | .tapingPoint => [true, false]
  | .flangeZone _ => [true, true]
  | .tooManyAbsent _ => [true, true]

/-- The sweep of a wheel has ended: its record has its verdict (R61 to R63). -/
def PtuWheel.sweepEnded (p : PtuWheel) : Bool := decide (p.verdict ≠ .none)

/-- A grid point: count, value, height (R201). -/
def pointFields (p : Point) : List Byte := be2 p.count ++ sbe4 (p.value.getD 0) ++ sbe4 (p.height.getD 0)

/-- A wheel's fields of the profile section (R66). -/
def profileWheel (taping flange : Nat) (p : PtuWheel) : List Byte :=
  verdictFields p.verdict ++ be1 (120 - absentCount p.points) ++ be1 (absentCount p.points) ++
  p.points.flatMap pointFields ++ be2 p.received ++ be2 p.outOfRange ++ be2 p.liftoffs ++ be1 p.reseats ++
  be2 p.outside ++ be2 p.binned ++ be2 p.saturated ++ be2 (if p.sweepEnded then p.sweepTime else 0) ++ be1 taping ++
  be1 flange

/-- A wheel's presence bits of the profile section: the failing test, its index or number, the sweep time. -/
def profilePresence (p : PtuWheel) : List Bool := verdictPresence p.verdict ++ [p.sweepEnded]

/-- The profile section (R66), its first presence bit as in the timing section, the failing wheel's bit last.
DESIGN CHOICE, log entry 19. -/
def profileSection : Option (PTU × Nat × Nat) → List Byte
  | none => section_ [false] []
  | some (u, taping, flange) =>
    section_ (true :: (profilePresence u.wheel.l ++ profilePresence u.wheel.r ++ [u.failing.isSome]))
      (profileWheel taping flange u.wheel.l ++ profileWheel taping flange u.wheel.r ++
       opt1 (u.failing.map Wheel.code) ++ be2 u.stray)

/-- A variant's results: excesses, depths, axle depth; the set of the section names the variants, in its order (R83). -/
def variantFields (f : VariantFit) : List Byte :=
  pair4 f.excess ++ pair4 f.depth ++ sbe4 f.axle

/-- The grid points at which a variant's excesses stand (R83). -/
def variantPoints (f : VariantFit) : List Byte := be1 f.at_.l ++ be1 f.at_.r

/-- The fit section: the inputs that had arrived, then R83 in its order; its first presence bit as in the timing
section. DESIGN CHOICE, log entry 19. -/
def fitSection : Option FeResult → List Byte
  | none => section_ [false] []
  | some r =>
    section_
      [true, r.fit.diameter.isSome, r.fit.runout.isSome, r.fit.chosen.isSome, r.thickness.isSome,
       r.fit.ceiling.isSome, r.held.isSome]
      (optPair4 r.fit.diameter ++ optPair4 r.fit.runout ++
       marks ((List.range 4).map fun k => r.effective.contains k) ++ be1 r.fit.results.length ++
       r.fit.results.flatMap variantFields ++ r.fit.results.flatMap variantPoints ++ opt1 r.fit.chosen ++
       opt2 r.thickness ++ optPair4 r.fit.ceiling ++ optPair4 r.held ++ be1 r.fit.state.code)

/-- The result record, with the replan count at its current value (R136, R201). -/
def resultRecord (s : State) : List Byte :=
  startSection s.result.start ++ timingSection s.result.rtu ++ runoutSection s.result.rcu ++
  profileSection s.result.ptu ++ fitSection s.result.fe ++ section_ [] (be1 s.ru.replanCount)

/-! ## The peer record -/

/-- The placement of an entry: own car, outside, unplaced (R201). -/
def placementCode (ownCar : Fin 16) (e : PeerEntry) : Nat :=
  match e.st with
  | some p => if p.car = ownCar then 1 else 2
  | none => 3

/-- The class of an own-car entry, none for another (R116). -/
def shownClass (ownCar : Fin 16) (e : PeerEntry) : Option PeerClass := (viewEntry ownCar e).map (·.cls)

/-- The code of a class (R201). -/
def classCode : Option PeerClass → Nat
  | none => 0
  | some .notMember => 1
  | some (.pending _) => 2
  | some .member => 3

/-- The code of a pending reason, 0 for none (R201). -/
def pendingCode : Option PeerClass → Nat
  | some (.pending why) => why.code
  | _ => 0

/-- The code of a freshness (R201). -/
def Freshness.code : Freshness → Nat
  | .fresh => 1
  | .stale => 2
  | .restarted => 3

/-- The greatest age (R103). -/
def ageMax : Nat := 65535

/-- A peer entry's 38 bytes (R201). -/
def peerRecord (ownCar : Fin 16) (e : PeerEntry) : List Byte :=
  let c := shownClass ownCar e
  be1 e.station.val ++ marks [e.st.isSome, e.ceiling.isSome, e.intent.isSome] ++
  ((e.st.map fun p =>
      be1 p.car.val ++ be1 p.bogie.val ++ be1 (stateCode p.status) ++ be1 p.passesDone ++ be1 p.passesTotal ++
      be2 p.digest.toNat).getD (List.replicate 7 0)) ++
  marks [(e.st.map (·.digestMatch)).getD false, e.mismatchReported, (e.st.map (·.slotHeld)).getD false,
         ceilingOutdated e, intentOutdated e] ++
  opt1 (e.st.map (·.annCeiling)) ++ opt1 (e.st.map (·.annIntent)) ++
  opt1 (e.ceiling.map (·.seq)) ++ opt1 (e.ceiling.map (·.status.code)) ++ optPair4 (e.ceiling.bind (·.value)) ++
  opt1 (e.intent.map (·.seq)) ++ opt1 (e.intent.map (·.basis)) ++ optPair4 (e.intent.map (·.target)) ++
  be2 (min ageMax (toMs e.age)) ++ be1 e.freshness.code ++ be1 (placementCode ownCar e) ++ be1 (classCode c) ++
  be1 (pendingCode c)

/-- An entry of the claim list: station, pass number or 0, own mark (R201). -/
def claimRecord (own : Fin 16) (c : Claim) : List Byte :=
  be1 c.station.val ++ opt1 c.pass ++ marks [c.station == own]

/-- READ_PEERS data (R116, R170, R201). -/
def peersData (s : State) : List Byte :=
  be1 s.peers.length ++ s.peers.flatMap (peerRecord s.ss.straps.car) ++ be1 s.scu.claims.length ++
  s.scu.claims.flatMap (claimRecord (ownStation s))

/-! ## The pass record -/

/-- A pass record's 17 bytes (R201). -/
def passRecord (p : Pass) : List Byte :=
  be1 p.number ++ be1 p.kind.code ++ be1 p.state.code ++ be1 p.reason.code ++
  marks [ordered p .l, ordered p .r, p.slideDone.l, p.slideDone.r] ++ be2 p.depth.l ++ be2 p.depth.r ++
  pair4 p.expected

/-- The controller's section of READ_PASSES: R157 from the surfaces on, the rough passes required in 2 bytes.
DESIGN CHOICE, log entry 19. -/
def controllerSection (p : PC) : List Byte :=
  section_ [p.surface.isSome, p.queueFinish.isSome, p.chosen.isSome, p.planDeep.isSome, p.timer.left.isSome]
    (optPair4 p.surface ++ marks [p.uncertain] ++ optPair4 p.queueFinish ++ marks [p.finishDone] ++ opt1 p.chosen ++
     marks [p.planDeep.isSome] ++ opt2 p.planDeep ++ marks (p.rebuildOwed :: p.holds.list) ++ be1 p.feed ++
     be1 p.timer.code ++ opt4 (p.timer.left.map toMs) ++ be1 p.passesDone ++ be1 p.passesVisit ++ be1 p.stray)

/-- READ_PASSES data (R157, R201). -/
def passesData (p : PC) : List Byte :=
  be1 p.queue.length ++ p.queue.flatMap passRecord ++ marks [p.lastEnded.isSome] ++
  ((p.lastEnded.map passRecord).getD (List.replicate 17 0)) ++ controllerSection p

end Sys2Proof.Machine
end

