-- ==== Sys2Proof/Machine/Port.lean ====
section
/-! DEFINITION. The Cell Port and the host's side of the Settings Store: taking a command, the settings and read
commands, writes and their readback, the watchdog and the unlock (chapter 12), and the meanings of the sixteen host
commands and of the port's own events. -/

namespace Sys2Proof.Machine

open Sys2Proof

/-- What a command comes to. -/
abbrev Result := Host.Outcome State Fault Refusal

/-! ## Settings commands (R188 to R190) -/

/-- UNLOCK(area) (R189). DEDUCED, log entry 25. -/
def actUnlock (p : List Byte) (s : State) : State :=
  if freeOpen s = false then refuse .unlock .wrongState s
  else
    match areaOf (field p 0 1) with
    | none => refuse .unlock .badArgument s
    | some a => accept .unlock (s.onCP fun c => { c with unlock := .opened a Config.unlockTime })

/-- The unlock is open for an area. -/
def unlockedFor (a : Area) : UnlockState → Bool
  | .opened b _ => b == a
  | .closed => false

/-- WRITE_SETTINGS(area, offset, data), the unlock state as it was before the command closed it (R190). Its response
comes with the end of the readback. -/
def actWriteSettings (unlock : UnlockState) (p : List Byte) (s : State) : State :=
  let off := field p 1 2
  let data := p.drop 3
  if freeOpen s = false then refuse .writeSettings .wrongState s
  else
    match areaOf (field p 0 1) with
    | none => refuse .writeSettings .badArgument s
    | some a =>
      if data = [] ∨ 244 < data.length ∨ areaSize a < off + data.length then refuse .writeSettings .badArgument s
      else if unlockedFor a unlock = false then refuse .writeSettings .locked s
      else
        let b := beginWrite s.ss.image (areaBase a + off) data
        s.onSS fun t => { t with image := b.1, hostWrite := some b.2 }

/-- The areas READ_SETTINGS names (R188, R198). -/
inductive ReadArea where
  | general | variants | checksum
deriving DecidableEq, Repr

/-- The area that an area byte names for a read (R198). -/
def readAreaOf : Nat → Option ReadArea
  | 1 => some .general
  | 2 => some .variants
  | 3 => some .checksum
  | _ => none

/-- The sources READ_SETTINGS names (R188). -/
inductive ReadSource where
  | image | inForce
deriving DecidableEq, Repr

/-- The source that a source byte names (R198). -/
def readSourceOf : Nat → Option ReadSource
  | 1 => some .image
  | 2 => some .inForce
  | _ => none

/-- The image offset and the size of an area (R188, R200). -/
def readAreaPlace : ReadArea → Nat × Nat
  | .general => (0, 48)
  | .variants => (48, 976)
  | .checksum => (1024, 2)

/-- A byte of the image as a read returns it: 0 for a spare byte (R187). -/
def imageRead (m : Image) (a : Nat) : Byte := if isSpare a then 0#8 else imageGet m a

/-- The bytes of an area from a source (R188). -/
def areaBytes (src : ReadSource) (a : ReadArea) (s : State) : List Byte :=
  match src, a with
  | .image, a => (List.range (readAreaPlace a).2).map fun i => imageRead s.ss.image ((readAreaPlace a).1 + i)
  | .inForce, .general => s.ss.startCopy.bytes
  | .inForce, .variants => s.fe.variants.flatMap Variant.bytes
  | .inForce, .checksum => be1 s.result.start.found.1 ++ be1 s.result.start.found.2

/-- READ_SETTINGS(source, area, offset, count) (R188). -/
def actReadSettings (p : List Byte) (s : State) : State :=
  let off := field p 2 2
  let count := field p 4 1
  if s.ss.calWrite.isSome then refuse .readSettings .wrongState s
  else
    match readSourceOf (field p 0 1), readAreaOf (field p 1 1) with
    | some src, some a =>
      if count = 0 ∨ 244 < count ∨ (readAreaPlace a).2 < off + count then refuse .readSettings .badArgument s
      else respond (.ok .readSettings (((areaBytes src a s).drop off).take count)) s
    | _, _ => refuse .readSettings .badArgument s

/-! ## Read commands (R116, R157, R183, R185) -/

/-- All sixteen flags cleared (R183). -/
def clearStatus (s : State) : State := s.onCP fun c => { c with status := 0#16 }

/-- READ_STATUS: the word and the record, then every flag cleared (R183). -/
def actReadStatus (s : State) : State :=
  clearStatus (respond (.ok .readStatus (be2 s.cp.status.toNat ++ statusRecord s)) s)

/-- READ_RESULT: the record, the mark cleared; OLD_RESULT after the response if it was already clear (R185). -/
def actReadResult (s : State) : State :=
  let s1 := respond (.ok .readResult (resultRecord s)) s
  if s.cp.newResult then s1.onCP fun c => { c with newResult := false } else latch .oldResult s1

/-- READ_PEERS (R116, R170). -/
def actReadPeers (s : State) : State := respond (.ok .readPeers (peersData s)) s

/-- READ_PASSES (R157). -/
def actReadPasses (s : State) : State := respond (.ok .readPasses (passesData s.pc)) s

/-! ## Taking a command (R181, R182, R184, R186, R189) -/

/-- A command acted on; `unlock` is the unlock state before it was taken. -/
def actCommand (c : HostCmd) (p : List Byte) (unlock : UnlockState) (s : State) : State :=
  match c with
  | .visit => actVisit p s
  | .measure => actMeasure p s
  | .cut => actCut p s
  | .hold => actHold p s
  | .resume => actResume p s
  | .feed => actFeed p s
  | .withdraw => actWithdraw p s
  | .release => actRelease p s
  | .calibrate => actCalibrate p s
  | .unlock => actUnlock p s
  | .writeSettings => actWriteSettings unlock p s
  | .readSettings => actReadSettings p s
  | .readStatus => actReadStatus s
  | .readResult => actReadResult s
  | .readPeers => actReadPeers s
  | .readPasses => actReadPasses s

/-- What every command taken does, whatever its response: the watchdog runs from 0, the unlock closes
(R186, R189). -/
def commandTaken (s : State) : State :=
  s.onCP fun c =>
    { c with unlock := .closed, watchdog := if (conf s).watch = 0 then c.watchdog else .running 0 }

/-- A command taken: answered with STATUS while a critical flag is set, refused for its length, or acted on
(R182, R184). DEDUCED, log entry 25. -/
def takeCommand (c : HostCmd) (p : List Byte) (s : State) : State :=
  let s1 := commandTaken s
  if c ≠ .readStatus ∧ anyCritical s.cp.status = true then clearStatus (respond (.status c s.cp.status) s1)
  else if lengthFits c p.length = false then refuse c .badArgument s1
  else actCommand c p s.cp.unlock s1

/-- A frame discarded: UNKNOWN_MESSAGE latched, no response (R180, R181). -/
def discardFrame (s : State) : State := latch .unknownMessage (s.onCP fun c => { c with rxBuffer := [] })

/-- A command complete: taken at once, or it waits while a WRITE_SETTINGS is being taken, or it is discarded because
one already waits (R181). -/
def cpSubmit (c : HostCmd) (p : List Byte) (s : State) : State :=
  if s.ss.hostWrite.isSome then
    if s.cp.waiting.isSome then discardFrame s else s.onCP fun t => { t with waiting := some (c, p) }
  else takeCommand c p s

/-- The command that waits is taken (R181). -/
def takeWaiting (s : State) : State :=
  match s.cp.waiting with
  | some (c, p) => takeCommand c p (s.onCP fun t => { t with waiting := none })
  | none => s

/-! ## Readback (R190, R191) -/

/-- Whether the readback found a byte otherwise than written: the image changes with it. DEDUCED, log entry 30. -/
def readbackFails (m : Image) (w : StoreWrite) (misread : List (Nat × Byte)) : Bool :=
  decide (afterReadback m w misread ≠ m)

/-- The readback of a WRITE_SETTINGS ends (R190 step 3). DESIGN CHOICE, log entry 6. -/
def hostWriteEnd (misread : List (Nat × Byte)) (s : State) : State :=
  match s.ss.hostWrite with
  | some w =>
    let bad := readbackFails s.ss.image w misread
    let s1 := s.onSS fun t => { t with image := afterReadback t.image w misread, hostWrite := none }
    takeWaiting (if bad then refuse .writeSettings .storeFault s1 else accept .writeSettings s1)
  | none => s

/-- The readback of a calibration write ends (R37, R191). DEDUCED, log entry 12. -/
def calWriteEnd (misread : List (Nat × Byte)) (s : State) : State :=
  match s.ss.calWrite, s.ss.calRun with
  | some w, some c =>
    let bad := readbackFails s.ss.image w misread
    let s1 := s.onSS fun t => { t with image := afterReadback t.image w misread, calWrite := none }
    if bad then endCalibration .none (.refused .calibrate .storeFault) s1
    else endCalibration .none (.ok .calibrate (calData c .none (calTotal s c.wheel) (some ((conf s).dm.get c.wheel)))) s1
  | _, _ => s

/-! ## The meanings: host commands -/

/-- VISIT (R4, R5). -/
def execVisit (p : List Byte) (s : State) : Result := .next (cpSubmit .visit p s)

/-- MEASURE (R4, R6). -/
def execMeasure (p : List Byte) (s : State) : Result := .next (cpSubmit .measure p s)

/-- CUT (R4, R9). -/
def execCut (p : List Byte) (s : State) : Result := .next (cpSubmit .cut p s)

/-- HOLD (R4, R153). -/
def execHold (p : List Byte) (s : State) : Result := .next (cpSubmit .hold p s)

/-- RESUME (R4, R154). -/
def execResume (p : List Byte) (s : State) : Result := .next (cpSubmit .resume p s)

/-- FEED (R4, R155). -/
def execFeed (p : List Byte) (s : State) : Result := .next (cpSubmit .feed p s)

/-- WITHDRAW (R4, R15). -/
def execWithdraw (p : List Byte) (s : State) : Result := .next (cpSubmit .withdraw p s)

/-- RELEASE (R4, R16). -/
def execRelease (p : List Byte) (s : State) : Result := .next (cpSubmit .release p s)

/-- CALIBRATE (R4, R36). -/
def execCalibrate (p : List Byte) (s : State) : Result := .next (cpSubmit .calibrate p s)

/-- UNLOCK (R189). -/
def execUnlock (p : List Byte) (s : State) : Result := .next (cpSubmit .unlock p s)

/-- WRITE_SETTINGS (R190). -/
def execWriteSettings (p : List Byte) (s : State) : Result := .next (cpSubmit .writeSettings p s)

/-- READ_SETTINGS (R188). -/
def execReadSettings (p : List Byte) (s : State) : Result := .next (cpSubmit .readSettings p s)

/-- READ_STATUS (R183). -/
def execReadStatus (p : List Byte) (s : State) : Result := .next (cpSubmit .readStatus p s)

/-- READ_RESULT (R185). -/
def execReadResult (p : List Byte) (s : State) : Result := .next (cpSubmit .readResult p s)

/-- READ_PEERS (R116). -/
def execReadPeers (p : List Byte) (s : State) : Result := .next (cpSubmit .readPeers p s)

/-- READ_PASSES (R157). -/
def execReadPasses (p : List Byte) (s : State) : Result := .next (cpSubmit .readPasses p s)

/-! ## The meanings: the port's events -/

/-- No room to wait: a WRITE_SETTINGS is being taken and a command waits (R181). -/
def noRoom (s : State) : Bool := s.ss.hostWrite.isSome && s.cp.waiting.isSome

/-- Bytes join the frame being assembled (R180): a frame they complete is a command, or is discarded; one still
incomplete stays in the buffer, its gap at 0. Bytes that run past the end of the frame are no event of the line and
change nothing. DESIGN CHOICE, log entry 29. -/
def receiveBytes (bs : List Byte) (s : State) : State :=
  let buf := s.cp.rxBuffer ++ bs
  match cellCommand buf with
  | some (c, p) => cpSubmit c p (s.onCP fun t => { t with rxBuffer := [] })
  | none =>
    if cellComplete buf then discardFrame s
    else if cellPartial buf then s.onCP fun t => { t with rxBuffer := buf, rxGap := 0 }
    else s

/-- DISCARDED_FRAME (R180, R181): a complete frame that is no command, or a command with no room to wait, is discarded,
and another complete frame is not this event (DESIGN CHOICE, log entry 13). Bytes that are no complete frame of their
own join the frame being assembled (DESIGN CHOICE, log entry 29). -/
def execDiscardedFrame (frame : List Byte) (s : State) : Result :=
  .next
    (if cellComplete frame then (if (cellCommand frame).isNone || noRoom s then discardFrame s else s)
     else if frame.isEmpty then s
     else receiveBytes frame s)

/-- FRAME_GAP_TIMEOUT (R180): the partial frame, with the bytes that the command brings, is discarded.
DESIGN CHOICE, log entries 13 and 29. -/
def execFrameGapTimeout (received : List Byte) (s : State) : Result :=
  .next (if cellPartial (s.cp.rxBuffer ++ received) then discardFrame s else s)

/-- SETTINGS_WRITE_DONE (R190). -/
def execSettingsWriteDone (misread : List (Nat × Byte)) (s : State) : Result := .next (hostWriteEnd misread s)

/-- CALIBRATION_WRITE_DONE (R191). -/
def execCalibrationWriteDone (misread : List (Nat × Byte)) (s : State) : Result := .next (calWriteEnd misread s)

/-- UNLOCK_TIMER_EXPIRY (R189). -/
def execUnlockTimerExpiry (s : State) : Result := .next (s.onCP fun c => { c with unlock := .closed })

/-- WATCHDOG_EXPIRY (R186): from RUNNING, EXPIRED with COMM_TIMEOUT, and the WATCHDOG cause if a pass is ACTIVE. -/
def execWatchdogExpiry (s : State) : Result :=
  match s.cp.watchdog with
  | .running _ =>
    let s1 := latch .commTimeout (s.onCP fun c => { c with watchdog := .expired })
    .next (if (activePass s1).isSome then settle (addHold .watchdog s1) else s1)
  | _ => .next s

end Sys2Proof.Machine
end

