-- ==== Sys2Proof/Machine/Line.lean ====
section
/-! DEFINITION. The station's side of the pit link: the announce timer, transmission, reception and delivery, and
the reports to the Slot Claim Unit and the Reconciliation Unit that follow from them (chapters 6, 7, 8 and 10), with
the meanings of the link's events. -/

namespace Sys2Proof.Machine

open Sys2Proof

/-! ## The announce timer (R91) -/

/-- The announce period in the unit of the counter. -/
def announcePeriod (s : State) : Nat := (conf s).announce * Config.ms

/-- The refresh of the expiry whose count is 4 (R91). -/
def refresh (s : State) : State :=
  let s1 := if s.fe.ceil.status = .none then s else queueFrame (ceilingFrame s) s
  match s.ru.intent with
  | some i => queueFrame (.intent i.seq i.basis i.target) s1
  | none => s1

/-- An expiry after the listen period (R91). -/
def announce (s : State) : State :=
  let s1 := queueFrame .state (s.onLC fun c => { c with expiryCount := c.expiryCount % 4 + 1 })
  if s1.lc.expiryCount = 4 then refresh s1 else s1

/-- An expiry in START: the second ends the listen period (R3, R91). -/
def listenExpiry (s : State) : State :=
  let s1 := s.onLC fun c => { c with listenLeft := c.listenLeft - 1 }
  if s1.lc.listenLeft = 0 then endStart s1 else s1

/-- ANNOUNCE_TIMER_EXPIRY (R91): the timer reloads at P; stopped, it does not expire.
DESIGN CHOICE, log entry 6. -/
def execAnnounceTimerExpiry (s : State) : Result :=
  if s.lc.announce.isNone then .next s
  else
    let s1 := s.onLC fun c => { c with announce := some (announcePeriod s) }
    .next (if s.vc.state = .start then listenExpiry s1 else announce s1)

/-! ## Transmission (R87 to R90) -/

/-- The STATE fields as they stand (R90, R157). -/
def ownState (s : State) : PeerState where
  car := s.ss.straps.car
  bogie := s.ss.straps.bogie
  status := s.vc.state
  passesDone := s.pc.passesDone
  passesTotal := s.pc.passesDone + s.pc.queue.length
  digest := s.ss.digest
  digestMatch := true
  annCeiling := if s.fe.ceil.status = .none then 0 else s.fe.ceil.seq
  annIntent := match s.ru.intent with
    | some i => i.seq
    | none => 0
  slotHeld := decide (s.scu.slot = .held)

/-- The frame a queued entry puts on the line (R86, R90, R197). -/
def encodeFrame (f : QFrame) (s : State) : LinkFrame :=
  let n := ownStation s
  match f with
  | .claim p => makeFrame .claim n (be1 p)
  | .release p => makeFrame .release n (be1 p)
  | .ceiling q st v => makeFrame .ceiling n (ceilingPayload ⟨q, st, v⟩)
  | .intent q b t => makeFrame .intent n (intentPayload ⟨q, b, t⟩)
  | .state => makeFrame .state n (statePayload (ownState s))

/-- Transmission is allowed: not in START, not silenced, not listen-only, nothing on the line (R89, R99, R101). -/
def mayTransmit (s : State) : Bool :=
  decide (s.vc.state ≠ .start) && !s.lc.silenced && s.lc.listenOnly.isNone && (txEntry s.lc).isNone

/-- TRANSMIT_START (R87): the head frame is assembled and begun. -/
def execTransmitStart (s : State) : Result :=
  match s.lc.queue with
  | e :: t =>
    .next
      (if mayTransmit s then
        s.onLC fun c =>
          { c with queue := { e with tx := true, replaced := false } :: t, onLine := some (encodeFrame e.frame s) }
       else s)
  | [] => .next s

/-- The waiting withdrawal of the CLAIM in transmission, if any (R96). -/
def txWithdraw (c : LC) : Option Withdraw := (txEntry c).bind (·.withdraw)

/-- The transmission ended unsent: the frame stays for the retry, but for a CLAIM whose withdrawal waited, which is
removed and answered WITHDRAWN (R87, R88, R96, R165); an ask that has come since a reservation was given up is then
tested (R163). DEDUCED, log entry 22. -/
def transmissionFailed (s : State) : State :=
  let s1 := s.onLC lcTxFailed
  match txWithdraw s.lc with
  | none => s1
  | some why =>
    let s2 := s1.onLC lcDropWithdrawn
    if why = .lost ∧ s2.scu.slot = .armed then toBackoff s2 else slotTest s2

/-- ARBITRATION_LOST (R87): at a bit the station sent recessive. DESIGN CHOICE, log entry 23. -/
def execArbitrationLost (bit : Fin 6) (s : State) : Result :=
  match s.lc.onLine with
  | some f => .next (if arbitrationBit f bit then transmissionFailed s else s)
  | none => .next s

/-- The own-frame errors in a row that make the station listen-only (R89). -/
def errorRunLimit : Nat := 16

/-- The counts of an own-frame error (R88). -/
def countFrameError (c : LC) : LC :=
  { c with errRun := min errorRunLimit (c.errRun + 1), errTotal := satInc 65535 c.errTotal }

/-- The sixteenth error in a row: listen-only for 2 s (R89). -/
def goListenOnly (s : State) : State :=
  latch .linkSilent (s.onLC fun c =>
    { c with listenOnly := some Config.listenOnlyTime, listenPeriods := satInc 255 c.listenPeriods })

/-- OWN_FRAME_ERROR (R88, R89). -/
def execOwnFrameError (s : State) : Result :=
  if s.lc.onLine.isNone then .next s
  else
    let s1 := transmissionFailed (s.onLC countFrameError)
    .next (if errorRunLimit ≤ s1.lc.errRun then goListenOnly s1 else s1)

/-- LISTEN_ONLY_END (R89). -/
def execListenOnlyEnd (s : State) : Result :=
  .next (if s.lc.listenOnly.isSome then s.onLC fun c => { c with listenOnly := none, errRun := 0 } else s)

/-- The report of the sending to the block that queued the frame (R88, R164). -/
def reportSent (e : QEntry) (s : State) : State :=
  match e.frame with
  | .claim n => settle (ownClaimSent n (e.withdraw == some .givenUp) s)
  | _ => s

/-- FRAME_SENT (R88): the frame leaves the queue, or stays with its new content (R94).
DESIGN CHOICE, log entry 6. -/
def execFrameSent (s : State) : Result :=
  match s.lc.onLine, txEntry s.lc with
  | some f, some e =>
    let s1 := s.onOut fun t => { t with sent := t.sent ++ [f] }
    .next (reportSent e (s1.onLC fun c => lcTxSent { c with errRun := 0 }))
  | _, _ => .next s

/-! ## Reports of the Peer Table (R114, R115) -/

/-- The RU's part of a report: a first plan, or a re-plan where an input changed or one is owed (R119, R125). -/
def ruPlans (before : List ViewEntry) (s : State) : State :=
  if planning s then
    match s.ru.plan with
    | none => firstPlan s
    | some _ =>
      if inputsChanged before (groupView s) || (s.ru.replanOwed && !anyPending (groupView s)) then
        handTargets (replan s)
      else s
  else s

/-- The report to the RU: plan, agreement findings, and the start conditions and the sub-state that read them (R114,
R119, R125, R132). It is made where the group view changed, and `told` where a rule has it made for what happened to an
own-car entry (R105, R110). Without a report the findings alone are kept current, where what they read of a member has
changed (R131, R132). -/
def ruReport (told : Bool) (before : List ViewEntry) (s : State) : State :=
  let now := groupView s
  if told = true ∨ before.map reportKey ≠ now.map reportKey then settle (agree (ruPlans before s))
  else if before.map checkKey ≠ now.map checkKey then settle (agree s)
  else s

/-- A peer's entry, new where it has none (R104). -/
def entryOf (n : Fin 16) (s : State) : PeerEntry := (findPeer n s.peers).getD (PeerEntry.new n)

/-- A peer's STATE taken (R107, R108, R112, R115). DEDUCED, log entry 16. -/
def deliverState (n : Fin 16) (p : PeerState) (s : State) : State :=
  let e := entryOf n s
  let s1 := s.onPeers (putPeer (takeState p e))
  let s2 := if mismatchLatches p e then latch .configMismatch s1 else s1
  let s3 := if restartFound e p.annCeiling then removePeerClaim n s2 else s2
  ruReport false (groupView s) (if p.slotHeld then appendHeldClaim n s3 else removePeerClaim n s3)

/-- A peer's CEILING taken (R109). -/
def deliverCeiling (n : Fin 16) (c : StoredCeiling) (s : State) : State :=
  ruReport false (groupView s) (s.onPeers (putPeer (takeCeilingFrame c (entryOf n s))))

/-- A peer's INTENT taken: one taken in an own-car entry is told to the RU (R110). -/
def deliverIntent (n : Fin 16) (i : Intent) (s : State) : State :=
  let e := entryOf n s
  ruReport (intentTaken i e && inOwnCar s.ss.straps.car e) (groupView s) (s.onPeers (putPeer (takeIntentFrame i e)))

/-- A peer's CLAIM taken: the entry, then the SCU (R98, R111, R161). DEDUCED, log entry 16. -/
def deliverClaim (n : Fin 16) (pass : Nat) (s : State) : State :=
  ruReport false (groupView s) (claimHeard n pass (s.onPeers (putPeer (touchPeer (entryOf n s)))))

/-- A peer's RELEASE taken: the entry, then the SCU (R98, R111, R161). DEDUCED, log entry 16. -/
def deliverRelease (n : Fin 16) (s : State) : State :=
  ruReport false (groupView s) (removePeerClaim n (s.onPeers (putPeer (touchPeer (entryOf n s)))))

/-! ## Reception (R97 to R99) -/

/-- A receive error counted (R97). -/
def receiveError (s : State) : State := s.onLC fun c => { c with rxErrors := satInc 255 c.rxErrors }

/-- A frame received: an error, a duplicate of the own number, or one to deliver (R97 to R99).
DESIGN CHOICE, log entry 13. -/
def receive (k : FrameKind) (f : LinkFrame) (deliver : State → State) (s : State) : State :=
  if goodAs k f = false then receiveError s
  else if f.station = ownStation s then (if s.lc.silenced then s else silence s)
  else deliver s

/-- RECEIVE_ERROR (R97). DESIGN CHOICE, log entry 13. -/
def execReceiveError (f : LinkFrame) (s : State) : Result := .next (if goodFrame f then s else receiveError s)

/-- STATE_RECEIVED (R107). -/
def execStateReceived (f : LinkFrame) (s : State) : Result :=
  .next (receive .state f
    (fun t => match readState t.ss.digest f.payload with
      | some p => deliverState f.station p t
      | none => t) s)

/-- CEILING_RECEIVED (R109). -/
def execCeilingReceived (f : LinkFrame) (s : State) : Result :=
  .next (receive .ceiling f
    (fun t => match readCeiling f.payload with
      | some c => deliverCeiling f.station c t
      | none => t) s)

/-- INTENT_RECEIVED (R110). -/
def execIntentReceived (f : LinkFrame) (s : State) : Result :=
  .next (receive .intent f
    (fun t => match readIntent f.payload with
      | some i => deliverIntent f.station i t
      | none => t) s)

/-- CLAIM_RECEIVED (R161). -/
def execClaimReceived (f : LinkFrame) (s : State) : Result :=
  .next (receive .claim f
    (fun t => match readPass f.payload with
      | some n => deliverClaim f.station n t
      | none => t) s)

/-- RELEASE_RECEIVED (R161). -/
def execReleaseReceived (f : LinkFrame) (s : State) : Result :=
  .next (receive .release f (deliverRelease f.station) s)

/-! ## Ages and wait timers -/

/-- The first age above 3P, in the unit of the counter (R105). DESIGN CHOICE, log entry 28. -/
def staleAge (s : State) : Nat := (3 * (conf s).announce + 1) * Config.ms

/-- An entry turned STALE (R105). -/
def turnStale (age : Nat) (e : PeerEntry) : PeerEntry := { e with freshness := .stale, age := max age e.age }

/-- PEER_AGE_EXPIRY (R105): a FRESH or RESTARTED entry turns STALE, the SCU is told, and of an own-car entry the
RU. -/
def execPeerAgeExpiry (n : Fin 16) (s : State) : Result :=
  match findPeer n s.peers with
  | some e =>
    .next
      (if e.freshness = .stale then s
       else
        ruReport (inOwnCar s.ss.straps.car e) (groupView s)
          (removePeerClaim n (s.onPeers (putPeer (turnStale (staleAge s) e)))))
  | none => .next s

/-- The violation limit 40P (R133). -/
def violationLimit (s : State) : Nat := 40 * announcePeriod s

/-- VIOLATION_TIMER_EXPIRY (R133). -/
def execViolationTimerExpiry (s : State) : Result :=
  .next
    (if s.ru.violationTimer.isSome ∧ s.ru.violationLatched = false then
      latch .agreementTimeout (s.onRU fun r =>
        { r with violationTimer := some (violationLimit s), violationLatched := true })
     else s)

/-- PEER_WAIT_TIMER_EXPIRY (R134). -/
def execPeerWaitTimerExpiry (s : State) : Result :=
  .next
    (if s.ru.peerWaitTimer.isSome ∧ s.ru.peerWaitLatched = false then
      latch .peerWait (s.onRU fun r =>
        { r with peerWaitTimer := some Config.peerWaitTime, peerWaitLatched := true })
     else s)

/-- BACKOFF_EXPIRY (R166): the test of R163 with the ask standing, NONE without. -/
def execBackoffExpiry (s : State) : Result :=
  .next
    (if s.scu.slot = .backoff then slotTest (s.onSCU fun u => { u with slot := .none, backoff := none }) else s)

end Sys2Proof.Machine
end

