-- ==== Sys2Proof/Machine/Events.lean ====
section
/-! DEFINITION. The events of the machine: reset, the interlock inputs (chapter 11), the measurement's encoders,
marks and tracers (chapters 2 to 4), and the slides (chapter 9), with their meanings. -/

namespace Sys2Proof.Machine

open Sys2Proof

/-! ## RESET (R192) -/

/-- The image as the start sequence finds it: a write in progress stopped where it stood (R190, R191).
DESIGN CHOICE, log entry 14. -/
def imageAtReset (written : Nat) (t : SS) : Image :=
  match t.hostWrite, t.calWrite with
  | some w, _ => interruptedWrite w written
  | none, some w => interruptedWrite w written
  | none, none => t.image

/-- The start sequence, steps 1 to 6 (R192). The raw inputs stay as the lines stand (R171). -/
def start (kind : ResetKind) (straps : Straps) (m : Image) (s : State) : State where
  pending := s.pending
  vc := VC.reset
  rtu := RTU.reset 0#32
  rcu := RCU.reset
  ptu := PTU.reset
  fe := bootFE m
  lc := LC.reset (bootCopy m).announce
  peers := []
  ru := RU.reset 0
  pc := PC.reset
  scu := SCU.reset
  iiu := s.iiu.reset
  cp := bootCP
  ss := bootSS m straps
  result := bootResult kind m straps
  out := s.out

/-- RESET (R192). -/
def execReset (kind : ResetKind) (straps : Straps) (written : Nat) (s : State) : Result :=
  .next (start kind straps (imageAtReset written s.ss) s)

/-! ## Inputs (R171 to R178) -/

/-- A line whose raw level changes: the debounce timer starts, restarts or stops (R171). -/
def rawChange (v : Bool) (x : InputLine) : InputLine :=
  if v = x.raw then x else { x with raw := v, timer := if v = x.level then none else some Config.debounceTime }

/-- RAW_INPUT_CHANGE (R171). -/
def execRawInputChange (i : Input) (v : Bool) (s : State) : Result :=
  .next (s.onIIU fun u => u.setLine i (rawChange v (u.line i)))

/-- CLAMPED changed (R174). -/
def clampedChanged (v : Bool) (s : State) : State :=
  if v then settle s
  else
    match s.vc.state with
    | .measuring => cutMeasurement .unclamped s
    | .idle => endRun .unclamped s
    | .cutting =>
      match activePass s with
      | some p => abortToAborting p .unclamped s
      | none => settle s
    | _ => s

/-- GUARD_CLOSED changed (R175). -/
def guardChanged (v : Bool) (s : State) : State :=
  if v = false ∧ s.vc.state = .cutting ∧ (activePass s).isSome = true then settle (addHold .guard_ s) else settle s

/-- A rising edge of a tool-home input: its latch, which ABORTING reads (R172, R178). -/
def homeEdge (w : Wheel) (s : State) : State := retractTest (s.onIIU fun u => { u with latch := u.latch.put w true })

/-- A debounced change handed to the blocks that act on it (R173). -/
def inputChanged (i : Input) (v : Bool) (s : State) : State :=
  match i with
  | .clamped => clampedChanged v s
  | .guardClosed => guardChanged v s
  | .estop => if v then estopActive s else estopInactive s
  | .driveAtSpeed => if v then driveAtSpeed s else driveLost s
  | .homeL => if v then homeEdge .l s else s
  | .homeR => if v then homeEdge .r s else s

/-- DEBOUNCE_EXPIRY (R171): with the timer running, the debounced level takes the raw level. -/
def execDebounceExpiry (i : Input) (s : State) : Result :=
  let x := s.iiu.line i
  .next
    (if x.timer.isSome then
      inputChanged i x.raw (s.onIIU fun u => u.setLine i { x with level := x.raw, timer := none })
     else s)

/-- HOME_TIMER_EXPIRY (R12): the timer is stopped from its expiry on. DESIGN CHOICE, log entry 45. -/
def execHomeTimerExpiry (s : State) : Result :=
  .next (if s.vc.homeTimer.isSome then s.onVC fun v => { v with homeTimer := none, homeTimeout := true } else s)

/-! ## Measuring (chapters 2 to 4) -/

/-- ENCODER_PULSE (R25, R33): ignored while counting is not allowed (R24). -/
def execEncoderPulse (w : Wheel) (probe : Int) (s : State) : Result :=
  .next (if counting s then encoderPulse w probe s else s)

/-- MARK_LEADING_EDGE (R25): ignored while counting is not allowed. DEDUCED, log entry 10. -/
def execMarkLeadingEdge (s : State) : Result :=
  .next
    (if counting s then
      s.onRTU fun u => { u with pulseOn := true, capture := u.counter, pulseWidth := 0, pulseCount := .both 0 }
     else s)

/-- MARK_TRAILING_EDGE (R25): ignored where no pulse is in progress (R23, R24). -/
def execMarkTrailingEdge (s : State) (probe : LR Int := ⟨0, 0⟩) : Result :=
  .next (if counting s && s.rtu.pulseOn then markPulseEnd probe s else s)

/-- MARK_TIMER_EXPIRY (R26). -/
def execMarkTimerExpiry (s : State) : Result :=
  .next (if s.rtu.markTimer.isSome then endAttempt .markLost s else s)

/-- DRIVE_TIMER_EXPIRY (R24). -/
def execDriveTimerExpiry (s : State) : Result :=
  .next (if s.rtu.driveTimer.isSome then endRun .driveTimeout s else s)

/-- TRACER_READING (R56): taken into the open sweep of its tracer, stray during the other's, ignored with none. -/
def execTracerReading (w : Wheel) (x r : Int) (s : State) : Result :=
  match openSweep s.ptu.phase with
  | some o =>
    .next
      (if o = w then s.onPTU fun u => { u with wheel := u.wheel.put w (takeReading (conf s).jumpT x r (u.wheel.get w)) }
       else countStray s)
  | none => .next s

/-- SWEEP_END (R55, R56). -/
def execSweepEnd (w : Wheel) (s : State) : Result :=
  match openSweep s.ptu.phase with
  | some o => .next (if o = w then endSweep w s else countStray s)
  | none => .next s

/-- SWEEP_TIMER_EXPIRY (R63). -/
def execSweepTimerExpiry (s : State) : Result :=
  match openSweep s.ptu.phase with
  | some w =>
    .next (measurementFails .traceTimeout
      ((holdTrace (order (.park w) s)).onPTU fun u => { u with failing := some w }))
  | none => .next s

/-! ## Slides (chapter 9) -/

/-- A return that matches no ordered slide (R146). -/
def strayReturn (s : State) : State := s.onPC fun c => { c with stray := satInc 255 c.stray }

/-- Every ordered slide is marked done (R146). -/
def allDone (p : Pass) : Bool :=
  (!ordered p .l || p.slideDone.l) && (!ordered p .r || p.slideDone.r)

/-- SLIDE_DONE (R146, R147). -/
def execSlideDone (w : Wheel) (s : State) : Result :=
  match activePass s with
  | some p =>
    .next
      (if ordered p w && !p.slideDone.get w then
        let p1 := { p with slideDone := p.slideDone.put w true }
        if allDone p1 then completePass p1 s else setHead p1 s
       else strayReturn s)
  | none => .next (strayReturn s)

/-- The abort reason of a slide's FAULT (R151). -/
def faultReason : Wheel → AbortReason
  | .l => .slideFaultL
  | .r => .slideFaultR

/-- SLIDE_FAULT (R146, R151). -/
def execSlideFault (w : Wheel) (s : State) : Result :=
  match activePass s with
  | some p => .next (abortToAborting p (faultReason w) s)
  | none => .next (strayReturn s)

/-- PASS_TIMER_EXPIRY (R150): while the pass is ACTIVE and the timer runs. -/
def execPassTimerExpiry (s : State) : Result :=
  match activePass s, s.pc.timer with
  | some p, .running _ => .next (abortToAborting p .passTimeout s)
  | _, _ => .next s

end Sys2Proof.Machine
end

