-- ==== Sys2Proof/Machine/Clock.lean ====
section
/-! DEFINITION. The passing of time: one microsecond of R20's counter, what every running timer does in it, and the
expiry commands that come due (DESIGN CHOICE, log entry 1). -/

namespace Sys2Proof.Machine

open Sys2Proof

/-- A running timer one microsecond later. -/
def countDown (t : Option Nat) : Option Nat := t.map (· - 1)

/-- A timer whose last microsecond is passing. -/
def due (t : Option Nat) : Bool := t == some 1

/-- A time that counts up to its limit. -/
def countUp (limit : Nat) (t : Option Nat) : Option Nat := t.map fun x => if x < limit then x + 1 else x

/-- A counted time that reaches its limit in this microsecond. -/
def reaches (limit : Nat) (t : Option Nat) : Bool := t == some (limit - 1)

/-- A debounce timer one microsecond later (R171). -/
def InputLine.tick (x : InputLine) : InputLine := { x with timer := countDown x.timer }

/-- The six inputs one microsecond later. -/
def IIU.tick (u : IIU) : IIU :=
  { u with
    clamped := u.clamped.tick, guardClosed := u.guardClosed.tick, estop := u.estop.tick
    driveAtSpeed := u.driveAtSpeed.tick, homeL := u.homeL.tick, homeR := u.homeR.tick }

/-- The unlock timer (R189). -/
def UnlockState.tick : UnlockState → UnlockState
  | .opened a t => .opened a (t - 1)
  | .closed => .closed

/-- The gap since the last command grows (R186). -/
def Watchdog.tick : Watchdog → Watchdog
  | .running t => .running (t + 1)
  | w => w

/-- The gap after a byte of an incomplete frame grows (R180). -/
def CP.tickGap (c : CP) : Nat := if c.rxBuffer.isEmpty then c.rxGap else c.rxGap + 1

/-- The pass timer, unless paused (R150). -/
def PassTimer.tick : PassTimer → PassTimer
  | .running t => .running (t - 1)
  | t => t

/-- The greatest age kept (R103). -/
def ageLimit : Nat := 65535 * Config.ms

/-- An entry ages (R105). -/
def PeerEntry.tick (e : PeerEntry) : PeerEntry := { e with age := min ageLimit (e.age + 1) }

/-- The records one microsecond later: the counter, every running timer, every age (R20). -/
def advance (s : State) : State :=
  { s with
    vc := { s.vc with homeTimer := countDown s.vc.homeTimer }
    rtu := { s.rtu with
      counter := s.rtu.counter + 1#32, driveTimer := countDown s.rtu.driveTimer, markTimer := countDown s.rtu.markTimer }
    ptu := { s.ptu with sweepTimer := countDown s.ptu.sweepTimer }
    lc := { s.lc with announce := countDown s.lc.announce, listenOnly := countDown s.lc.listenOnly }
    peers := s.peers.map PeerEntry.tick
    ru := { s.ru with
      violationTimer := countUp (violationLimit s) s.ru.violationTimer
      peerWaitTimer := countUp Config.peerWaitTime s.ru.peerWaitTimer }
    pc := { s.pc with timer := s.pc.timer.tick }
    scu := { s.scu with backoff := countDown s.scu.backoff }
    iiu := s.iiu.tick
    cp := { s.cp with unlock := s.cp.unlock.tick, watchdog := s.cp.watchdog.tick, rxGap := s.cp.tickGap } }

/-- The gap after a byte of an incomplete frame exceeds its limit in this microsecond (R180). -/
def gapDue (c : CP) : Bool := !c.rxBuffer.isEmpty && decide (c.rxGap = Config.frameGap)

/-- The unlock timer expires in this microsecond (R189). -/
def unlockDue : UnlockState → Bool
  | .opened _ t => t == 1
  | .closed => false

/-- The gap exceeds W in this microsecond (R186). -/
def watchdogDue (s : State) : Bool := s.cp.watchdog == .running ((conf s).watch * Config.ms)

/-- The pass timer expires in this microsecond (R150); one that a hold paused with nothing left and that runs again
expires in the next. -/
def passDue : PassTimer → Bool
  | .running t => decide (t ≤ 1)
  | _ => false

/-- The inputs in the order of R171, in which debounce expiries of one microsecond are taken: R173 lets either be taken
first. DESIGN CHOICE, log entry 1. -/
def inputs : List Input := [.clamped, .guardClosed, .estop, .driveAtSpeed, .homeL, .homeR]

/-- The entries whose age exceeds 3P in this microsecond (R105). -/
def staleDue (s : State) : List Instr :=
  (s.peers.filter fun e => decide (e.freshness ≠ .stale) && decide (e.age + 1 = staleAge s)).map fun e =>
    .peerAgeExpiry e.station

/-- A command where it is due. -/
def dueCommand (b : Bool) (c : Instr) : List Instr := if b then [c] else []

/-- The expiries that come due in this microsecond, in the order of the opcode table, the debounce expiries among them
in the order of `inputs` (R173). DESIGN CHOICE, log entry 1. -/
def dueCommands (s : State) : List Instr :=
  dueCommand (due s.lc.announce) .announceTimerExpiry ++
  dueCommand (gapDue s.cp) (.frameGapTimeout []) ++
  dueCommand (unlockDue s.cp.unlock) .unlockTimerExpiry ++
  dueCommand (watchdogDue s) .watchdogExpiry ++
  (inputs.filter fun i => due (s.iiu.line i).timer).map Instr.debounceExpiry ++
  dueCommand (due s.vc.homeTimer) .homeTimerExpiry ++
  dueCommand (due s.rtu.markTimer) .markTimerExpiry ++
  dueCommand (due s.rtu.driveTimer) .driveTimerExpiry ++
  dueCommand (due s.ptu.sweepTimer) .sweepTimerExpiry ++
  dueCommand (due s.lc.listenOnly) .listenOnlyEnd ++
  staleDue s ++
  dueCommand (reaches (violationLimit s) s.ru.violationTimer) .violationTimerExpiry ++
  dueCommand (reaches Config.peerWaitTime s.ru.peerWaitTimer) .peerWaitTimerExpiry ++
  dueCommand (passDue s.pc.timer) .passTimerExpiry ++
  dueCommand (due s.scu.backoff) .backoffExpiry

/-- One microsecond: the records advance, the expiries that come due join the queue (DESIGN CHOICE, log entry 1). -/
def tick (s : State) : State := { advance s with pending := s.pending ++ dueCommands s }

end Sys2Proof.Machine
end

