-- ==== Sys2Proof/Machine/Dispatch.lean ====
section
/-! DEFINITION. One arm per command of spec/opcode_table.json, each one call of that command's meaning. -/

namespace Sys2Proof.Machine

open Sys2Proof

def exec (i : Instr) (s : State) : Host.Outcome State Fault Refusal :=
  match i with
  | .reset kind straps written => Sys2Proof.Machine.execReset kind straps written s
  | .announceTimerExpiry => Sys2Proof.Machine.execAnnounceTimerExpiry s
  | .visit p => Sys2Proof.Machine.execVisit p s
  | .measure p => Sys2Proof.Machine.execMeasure p s
  | .cut p => Sys2Proof.Machine.execCut p s
  | .hold p => Sys2Proof.Machine.execHold p s
  | .resume p => Sys2Proof.Machine.execResume p s
  | .feed p => Sys2Proof.Machine.execFeed p s
  | .withdraw p => Sys2Proof.Machine.execWithdraw p s
  | .release p => Sys2Proof.Machine.execRelease p s
  | .calibrate p => Sys2Proof.Machine.execCalibrate p s
  | .unlock p => Sys2Proof.Machine.execUnlock p s
  | .writeSettings p => Sys2Proof.Machine.execWriteSettings p s
  | .readSettings p => Sys2Proof.Machine.execReadSettings p s
  | .readStatus p => Sys2Proof.Machine.execReadStatus p s
  | .readResult p => Sys2Proof.Machine.execReadResult p s
  | .readPeers p => Sys2Proof.Machine.execReadPeers p s
  | .readPasses p => Sys2Proof.Machine.execReadPasses p s
  | .discardedFrame frame => Sys2Proof.Machine.execDiscardedFrame frame s
  | .frameGapTimeout received => Sys2Proof.Machine.execFrameGapTimeout received s
  | .settingsWriteDone misread => Sys2Proof.Machine.execSettingsWriteDone misread s
  | .calibrationWriteDone misread => Sys2Proof.Machine.execCalibrationWriteDone misread s
  | .unlockTimerExpiry => Sys2Proof.Machine.execUnlockTimerExpiry s
  | .watchdogExpiry => Sys2Proof.Machine.execWatchdogExpiry s
  | .rawInputChange input level => Sys2Proof.Machine.execRawInputChange input level s
  | .debounceExpiry input => Sys2Proof.Machine.execDebounceExpiry input s
  | .homeTimerExpiry => Sys2Proof.Machine.execHomeTimerExpiry s
  | .encoderPulse wheel probe => Sys2Proof.Machine.execEncoderPulse wheel probe s
  | .markLeadingEdge => Sys2Proof.Machine.execMarkLeadingEdge s
  | .markTrailingEdge probe => Sys2Proof.Machine.execMarkTrailingEdge s probe
  | .markTimerExpiry => Sys2Proof.Machine.execMarkTimerExpiry s
  | .driveTimerExpiry => Sys2Proof.Machine.execDriveTimerExpiry s
  | .tracerReading wheel lateral radial => Sys2Proof.Machine.execTracerReading wheel lateral radial s
  | .sweepEnd wheel => Sys2Proof.Machine.execSweepEnd wheel s
  | .sweepTimerExpiry => Sys2Proof.Machine.execSweepTimerExpiry s
  | .transmitStart => Sys2Proof.Machine.execTransmitStart s
  | .arbitrationLost bit => Sys2Proof.Machine.execArbitrationLost bit s
  | .ownFrameError => Sys2Proof.Machine.execOwnFrameError s
  | .listenOnlyEnd => Sys2Proof.Machine.execListenOnlyEnd s
  | .frameSent => Sys2Proof.Machine.execFrameSent s
  | .receiveError frame => Sys2Proof.Machine.execReceiveError frame s
  | .stateReceived frame => Sys2Proof.Machine.execStateReceived frame s
  | .ceilingReceived frame => Sys2Proof.Machine.execCeilingReceived frame s
  | .intentReceived frame => Sys2Proof.Machine.execIntentReceived frame s
  | .claimReceived frame => Sys2Proof.Machine.execClaimReceived frame s
  | .releaseReceived frame => Sys2Proof.Machine.execReleaseReceived frame s
  | .peerAgeExpiry station => Sys2Proof.Machine.execPeerAgeExpiry station s
  | .violationTimerExpiry => Sys2Proof.Machine.execViolationTimerExpiry s
  | .peerWaitTimerExpiry => Sys2Proof.Machine.execPeerWaitTimerExpiry s
  | .slideDone wheel => Sys2Proof.Machine.execSlideDone wheel s
  | .slideFault wheel => Sys2Proof.Machine.execSlideFault wheel s
  | .passTimerExpiry => Sys2Proof.Machine.execPassTimerExpiry s
  | .backoffExpiry => Sys2Proof.Machine.execBackoffExpiry s

end Sys2Proof.Machine
end

