-- ==== Sys2Proof/Safety.lean ====
section
/-! DEFINITION. What the statements speak of: the invariants a run keeps, which blocks a command leaves alone, and
the host commands as one family. -/

namespace Sys2Proof.Machine

open Sys2Proof

/-! ## Invariants -/

/-- EVENT is set exactly when some other flag is (R183). -/
def StatusInv (s : State) : Prop := eventAgrees s.cp.status = true

/-- The image, and the image before a write in progress, are in canonical form. -/
def ImagesInv (s : State) : Prop :=
  imageWf s.ss.image = true ∧ (∀ w, s.ss.hostWrite = some w → imageWf w.before = true) ∧
  (∀ w, s.ss.calWrite = some w → imageWf w.before = true)

/-- The frames of one kind in the queue and in the overflow position. -/
def framesOfKind (k : Nat) (c : LC) : List QFrame :=
  ((c.queue.map (·.frame)) ++ c.overflow.toList).filter fun f => f.kindCode == k

/-- The transmit queue: at most 4 frames, in class order, at most one STATE, one CEILING and one INTENT, those of the
overflow position counted (R93). -/
def TxQueueOk (c : LC) : Prop :=
  c.queue.length ≤ 4 ∧ c.queue.Pairwise (fun a b => a.frame.cls ≤ b.frame.cls) ∧
  (framesOfKind 3 c).length ≤ 1 ∧ (framesOfKind 4 c).length ≤ 1 ∧ (framesOfKind 5 c).length ≤ 1

/-- The transmit queue of a state keeps its form (R93), and holds at most one CLAIM, the overflow position counted
(R163). -/
def TxQueueInv (s : State) : Prop := TxQueueOk s.lc ∧ (framesOfKind 1 s.lc).length ≤ 1

/-- The peer table: entries in ascending order of station number, none repeated, none of the own number (R102). -/
def PeersInv (s : State) : Prop :=
  s.peers.Pairwise (fun a b => a.station < b.station) ∧ ∀ e ∈ s.peers, e.station ≠ ownStation s

/-- The claim list: at most one entry a station, and the own one listed only while the slot is HELD (R159, R160,
R164, R168). -/
def ClaimsInv (s : State) : Prop :=
  (s.scu.claims.map (·.station)).Nodup ∧ (ownStation s ∈ s.scu.claims.map (·.station) → s.scu.slot = .held)

/-- The pass queue: at most 8 passes, ROUGH but for a FINISH that stands last, ACTIVE at the head alone (R138). -/
def PassQueueInv (s : State) : Prop :=
  s.pc.queue.length ≤ 8 ∧ (∀ p ∈ s.pc.queue.dropLast, p.kind = .rough) ∧
  (∀ p, s.pc.queue.getLast? = some p → p.kind = .finish) ∧ ∀ p ∈ s.pc.queue.tail, p.state = .queued

/-- The ranges of the feed override, the sequences and the saturating counts (R76, R92, R100, R117, R137, R160). -/
def RangesInv (s : State) : Prop :=
  50 ≤ s.pc.feed ∧ s.pc.feed ≤ 120 ∧ s.pc.stray ≤ 255 ∧ s.pc.passesVisit ≤ 255 ∧ s.fe.ceil.seq ≤ 255 ∧
  s.ru.intentSeq ≤ 255 ∧ s.ru.replanCount ≤ 255 ∧ s.lc.rxErrors ≤ 255 ∧ s.lc.errRun ≤ 16 ∧ s.lc.errTotal ≤ 65535 ∧
  s.lc.listenPeriods ≤ 255 ∧ s.lc.expiryCount ≤ 4 ∧ s.scu.lost ≤ 255 ∧ s.scu.yields ≤ 255

/-- A silenced station at rest: no frame queued, no run, no open sweep, no pass (R19, R93, R99). -/
def Quiet (s : State) : Prop :=
  s.vc.state = .silenced ∧ s.lc.silenced = true ∧ s.lc.queue = [] ∧ s.rtu.run = .none ∧
  openSweep s.ptu.phase = none ∧ s.pc.queue = []

/-! ## Frames -/

/-- The parts of the state, one name each. -/
inductive Block where
  | pending | vc | rtu | rcu | ptu | fe | lc | peers | ru | pc | scu | iiu | cp | ss | result | out
deriving DecidableEq, Repr

/-- A part is the same in two states. -/
def Block.same : Block → State → State → Prop
  | .pending, s, t => t.pending = s.pending
  | .vc, s, t => t.vc = s.vc
  | .rtu, s, t => t.rtu = s.rtu
  | .rcu, s, t => t.rcu = s.rcu
  | .ptu, s, t => t.ptu = s.ptu
  | .fe, s, t => t.fe = s.fe
  | .lc, s, t => t.lc = s.lc
  | .peers, s, t => t.peers = s.peers
  | .ru, s, t => t.ru = s.ru
  | .pc, s, t => t.pc = s.pc
  | .scu, s, t => t.scu = s.scu
  | .iiu, s, t => t.iiu = s.iiu
  | .cp, s, t => t.cp = s.cp
  | .ss, s, t => t.ss = s.ss
  | .result, s, t => t.result = s.result
  | .out, s, t => t.out = s.out

/-- Every part but the named ones is the same. -/
def KeepsBut (bs : List Block) (s t : State) : Prop := ∀ b, b ∉ bs → b.same s t

/-- Only the outputs named grew: the orders and the responses by those given, nothing sent on the link. -/
def Outputs.grewBy (o : Outputs) (orders : List Order) (responses : List Response) : Outputs :=
  { o with orders := o.orders ++ orders, responses := o.responses ++ responses }

/-! ## Host commands as one family -/

/-- The command of the block that a host command makes, with its payload. -/
def HostCmd.instr : HostCmd → List Byte → Instr
  | .visit, p => .visit p
  | .measure, p => .measure p
  | .cut, p => .cut p
  | .hold, p => .hold p
  | .resume, p => .resume p
  | .feed, p => .feed p
  | .withdraw, p => .withdraw p
  | .release, p => .release p
  | .calibrate, p => .calibrate p
  | .unlock, p => .unlock p
  | .writeSettings, p => .writeSettings p
  | .readSettings, p => .readSettings p
  | .readStatus, p => .readStatus p
  | .readResult, p => .readResult p
  | .readPeers, p => .readPeers p
  | .readPasses, p => .readPasses p

/-- The port acts on a command at once: no WRITE_SETTINGS is being taken and no critical flag is set (R181, R184). -/
def PortFree (s : State) : Prop := s.ss.hostWrite = none ∧ anyCritical s.cp.status = false

/-- The CP after a command that changes nothing else of it: the unlock closed, the watchdog at 0 where W is not 0
(R186, R189). -/
def CP.afterCommand (c : CP) (watch : Nat) : CP :=
  { c with unlock := .closed, watchdog := if watch = 0 then c.watchdog else .running 0 }

/-- A command refused is not acted on: its response, the unlock closed, the watchdog restarted, and nothing else
(R181, R186, R189). -/
def refusal (c : HostCmd) (why : RefuseReason) (s : State) : State :=
  { s with
    cp := s.cp.afterCommand (conf s).watch
    out := s.out.grewBy [] [.refused c why] }

/-! ## What a command leaves, in the terms of the rules -/

/-- A transmit queue after a frame is handed to it by a station that is past START: nothing enters a silenced one
(R94, R95, R101). -/
def handed (f : QFrame) (c : LC) : LC := if c.silenced then c else lcHand f c

/-- The RTU at the start of a run's first attempt (R22, R23). -/
def RTU.begun (k : RunKind) (atSpeed : Bool) (u : RTU) : RTU :=
  { u with
    run := k, attempt := 1, clampSummary := false, handed := none
    driveTimer := if atSpeed then none else some Config.driveTime
    markTimer := if atSpeed then some Config.markTime else none
    window := .both [], count := .both 0, prevCount := .both none, prevPeriod := none
    lastMark := none, firstMark := false, pulseOn := false, restarts := 0, binIndex := .both none
    slip := .both none, diameter := .both none }

/-- The RU with its plan dropped (R128). -/
def RU.dropped (r : RU) : RU := { RU.reset r.intentSeq with replanCount := r.replanCount }

/-- The slides of a pass that are ordered and owe a return (R138, R146), L before R: log entry 39, the model's
choice. -/
def owedSlides (p : Pass) : List Wheel :=
  [Wheel.l, Wheel.r].filter fun w => decide (0 < p.depth.get w) && !p.slideDone.get w

/-- The PASS orders that the owed slides of a pass get, with their depths, the chosen variant and the feed override
(R145, R154). -/
def passOrders (p : Pass) (c : PC) : List Order :=
  (owedSlides p).map fun w => .pass w (p.depth.get w) c.chosen c.feed

/-- The start conditions of a FINISH pass: CUTTING, no pass ACTIVE, no feed hold, CLAMPED and GUARD_CLOSED active,
ESTOP inactive, no same-car entry pending, the intent agreement (R144). -/
def CanStart (s : State) : Prop :=
  s.vc.state = .cutting ∧ activePass s = none ∧ s.pc.holds = HoldCauses.empty ∧ level s .clamped = true ∧
  level s .guardClosed = true ∧ level s .estop = false ∧ anyPending (groupView s) = false ∧
  s.ru.violation = false ∧ s.ru.awaited = []

/-- The cut sub-state of a state (R10), in the order of its tests. -/
def SubState (s : State) : Option CutSub :=
  if s.vc.state ≠ .cutting then none
  else if s.pc.holds ≠ HoldCauses.empty then some .hold
  else if (activePass s).isSome then some .pass
  else if level s .clamped && level s .guardClosed && !level s .estop && !anyPending (groupView s) &&
    !s.ru.violation && s.ru.awaited.isEmpty then some .waitSlot
  else some .waitGroup

/-- What follows a change of an input of the start conditions, from the state `a` that the change leaves: the head
pass starts exactly where the rules let it, asks for a slot where that alone is missing, the cut sub-state is
derived, and the wait timers run exactly in WAIT_GROUP (R10, R133 to R135, R144, R145, R163). Nothing else. That an ask
beside a given-up CLAIM still queued arms nothing yet is log entry 22, read by inference; the order in which a start's
orders are recorded is log entry 39, the model's choice. -/
structure Settled (a t : State) : Prop where
  frame : KeepsBut [.vc, .lc, .ru, .pc, .scu, .out] a t
  vc : t.vc = { a.vc with sub := SubState t }
  started : ∀ p rest, a.pc.queue = p :: rest → CanStart a → p.kind = .finish ∨ a.scu.slot = .held →
    t.pc = { a.pc with
      queue := { p with state := .active } :: rest, timer := .running ((conf a).passTime * Config.sec) } ∧
    t.out = { a.out with orders := a.out.orders ++ .cutSpeed :: passOrders p a.pc } ∧ t.scu = a.scu ∧ t.lc = a.lc
  asked : ∀ p rest, a.pc.queue = p :: rest → CanStart a → p.kind = .rough → a.scu.slot ≠ .held →
    t.pc = a.pc ∧ t.out = a.out ∧
    (if a.scu.ask then t.scu = a.scu ∧ t.lc = a.lc
     else if a.scu.slot ≠ .none ∧ a.scu.slot ≠ .waiting then t.scu = { a.scu with ask := true } ∧ t.lc = a.lc
     else if a.scu.claims.length < (conf a).slots then
       if framesOfKind 1 a.lc ≠ [] then t.scu = { a.scu with ask := true } ∧ t.lc = a.lc
       else t.scu = { a.scu with ask := true, slot := .armed, claimPass := some p.number } ∧
         t.lc = handed (.claim p.number) a.lc
     else t.scu = { a.scu with ask := true, slot := .waiting } ∧ t.lc = a.lc)
  stands : ¬CanStart a ∨ a.pc.queue = [] → t.pc = a.pc ∧ t.out = a.out ∧ t.scu = a.scu ∧ t.lc = a.lc
  ru : t.ru = { a.ru with
    violationTimer := t.ru.violationTimer, violationLatched := t.ru.violationLatched
    peerWaitTimer := t.ru.peerWaitTimer, peerWaitLatched := t.ru.peerWaitLatched }
  waits : t.vc.sub = some .waitGroup →
    t.ru.violationTimer = (if a.ru.violation then some (a.ru.violationTimer.getD 0) else none) ∧
    t.ru.violationLatched = (a.ru.violation && a.ru.violationLatched) ∧
    t.ru.peerWaitTimer =
      (if anyPending (groupView a) ∨ a.ru.awaited ≠ [] then some (a.ru.peerWaitTimer.getD 0) else none) ∧
    t.ru.peerWaitLatched = (if anyPending (groupView a) ∨ a.ru.awaited ≠ [] then a.ru.peerWaitLatched else false)
  stopped : t.vc.sub ≠ some .waitGroup →
    t.ru.violationTimer = none ∧ t.ru.violationLatched = false ∧ t.ru.peerWaitTimer = none ∧
    t.ru.peerWaitLatched = false

/-- The visit record after a visit end, but for the station state (R14). -/
def VC.ended (v : VC) : VC :=
  { v with visitOpen := false, mask := 0#4, cutBegun := false, passCompleted := false, condPending := false,
           homeTimeout := false }

/-- The ceiling record after a visit end (R81). -/
def CeilingRecord.ended (c : CeilingRecord) : CeilingRecord :=
  if c.announced then ⟨.cleared, none, nextSeq c.seq, false, none⟩ else c

/-- The FE after a visit end (R14, R69, R70, R81). -/
def FE.ended (f : FE) : FE := { f with effective := [], fit := FitRecord.reset, ceil := f.ceil.ended }

/-- The CLEARED CEILING of a visit end, handed where one is due (R81). -/
def LC.ended (ceil : CeilingRecord) (c : LC) : LC :=
  if ceil.announced then handed (.ceiling (nextSeq ceil.seq) .cleared none) c else c

/-- The result record after a visit end: the start fields stay (R194). -/
def ResultRecord.ended (r : ResultRecord) : ResultRecord := ⟨r.start, none, none, none, none⟩

/-- The SCU with no ask and no reservation (R168). -/
def SCU.freed (u : SCU) : SCU := { u with slot := .none, ask := false, claimPass := none, backoff := none }

/-- The orders of an abort (R151), recorded in this order: log entry 39, the model's choice. -/
def abortSequence : List Order := [.retract .l, .retract .r, .stop]

/-- The fields that every abort of an ACTIVE pass leaves in the PC's record, apart from its visit's counts (R151). -/
def PC.aborted (p : Pass) (why : AbortReason) (c : PC) : Prop :=
  c.queue = [] ∧ c.lastEnded = some { p with state := .aborted, reason := why } ∧ c.timer = .stopped ∧
  c.rebuildOwed = false ∧ c.holds = HoldCauses.empty ∧ c.uncertain = true

/-- The state with an input's debounced level at its raw level, its timer stopped (R171). -/
def debounced (i : Input) (s : State) : State :=
  { s with iiu := s.iiu.setLine i ⟨(s.iiu.line i).raw, (s.iiu.line i).raw, none⟩ }

/-- What an abort's offers leave to be taken from a ceiling held: for each wheel the lesser of the ceiling and the
expected diameter less one minimum recut (R78, R152). -/
def abortTaken (p : Pass) (s : State) (held : LR Int) : LR Int :=
  let mr : Int := (conf s).minRecut
  ⟨min (p.expected.l - 2 * mr) held.l, min (p.expected.r - 2 * mr) held.r⟩

/-- The offers of an abort find a condemnation: a value taken from a NORMAL record is below Z (R78, R152). -/
def AbortCondemns (p : Pass) (s : State) : Prop :=
  ∃ held, s.fe.ceil.status = .normal ∧ s.fe.ceil.value = some held ∧
    ¬(((conf s).condemn : Int) ≤ (abortTaken p s held).l ∧ ((conf s).condemn : Int) ≤ (abortTaken p s held).r)

/-- The FE and condemnation pending after the offers of an abort (R76, R78, R152): a NORMAL record takes the lesser
values, with a new sequence where one has fallen; below Z it stands, with the values taken as its condemning ones, and
the condemnation waits (R13); any other record stands. -/
structure AbortOffered (p : Pass) (s t : State) : Prop where
  fe : t.fe = { s.fe with ceil := t.fe.ceil }
  lowered : ∀ held, s.fe.ceil.status = .normal → s.fe.ceil.value = some held → ¬AbortCondemns p s →
    let v := abortTaken p s held
    t.vc.condPending = s.vc.condPending ∧ t.fe.ceil =
      if v = held then s.fe.ceil else ⟨.normal, some v, nextSeq s.fe.ceil.seq, true, s.fe.ceil.condemning⟩
  condemned : ∀ held, s.fe.ceil.value = some held → AbortCondemns p s →
    t.vc.condPending = true ∧ t.fe.ceil = { s.fe.ceil with condemning := some (abortTaken p s held) }
  ignored : s.fe.ceil.status ≠ .normal ∨ s.fe.ceil.value = none →
    t.vc.condPending = s.vc.condPending ∧ t.fe.ceil = s.fe.ceil

/-- What every abort of the ACTIVE pass of a station in CUTTING does, whatever state it leads to (R2, R128, R151, R168,
R172). -/
structure PassAborts (p : Pass) (why : AbortReason) (s t : State) : Prop where
  frame : KeepsBut [.vc, .fe, .lc, .ru, .pc, .scu, .iiu, .cp, .out] s t
  pass : t.pc.aborted p why
  sub : t.vc.sub = none ∧ t.vc.homeTimeout = false
  orders : t.out = s.out.grewBy abortSequence []
  plan : t.ru.plan = none ∧ t.ru.intent = none
  slot : t.scu.slot = .none ∧ t.scu.ask = false
  latches : t.iiu = { s.iiu with latch := ⟨level s .homeL, level s .homeR⟩ }

/-- An abort of the ACTIVE pass that leads to ABORTING, from a state in CUTTING with a home input inactive (R12,
R151). -/
structure AbortsTo (p : Pass) (why : AbortReason) (s t : State) : Prop extends PassAborts p why s t where
  station : t.vc.state = .aborting ∧ t.vc.homeTimer = some 30000000
  finish : t.pc.queueFinish = none
  flag : t.cp = { s.cp with status := latchWord s.cp.status .passAborted }
  offered : AbortOffered p s t

/-- An abort of the ACTIVE pass from a state in CUTTING with both home inputs active: the retract is complete at the
RETRACT order itself, and the station goes on to ABORTED, or with a condemnation pending to CONDEMNED (R12, R13,
R178). -/
structure AbortsHome (p : Pass) (why : AbortReason) (s t : State) : Prop extends PassAborts p why s t where
  station : t.vc.homeTimer = none ∧ t.vc.condPending = false
  aborted : s.vc.condPending = false → ¬AbortCondemns p s → t.vc.state = .aborted ∧ t.pc.queueFinish = none ∧
    t.cp = { s.cp with status := latchWord s.cp.status .passAborted } ∧ AbortOffered p s t
  condemned : s.vc.condPending = true ∨ AbortCondemns p s → t.vc.state = .condemned ∧
    t.fe.ceil.status = .condemned ∧ t.fe.ceil.value = none ∧ t.fe.ceil.announced = true ∧
    t.cp = { s.cp with status := latchWord (latchWord s.cp.status .passAborted) .condemned } ∧
    ∀ held, s.fe.ceil.value = some held → AbortCondemns p s → t.fe.ceil =
      ⟨.condemned, none, nextSeq s.fe.ceil.seq, true, some (abortTaken p s held)⟩

/-- A measurement in MEASURING that fails: the reason in the result record, a new result, MEASURE_FAILED, the drive
stopped where it ran, the station in UNMEASURED (R7, R30). -/
structure MeasurementFails (why : Reason) (s t : State) : Prop where
  frame : KeepsBut [.vc, .rtu, .rcu, .ptu, .lc, .cp, .result, .out] s t
  station : t.vc = { s.vc with state := .unmeasured }
  run : t.rtu.run = .none ∧ t.rtu.driveTimer = none ∧ t.rtu.markTimer = none
  result : ∃ r, t.result.rtu = some r ∧ r.reason = why
  flag : t.cp = { s.cp with status := latchWord s.cp.status .measureFailed, newResult := true }
  frames : t.lc = handed .state s.lc
  outputs : t.out = s.out.grewBy [.stop] []

/-- The next attempt of a run begun (R23, R30): windows and counts empty, and in a measurement run the RCU with
them. -/
def nextAttempt (s : State) : State :=
  { s with
    rtu := { s.rtu with
      attempt := s.rtu.attempt + 1, window := .both [], count := .both 0, prevCount := .both none
      prevPeriod := none, lastMark := none, firstMark := false, pulseOn := false, restarts := 0
      binIndex := .both none, slip := .both none, diameter := .both none
      markTimer := if level s .driveAtSpeed then some Config.markTime else s.rtu.markTimer }
    rcu := if s.rtu.run = .measure then ⟨.filling, .both (rcuWindow (conf s).jump)⟩ else s.rcu }

/-! ## The passing of time -/

/-- The commands that one microsecond on an empty queue makes due: the expiry of a timer in its last microsecond, the
end of a listen-only period, the gap of a frame and of the commands past its limit, an entry's age past 3P. A pass
timer that a hold paused at 0 expires once it runs again. Log entries 1 and 28, the model's choices. -/
def ExpiryDue (s : State) : Instr → Prop
  | .announceTimerExpiry => s.lc.announce = some 1
  | .frameGapTimeout r => r = [] ∧ s.cp.rxBuffer ≠ [] ∧ s.cp.rxGap = 20000
  | .unlockTimerExpiry => ∃ a, s.cp.unlock = .opened a 1
  | .watchdogExpiry => s.cp.watchdog = .running ((conf s).watch * 1000)
  | .debounceExpiry i => (s.iiu.line i).timer = some 1
  | .homeTimerExpiry => s.vc.homeTimer = some 1
  | .markTimerExpiry => s.rtu.markTimer = some 1
  | .driveTimerExpiry => s.rtu.driveTimer = some 1
  | .sweepTimerExpiry => s.ptu.sweepTimer = some 1
  | .listenOnlyEnd => s.lc.listenOnly = some 1
  | .peerAgeExpiry n => ∃ e ∈ s.peers, e.station = n ∧ e.freshness ≠ .stale ∧
      e.age + 1 = (3 * (conf s).announce + 1) * 1000
  | .violationTimerExpiry => s.ru.violationTimer = some (40 * (conf s).announce * 1000 - 1)
  | .peerWaitTimerExpiry => s.ru.peerWaitTimer = some 119999999
  | .passTimerExpiry => ∃ n, n ≤ 1 ∧ s.pc.timer = .running n
  | .backoffExpiry => s.scu.backoff = some 1
  | _ => False

/-! ## Bin indices and samples -/

/-- The bin index that a wheel's counts give: in a measurement run, with a previous count that is not 0 (R33). -/
def RTU.indexOf (w : Wheel) (u : RTU) : Option Nat :=
  match u.run, u.prevCount.get w with
  | .measure, some n => if n = 0 then none else some (u.count.get w * 256 / n)
  | _, _ => none

/-- The RTU with a wheel's bin index brought up to date, clamped at 255 (R33, R34). -/
def RTU.indexed (w : Wheel) (u : RTU) : RTU :=
  match u.indexOf w with
  | some i => { u with
      binIndex := u.binIndex.put w (some (min 255 i)), clampSummary := u.clampSummary || decide (255 < i) }
  | none => u

/-- The RCU with a wheel's index supplied: a new index takes one sample of the wheel's probe (R41). -/
def RCU.sampled (jump : Nat) (w : Wheel) (i : Option Nat) (probe : Int) (u : RCU) : RCU :=
  match i with
  | some k =>
    let r := u.wheel.get w
    if u.phase = .filling ∧ r.lastIndex ≠ some (min 255 k) then
      { u with wheel := u.wheel.put w (takeSample jump (min 255 k) probe { r with lastIndex := some (min 255 k) }) }
    else u
  | none => u

/-- A state with both indices up to date and both supplied, with the probes' readings at the classing of a mark
(R34, R41). -/
def markSupplied (probe : LR Int) (s : State) : State :=
  { s with
    rtu := (s.rtu.indexed .l).indexed .r
    rcu := (s.rcu.sampled (conf s).jump .l (s.rtu.indexOf .l) probe.l).sampled (conf s).jump .r (s.rtu.indexOf .r)
      probe.r }

/-! ## The end of a calibration -/

/-- A calibration that ends with a response: the run over, calibration running cleared, the RTU's fields of the result
record a new result with the reason (R30, R35, R37). -/
structure CalibrationEnds (why : Reason) (r : Response) (orders : List Order) (status : BitVec 16) (s t : State) :
    Prop where
  frame : KeepsBut [.vc, .rtu, .ss, .cp, .result, .out] s t
  station : t.vc = { s.vc with calRunning := false }
  run : t.rtu.run = .none ∧ t.rtu.driveTimer = none ∧ t.rtu.markTimer = none
  store : t.ss = { s.ss with calRun := none }
  result : ∃ x, t.result = { s.result with rtu := some x } ∧ x.reason = why
  port : t.cp = { s.cp with status := status, newResult := true }
  outputs : t.out = s.out.grewBy orders [r]

/-- The OK response of a calibration run that failed: wheel, reason, and C where the slip test was made; no D_m and no
D_m,new, and an absent field 0 (R37, R198). The order and the widths are log entry 19, the model's choice. -/
def calibrationFailure (c : CalRun) (why : Nat) (total : Option Nat) : Response :=
  .ok .calibrate (be1 (if c.wheel = .l then 0 else 1) ++ be1 why ++ be4 (total.getD 0) ++ be4 0 ++ be4 (c.dNew.getD 0))

/-! ## The plan and the build -/

/-- The state with a plan taken (R117, R123, R127): `counts` where the replan count advances, `forms` where a new intent
is formed on the targets and the ceiling sequence, and handed to the LC. -/
def planned (p : Plan) (owed counts forms : Bool) (s : State) : State :=
  let q := nextSeq s.ru.intentSeq
  { s with
    ru := { s.ru with
      plan := some p, replanOwed := owed
      replanCount := if counts then min 255 (s.ru.replanCount + 1) else s.ru.replanCount
      intentSeq := if forms then q else s.ru.intentSeq
      intent := if forms then some ⟨q, s.fe.ceil.seq, p.target⟩ else s.ru.intent }
    lc := if forms then handed (.intent q s.fe.ceil.seq p.target) s.lc else s.lc }

/-- The state after a re-plan to `p` from a plan with the targets `old` (R123, R125, R127). -/
def replanned (old : LR Int) (p : Plan) (owed : Bool) (s : State) : State :=
  let changed := decide (old ≠ p.target)
  let moved := match s.ru.intent with
    | some i => decide (i.basis ≠ s.fe.ceil.seq)
    | none => true
  planned p owed changed (changed || moved) s

/-- A CEILING of another station, good and read as `c`, is taken into the peer table, leaving `a` (R97, R109). -/
def HearsCeiling (f : LinkFrame) (c : StoredCeiling) (s a : State) : Prop :=
  f.station ≠ ownStation s ∧ goodAs .ceiling f = true ∧ readCeiling f.payload = some c ∧ PeersInv s ∧
  a = { s with peers := putPeer (takeCeilingFrame c (entryOf f.station s)) s.peers }

/-- A good STATE of another station, to be taken, that finds no restart and no mismatch and leaves the claim list as it
stands, in a table in order; a: the state with its entry taken. -/
def HearsState (f : LinkFrame) (p : PeerState) (s a : State) : Prop :=
  f.station ≠ ownStation s ∧ goodAs .state f = true ∧ readState s.ss.digest f.payload = some p ∧ PeersInv s ∧
  p.digestMatch = true ∧ restartFound (entryOf f.station s) p.annCeiling = false ∧
  p.slotHeld = s.scu.claims.any (fun c => c.station == f.station) ∧
  a = { s with peers := putPeer (takeState p (entryOf f.station s)) s.peers }

/-- An input of the plan moved between two views: an entry of both changed class, or a member's ceilings changed
(R125). -/
def InputMoved (before after : List ViewEntry) : Prop :=
  ∃ x ∈ before, ∃ y ∈ after, x.station = y.station ∧
    (x.cls.name ≠ y.cls.name ∨ (y.cls = .member ∧ x.ceiling ≠ y.ceiling))

/-- The record of the PC with a build taken: the queue and its finish, or plan deep with the ROUGH passes required
(R140, R141). -/
def PC.built (b : BuildResult) (c : PC) : PC :=
  match b with
  | .made q fin => { c with queue := q, queueFinish := some fin, planDeep := none }
  | .deep n => { c with queue := [], queueFinish := none, planDeep := some n }
  | .empty => { c with queue := [], queueFinish := c.surface, planDeep := none }
  | .notMade => c

/-- The SCU and the LC with a HELD claim released (R168). -/
def claimReleased (s : State) : State :=
  { s with
    scu := { s.scu.freed with claims := s.scu.claims.filter fun c => decide (c.station ≠ ownStation s) }
    lc := handed (.release (s.scu.claimPass.getD 1)) s.lc }

/-! ## The host records, read field by field -/

/-- A record read at given places: offset, width in bytes, and the value, kept to that width (R195). -/
def Reads (r : List Byte) (places : List (Nat × Nat × Nat)) : Prop :=
  ∀ x ∈ places, field r x.1 x.2.1 = x.2.2 % 256 ^ x.2.1

/-- An optional quantity of one wheel as a field holds it, 0 where absent (R195). -/
def signedField (v : Option Int) : Nat := twos 32 (v.getD 0)

/-- The places of a pair of signed four-byte fields, L before R (R195). -/
def pairAt (off : Nat) (v : Option (LR Int)) : List (Nat × Nat × Nat) :=
  [(off, 4, signedField (v.map (·.l))), (off + 4, 4, signedField (v.map (·.r)))]

/-- The visit section: R2 in its order (R201; its presence bits and widths are log entry 19). -/
def VisitReads (v : VC) : Prop :=
  (visitSection v).length = 12 ∧ Reads (visitSection v)
    [(0, 2, 12), (2, 1, packMarks [v.sub.isSome, v.returnState.isSome, v.homeTimer.isSome]),
     (3, 1, stateCode v.state), (4, 1, subCode v.sub), (5, 1, packMarks [v.visitOpen, v.settingsInvalid]),
     (6, 1, v.mask.toNat), (7, 1, packMarks [v.cutBegun, v.passCompleted, v.calRunning, v.condPending]),
     (8, 1, (v.returnState.map stateCode).getD 0), (9, 2, (v.homeTimer.getD 0) / 1000),
     (11, 1, packMarks [v.homeTimeout])]

/-- The run section: R35 in a run, R51 while the RCU fills, R66 in a sweep (R201; log entry 19). -/
def RunReads (s : State) : Prop :=
  let r := runSection s
  let bins := fun (w : RcuWheel) => (w.bins.filter Option.isSome).length
  r.length = 21 ∧
  Reads r [(0, 2, 21),
    (2, 1, packMarks [decide (s.rtu.run ≠ .none), decide (s.rcu.phase = .filling), (openSweep s.ptu.phase).isSome])] ∧
  (s.rtu.run ≠ .none → Reads r
    [(3, 1, if s.rtu.run = .calibrate then 1 else 0), (4, 1, s.rtu.attempt), (5, 1, s.rtu.restarts)]) ∧
  (s.rcu.phase = .filling → Reads r
    [(6, 2, bins s.rcu.wheel.l), (8, 1, s.rcu.wheel.l.liftRev), (9, 2, bins s.rcu.wheel.r),
     (11, 1, s.rcu.wheel.r.liftRev)]) ∧
  ∀ w, openSweep s.ptu.phase = some w → Reads r
    [(12, 1, if w = .l then 1 else 2), (13, 2, (s.ptu.sweepTimer.getD 0) / 1000), (15, 2, (s.ptu.wheel.get w).received),
     (17, 2, (s.ptu.wheel.get w).binned), (19, 2, (s.ptu.wheel.get w).liftoffs)]

/-- The ceiling and fit section (R84, R201; log entry 19). -/
def CeilingReads (f : FE) : Prop :=
  (ceilingSection f).length = 24 ∧ Reads (ceilingSection f)
    ([(0, 2, 24), (2, 1, packMarks [f.ceil.value.isSome, f.ceil.condemning.isSome, f.fit.chosen.isSome]),
      (3, 1, f.ceil.status.code), (12, 1, f.ceil.seq), (13, 1, packMarks [f.ceil.announced]),
      (22, 1, f.fit.state.code), (23, 1, f.fit.chosen.getD 0)] ++
     pairAt 4 f.ceil.value ++ pairAt 14 f.ceil.condemning)

/-- The link section, of a transmit queue of at most 4 frames (R100, R201; log entry 19). -/
def LinkReads (c : LC) : Prop :=
  let r := linkSection c
  let n := c.queue.length
  let num : QFrame → Option Nat := fun
    | .claim k => some k
    | .release k => some k
    | _ => none
  let frame := fun (off : Nat) (g : QFrame) => [(off, 1, g.kindCode), (off + 1, 1, g.cls), (off + 2, 1, (num g).getD 0)]
  n ≤ 4 → r.length = 17 + 3 * n ∧ Reads r
    [(0, 2, 17 + 3 * n),
     (2, 1, packMarks (c.queue.map (fun e => (num e.frame).isSome) ++ [c.overflow.isSome, (c.overflow.bind num).isSome])),
     (3, 1, c.rxErrors), (4, 1, c.errRun), (5, 2, c.errTotal), (7, 2, (c.listenOnly.getD 0) / 1000),
     (9, 1, c.listenPeriods), (10, 1, packMarks [c.txOverflow, c.silenced]), (11, 1, c.expiryCount), (12, 1, n),
     (16 + 3 * n, 1, packMarks [(c.queue.head?.map (·.tx)).getD false])] ∧
    (∀ (i : Nat) (e : QEntry), c.queue[i]? = some e → Reads r (frame (13 + 3 * i) e.frame)) ∧
    (∀ g, c.overflow = some g → Reads r (frame (13 + 3 * n) g))

/-- The four counts of R116. -/
def PeersReads (s : State) : Prop :=
  let v := groupView s
  peersSection s = [0, 7, 0] ++ be1 s.peers.length ++ be1 (v.countP fun e => decide (e.cls = .member)) ++
    be1 (v.countP fun e => decide (e.cls.name = .pending)) ++
    be1 (s.peers.countP fun e => decide (e.freshness = .stale))

/-- The reconciliation section up to the awaited stations (R136, R201; log entry 19). -/
def ReconciliationReads (s : State) : Prop :=
  let r := reconciliationSection s
  let u := s.ru
  Reads r
    ([(2, 1, packMarks [u.plan.isSome, u.intent.isSome, anyPending (groupView s), (violationShown s).isSome,
        u.violationTimer.isSome, u.peerWaitTimer.isSome]),
      (3, 1, if u.plan.isSome then 1 else 0), (4, 1, packMarks [u.replanOwed]), (51, 1, u.intentSeq),
      (52, 1, (groupView s).countP fun e => decide (e.cls.name = .pending)), (55, 1, packMarks [u.violation]),
      (65, 1, u.awaited.length)] ++ pairAt 33 (u.plan.map (·.target)) ++ pairAt 43 (u.intent.map (·.target))) ∧
  (∀ p, u.plan = some p → Reads r
    [(5, 4, twos 32 p.minAxle), (9, 4, twos 32 p.minBogie), (13, 4, twos 32 p.minCar), (17, 4, twos 32 p.termAxle),
     (21, 4, twos 32 p.termBogie), (25, 4, twos 32 p.termCar), (29, 4, twos 32 p.cap)]) ∧
  (∀ i, u.intent = some i → Reads r [(41, 1, i.seq), (42, 1, i.basis)]) ∧
  (∀ e why, (groupView s).find? (fun e => e.cls.isPending) = some e → e.cls = .pending why →
    Reads r [(53, 1, e.station.val), (54, 1, why.code)]) ∧
  (∀ x, violationShown s = some x → Reads r
    [(56, 1, x.1.val), (57, 1, Wheel.code x.2.1), (58, 1, Wheel.code x.2.2.1), (59, 4, twos 32 x.2.2.2.1),
     (63, 2, x.2.2.2.2)]) ∧
  (∀ (i : Nat) (n : Fin 16), u.awaited[i]? = some n → Reads r [(66 + i, 1, n.val)]) ∧
  Reads r [(66 + u.awaited.length, 2, (u.violationTimer.getD 0) / 1000),
    (68 + u.awaited.length, 4, (u.peerWaitTimer.getD 0) / 1000)]

/-- The passes, slots and interlocks sections (R157, R170, R179, R201; log entry 19). -/
def PitReads (s : State) : Prop :=
  let h := s.pc.queue.head?
  let left : Option Nat := match s.pc.timer with
    | .stopped => none
    | .running t => some t
    | .paused t => some t
  let place := s.scu.claims.findIdx? fun c => c.station == ownStation s
  let u := s.iiu
  let lines := [u.clamped, u.guardClosed, u.estop, u.driveAtSpeed, u.homeL, u.homeR]
  let home := if s.vc.state = .aborting then s.vc.homeTimer else none
  Reads (passesSection s.pc)
    [(0, 2, 10), (2, 1, packMarks [h.isSome, left.isSome]), (3, 1, (h.map (·.number)).getD 0),
     (4, 1, (h.map fun p => if p.kind = .rough then 1 else 2).getD 0), (5, 4, (left.getD 0) / 1000),
     (9, 1, packMarks [s.pc.holds.host, s.pc.holds.watchdog, s.pc.holds.guard_])] ∧
  Reads (slotsSection s)
    [(0, 2, 14), (2, 1, packMarks [s.scu.claimPass.isSome, s.scu.backoff.isSome, place.isSome]),
     (3, 1, s.scu.slot.code), (4, 1, if s.scu.ask then 0 else 1), (5, 1, s.scu.claimPass.getD 0),
     (6, 2, (s.scu.backoff.getD 0) / 1000), (8, 1, s.scu.claims.length), (9, 1, place.getD 0), (10, 1, (conf s).slots),
     (11, 1, packMarks [decide ((conf s).slots < s.scu.claims.length)]), (12, 1, s.scu.lost), (13, 1, s.scu.yields)] ∧
  Reads (interlocksSection s)
    [(0, 2, 8), (2, 1, packMarks [home.isSome]),
     (3, 1, packMarks ((lines.map (·.level)) ++ (lines.take 2).map (·.timer.isSome))),
     (4, 1, packMarks ((lines.drop 2).map (·.timer.isSome) ++ [u.latch.l, u.latch.r])), (5, 2, (home.getD 0) / 1000),
     (7, 1, packMarks [s.vc.homeTimeout])]

/-- The start fields (R194, R201; log entry 19): the unused rate combination reads as the lowest rate with its note
(R192). -/
def StartReads (f : StartFields) : Prop :=
  let r := startSection f
  let n := f.changed.length
  let unused := decide (f.straps.linkRate.val = 3)
  Reads r
    [(2, 1, 0), (3, 1, match f.kind with
      | .powerOn => 0
      | .resetLine => 1),
     (4, 1, f.straps.station.val), (5, 1, f.straps.car.val), (6, 1, f.straps.bogie.val),
     (7, 1, if unused then 0 else f.straps.linkRate.val), (8, 1, if f.straps.portFast then 1 else 0),
     (9, 1, packMarks [unused]), (10, 1, if f.good then 0 else 1), (11, 1, f.sums.1), (12, 1, f.sums.2),
     (13, 1, f.found.1), (14, 1, f.found.2), (15, 1, n), (16 + n, 2, f.digest.toNat)] ∧
  (∀ (i x : Nat), f.changed[i]? = some x → Reads r [(16 + i, 1, x)]) ∧
  ∀ (i : Nat) (v : Verdict), f.verdicts[i]? = some v → Reads r [(18 + n + i, 1, v.code)]

/-- The revolution timing section (R35, R201; log entry 19): empty until written, then the run, each wheel's window
counts, its slip figures and its diameter at their places. -/
def TimingReads (o : Option RtuResult) : Prop :=
  let r := timingSection o
  (o = none → r = [0, 3, 0]) ∧ ∀ x, o = some x →
    let n := x.window.l.length
    let m := x.window.r.length
    let figures := fun (off : Nat) (f : Option SlipResult) (d : Option Nat) =>
      [(off, 4, (f.map (·.total)).getD 0), (off + 4, 4, (f.map (·.mean)).getD 0), (off + 8, 4, (f.map (·.spread)).getD 0),
       (off + 12, 4, (f.map (·.allowance)).getD 0), (off + 16, 4, d.getD 0)]
    Reads r
      ([(0, 2, 54 + 4 * n + 4 * m),
        (2, 1, packMarks [true, x.period.isSome, x.slip.l.isSome, x.diameter.l.isSome, x.slip.r.isSome,
          x.diameter.r.isSome]),
        (3, 1, if x.run = .calibrate then 1 else 0), (4, 1, x.attempts), (5, 1, x.reason.code), (6, 1, x.restarts),
        (7, 1, packMarks [x.clampSummary]), (8, 4, x.period.getD 0), (12, 1, n), (33 + 4 * n, 1, m)] ++
       figures (13 + 4 * n) x.slip.l x.diameter.l ++ figures (34 + 4 * n + 4 * m) x.slip.r x.diameter.r) ∧
    (∀ (i c : Nat), x.window.l[i]? = some c → Reads r [(13 + 4 * i, 4, c)]) ∧
    ∀ (i c : Nat), x.window.r[i]? = some c → Reads r [(34 + 4 * n + 4 * i, 4, c)]

/-- Bin i of a buffer holds an extreme value by `beyond`, and none below it holds the same (R51). -/
def ExtremeBin (beyond : Int → Int → Prop) (bins : List (Option Int)) (i : Nat) : Prop :=
  ∃ v, bins[i]? = some (some v) ∧ ∀ (j : Nat) (u : Int), bins[j]? = some (some u) → beyond u v ∧ (u = v → i ≤ j)

/-- The runout section (R51, R201; log entry 19): empty until written, then each wheel's figures at their places, the
bins of its largest and smallest values where its runout was computed, and the map of bins present. -/
def RunoutReads (o : Option (LR RcuWheel)) : Prop :=
  let r := runoutSection o
  (o = none → r = [0, 3, 0]) ∧ ∀ x, o = some x →
    let hole := fun (b : RcuWheel) => b.bins.findIdx? Option.isNone
    let extremes := fun (b : RcuWheel) => b.runout.isSome && b.bins.any Option.isSome
    r.length = 92 ∧
    Reads r
      [(0, 2, 92), (2, 1, packMarks [true, x.l.runout.isSome, (hole x.l).isSome, extremes x.l, extremes x.l,
        x.r.runout.isSome, (hole x.r).isSome, extremes x.r]), (3, 1, packMarks [extremes x.r])] ∧
    ∀ w : Wheel,
      let b := x.get w
      let at_ := match w with
        | .l => 4
        | .r => 48
      Reads r
        [(at_, 4, signedField b.runout), (at_ + 4, 2, (b.bins.filter Option.isSome).length),
         (at_ + 6, 1, (hole b).getD 0), (at_ + 9, 2, b.liftWindow), (at_ + 11, 1, b.liftMost)] ∧
      (extremes b = false → Reads r [(at_ + 7, 1, 0), (at_ + 8, 1, 0)]) ∧
      (∀ i, b.runout.isSome → ExtremeBin (· ≤ ·) b.bins i → Reads r [(at_ + 7, 1, i)]) ∧
      (∀ i, b.runout.isSome → ExtremeBin (· ≥ ·) b.bins i → Reads r [(at_ + 8, 1, i)]) ∧
      ∀ i, i < 32 → Reads r [(at_ + 12 + i, 1, packMarks (((b.bins.drop (8 * i)).take 8).map Option.isSome))]

/-- The profile section (R62, R66, R201; log entry 19): empty until written, then each wheel's verdict with its failing
test and its index or number, its points, its counters and the sweep time, then the failing wheel and the stray
readings. -/
def ProfileReads (o : Option (PTU × Nat × Nat)) : Prop :=
  let r := profileSection o
  (o = none → r = [0, 3, 0]) ∧ ∀ u taping flange, o = some (u, taping, flange) →
    (∀ w : Wheel, (u.wheel.get w).points.length = 120) →
    let test : TraceVerdict → Option Nat := fun
      | .none => none
      | .complete => none
      | .tapingPoint => some 0
      | .flangeZone _ => some 1
      | .tooManyAbsent _ => some 2
    let figure : TraceVerdict → Option Nat := fun
      | .flangeZone j => some j
      | .tooManyAbsent n => some n
      | _ => none
    let bits := fun (p : PtuWheel) => [(test p.verdict).isSome, (figure p.verdict).isSome, decide (p.verdict ≠ .none)]
    r.length = 2450 ∧
    Reads r
      [(0, 2, 2450), (2, 1, packMarks ([true] ++ bits u.wheel.l ++ bits u.wheel.r ++ [u.failing.isSome])),
       (2447, 1, if u.failing = some .r then 1 else 0), (2448, 2, u.stray)] ∧
    ∀ w : Wheel,
      let p := u.wheel.get w
      let at_ := match w with
        | .l => 3
        | .r => 1225
      let absent := p.points.countP fun q => decide (q.count = 0)
      Reads r
        [(at_, 1, match p.verdict with
          | .none => 0
          | .complete => 1
          | _ => 2), (at_ + 1, 1, (test p.verdict).getD 0), (at_ + 2, 1, (figure p.verdict).getD 0),
         (at_ + 3, 1, 120 - absent), (at_ + 4, 1, absent), (at_ + 1205, 2, p.received), (at_ + 1207, 2, p.outOfRange),
         (at_ + 1209, 2, p.liftoffs), (at_ + 1211, 1, p.reseats), (at_ + 1212, 2, p.outside), (at_ + 1214, 2, p.binned),
         (at_ + 1216, 2, p.saturated), (at_ + 1218, 2, if p.verdict = .none then 0 else p.sweepTime),
         (at_ + 1220, 1, taping), (at_ + 1221, 1, flange)] ∧
      ∀ (j : Nat) (q : Point), p.points[j]? = some q → Reads r
        [(at_ + 5 + 10 * j, 2, q.count), (at_ + 7 + 10 * j, 4, signedField q.value),
         (at_ + 11 + 10 * j, 4, signedField q.height)]

/-- The fit section (R83, R201; log entry 19): empty until written, then the inputs that had arrived, the results of
each variant and the points where its excesses stand, the chosen variant and its flange thickness, the fit ceilings, the
ceilings held or the condemning values, and the fit state by its place in R70. -/
def FitReads (o : Option FeResult) : Prop :=
  let r := fitSection o
  (o = none → r = [0, 3, 0]) ∧ ∀ x, o = some x →
    let n := x.fit.results.length
    Reads r
      ([(0, 2, 41 + 22 * n),
        (2, 1, packMarks [true, x.fit.diameter.isSome, x.fit.runout.isSome, x.fit.chosen.isSome, x.thickness.isSome,
          x.fit.ceiling.isSome, x.held.isSome]),
        (19, 1, packMarks ((List.range 4).map fun k => x.effective.contains k)), (20, 1, n),
        (21 + 22 * n, 1, x.fit.chosen.getD 0), (22 + 22 * n, 2, x.thickness.getD 0),
        (40 + 22 * n, 1, match x.fit.state with
          | .empty => 0
          | .collecting => 1
          | .fitted => 2
          | .condemning => 3)] ++
       pairAt 3 x.fit.diameter ++ pairAt 11 x.fit.runout ++ pairAt (24 + 22 * n) x.fit.ceiling ++
       pairAt (32 + 22 * n) x.held) ∧
    ∀ (i : Nat) (f : VariantFit), x.fit.results[i]? = some f → Reads r
      (pairAt (21 + 20 * i) (some f.excess) ++ pairAt (29 + 20 * i) (some f.depth) ++
        [(37 + 20 * i, 4, twos 32 f.axle), (21 + 20 * n + 2 * i, 1, f.at_.l), (22 + 20 * n + 2 * i, 1, f.at_.r)])

/-- The result record's sections of a measurement or a calibration, and their order (R35, R51, R66, R83, R136, R201). -/
def ResultReads (s : State) : Prop :=
  TimingReads s.result.rtu ∧ RunoutReads s.result.rcu ∧ ProfileReads s.result.ptu ∧ FitReads s.result.fe ∧
  resultRecord s = startSection s.result.start ++ timingSection s.result.rtu ++ runoutSection s.result.rcu ++
    profileSection s.result.ptu ++ fitSection s.result.fe ++ [0, 4, 0] ++ be1 s.ru.replanCount

/-- A peer entry's 38 bytes, by the table of R201. -/
def PeerRecordReads (car : Fin 16) (e : PeerEntry) : Prop :=
  let r := peerRecord car e
  let mine := ∃ p, e.st = some p ∧ p.car = car
  r.length = 38 ∧
  Reads r
    ([(0, 1, e.station.val), (1, 1, packMarks [e.st.isSome, e.ceiling.isSome, e.intent.isSome]),
      (9, 1, packMarks [(e.st.map (·.digestMatch)).getD false, e.mismatchReported, (e.st.map (·.slotHeld)).getD false,
        ceilingOutdated e, intentOutdated e]),
      (12, 1, (e.ceiling.map (·.seq)).getD 0), (13, 1, (e.ceiling.map (·.status.code)).getD 0),
      (22, 1, (e.intent.map (·.seq)).getD 0), (23, 1, (e.intent.map (·.basis)).getD 0),
      (32, 2, min 65535 (e.age / 1000)), (34, 1, match e.freshness with
        | .fresh => 1
        | .stale => 2
        | .restarted => 3)] ++
     pairAt 14 (e.ceiling.bind (·.value)) ++ pairAt 24 (e.intent.map (·.target))) ∧
  (e.st = none → Reads r
    [(2, 4, 0), (6, 1, 0), (7, 2, 0), (10, 1, 0), (11, 1, 0), (35, 1, 3), (36, 1, 0), (37, 1, 0)]) ∧
  (∀ p, e.st = some p → Reads r
    [(2, 1, p.car.val), (3, 1, p.bogie.val), (4, 1, stateCode p.status), (5, 1, p.passesDone), (6, 1, p.passesTotal),
     (7, 2, p.digest.toNat), (10, 1, p.annCeiling), (11, 1, p.annIntent), (35, 1, if p.car = car then 1 else 2)]) ∧
  (¬mine → Reads r [(36, 1, 0), (37, 1, 0)]) ∧
  (∀ p, e.st = some p → p.car = car →
    (peerClass p e = .notMember → Reads r [(36, 1, 1), (37, 1, 0)]) ∧
    (∀ why, peerClass p e = .pending why → Reads r [(36, 1, 2), (37, 1, match why with
      | .measuring => 1
      | .stale => 2
      | .restarted => 3
      | .digest => 4
      | .noCeiling => 5)]) ∧
    (peerClass p e = .member → Reads r [(36, 1, 3), (37, 1, 0)]))

/-- A pass record's 17 bytes, by the table of R201. -/
def PassRecordReads (p : Pass) : Prop :=
  (passRecord p).length = 17 ∧ Reads (passRecord p)
    ([(0, 1, p.number), (1, 1, if p.kind = .rough then 1 else 2), (2, 1, match p.state with
        | .queued => 1
        | .active => 2
        | .done => 3
        | .aborted => 4),
      (3, 1, match p.reason with
        | .none => 0
        | .slideFaultL => 1
        | .slideFaultR => 2
        | .passTimeout => 3
        | .unclamped => 4
        | .estop => 5
        | .silenced => 6),
      (4, 1, packMarks [decide (0 < p.depth.l), decide (0 < p.depth.r), p.slideDone.l, p.slideDone.r]),
      (5, 2, p.depth.l), (7, 2, p.depth.r)] ++ pairAt 9 (some p.expected))

/-- READ_PASSES data (R157, R201; the controller's section by log entry 19). -/
def PassesReads (p : PC) : Prop :=
  let n := p.queue.length
  let d := passesData p
  let ctl := d.drop (19 + 17 * n)
  d = be1 n ++ p.queue.flatMap passRecord ++ be1 (packMarks [p.lastEnded.isSome]) ++
    ((p.lastEnded.map passRecord).getD (List.replicate 17 0#8)) ++ ctl ∧
  ctl.length = 35 ∧ Reads ctl
    ([(0, 2, 35), (11, 1, packMarks [p.uncertain]), (20, 1, packMarks [p.finishDone]), (21, 1, p.chosen.getD 0),
      (22, 1, packMarks [p.planDeep.isSome]), (23, 2, p.planDeep.getD 0),
      (25, 1, packMarks [p.rebuildOwed, p.holds.host, p.holds.watchdog, p.holds.guard_]), (26, 1, p.feed),
      (32, 1, p.passesDone), (33, 1, p.passesVisit), (34, 1, p.stray)] ++ pairAt 3 p.surface ++ pairAt 12 p.queueFinish) ∧
  (p.timer = .stopped → Reads ctl [(27, 1, 0), (28, 4, 0)]) ∧
  (∀ t, p.timer = .running t → Reads ctl [(27, 1, 1), (28, 4, t / 1000)]) ∧
  ∀ t, p.timer = .paused t → Reads ctl [(27, 1, 2), (28, 4, t / 1000)]

/-- READ_PEERS data: the count and the entries, the count of the claim list and its entries (R116, R170, R201). -/
def PeersDataReads (s : State) : Prop :=
  peersData s = be1 s.peers.length ++ s.peers.flatMap (peerRecord s.ss.straps.car) ++ be1 s.scu.claims.length ++
    s.scu.claims.flatMap fun c => [BitVec.ofNat 8 c.station.val, BitVec.ofNat 8 (c.pass.getD 0),
      if c.station = ownStation s then 1#8 else 0#8]

/-- The status record: nine sections, in the order of R201. -/
def StatusReads (s : State) : Prop :=
  statusRecord s = visitSection s.vc ++ runSection s ++ ceilingSection s.fe ++ linkSection s.lc ++ peersSection s ++
    reconciliationSection s ++ passesSection s.pc ++ slotsSection s ++ interlocksSection s ∧
  VisitReads s.vc ∧ RunReads s ∧ CeilingReads s.fe ∧ LinkReads s.lc ∧ PeersReads s ∧ ReconciliationReads s ∧ PitReads s

end Sys2Proof.Machine
end

