-- ==== Sys2Proof/Certificates/Slice0/Obligations.lean ====
section
/-! DEFINITION. The statements for the provers. Each says a rule of the manual of the model; a docstring names the
rules, and where a clause is the model's own choice it names the log entry. -/

open Sys2Proof Sys2Proof.Machine

/-! ## The queue of commands and the clock -/

/-- A step takes the command at the front of the queue and runs exec on it with the queue's rest. -/
def Obligations.StepTakesFrontCommand : Prop :=
  ∀ (c : Instr) (rest : List Instr) (s : State),
    step { s with pending := c :: rest } = exec c { s with pending := rest }

/-- On an empty queue a step is one microsecond (R20; log entry 1, the model's choice): the counter of R20 goes on
by 1 modulo 2^32; every running timer has one microsecond less and every stopped one stays stopped, a paused pass timer
keeps its time, an age grows up to 65,535 ms, the times that count up stop at their limits of 40P and 120 s; an expiry
joins the queue exactly when it is due in this microsecond (log entries 1 and 28, the model's choices), and nothing
else does; nothing is put on an output and nothing else changes. -/
def Obligations.EmptyQueueCountsOneMicrosecond : Prop :=
  ∀ s : State, s.pending = [] → ∃ t, step s = .next t ∧
    t.rtu.counter.toNat = (s.rtu.counter.toNat + 1) % 4294967296 ∧
    (∀ c, c ∈ t.pending ↔ ExpiryDue s c) ∧
    let less := Option.map fun n : Nat => n - 1
    let more := fun limit : Nat => Option.map fun n : Nat => if n < limit then n + 1 else n
    t.vc = { s.vc with homeTimer := less s.vc.homeTimer } ∧
    t.rtu = { s.rtu with
      counter := t.rtu.counter, driveTimer := less s.rtu.driveTimer, markTimer := less s.rtu.markTimer } ∧
    t.ptu = { s.ptu with sweepTimer := less s.ptu.sweepTimer } ∧
    t.lc = { s.lc with announce := less s.lc.announce, listenOnly := less s.lc.listenOnly } ∧
    t.peers = s.peers.map (fun e => { e with age := min 65535000 (e.age + 1) }) ∧
    t.ru = { s.ru with
      violationTimer := more (40 * (conf s).announce * 1000) s.ru.violationTimer
      peerWaitTimer := more 120000000 s.ru.peerWaitTimer } ∧
    t.scu = { s.scu with backoff := less s.scu.backoff } ∧
    t.pc = { s.pc with timer := t.pc.timer } ∧
    (∀ n, s.pc.timer = .running n → t.pc.timer = .running (n - 1)) ∧
    (∀ n, s.pc.timer = .paused n → t.pc.timer = .paused n) ∧ (s.pc.timer = .stopped → t.pc.timer = .stopped) ∧
    (∀ i, t.iiu.line i = { s.iiu.line i with timer := less (s.iiu.line i).timer }) ∧ t.iiu.latch = s.iiu.latch ∧
    t.cp = { s.cp with unlock := t.cp.unlock, watchdog := t.cp.watchdog, rxGap := t.cp.rxGap } ∧
    (∀ a n, s.cp.unlock = .opened a n → t.cp.unlock = .opened a (n - 1)) ∧
    (s.cp.unlock = .closed → t.cp.unlock = .closed) ∧
    (∀ n, s.cp.watchdog = .running n → t.cp.watchdog = .running (n + 1)) ∧
    ((∀ n, s.cp.watchdog ≠ .running n) → t.cp.watchdog = s.cp.watchdog) ∧
    t.cp.rxGap = (if s.cp.rxBuffer = [] then s.cp.rxGap else s.cp.rxGap + 1) ∧
    KeepsBut [.pending, .vc, .rtu, .ptu, .lc, .peers, .ru, .pc, .scu, .iiu, .cp] s t

/-- Every command answers a next state, the block having no fault that stops it, and leaves the queue of waiting
commands as it was. -/
def Obligations.EveryCommandAnswersNext : Prop :=
  ∀ (c : Instr) (s : State), ∃ t, exec c s = .next t ∧ t.pending = s.pending

/-! ## Invariants -/

/-- The state after reset meets every invariant of the model. -/
def Obligations.InvariantsHoldAtReset : Prop :=
  StatusInv State.reset ∧ ImagesInv State.reset ∧ TxQueueInv State.reset ∧ PeersInv State.reset ∧
  ClaimsInv State.reset ∧ PassQueueInv State.reset ∧ RangesInv State.reset

/-- EVENT is set exactly when some other flag is set, after every step (R183). -/
def Obligations.EventFlagFollowsTheOthers : Prop := ∀ s t : State, StatusInv s → step s = .next t → StatusInv t

/-- The image keeps its canonical form through every step: the list of the bytes that differ from the image as shipped,
offsets rising, is the model's own representation (log entry 2, the model's choice). -/
def Obligations.ImageKeepsItsForm : Prop := ∀ s t : State, ImagesInv s → step s = .next t → ImagesInv t

/-- The transmit queue keeps its order, its bound of 4 and one frame of each replaceable kind (R93 to R96), and never
holds more than one CLAIM (R163). -/
def Obligations.TransmitQueueKeepsItsOrder : Prop := ∀ s t : State, TxQueueInv s → step s = .next t → TxQueueInv t

/-- The peer table keeps one entry a station, in station order, and none of the own number (R102, R104). -/
def Obligations.PeerTableKeepsItsOrder : Prop := ∀ s t : State, PeersInv s → step s = .next t → PeersInv t

/-- The claim list keeps at most one entry a station, and the own one only while the slot is HELD (R159, R160,
R164). -/
def Obligations.ClaimListKeepsOneEntryAStation : Prop := ∀ s t : State, ClaimsInv s → step s = .next t → ClaimsInv t

/-- The pass queue keeps its form: at most 8 passes, ROUGH but for the FINISH pass that stands last, QUEUED but for
the head (R138, R140, R141). -/
def Obligations.PassQueueKeepsItsForm : Prop := ∀ s t : State, PassQueueInv s → step s = .next t → PassQueueInv t

/-- The sequences, the saturating counts and the feed override keep their ranges (R76, R91, R100, R117, R137,
R160). -/
def Obligations.CountsKeepTheirRanges : Prop := ∀ s t : State, RangesInv s → step s = .next t → RangesInv t

/-! ## Whole-machine rules -/

/-- Between resets the start copy, the straps, the digest, the variant table and the start fields do not change, no
command touches the counter of R20, and the stored image changes only by a WRITE_SETTINGS taken, also one that bytes of
the line complete, the end of a write's readback and the mark that closes a calibration (R20, R67, R180, R187, R190,
R191, R193, R194). -/
def Obligations.StartValuesStandUntilReset : Prop :=
  ∀ (c : Instr) (s t : State), (∀ k p w, c ≠ .reset k p w) → exec c s = .next t →
    t.ss.startCopy = s.ss.startCopy ∧ t.ss.straps = s.ss.straps ∧ t.ss.digest = s.ss.digest ∧
    t.fe.variants = s.fe.variants ∧ t.result.start = s.result.start ∧ t.rtu.counter = s.rtu.counter ∧
    ((∀ p, c ≠ .writeSettings p) → (∀ m, c ≠ .settingsWriteDone m) → (∀ m, c ≠ .calibrationWriteDone m) →
      (∀ p, c ≠ .markTrailingEdge p) → (∀ f, c = .discardedFrame f → cellComplete f = true) →
      t.ss.image = s.ss.image)

/-- Within a visit a ceiling that has been announced never rises: whatever the command, a NORMAL record stays at or
below the NORMAL record announced before it (R76 to R78). -/
def Obligations.AnnouncedCeilingNeverRises : Prop :=
  ∀ (c : Instr) (s t : State) (v : LR Int), (∀ k p w, c ≠ .reset k p w) → exec c s = .next t →
    s.fe.ceil.status = .normal → s.fe.ceil.announced = true → s.fe.ceil.value = some v →
    t.fe.ceil.status = .normal → ∃ w, t.fe.ceil.value = some w ∧ w.l ≤ v.l ∧ w.r ≤ v.r

/-- A silenced station stays silenced until a reset: no command but RESET starts a run, a sweep or a pass, queues a
frame or sends one (R19, R99, R101). -/
def Obligations.SilencedUntilReset : Prop :=
  ∀ (c : Instr) (s t : State), (∀ k p w, c ≠ .reset k p w) → Quiet s → exec c s = .next t →
    Quiet t ∧ t.out.sent = s.out.sent

/-! ## Frames and the image -/

/-- The frame of a host command reads back as that command with its payload, whatever the payload (R180, R195, R196,
R198). -/
def Obligations.CellFramesReadBack : Prop :=
  ∀ (c : HostCmd) (p : List Byte), p.length ≤ 255 → cellCommand (cellFrame c p) = some (c, p)

/-- A frame the station sends is a good frame of its kind and reads back as what was sent (R86, R97, R195 to
R197); and the bits of a frame in sending order: a dominant start bit, six bits of arbitration, kind, length, payload
and check, most significant bit first, and eight recessive bits, 39 bits and 8 for each byte of the payload (R86). An
INTENT whose targets lie outside 600,000 to 1,300,000 is as good as another (log entry 17, the model's reading). -/
def Obligations.LinkFramesReadBack : Prop :=
  (∀ (n : Fin 16) (p : PeerState) (own : BitVec 16), (linkCode p.status).isSome → p.passesDone ≤ p.passesTotal →
    p.passesTotal ≤ 8 → p.annCeiling ≤ 255 → p.annIntent ≤ 255 →
    goodAs .state (makeFrame .state n (statePayload p)) = true ∧
    readState own (statePayload p) = some { p with digestMatch := decide (p.digest = own) }) ∧
  (∀ (n : Fin 16) (q : Nat) (st : CeilStatus) (v : LR Int), 1 ≤ q → q ≤ 255 → st = .normal ∨ st = .passive →
    v.all (fun d => decide (d % 2 = 0) && linkDiameterOk d) = true →
    goodAs .ceiling (makeFrame .ceiling n (ceilingPayload ⟨q, st, some v⟩)) = true ∧
    readCeiling (ceilingPayload ⟨q, st, some v⟩) = some ⟨q, st, some v⟩) ∧
  (∀ (n : Fin 16) (q : Nat) (st : CeilStatus), 1 ≤ q → q ≤ 255 → st = .condemned ∨ st = .cleared →
    goodAs .ceiling (makeFrame .ceiling n (ceilingPayload ⟨q, st, none⟩)) = true ∧
    readCeiling (ceilingPayload ⟨q, st, none⟩) = some ⟨q, st, none⟩) ∧
  (∀ (n : Fin 16) (i : Intent), 1 ≤ i.seq → i.seq ≤ 255 → 1 ≤ i.basis → i.basis ≤ 255 →
    i.target.all (fun d => decide (d % 2 = 0) && decide (0 ≤ d) && decide (d < 33554432)) = true →
    goodAs .intent (makeFrame .intent n (intentPayload i)) = true ∧ readIntent (intentPayload i) = some i) ∧
  (∀ (n : Fin 16) (k : Nat), 1 ≤ k → k ≤ 8 →
    goodAs .claim (makeFrame .claim n (be1 k)) = true ∧ goodAs .release (makeFrame .release n (be1 k)) = true ∧
    readPass (be1 k) = some k) ∧
  (∀ f : LinkFrame, f.payload.length ≤ 15 →
    let n := f.payload.length
    let bit := fun i => (frameBits f)[i]?
    (frameBits f).length = 39 + 8 * n ∧ bit 0 = some false ∧
    (∀ i, i < 6 → bit (1 + i) = some ((f.cls.toNat * 16 + f.station.val).testBit (5 - i))) ∧
    (∀ i, i < 4 → bit (7 + i) = some (f.kind.toNat.testBit (3 - i)) ∧ bit (11 + i) = some (n.testBit (3 - i))) ∧
    (∀ (j : Nat) (x : Byte), f.payload[j]? = some x →
      ∀ i, i < 8 → bit (15 + 8 * j + i) = some (x.toNat.testBit (7 - i))) ∧
    (∀ i, i < 16 → bit (15 + 8 * n + i) = some (f.check.toNat.testBit (15 - i))) ∧
    ∀ i, i < 8 → bit (31 + 8 * n + i) = some true)

/-- A write of the store leaves the data at its offsets (0 in a spare byte), every other byte of the image below the
checksum as it was, and a good checksum (R187, R190). -/
def Obligations.WrittenImageIsGood : Prop :=
  ∀ (m : Image) (off : Nat) (data : List Byte), imageWf m = true → off + data.length ≤ 1024 →
    imageGood (beginWrite m off data).1 = true ∧ imageWf (beginWrite m off data).1 = true ∧
    (∀ i (h : i < data.length),
      imageGet (beginWrite m off data).1 (off + i) = if isSpare (off + i) then 0#8 else data[i]) ∧
    (∀ a, a < 1024 → a < off ∨ off + data.length ≤ a → imageGet (beginWrite m off data).1 a = imageGet m a)

/-! ## What the blocks compute -/

/-- The gate of a runout sample (R42 to R45): an out-of-range sample is a lift-off that nothing accepts; with J at 0
every other sample is written; with J above 0 an OPEN gate writes a sample within J of the last accepted value and
takes any other as a lift-off, and a gate not OPEN writes nothing until two samples in a row agree; a window start with
J at 0 opens the gate, and a mark keeps the last accepted value. -/
def Obligations.RunoutGate : Prop :=
  ∀ (j i : Nat) (v : Int) (r : RcuWheel),
    (v < -20000 ∨ 20000 < v → takeSample j i v r =
      { r with
        liftRev := r.liftRev + 1, liftWindow := min 65535 (r.liftWindow + 1)
        liftMost := max r.liftMost (r.liftRev + 1)
        gate := if j = 0 then r.gate else .seeking
        candidate := if j = 0 then r.candidate else none
        lastAccepted := if j = 0 then r.lastAccepted else none }) ∧
    (-20000 ≤ v → v ≤ 20000 → j = 0 → (takeSample j i v r).bins = r.bins.set i (some v) ∧
      (takeSample j i v r).lastAccepted = some v ∧ (takeSample j i v r).gate = .opened ∧
      (takeSample j i v r).liftRev = r.liftRev) ∧
    (-20000 ≤ v → v ≤ 20000 → 0 < j → ∀ a, r.gate = .opened → r.lastAccepted = some a →
      (|v - a| ≤ j → (takeSample j i v r).bins = r.bins.set i (some v) ∧
        (takeSample j i v r).lastAccepted = some v ∧ (takeSample j i v r).gate = .opened ∧
        (takeSample j i v r).liftRev = r.liftRev) ∧
      (j < |v - a| → (takeSample j i v r).bins = r.bins ∧ (takeSample j i v r).gate = .seeking ∧
        (takeSample j i v r).candidate = none ∧ (takeSample j i v r).lastAccepted = none ∧
        (takeSample j i v r).liftRev = r.liftRev + 1)) ∧
    (-20000 ≤ v → v ≤ 20000 → 0 < j → r.gate = .seeking →
      takeSample j i v r = { r with gate := .candidate, candidate := some (v, i) }) ∧
    (-20000 ≤ v → v ≤ 20000 → 0 < j → ∀ c ci, r.gate = .candidate → r.candidate = some (c, ci) →
      (|v - c| ≤ j → (takeSample j i v r).bins = (r.bins.set ci (some c)).set i (some v) ∧
        (takeSample j i v r).lastAccepted = some v ∧ (takeSample j i v r).gate = .opened ∧
        (takeSample j i v r).candidate = none) ∧
      (j < |v - c| → takeSample j i v r = { r with gate := .candidate, candidate := some (v, i) })) ∧
    (rcuWindow 0).gate = .opened ∧
    (∀ (s : State) (w : Wheel), ((newRevolution s).rcu.wheel.get w).lastAccepted = (s.rcu.wheel.get w).lastAccepted)

/-- The fit (R72 to R75, R83): the profile excess is the largest difference over the present points, at the lowest
point where it stands; a variant's depth is the greater of excess and runout, plus m, its axle depth the greater of
both wheels'; the chosen variant has the smallest axle depth, the lowest index among equals; a fit ceiling is the
diameter less twice the depth. -/
def Obligations.FitChoosesTheVariant : Prop :=
  (∀ (v : Variant) (worn : List (Option Int)), worn.length = v.heights.length →
    (∃ (j : Nat) (x : Int), worn[j]? = some (some x)) →
    (∃ x y, v.heights[(excess v worn).2]? = some x ∧ worn[(excess v worn).2]? = some (some y) ∧
      (excess v worn).1 = x - y) ∧
    ∀ (j : Nat) (x y : Int), v.heights[j]? = some x → worn[j]? = some (some y) →
      x - y ≤ (excess v worn).1 ∧ (j < (excess v worn).2 → x - y < (excess v worn).1)) ∧
  (∀ (m k : Nat) (v : Variant) (ρ : LR Int) (worn : LR (List (Option Int))) (w : Wheel),
    let f := fitVariant m k v ρ worn
    f.index = k ∧ f.excess.get w = (excess v (worn.get w)).1 ∧ f.at_.get w = (excess v (worn.get w)).2 ∧
    f.depth.get w = max (f.excess.get w) (ρ.get w) + m ∧ f.axle = max f.depth.l f.depth.r) ∧
  (∀ (fs : List VariantFit), fs.Pairwise (fun a b => a.index < b.index) →
    (fs ≠ [] → ∃ g, chooseVariant fs = some g) ∧
    ∀ g, chooseVariant fs = some g →
      g ∈ fs ∧ ∀ f ∈ fs, g.axle ≤ f.axle ∧ (f.axle = g.axle → g.index ≤ f.index)) ∧
  ∀ (d : LR Int) (f : VariantFit) (w : Wheel), (fitCeilings d f).get w = d.get w - 2 * f.depth.get w

/-- R106: wrap order of two sequences of 1 to 255. -/
def Obligations.SequenceWrapOrder : Prop :=
  ∀ a b : Nat, 1 ≤ a → a ≤ 255 → 1 ≤ b → b ≤ 255 →
    seqDiff a b = (a + 255 - b) % 255 ∧ (seqNewer a b = true ↔ 1 ≤ seqDiff a b ∧ seqDiff a b ≤ 127) ∧
    (seqOlder a b = true ↔ 128 ≤ seqDiff a b ∧ seqDiff a b ≤ 254) ∧ (seqOlder a b = seqNewer b a) ∧
    (a = b → seqNewer a b = false ∧ seqOlder a b = false) ∧ (a ≠ b → seqNewer a b = !seqOlder a b) ∧
    nextSeq a = (if a = 255 then 1 else a + 1) ∧ seqNewer (nextSeq a) a = true

/-- From ceilings to targets, plan and intent. R120, R121: each minimum is attained, by an own ceiling or by that of a
member it ranges over, which leaves out entries that are no member and, for m_bogie, members of another bogie; the
terms, the cap, the targets; everything even where the ceilings and the tolerances are. R113: the class of an own-car
entry. R130 to R132: the agreement findings. R8, R119: with no entry pending a report in RECONCILING forms the first
plan and its intent, hands the measured diameters and the queue over, and moves the station to READY; with one pending
nothing is planned. R123, R125 to R127: a report that moves an input of a plan re-plans, an intent formed and the
replan count advanced as the rules give; with an entry pending the plan is owed, a target above its fallen ceiling
lowered to it. R131, R132: a STATE that changes of a member its status alone keeps the findings current, the member being
awaited or not by it, and plans nothing. That a report is counted by the class, the ceiling and the intent of an entry,
and that a member's ABORTING or ABORTED, or its bogie, is counted for the findings alone, is read by inference (log
entry 31), and so is that an ask beside a given-up CLAIM still queued arms nothing yet (log entry 22). The model's
choices: a re-plan in FINISHED leaves the agreement findings as they stood there (log entry 41),
and the orders of a pass that starts then are recorded in the order of log entry 39. -/
def Obligations.TargetsFromCeilings : Prop :=
  (∀ (c : Settings) (b : Fin 4) (own : LR Int) (v : List ViewEntry),
    let p := computePlan c b own v
    let least := fun (x : Int) (among : ViewEntry → Prop) =>
      x ≤ own.l ∧ x ≤ own.r ∧
      (∀ e ∈ v, ∀ y, e.cls = .member → among e → e.ceiling = some y → x ≤ y.l ∧ x ≤ y.r) ∧
      (x = own.l ∨ x = own.r ∨ ∃ e ∈ v, ∃ y, e.cls = .member ∧ among e ∧ e.ceiling = some y ∧ (x = y.l ∨ x = y.r))
    p.minAxle = min own.l own.r ∧ least p.minBogie (fun e => e.bogie = b) ∧ least p.minCar (fun _ => True) ∧
    p.minBogie ≤ p.minAxle ∧ p.minCar ≤ p.minBogie ∧
    p.termAxle = p.minAxle + c.tolAxle ∧ p.termBogie = p.minBogie + c.tolBogie ∧ p.termCar = p.minCar + c.tolCar ∧
    p.cap = min p.termAxle (min p.termBogie p.termCar) ∧
    p.target = ⟨min own.l p.cap, min own.r p.cap⟩ ∧ p.target.l ≤ own.l ∧ p.target.r ≤ own.r ∧
    (own.l % 2 = 0 → own.r % 2 = 0 → c.tolAxle % 2 = 0 → c.tolBogie % 2 = 0 → c.tolCar % 2 = 0 →
      (∀ e ∈ v, ∀ x, e.ceiling = some x → x.l % 2 = 0 ∧ x.r % 2 = 0) →
      p.cap % 2 = 0 ∧ p.target.l % 2 = 0 ∧ p.target.r % 2 = 0)) ∧
  (∀ (p : PeerState) (e : PeerEntry), e.st = some p →
    let out := p.status = .idle ∨ p.status = .invalid ∨ p.status = .condemned ∨ p.status = .excluded
    let measures := p.status = .measuring ∨ p.status = .unmeasured
    let current := ∃ c, e.ceiling = some c ∧ (c.status = .normal ∨ c.status = .passive) ∧ c.value.isSome ∧
      ¬(p.annCeiling ≠ 0 ∧ seqNewer p.annCeiling c.seq = true)
    let c := peerClass p e
    let heard := ¬out ∧ ¬measures ∧ e.freshness = .fresh
    (out → c = .notMember) ∧ (¬out → measures → c = .pending .measuring) ∧
    (¬out → ¬measures → e.freshness = .stale → c = .pending .stale) ∧
    (¬out → ¬measures → e.freshness = .restarted → c = .pending .restarted) ∧
    (heard → p.digestMatch = false → c = .pending .digest) ∧
    (heard → p.digestMatch = true → ¬current → c = .pending .noCeiling) ∧
    (heard → p.digestMatch = true → current → c = .member)) ∧
  (∀ (s : State),
    let aborts := fun (e : ViewEntry) => e.status = .aborting ∨ e.status = .aborted
    let awaited := fun (e : ViewEntry) => e.cls = .member ∧ ¬aborts e ∧
      ∀ i c, e.intent = some i → e.stored = some c → seqOlder i.basis c.seq = true
    let far := fun (e : ViewEntry) (a b : Int) =>
      (conf s).tolCar < |a - b| ∨ (e.bogie = s.ss.straps.bogie ∧ (conf s).tolBogie < |a - b|)
    effState s = .ready ∨ effState s = .cutting →
      agree s = { s with ru := { s.ru with violation := (agree s).ru.violation, awaited := (agree s).ru.awaited } } ∧
      ((agree s).ru.violation = true ↔ ∃ p, s.ru.plan = some p ∧ ∃ e ∈ groupView s, ∃ i, e.cls = .member ∧ ¬aborts e ∧
        ¬awaited e ∧ e.intent = some i ∧ ∃ x y : Wheel, far e (p.target.get x) (i.target.get y)) ∧
      (∀ n, n ∈ (agree s).ru.awaited ↔ ∃ e ∈ groupView s, e.station = n ∧ awaited e) ∧
      (PeersInv s → (agree s).ru.awaited.Pairwise (· < ·))) ∧
  (∀ (f : LinkFrame) (c : StoredCeiling) (s a : State) (own : LR Int), HearsCeiling f c s a →
    let runs := exec (.ceilingReceived f) s
    let v := groupView a
    let p := computePlan (conf s) s.ss.straps.bogie own v
    let told := (groupView s).map reportKey ≠ v.map reportKey
    (¬told → runs = .next a) ∧
    (s.vc.state = .reconciling → s.ru.plan = none → told → anyPending v = true → ∃ t, runs = .next t ∧ Settled a t) ∧
    (∀ sf, s.fe.ceil.status = .normal → s.fe.ceil.value = some own → s.vc.state = .reconciling → s.ru.plan = none →
      told → anyPending v = false → s.fe.fit.diameter = some sf →
      let b := buildFrom (conf s) false false 0 sf p.target
      let x := planned p false false true a
      ∃ t, runs = .next t ∧ Settled (agree { x with
        vc := { s.vc with state := .ready }
        lc := handed .state x.lc
        pc := PC.built b { s.pc with
          surface := some sf, uncertain := false, finishDone := false, chosen := s.fe.fit.chosen, passesDone := 0 } }) t) ∧
    (∀ q, s.fe.ceil.status = .normal → s.fe.ceil.value = some own → s.ru.plan = some q → InputMoved (groupView s) v →
      s.vc.state = .ready ∨ s.vc.state = .cutting ∨ s.vc.state = .finished →
      let lowered : Plan := { q with target := ⟨min q.target.l own.l, min q.target.r own.r⟩ }
      (anyPending v = true → lowered.target = q.target → ∃ t, runs = .next t ∧
        Settled (agree (replanned q.target lowered true a)) t) ∧
      (anyPending v = false → p.target = q.target → ∃ t, runs = .next t ∧
        Settled (agree (replanned q.target p false a)) t) ∧
      (anyPending v = false → p.target ≠ q.target → s.vc.state = .cutting → (activePass s).isSome →
        let x := replanned q.target p false a
        ∃ t, runs = .next t ∧ Settled (agree { x with pc := { s.pc with rebuildOwed := true } }) t) ∧
      (anyPending v = true → lowered.target ≠ q.target → s.vc.state = .cutting → (activePass s).isSome →
        let x := replanned q.target lowered true a
        ∃ t, runs = .next t ∧ Settled (agree { x with pc := { s.pc with rebuildOwed := true } }) t))) ∧
  ∀ (f : LinkFrame) (p : PeerState) (s a : State) (x y : ViewEntry), HearsState f p s a →
    let aborts := fun (e : ViewEntry) => e.status = .aborting ∨ e.status = .aborted
    x ∈ groupView s → y ∈ groupView a → x.station = f.station → y.station = f.station → x.cls = .member →
    y.cls = .member → x.ceiling = y.ceiling → x.intent = y.intent →
    ((aborts x ↔ ¬aborts y) → ∃ t, exec (.stateReceived f) s = .next t ∧ Settled (agree a) t) ∧
    ((aborts x ↔ aborts y) → x.bogie = y.bogie → exec (.stateReceived f) s = .next a)

/-- A queue that is built adds up (R139 to R141): each wheel's total, split into a finish depth of at most p_f and
rough depths as even as whole micrometres allow, in the fewest ROUGH passes of at most p_r followed by one FINISH pass;
each expected diameter the one before it, the surface for the first, less twice the depth; the queue finish the expected
diameter of the FINISH pass; no number beyond 8, or else the build is DEEP; with both totals 0 it is empty. What
changed targets build (R11, R126, R141 to R143): in READY, and in CUTTING with no pass ACTIVE, the queue anew, a HELD
claim kept for a ROUGH head and released for a FINISH one, a DEEP build in CUTTING back to READY with RECUT_REQUIRED;
in READY after a recut an empty build, back to FINISHED; in FINISHED a target below its surface, a recut, each thin
depth raised to m_r and its ceiling lowered with it, or the station condemned below Z; a thin depth is so raised in READY
and in CUTTING too. That an ask beside a given-up CLAIM still queued arms nothing yet is read by inference (log
entry 22). The model's choices: in FINISHED, after a recut withdrawn too, the agreement findings hold their last
values (log entry 41), and the orders of a pass that starts on a build are recorded in the order of log entry 39. -/
def Obligations.BuiltQueueAddsUp : Prop :=
  (∀ (c : Settings) (fd inCut : Bool) (done : Nat) (sf tg : LR Int), 0 < c.rough →
    let total := fun (w : Wheel) =>
      let h := ((sf.get w - tg.get w) / 2).toNat
      if fd then (if h = 0 then 0 else max h c.minRecut) else h
    let last := fun (w : Wheel) => min c.finish (total w)
    let rest := fun (w : Wheel) => total w - last w
    let most := max (rest .l) (rest .r)
    let b := buildFrom c fd inCut done sf tg
    (b = .empty ↔ total .l = 0 ∧ total .r = 0) ∧ b ≠ .notMade ∧
    (∀ n, b = .deep n → most ≤ n * c.rough ∧ n * c.rough < most + c.rough ∧ 8 < (if inCut then done else 0) + n + 1) ∧
    ∀ q fin, b = .made q fin →
      let n := q.length - 1
      q ≠ [] ∧ most ≤ n * c.rough ∧ n * c.rough < most + c.rough ∧ (∀ p ∈ q, p.state = .queued) ∧
      (∀ i (h : i < q.length), (q[i]).number = (if inCut then done else 0) + i + 1 ∧ (q[i]).number ≤ 8 ∧
        (q[i]).kind = (if i < n then .rough else .finish)) ∧
      (∀ w : Wheel,
        (∀ i (h : i < q.length),
          (q[i]).depth.get w = (if i < n then rest w / n + (if i < rest w % n then 1 else 0) else last w) ∧
          (q[i]).expected.get w =
            (if i = 0 then sf.get w else ((q[i - 1]?).map fun p => p.expected.get w).getD 0) - 2 * ((q[i]).depth.get w)) ∧
        (q.map fun p => p.depth.get w).sum = total w ∧
        fin.get w = sf.get w - 2 * ((q.map fun p => (p.depth.get w : Int)).sum)) ∧
      (∀ p, q.getLast? = some p → p.expected = fin) ∧
      ∀ p ∈ q.dropLast, p.depth.l ≤ c.rough ∧ p.depth.r ≤ c.rough ∧ 0 < max p.depth.l p.depth.r) ∧
  ∀ (f : LinkFrame) (c : StoredCeiling) (s a : State) (own sf : LR Int) (q : Plan), HearsCeiling f c s a →
    s.fe.ceil.status = .normal → s.fe.ceil.value = some own → s.ru.plan = some q →
    InputMoved (groupView s) (groupView a) → anyPending (groupView a) = false → s.pc.surface = some sf →
    s.pc.uncertain = false →
    let runs := exec (.ceilingReceived f) s
    let p := computePlan (conf s) s.ss.straps.bogie own (groupView a)
    let x := replanned q.target p false a
    let inReady := buildFrom (conf s) s.pc.finishDone false 0 sf p.target
    let inCut := buildFrom (conf s) s.pc.finishDone true s.pc.passesDone sf p.target
    let half := fun (w : Wheel) => (sf.get w - p.target.get w) / 2
    let thin := fun (w : Wheel) => s.pc.finishDone = true ∧ 0 < half w ∧ half w < (conf s).minRecut
    let left := { s.pc with holds := HoldCauses.empty }
    p.target ≠ q.target →
    (s.vc.state = .ready → (∀ w, ¬thin w) → inReady ≠ .empty → ∃ t, runs = .next t ∧
      Settled (agree { x with pc := PC.built inReady { s.pc with passesDone := 0 } }) t) ∧
    (s.vc.state = .ready → inReady = .empty → ∃ t, runs = .next t ∧ Settled { x with
      vc := { s.vc with state := .finished }
      lc := handed .state x.lc
      pc := PC.built inReady { s.pc with passesDone := 0 } } t) ∧
    (∀ qs fin h, s.vc.state = .cutting → activePass s = none → (∀ w, ¬thin w) → inCut = .made qs fin →
      qs.head? = some h →
      let y := if h.kind = .rough then x
        else if s.scu.slot = .held then claimReleased x else { x with scu := s.scu.freed }
      h.kind = .rough ∨ s.scu.slot ≠ .armed →
      ∃ t, runs = .next t ∧ Settled (agree { y with pc := PC.built inCut s.pc }) t) ∧
    (s.vc.state = .cutting → activePass s = none → inCut = .empty → s.scu.slot = .none → ∃ t, runs = .next t ∧
      t.vc = { s.vc with state := .finished, sub := none } ∧ t.pc = PC.built inCut left ∧
      t.out = s.out.grewBy [.stop] [] ∧ t.cp = s.cp ∧ t.scu = s.scu.freed ∧ t.lc = handed .state x.lc) ∧
    (∀ n, s.vc.state = .cutting → activePass s = none → (∀ w, ¬thin w) → inCut = .deep n → s.scu.slot = .none →
      ∃ t, runs = .next t ∧ t.vc = { s.vc with state := .ready, sub := none } ∧
        t.pc = PC.built inReady { left with passesDone := 0 } ∧ t.out = s.out.grewBy [.stop] [] ∧
        t.cp = { s.cp with status := latchWord s.cp.status .recutRequired } ∧ t.scu = s.scu.freed ∧
        t.lc = handed .state x.lc) ∧
    (s.vc.state = .finished → (∀ w, sf.get w ≤ p.target.get w) → ∃ t, runs = .next t ∧ t.vc.state = .finished ∧
      t.pc = s.pc ∧ t.cp = s.cp ∧ t.lc = x.lc) ∧
    (s.vc.state = .finished → (∃ w, 2 ≤ sf.get w - p.target.get w) → (∀ w, ¬thin w) → ∃ t, runs = .next t ∧
      Settled (agree { x with
        vc := { s.vc with state := .ready }
        lc := handed .state x.lc
        pc := PC.built inReady { s.pc with passesDone := 0 }
        cp := { s.cp with status := latchWord s.cp.status .recutRequired } }) t) ∧
    let recuts := s.vc.state = .finished ∨ s.vc.state = .ready ∨ (s.vc.state = .cutting ∧ activePass s = none)
    (∀ w, recuts → thin w → (conf s).condemn ≤ own.l → (conf s).condemn ≤ own.r →
      sf.get w - 2 * (conf s).minRecut < (conf s).condemn → ∃ t, runs = .next t ∧ t.vc.state = .condemned ∧
        t.fe.ceil.status = .condemned ∧ flagSet t.cp.status .condemned = true) ∧
    (∀ w, recuts → thin w → (conf s).condemn ≤ own.l → (conf s).condemn ≤ own.r →
      (∀ w, ((conf s).condemn : Int) ≤ sf.get w - 2 * (conf s).minRecut) → ∃ t own' p' i, runs = .next t ∧
        t.fe.ceil.status = .normal ∧ t.fe.ceil.value = some own' ∧ t.fe.ceil.seq ≠ s.fe.ceil.seq ∧
        (∀ w, thin w → own'.get w = sf.get w - 2 * (conf s).minRecut) ∧ (∀ w, own'.get w ≤ own.get w) ∧
        t.ru.plan = some p' ∧ p' = computePlan (conf s) s.ss.straps.bogie own' (groupView a) ∧
        t.ru.intent = some i ∧ i.basis = t.fe.ceil.seq ∧ i.target = p'.target ∧
        (s.vc.state ≠ .cutting → t.vc.state = .ready ∧
          t.pc = PC.built (buildFrom (conf s) true false 0 sf p'.target) { s.pc with passesDone := 0 } ∧
          t.cp = if s.vc.state = .finished then { s.cp with status := latchWord s.cp.status .recutRequired } else s.cp) ∧
        (∀ qs fin, s.vc.state = .cutting → buildFrom (conf s) true true s.pc.passesDone sf p'.target = .made qs fin →
          t.vc.state = .cutting ∧ t.pc.queue.tail = qs.tail ∧ t.pc.queueFinish = some fin ∧ t.cp = s.cp) ∧
        ∀ w, (sf.get w - p'.target.get w) / 2 ≤ 0 ∨ (conf s).minRecut ≤ (sf.get w - p'.target.get w) / 2)

/-! ## The cell port and the host commands -/

/-- Before a command is acted on (R181, R182, R184): while a WRITE_SETTINGS is being taken it waits, or is discarded
where one already waits; with a critical flag set every command but READ_STATUS gets STATUS with the status word and
clears the flags; a payload of a wrong length is refused with BAD_ARGUMENT. That STATUS comes before the test of the
length is read by inference (log entry 25). -/
def Obligations.PortBeforeAction : Prop :=
  ∀ (k : HostCmd) (p : List Byte) (s : State),
    (s.ss.hostWrite ≠ none → s.cp.waiting = none →
      exec (k.instr p) s = .next { s with cp := { s.cp with waiting := some (k, p) } }) ∧
    (s.ss.hostWrite ≠ none → s.cp.waiting ≠ none → exec (k.instr p) s =
      .next { s with cp := { s.cp with rxBuffer := [], status := latchWord s.cp.status .unknownMessage } }) ∧
    (s.ss.hostWrite = none → k ≠ .readStatus → anyCritical s.cp.status = true → exec (k.instr p) s =
      .next { s with
        cp := { s.cp.afterCommand (conf s).watch with status := 0#16 }
        out := s.out.grewBy [] [.status k s.cp.status] }) ∧
    (s.ss.hostWrite = none → k = .readStatus ∨ anyCritical s.cp.status = false → lengthFits k p.length = false →
      exec (k.instr p) s = .next (refusal k .badArgument s))

/-- VISIT(mask) (R4, R5, R22, R23, R40, R54, R69, R70): its refusals in order, and what an accepted one begins. -/
def Obligations.VisitOpensAMeasurement : Prop :=
  ∀ (m : Byte) (s : State), PortFree s →
    let eff := (List.range 4).filter fun k =>
      m.getLsbD k && decide ((s.fe.variants[k]?).map (·.verdict) = some .usable)
    (s.vc.state ≠ .idle ∨ s.vc.calRunning = true → exec (.visit [m]) s = .next (refusal .visit .wrongState s)) ∧
    (s.vc.state = .idle → s.vc.calRunning = false → 16 ≤ m.toNat ∨ eff = [] →
      exec (.visit [m]) s = .next (refusal .visit .badArgument s)) ∧
    (s.vc.state = .idle → s.vc.calRunning = false → m.toNat < 16 → eff ≠ [] → level s .clamped = false →
      exec (.visit [m]) s = .next (refusal .visit .notClamped s)) ∧
    (s.vc.state = .idle → s.vc.calRunning = false → m.toNat < 16 → eff ≠ [] → level s .clamped = true →
      exec (.visit [m]) s = .next { s with
        vc := { s.vc with
          state := .measuring, visitOpen := true, mask := m.truncate 4, cutBegun := false, passCompleted := false
          condPending := false }
        rtu := s.rtu.begun .measure (level s .driveAtSpeed)
        rcu := ⟨.filling, .both (rcuWindow (conf s).jump)⟩
        ptu := PTU.reset
        fe := { s.fe with effective := eff, fit := FitRecord.reset }
        lc := handed .state s.lc
        cp := s.cp.afterCommand (conf s).watch
        out := s.out.grewBy [.measureSpeed] [.ok .visit []] })

/-- MEASURE (R4, R6, R22, R128, R152): its refusals, and what an accepted one drops and begins; the announced
ceilings stay. -/
def Obligations.MeasureBeginsAgain : Prop :=
  ∀ s : State, PortFree s →
    let again := s.vc.state = .unmeasured ∨ s.vc.state = .aborted ∨
      ((s.vc.state = .reconciling ∨ s.vc.state = .ready) ∧ s.vc.passCompleted = false)
    (¬again → exec (.measure []) s = .next (refusal .measure .wrongState s)) ∧
    (again → level s .clamped = false → exec (.measure []) s = .next (refusal .measure .notClamped s)) ∧
    (again → level s .clamped = true → exec (.measure []) s = .next { s with
        vc := { s.vc with state := .measuring }
        rtu := s.rtu.begun .measure (level s .driveAtSpeed)
        rcu := ⟨.filling, .both (rcuWindow (conf s).jump)⟩
        ptu := PTU.reset
        fe := { s.fe with fit := FitRecord.reset }
        lc := handed .state s.lc
        ru := if s.vc.state = .reconciling ∨ s.vc.state = .ready then s.ru.dropped else s.ru
        pc :=
          if s.vc.state = .unmeasured then s.pc
          else if s.vc.state = .aborted then { s.pc with surface := none, queueFinish := none }
          else
            { s.pc with queue := [], surface := none, queueFinish := none, planDeep := none, rebuildOwed := false }
        cp := s.cp.afterCommand (conf s).watch
        out := s.out.grewBy [.measureSpeed] [.ok .measure []] })

/-- CUT (R4, R9, R10): refused outside READY and on a DEEP plan; accepted, the station is in CUTTING with cut begun,
and the head pass starts at once where its start conditions hold, its orders recorded in the order of log entry 39, the
model's choice. That an ask beside a given-up CLAIM still queued arms nothing yet is read by inference (log entry 22). -/
def Obligations.CutBegins : Prop :=
  ∀ s : State, PortFree s →
    (s.vc.state ≠ .ready → exec (.cut []) s = .next (refusal .cut .wrongState s)) ∧
    (s.vc.state = .ready → s.pc.planDeep ≠ none → exec (.cut []) s = .next (refusal .cut .planTooDeep s)) ∧
    (s.vc.state = .ready → s.pc.planDeep = none → ∃ t, exec (.cut []) s = .next t ∧
      Settled { s with
        vc := { s.vc with state := .cutting, cutBegun := true }
        lc := handed .state s.lc
        cp := s.cp.afterCommand (conf s).watch
        out := s.out.grewBy [] [.ok .cut []] } t)

/-- HOLD and RESUME (R4, R150, R153, R154): refused outside CUTTING, RESUME also with the guard open; HOLD adds the
cause HOST, RESUME removes every cause; from an empty set the owed slides of an ACTIVE pass get HOLD and its timer
pauses, from a set not empty they get PASS again and the timer resumes. L is recorded before R: log entry 39, the
model's choice. That an ask beside a given-up CLAIM still queued arms nothing yet is read by inference (log entry 22). -/
def Obligations.HoldAndResume : Prop :=
  ∀ s : State, PortFree s →
    (s.vc.state ≠ .cutting → exec (.hold []) s = .next (refusal .hold .wrongState s) ∧
      exec (.resume []) s = .next (refusal .resume .wrongState s)) ∧
    (s.vc.state = .cutting → level s .guardClosed = false →
      exec (.resume []) s = .next (refusal .resume .wrongState s)) ∧
    (s.vc.state = .cutting → ∃ t, exec (.hold []) s = .next t ∧
      let acts := s.pc.holds = HoldCauses.empty ∧ (activePass s).isSome
      Settled { s with
        cp := s.cp.afterCommand (conf s).watch
        pc := { s.pc with
          holds := { s.pc.holds with host := true }
          timer := if acts then s.pc.timer.pause else s.pc.timer }
        out := s.out.grewBy
          (if acts then ((activePass s).toList.flatMap owedSlides).map Order.holdSlide else []) [.ok .hold []] } t) ∧
    (s.vc.state = .cutting → level s .guardClosed = true → ∃ t, exec (.resume []) s = .next t ∧
      let acts := s.pc.holds ≠ HoldCauses.empty ∧ (activePass s).isSome
      Settled { s with
        cp := s.cp.afterCommand (conf s).watch
        pc := { s.pc with
          holds := HoldCauses.empty, timer := if acts then s.pc.timer.resume else s.pc.timer }
        out := s.out.grewBy
          (if acts then (activePass s).toList.flatMap (fun p => passOrders p s.pc) else []) [.ok .resume []] } t)

/-- R155: FEED(percent), acted on in READY and CUTTING, clamps its value to 50 to 120 and stores it; the owed slides
of an ACTIVE pass get RATE at once; every later PASS order carries it; it is 100 after a reset and a visit end, and no
other command changes it (the end of a WRITE_SETTINGS takes a command that waited, and bytes of the line may complete a
command). L is recorded before R: log entry 39, the model's choice. -/
def Obligations.FeedOverride : Prop :=
  (∀ (b : Byte) (s : State), PortFree s →
    let v := max 50 (min 120 b.toNat)
    (s.vc.state ≠ .ready → s.vc.state ≠ .cutting → exec (.feed [b]) s = .next (refusal .feed .wrongState s)) ∧
    (s.vc.state = .ready ∨ s.vc.state = .cutting → exec (.feed [b]) s = .next { s with
      cp := s.cp.afterCommand (conf s).watch
      pc := { s.pc with feed := v }
      out := s.out.grewBy (((activePass s).toList.flatMap owedSlides).map fun w => Order.rate w v)
        [.ok .feed [BitVec.ofNat 8 v]] })) ∧
  (∀ (p : Pass) (s : State), ∀ o ∈ (startPass p s).out.orders, o ∉ s.out.orders → o ≠ .cutSpeed →
    ∃ w, o = .pass w (p.depth.get w) s.pc.chosen s.pc.feed) ∧
  (∀ (s : State), ∀ o ∈ (clearHolds s).out.orders, o ∉ s.out.orders → ∃ w d, o = .pass w d s.pc.chosen s.pc.feed) ∧
  (∀ (c : Instr) (s t : State), exec c s = .next t → (∀ p, c ≠ .feed p) → (∀ p, c ≠ .withdraw p) →
    (∀ p, c ≠ .release p) → (∀ m, c ≠ .settingsWriteDone m) → (∀ k p w, c ≠ .reset k p w) →
    (∀ f, c = .discardedFrame f → cellComplete f = true) → t.pc.feed = s.pc.feed) ∧
  State.reset.pc.feed = 100 ∧ ∀ s : State, (visitEnd s).pc.feed = 100

/-- WITHDRAW (R4, R14, R15, R80, R129): its refusals; without diameters the station becomes EXCLUDED; with them
PASSIVE, with a PASSIVE ceiling and an own intent on them; an open visit is ended first. With no slot and no
reservation, as always outside CUTTING, the whole state is given. -/
def Obligations.WithdrawLeavesTheCut : Prop :=
  ∀ (p : List Byte) (s : State), PortFree s → p.length = 0 ∨ p.length = 8 →
    let may := ((s.vc.state = .idle ∨ s.vc.state = .invalid) ∧ s.vc.calRunning = false) ∨ s.vc.state = .unmeasured ∨
      s.vc.state = .reconciling ∨ s.vc.state = .ready ∨ s.vc.state = .finished ∨ s.vc.state = .aborted ∨
      s.vc.state = .condemned
    let d : LR Nat := ⟨field p 0 4, field p 4 4⟩
    let fits := d.all fun x => decide (x % 2 = 0) && decide ((conf s).condemn ≤ x) && decide (x ≤ 1300000)
    let opened := s.vc.visitOpen = true
    let vc := if opened then s.vc.ended else s.vc
    let fe := if opened then s.fe.ended else s.fe
    let lc := if opened then s.lc.ended s.fe.ceil else s.lc
    let ru := if opened then RU.reset s.ru.intentSeq else s.ru
    let base : State := { s with
      rtu := if opened then RTU.reset s.rtu.counter else s.rtu
      rcu := if opened then RCU.reset else s.rcu
      ptu := if opened then PTU.reset else s.ptu
      pc := if opened then PC.reset else s.pc
      scu := if opened then s.scu.freed else s.scu
      result := if opened then s.result.ended else s.result
      cp := s.cp.afterCommand (conf s).watch
      out := s.out.grewBy [] [.ok .withdraw []] }
    let target : LR Int := ⟨d.l, d.r⟩
    let q := nextSeq fe.ceil.seq
    let i : Intent := ⟨nextSeq ru.intentSeq, q, target⟩
    (¬may → exec (.withdraw p) s = .next (refusal .withdraw .wrongState s)) ∧
    (may → p ≠ [] → fits = false → exec (.withdraw p) s = .next (refusal .withdraw .badArgument s)) ∧
    (may → p = [] ∨ fits = true → ∃ t, exec (.withdraw p) s = .next t ∧
      t.vc = { vc with state := if p = [] then .excluded else .passive, visitOpen := true } ∧
      t.pc = (if opened then PC.reset else s.pc) ∧ t.out = s.out.grewBy [] [.ok .withdraw []] ∧
      (p ≠ [] → t.fe = { fe with ceil := ⟨.passive, some target, q, true, none⟩ } ∧
        t.ru = { ru with intentSeq := i.seq, intent := some i }) ∧
      KeepsBut [.vc, .rtu, .rcu, .ptu, .fe, .lc, .ru, .pc, .scu, .cp, .result, .out] s t) ∧
    (may → p = [] → s.scu.slot = .none → exec (.withdraw p) s = .next { base with
      vc := { vc with state := .excluded, visitOpen := true }
      fe := fe
      ru := ru
      lc := handed .state lc }) ∧
    (may → p ≠ [] → fits = true → s.scu.slot = .none → exec (.withdraw p) s = .next { base with
      vc := { vc with state := .passive, visitOpen := true }
      fe := { fe with ceil := ⟨.passive, some target, q, true, none⟩ }
      ru := { ru with intentSeq := i.seq, intent := some i }
      lc := handed .state (handed (.intent i.seq i.basis i.target) (handed (.ceiling q .passive (some target)) lc)) })

/-- RELEASE(force) (R4, R14, R16, R81): its refusals in order; accepted, the visit ends, any slot or reservation is
given up and the station returns to IDLE, or to INVALID where the settings are invalid. That a force byte above 1 is
refused before the group is looked at is read by inference (log entry 18). With no slot and no
reservation, as always outside CUTTING, the whole state is given. -/
def Obligations.ReleaseEndsTheVisit : Prop :=
  ∀ (b : Byte) (s : State), PortFree s →
    let checked := s.vc.state = .finished ∨ s.vc.state = .aborted ∨ s.vc.state = .passive
    let plain := s.vc.state = .unmeasured ∨ s.vc.state = .reconciling ∨ s.vc.state = .ready ∨
      s.vc.state = .excluded ∨ s.vc.state = .condemned
    let busy := ∃ e ∈ s.peers, ∃ p, e.st = some p ∧ p.car = s.ss.straps.car ∧
      (p.status = .measuring ∨ p.status = .unmeasured ∨ p.status = .reconciling ∨ p.status = .ready ∨
        p.status = .cutting ∨ p.status = .aborting ∨ e.freshness = .stale)
    (¬checked → ¬plain → exec (.release [b]) s = .next (refusal .release .wrongState s)) ∧
    (checked ∨ plain → 1 < b.toNat → exec (.release [b]) s = .next (refusal .release .badArgument s)) ∧
    (checked → b = 0#8 → busy → exec (.release [b]) s = .next (refusal .release .groupBusy s)) ∧
    let vc := { s.vc.ended with state := if s.vc.settingsInvalid then StationState.invalid else .idle }
    (b.toNat ≤ 1 → plain ∨ checked ∧ (b = 1#8 ∨ ¬busy) → ∃ t, exec (.release [b]) s = .next t ∧ t.vc = vc ∧
      t.pc = PC.reset ∧ t.ru = RU.reset s.ru.intentSeq ∧ t.fe = s.fe.ended ∧ t.result = s.result.ended ∧
      t.scu.slot = .none ∧ t.scu.ask = false ∧ t.out = s.out.grewBy [] [.ok .release []] ∧
      KeepsBut [.vc, .rtu, .rcu, .ptu, .fe, .lc, .ru, .pc, .scu, .cp, .result, .out] s t) ∧
    (b.toNat ≤ 1 → plain ∨ checked ∧ (b = 1#8 ∨ ¬busy) → s.scu.slot = .none →
      exec (.release [b]) s = .next { s with
        vc := vc
        rtu := RTU.reset s.rtu.counter
        rcu := RCU.reset
        ptu := PTU.reset
        fe := s.fe.ended
        lc := handed .state (s.lc.ended s.fe.ceil)
        ru := RU.reset s.ru.intentSeq
        pc := PC.reset
        scu := s.scu.freed
        cp := s.cp.afterCommand (conf s).watch
        result := s.result.ended
        out := s.out.grewBy [] [.ok .release []] })

/-- CALIBRATE(wheel, D_ref) (R4, R22, R36): its refusals in order; accepted, it begins a calibration run without an
answer and touches neither the RCU nor the PTU. -/
def Obligations.CalibrateBeginsARun : Prop :=
  ∀ (p : List Byte) (s : State), PortFree s → p.length = 5 →
    let free := s.vc.state = .idle ∧ s.vc.calRunning = false
    let d := field p 1 4
    let fits := field p 0 1 ≤ 1 ∧ d % 2 = 0 ∧ 600000 ≤ d ∧ d ≤ 1300000
    (¬free → exec (.calibrate p) s = .next (refusal .calibrate .wrongState s)) ∧
    (free → ¬fits → exec (.calibrate p) s = .next (refusal .calibrate .badArgument s)) ∧
    (free → fits → level s .clamped = false → exec (.calibrate p) s = .next (refusal .calibrate .notClamped s)) ∧
    (free → fits → level s .clamped = true → exec (.calibrate p) s = .next { s with
      vc := { s.vc with calRunning := true }
      rtu := s.rtu.begun .calibrate (level s .driveAtSpeed)
      ss := { s.ss with calRun := some ⟨if field p 0 1 = 0 then .l else .r, d, none⟩ }
      cp := s.cp.afterCommand (conf s).watch
      out := s.out.grewBy [.measureSpeed] [] })

/-- UNLOCK(area) and its timer (R189): acted on in IDLE and INVALID without a calibration, it opens the area for 5 s;
the expiry of the timer closes it, and so does a refused UNLOCK, which is read by inference (log entry 25). -/
def Obligations.UnlockOpensAnArea : Prop :=
  ∀ (b : Byte) (s : State),
    let free := (s.vc.state = .idle ∨ s.vc.state = .invalid) ∧ s.vc.calRunning = false
    (PortFree s → ¬free → exec (.unlock [b]) s = .next (refusal .unlock .wrongState s)) ∧
    (PortFree s → free → b ≠ 1#8 → b ≠ 2#8 → exec (.unlock [b]) s = .next (refusal .unlock .badArgument s)) ∧
    (PortFree s → free → b = 1#8 ∨ b = 2#8 → exec (.unlock [b]) s = .next { s with
      cp := { s.cp.afterCommand (conf s).watch with
        unlock := .opened (if b = 1#8 then .general else .variants) 5000000 }
      out := s.out.grewBy [] [.ok .unlock []] }) ∧
    exec .unlockTimerExpiry s = .next { s with cp := { s.cp with unlock := .closed } }

/-- WRITE_SETTINGS(area, offset, data) (R189, R190): its refusals in order; accepted, the bytes and the checksum are
in the image, the write awaits its readback, and no answer is given yet. That the bytes and the checksum stand in the
image from the acceptance on is log entry 14, the model's choice. -/
def Obligations.WriteSettingsBegins : Prop :=
  ∀ (p : List Byte) (s : State), PortFree s → 4 ≤ p.length → p.length ≤ 247 →
    let free := (s.vc.state = .idle ∨ s.vc.state = .invalid) ∧ s.vc.calRunning = false
    let a := field p 0 1
    let off := field p 1 2
    let data := p.drop 3
    let fits := (a = 1 ∧ off + data.length ≤ 48) ∨ (a = 2 ∧ off + data.length ≤ 976)
    let isOpen := (a = 1 ∧ ∃ k, s.cp.unlock = .opened .general k) ∨ (a = 2 ∧ ∃ k, s.cp.unlock = .opened .variants k)
    let w := beginWrite s.ss.image ((if a = 1 then 0 else 48) + off) data
    (¬free → exec (.writeSettings p) s = .next (refusal .writeSettings .wrongState s)) ∧
    (free → ¬fits → exec (.writeSettings p) s = .next (refusal .writeSettings .badArgument s)) ∧
    (free → fits → ¬isOpen → exec (.writeSettings p) s = .next (refusal .writeSettings .locked s)) ∧
    (free → fits → isOpen → exec (.writeSettings p) s = .next { s with
      cp := s.cp.afterCommand (conf s).watch
      ss := { s.ss with image := w.1, hostWrite := some w.2 } })

/-- The end of a readback (R37, R181, R190, R191): OK where every byte read back as written, STORE_FAULT where one
did not; a command that waited for a WRITE_SETTINGS is then taken as if it had come at that moment; a calibration
ends with its figures, or with STORE_FAULT, a new result either way. The event with no write in progress changes
nothing (log entry 6), and the figures' layout is that of log entry 19: the model's choices. That the command carries the
bytes that read back otherwise is the model's form of the readback (log entry 30). -/
def Obligations.ReadbackAnswers : Prop :=
  ∀ (m : List (Nat × Byte)) (s : State),
    (∀ w, s.ss.hostWrite = some w →
      let after := afterReadback s.ss.image w m
      let t : State := { s with
        ss := { s.ss with image := after, hostWrite := none }
        cp := { s.cp with waiting := none }
        out := s.out.grewBy []
          [if after = s.ss.image then .ok .writeSettings [] else .refused .writeSettings .storeFault] }
      (m = [] → after = s.ss.image) ∧
      (s.cp.waiting = none → exec (.settingsWriteDone m) s = .next t) ∧
      (∀ k p, s.cp.waiting = some (k, p) → exec (.settingsWriteDone m) s = exec (k.instr p) t)) ∧
    (s.ss.hostWrite = none → exec (.settingsWriteDone m) s = .next s) ∧
    (∀ w c, s.ss.calWrite = some w → s.ss.calRun = some c →
      let after := afterReadback s.ss.image w m
      ∃ t r, exec (.calibrationWriteDone m) s = .next t ∧ KeepsBut [.vc, .rtu, .ss, .cp, .result, .out] s t ∧
        t.vc = { s.vc with calRunning := false } ∧
        t.ss = { s.ss with image := after, calWrite := none, calRun := none } ∧
        t.cp = { s.cp with newResult := true } ∧ t.rtu = { s.rtu with handed := none } ∧
        t.result = { s.result with rtu := some r } ∧ r.reason = .none ∧
        t.out = s.out.grewBy []
          [if after = s.ss.image then
            .ok .calibrate (be1 (if c.wheel = .l then 0 else 1) ++ be1 0 ++ be4 ((((s.rtu.slip.get c.wheel).map (·.total)).getD 0)) ++
              be4 ((conf s).dm.get c.wheel) ++ be4 (c.dNew.getD 0))
           else .refused .calibrate .storeFault])

/-- READ_SETTINGS(source, area, offset, count) (R187, R188): WRONG_STATE during a calibration write, BAD_ARGUMENT for
what is no place of the area; else `count` bytes of the area from the offset on: of the image byte by byte (0 for a
spare byte); in force, of the start copy of the general block, of the variant table as it was loaded, its spare bytes 0
(that its enable flag reads as 0 or 1 is read by inference, log entry 33), and of the checksum bytes found at the start.
Nothing else changes. -/
def Obligations.ReadSettingsReturnsBytes : Prop :=
  ∀ (p : List Byte) (s : State), PortFree s → p.length = 5 →
    let src := field p 0 1
    let a := field p 1 1
    let off := field p 2 2
    let count := field p 4 1
    let base := if a = 1 then 0 else if a = 2 then 48 else 1024
    let size := if a = 1 then 48 else if a = 2 then 976 else 2
    let fits := (src = 1 ∨ src = 2) ∧ (a = 1 ∨ a = 2 ∨ a = 3) ∧ 1 ≤ count ∧ count ≤ 244 ∧ off + count ≤ size
    let variant := fun (v : Variant) =>
      be1 (if v.enable then 1 else 0) ++ [0#8] ++ be2 v.thickness ++ v.heights.flatMap sbe2
    let area : List Byte :=
      if src = 1 then
        (List.range size).map fun i => if isSpare (base + i) then 0#8 else imageGet s.ss.image (base + i)
      else if a = 1 then (conf s).bytes
      else if a = 2 then s.fe.variants.flatMap variant
      else be1 s.result.start.found.1 ++ be1 s.result.start.found.2
    (s.ss.calWrite ≠ none → exec (.readSettings p) s = .next (refusal .readSettings .wrongState s)) ∧
    (s.ss.calWrite = none → ¬fits → exec (.readSettings p) s = .next (refusal .readSettings .badArgument s)) ∧
    (s.ss.calWrite = none → fits → exec (.readSettings p) s = .next { s with
      cp := s.cp.afterCommand (conf s).watch
      out := s.out.grewBy [] [.ok .readSettings ((area.drop off).take count)] }) ∧
    (fits → s.fe.variants.length = 4 → (∀ v ∈ s.fe.variants, v.heights.length = 120) →
      ((area.drop off).take count).length = count)

/-- READ_STATUS, READ_RESULT, READ_PEERS and READ_PASSES (R116, R157, R170, R183, R185): each returns its record; then
READ_STATUS, whose record follows the status word, high byte first, has all sixteen flags clear; READ_RESULT clears
the new-result mark, and latches OLD_RESULT where it was already clear; nothing else changes. What stands in the records
(R84, R100, R136, R157, R170, R179, R194, R201): their sections in order, each with its length and presence bits, and
the fields of each at their places, those of a measurement's four sections by R35, R51, R62, R66 and R83; a peer entry in
38 bytes and a pass in 17. The order of a section's presence bits and which fields share one, the widths that the rules
leave open, and the code of the fit state are log entry 19, the model's choice; a time of microseconds is shown in whole
milliseconds (log entry 37). -/
def Obligations.ReadRecords : Prop :=
  ∀ s : State,
    let cp := s.cp.afterCommand (conf s).watch
    let reads := fun (k : HostCmd) (d : List Byte) => { s with cp := cp, out := s.out.grewBy [] [.ok k d] }
    let w := s.cp.status.toNat
    (s.ss.hostWrite = none → exec (.readStatus []) s = .next { reads .readStatus
        (BitVec.ofNat 8 (w / 256) :: BitVec.ofNat 8 w :: statusRecord { s with cp := cp }) with
      cp := { cp with status := 0#16 } }) ∧
    (PortFree s → exec (.readPeers []) s = .next (reads .readPeers (peersData s))) ∧
    (PortFree s → exec (.readPasses []) s = .next (reads .readPasses (passesData s.pc))) ∧
    (PortFree s → s.cp.newResult = true → exec (.readResult []) s =
      .next { reads .readResult (resultRecord s) with cp := { cp with newResult := false } }) ∧
    (PortFree s → s.cp.newResult = false → exec (.readResult []) s =
      .next { reads .readResult (resultRecord s) with cp := { cp with status := latchWord s.cp.status .oldResult } }) ∧
    StatusReads s ∧ StartReads s.result.start ∧ ResultReads s ∧ PeersDataReads s ∧ PassesReads s.pc ∧
    (∀ e, PeerRecordReads s.ss.straps.car e) ∧ (∀ p, PassRecordReads p) ∧
    ∀ (presence : List Bool) (fields : List Byte), presence.length ≤ 32 → fields.length ≤ 60000 →
      ∃ n, section_ presence fields = be2 (2 + n + fields.length) ++ markBytes n presence ++ fields ∧ 1 ≤ n ∧
        8 * (n - 1) < max 1 presence.length ∧ presence.length ≤ 8 * n ∧
        field (section_ presence fields) 0 2 = (section_ presence fields).length

/-- Frames of the cell port assembled and lost (R97, R180, R181): bytes that leave the frame incomplete join the buffer,
their gap at 0; the bytes that complete it make it a command, or, where it is none, are lost with it; a complete frame
that is no command, or finds no room, and an incomplete one after its gap, leave UNKNOWN_MESSAGE and an empty receive
buffer; a frame of the pit link that is not good adds 1 to the receive errors, up to 255. No response, nothing else.
The model's choices: what of the line each command carries, and that bytes past a frame's end change nothing (log entry
29); a good command's frame reported as discarded where there is room changes nothing (log entry 13). -/
def Obligations.FramesLost : Prop :=
  ∀ s : State,
    let lost : State := { s with
      cp := { s.cp with rxBuffer := [], status := latchWord s.cp.status .unknownMessage } }
    (∀ f, cellComplete f = true → cellCommand f = none ∨ (s.ss.hostWrite ≠ none ∧ s.cp.waiting ≠ none) →
      exec (.discardedFrame f) s = .next lost) ∧
    (∀ f, cellCommand f ≠ none → s.ss.hostWrite = none ∨ s.cp.waiting = none →
      exec (.discardedFrame f) s = .next s) ∧
    exec (.discardedFrame []) s = .next s ∧
    (∀ r, r ≠ [] → cellComplete r = false →
      let buf := s.cp.rxBuffer ++ r
      (cellPartial buf = true → exec (.discardedFrame r) s =
        .next { s with cp := { s.cp with rxBuffer := buf, rxGap := 0 } }) ∧
      (cellComplete buf = true → cellCommand buf = none → exec (.discardedFrame r) s = .next lost) ∧
      (∀ k p, cellCommand buf = some (k, p) →
        exec (.discardedFrame r) s = exec (k.instr p) { s with cp := { s.cp with rxBuffer := [] } }) ∧
      (cellPartial buf = false → cellComplete buf = false → exec (.discardedFrame r) s = .next s)) ∧
    (∀ r, cellPartial (s.cp.rxBuffer ++ r) = true → exec (.frameGapTimeout r) s = .next lost) ∧
    (∀ r, cellPartial (s.cp.rxBuffer ++ r) = false → exec (.frameGapTimeout r) s = .next s) ∧
    (∀ f, goodFrame f = false →
      exec (.receiveError f) s = .next { s with lc := { s.lc with rxErrors := min 255 (s.lc.rxErrors + 1) } })

/-- WATCHDOG_EXPIRY (R153, R186): from RUNNING the watchdog is EXPIRED and COMM_TIMEOUT latched; with a pass ACTIVE
the cause WATCHDOG holds it; otherwise nothing more. That an ask beside a given-up CLAIM still queued arms nothing yet is
read by inference (log entry 22). The model's choices: an expiry while it does not run changes
nothing (log entry 6), and HOLD to L is recorded before R (log entry 39). -/
def Obligations.WatchdogHoldsThePass : Prop :=
  ∀ s : State,
    ((∀ k, s.cp.watchdog ≠ .running k) → exec .watchdogExpiry s = .next s) ∧
    ∀ k, s.cp.watchdog = .running k →
      let cp := { s.cp with watchdog := .expired, status := latchWord s.cp.status .commTimeout }
      (activePass s = none → exec .watchdogExpiry s = .next { s with cp := cp }) ∧
      (∀ p, activePass s = some p → ∃ t, exec .watchdogExpiry s = .next t ∧
        let first := s.pc.holds = HoldCauses.empty
        Settled { s with
          cp := cp
          pc := { s.pc with
            holds := { s.pc.holds with watchdog := true }
            timer := if first then s.pc.timer.pause else s.pc.timer }
          out := s.out.grewBy (if first then (owedSlides p).map Order.holdSlide else []) [] } t)

/-! ## The inputs -/

/-- RAW_INPUT_CHANGE and DEBOUNCE_EXPIRY (R24, R171, R177): a raw change starts, restarts or stops the 10 ms timer of
its input; the expiry of a running timer takes the raw level over; DRIVE_AT_SPEED then acts in a run alone. The model's
choices: an expiry while the timer is stopped changes nothing (log entry 6), a mark pulse in progress is forgotten
with the drive (log entry 10), the fourth restart has the effects of a restart before it ends its attempt with SLIP
(log entry 9), which a calibration run answers after its third attempt, and the layout of that answer (log entry 19). -/
def Obligations.InputsAreDebounced : Prop :=
  ∀ (i : Input) (v : Bool) (s : State),
    let x := s.iiu.line i
    let drive := s.iiu.line .driveAtSpeed
    let a := debounced .driveAtSpeed s
    exec (.rawInputChange i v) s = .next { s with
      iiu := s.iiu.setLine i (if v = x.raw then x else ⟨v, x.level, if v = x.level then none else some 10000⟩) } ∧
    (x.timer = none → exec (.debounceExpiry i) s = .next s) ∧
    (x.timer ≠ none → ∃ t, exec (.debounceExpiry i) s = .next t ∧ t.iiu.line i = ⟨x.raw, x.raw, none⟩ ∧
      ∀ j, j ≠ i → t.iiu.line j = s.iiu.line j) ∧
    (drive.timer ≠ none → s.rtu.run = .none → exec (.debounceExpiry .driveAtSpeed) s = .next a) ∧
    (drive.timer ≠ none → s.rtu.run ≠ .none → drive.raw = true → exec (.debounceExpiry .driveAtSpeed) s =
      .next { a with rtu := { s.rtu with driveTimer := none, markTimer := some 4000000 } }) ∧
    (drive.timer ≠ none → s.rtu.run ≠ .none → drive.raw = false → s.rtu.restarts < 3 →
      exec (.debounceExpiry .driveAtSpeed) s = .next { a with
        rtu := { s.rtu with
          driveTimer := some 20000000, markTimer := none, pulseOn := false, restarts := s.rtu.restarts + 1
          window := .both [], prevCount := .both none, prevPeriod := none, binIndex := .both none
          firstMark := false }
        rcu := if s.rtu.run = .measure then ⟨.filling, .both (rcuWindow (conf s).jump)⟩ else s.rcu }) ∧
    (drive.timer ≠ none → s.rtu.run ≠ .none → drive.raw = false → 3 ≤ s.rtu.restarts → s.rtu.attempt < 3 →
      exec (.debounceExpiry .driveAtSpeed) s =
        .next (nextAttempt { a with rtu := { s.rtu with driveTimer := some 20000000, markTimer := none } })) ∧
    (drive.timer ≠ none → s.rtu.run = .measure → s.vc.state = .measuring → drive.raw = false → 3 ≤ s.rtu.restarts →
      3 ≤ s.rtu.attempt → ∃ t r, exec (.debounceExpiry .driveAtSpeed) s = .next t ∧ MeasurementFails .slip a t ∧
        t.rcu = ⟨.held, .both (rcuWindow (conf s).jump)⟩ ∧ t.result.rtu = some r ∧
        r.restarts = s.rtu.restarts + 1 ∧ r.window = .both []) ∧
    (∀ c, drive.timer ≠ none → s.rtu.run = .calibrate → s.ss.calRun = some c → drive.raw = false →
      3 ≤ s.rtu.restarts → 3 ≤ s.rtu.attempt → ∃ t, exec (.debounceExpiry .driveAtSpeed) s = .next t ∧
        CalibrationEnds .slip (calibrationFailure c 1 ((s.rtu.slip.get c.wheel).map (·.total))) [.stop]
          (latchWord s.cp.status .measureFailed) a t)

/-- ESTOP becoming active (R17, R37, R176): the state left is kept, ESTOP_SEEN latched, and the work in progress stopped
by the state left, a calibration run in IDLE answered WRONG_STATE; in START and in ESTOP nothing, in SILENCED the flag
alone. An abort makes its offers, sets the home latches at their levels and keeps the plan, which a lowered ceiling
re-plans (R79, R125, R152, R172). In CUTTING with no pass ACTIVE the queue is discarded and the queue finish is then the
surface (R137; that it is so after a discard too is read by inference, log entry 21). Read by inference too: a calibration
write in flight in IDLE is not stopped (log entry 12), and a CLAIM given up while it is on the line puts the slot at NONE
at once, its withdrawal waiting at the LC (log entry 22). The order in which the
orders of an abort, and PARK and STOP, are recorded is log entry 39, the model's choice. -/
def Obligations.EstopStopsTheWork : Prop :=
  ∀ s : State, s.iiu.estop.timer ≠ none → s.iiu.estop.raw = true →
    let a := debounced .estop s
    let st := s.vc.state
    let status := latchWord s.cp.status .estopSeen
    let runs := exec (.debounceExpiry .estop) s
    let vc := { s.vc with state := .estop, returnState := some st }
    (st = .start ∨ st = .estop → runs = .next a) ∧
    (st = .silenced → runs = .next { a with cp := { s.cp with status := status } }) ∧
    (st = .invalid ∨ st = .unmeasured ∨ st = .reconciling ∨ st = .ready ∨ st = .finished ∨ st = .aborted ∨
      st = .condemned ∨ st = .passive ∨ st = .excluded ∨ (st = .idle ∧ s.rtu.run = .none) →
      runs = .next { a with
        vc := vc, lc := handed .state s.lc
        cp := { s.cp with status := status, unlock := if st = .idle ∨ st = .invalid then .closed else s.cp.unlock } }) ∧
    (st = .aborting → runs = .next { a with
      vc := { vc with homeTimer := none }, lc := handed .state s.lc, cp := { s.cp with status := status } }) ∧
    (st = .cutting → activePass s = none → ∃ t, runs = .next t ∧ t.vc = { vc with sub := none } ∧
      t.cp = { s.cp with status := status } ∧
      t.pc = { s.pc with queue := [], queueFinish := s.pc.surface, holds := HoldCauses.empty } ∧
      t.ru = { s.ru with
        violationTimer := none, violationLatched := false, peerWaitTimer := none, peerWaitLatched := false } ∧
      t.scu.slot = .none ∧ t.scu.ask = false ∧ t.iiu = a.iiu ∧ t.out = s.out.grewBy [.stop] [] ∧
      (s.scu.slot = .none → t.lc = handed .state s.lc ∧ t.scu = s.scu.freed) ∧
      (s.scu.slot = .armed → s.lc.silenced = false → (∃ x ∈ s.lc.queue, x.frame.kindCode = 1) →
        (∀ x ∈ s.lc.queue, x.frame.kindCode = 1 → x.tx = true) →
        let c := handed .state s.lc
        t.scu = s.scu.freed ∧ t.lc = { c with
          queue := c.queue.map fun x => if x.frame.kindCode = 1 then { x with withdraw := some .givenUp } else x }) ∧
      KeepsBut [.vc, .lc, .ru, .pc, .scu, .iiu, .cp, .out] s t) ∧
    (∀ c, st = .idle → s.rtu.run = .calibrate → s.ss.calRun = some c → ∃ t, runs = .next t ∧
      CalibrationEnds .estop (.refused .calibrate .wrongState) [.stop] status
        { a with vc := vc, lc := handed .state s.lc, cp := { s.cp with unlock := .closed } } t) ∧
    (∀ p, st = .cutting → activePass s = some p → ∃ t, runs = .next t ∧
      t.vc = { vc with sub := none, homeTimeout := false, condPending := t.vc.condPending } ∧ AbortOffered p s t ∧
      t.iiu = { a.iiu with latch := ⟨level s .homeL, level s .homeR⟩ } ∧
      t.pc.aborted p .estop ∧ t.pc.queueFinish = none ∧ t.scu.ask = false ∧
      (let stopped := { s.ru with
        violationTimer := none, violationLatched := false, peerWaitTimer := none, peerWaitLatched := false }
       (t.fe.ceil.seq = s.fe.ceil.seq ∨ s.ru.plan = none → t.ru = stopped) ∧
       ∀ q own, s.ru.plan = some q → t.fe.ceil.seq ≠ s.fe.ceil.seq → t.fe.ceil.value = some own →
        let pending := anyPending (groupView s)
        let p' := if pending then { q with target := ⟨min q.target.l own.l, min q.target.r own.r⟩ }
          else computePlan (conf s) s.ss.straps.bogie own (groupView s)
        t.ru = (agree (replanned q.target p' pending { s with fe := t.fe, ru := stopped })).ru) ∧
      t.out = s.out.grewBy abortSequence [] ∧ t.scu.slot = .none ∧
      t.cp = { s.cp with status := latchWord status .passAborted } ∧
      KeepsBut [.vc, .fe, .lc, .ru, .pc, .scu, .iiu, .cp, .out] s t) ∧
    (st = .measuring → s.rtu.run ≠ .calibrate → ∃ t r, runs = .next t ∧ t.vc = vc ∧ t.rtu.run = .none ∧
      t.result.rtu = some r ∧ r.reason = .estop ∧ t.cp = { s.cp with status := status, newResult := true } ∧
      t.out = s.out.grewBy
        ((if s.rtu.run = .measure then [] else (openSweep s.ptu.phase).toList.map Order.park) ++ [.stop]) [] ∧
      KeepsBut [.vc, .rtu, .rcu, .ptu, .lc, .iiu, .cp, .result, .out] s t)

/-- ESTOP becoming inactive (R18): out of ESTOP by the first row that applies; in any other state nothing. -/
def Obligations.EstopExit : Prop :=
  ∀ s : State, s.iiu.estop.timer ≠ none → s.iiu.estop.raw = false →
    let a := debounced .estop s
    let runs := exec (.debounceExpiry .estop) s
    let goes := fun (st : StationState) => { a with
      vc := { s.vc with state := st, returnState := none }, lc := handed .state s.lc }
    (s.vc.state ≠ .estop → runs = .next a) ∧
    (s.vc.state = .estop → s.vc.condPending = true → ∃ t, runs = .next t ∧ t.vc.state = .condemned ∧
      t.vc.returnState = none ∧ t.vc.condPending = false ∧ t.pc.queue = [] ∧ t.ru.plan = none ∧
      t.fe.ceil.status = .condemned ∧ t.cp = { s.cp with status := latchWord s.cp.status .condemned } ∧
      t.out = s.out) ∧
    (s.vc.state = .estop → s.vc.condPending = false → s.vc.returnState = some .condemned →
      runs = .next (goes .condemned)) ∧
    (s.vc.state = .estop → s.vc.condPending = false → s.vc.returnState = some .measuring →
      runs = .next (goes .unmeasured)) ∧
    (s.vc.state = .estop → s.vc.condPending = false → s.vc.returnState ≠ some .condemned →
      s.vc.returnState ≠ some .measuring → s.vc.cutBegun = true → runs = .next { goes .aborted with
        ru := s.ru.dropped
        pc := { s.pc with queue := [], surface := none, queueFinish := none, uncertain := true } }) ∧
    (∀ st, s.vc.state = .estop → s.vc.condPending = false → s.vc.cutBegun = false → s.vc.returnState = some st →
      st ≠ .condemned → st ≠ .measuring → st ≠ .estop → (linkCode st).isSome → runs = .next (goes st))

/-- CLAMPED and GUARD_CLOSED (R7, R36, R37, R64, R153, R174, R175): the loss of CLAMPED aborts an ACTIVE pass, ends a
measurement in its run or, with PARK to the tracer, in its sweep, and ends a calibration run; with both home inputs
active the retract of the abort is complete at its order (R178); the loss of GUARD_CLOSED
holds an ACTIVE pass; in every other case of CUTTING the start conditions are taken afresh. That an ask beside a given-up
CLAIM still queued arms nothing yet is read by inference (log entry 22). The model's choices: the
order in which the orders of one step are recorded (log entry 39), and the layout of the answer to CALIBRATE (log
entry 19). -/
def Obligations.InterlocksActOnThePass : Prop :=
  ∀ s : State,
    let c := s.iiu.clamped
    let g := s.iiu.guardClosed
    let a := debounced .clamped s
    let b := debounced .guardClosed s
    (c.timer ≠ none → c.raw = false → s.vc.state = .cutting → ∀ p, activePass s = some p →
      ∃ t, exec (.debounceExpiry .clamped) s = .next t ∧
        if level s .homeL = true ∧ level s .homeR = true then AbortsHome p .unclamped a t
        else AbortsTo p .unclamped a t) ∧
    (c.timer ≠ none → c.raw = false → s.vc.state = .measuring → s.rtu.run = .measure →
      ∃ t, exec (.debounceExpiry .clamped) s = .next t ∧ MeasurementFails .unclamped a t) ∧
    (∀ w, c.timer ≠ none → c.raw = false → s.vc.state = .measuring → s.rtu.run ≠ .measure →
      openSweep s.ptu.phase = some w → ∃ t r, exec (.debounceExpiry .clamped) s = .next t ∧
        t.vc = { s.vc with state := .unmeasured } ∧ t.ptu = { s.ptu with phase := .held, sweepTimer := none } ∧
        t.rtu = { s.rtu with handed := none } ∧ t.lc = handed .state s.lc ∧
        t.result.rtu = some r ∧ r.reason = .unclamped ∧ t.out = s.out.grewBy [.park w, .stop] [] ∧
        t.cp = { s.cp with status := latchWord s.cp.status .measureFailed, newResult := true } ∧
        KeepsBut [.vc, .rtu, .ptu, .lc, .cp, .result, .out] a t) ∧
    (∀ x, c.timer ≠ none → c.raw = false → s.vc.state = .idle → s.rtu.run = .calibrate → s.ss.calRun = some x →
      ∃ t, exec (.debounceExpiry .clamped) s = .next t ∧
        CalibrationEnds .unclamped (calibrationFailure x 7 ((s.rtu.slip.get x.wheel).map (·.total))) [.stop]
          (latchWord s.cp.status .measureFailed) a t) ∧
    (c.timer ≠ none → s.vc.state = .cutting → c.raw = true ∨ activePass s = none →
      ∃ t, exec (.debounceExpiry .clamped) s = .next t ∧ Settled a t) ∧
    (g.timer ≠ none → s.vc.state = .cutting → g.raw = true ∨ activePass s = none →
      ∃ t, exec (.debounceExpiry .guardClosed) s = .next t ∧ Settled b t) ∧
    (g.timer ≠ none → g.raw = false → s.vc.state = .cutting → ∀ p, activePass s = some p →
      ∃ t, exec (.debounceExpiry .guardClosed) s = .next t ∧
        let first := s.pc.holds = HoldCauses.empty
        Settled { b with
          pc := { s.pc with
            holds := { s.pc.holds with guard_ := true }
            timer := if first then s.pc.timer.pause else s.pc.timer }
          out := s.out.grewBy (if first then (owedSlides p).map Order.holdSlide else []) [] } t)

/-- SLIDE_FAULT and PASS_TIMER_EXPIRY abort an ACTIVE pass (R146, R150, R151, R152); with both home inputs active the
retract is complete at its order (R178), and otherwise the edges of the home inputs and the home timer end or outlast it
(R12, R172, R178). The model's choices: an expiry while its timer is
stopped changes nothing (log entry 6), the home timer is stopped from its expiry on (log entry 45), and the orders of an
abort are recorded RETRACT L, RETRACT R, STOP (log entry 39). -/
def Obligations.AbortAndRetract : Prop :=
  ∀ (w : Wheel) (s : State),
    let home := if w = .l then Input.homeL else Input.homeR
    let x := s.iiu.line home
    let latched := s.iiu.latch.put w true
    let a := debounced home s
    let b : State := { a with iiu := { a.iiu with latch := latched } }
    let aborts := fun (p : Pass) (why : AbortReason) (t : State) =>
      if level s .homeL = true ∧ level s .homeR = true then AbortsHome p why s t else AbortsTo p why s t
    (∀ p, activePass s = some p → s.vc.state = .cutting →
      (∃ t, exec (.slideFault w) s = .next t ∧ aborts p (if w = .l then .slideFaultL else .slideFaultR) t) ∧
      ∀ k, s.pc.timer = .running k → ∃ t, exec .passTimerExpiry s = .next t ∧ aborts p .passTimeout t) ∧
    (activePass s = none → exec (.slideFault w) s =
      .next { s with pc := { s.pc with stray := min 255 (s.pc.stray + 1) } } ∧ exec .passTimerExpiry s = .next s) ∧
    (x.timer ≠ none → x.raw = false → exec (.debounceExpiry home) s = .next a) ∧
    (x.timer ≠ none → x.raw = true → ¬(s.vc.state = .aborting ∧ latched.l = true ∧ latched.r = true) →
      exec (.debounceExpiry home) s = .next b) ∧
    (x.timer ≠ none → x.raw = true → s.vc.state = .aborting → latched.l = true → latched.r = true →
      s.vc.condPending = false → exec (.debounceExpiry home) s = .next { b with
        vc := { s.vc with state := .aborted, homeTimer := none }, lc := handed .state s.lc }) ∧
    (x.timer ≠ none → x.raw = true → s.vc.state = .aborting → latched.l = true → latched.r = true →
      s.vc.condPending = true → ∃ t, exec (.debounceExpiry home) s = .next t ∧ t.vc.state = .condemned ∧
        t.vc.homeTimer = none ∧ t.fe.ceil.status = .condemned) ∧
    (s.vc.homeTimer ≠ none → exec .homeTimerExpiry s =
      .next { s with vc := { s.vc with homeTimer := none, homeTimeout := true } }) ∧
    (s.vc.homeTimer = none → exec .homeTimerExpiry s = .next s)

/-! ## Measuring -/

/-- ENCODER_PULSE (R24, R25, R33, R41, R46): ignored while counting is not allowed; counted, and counted into a mark
pulse in progress, whose 65th L pulse is a fault; outside a mark pulse it supplies the bin index, and a new index
takes one sample, the 17th lift-off of a revolution ending the attempt; the third attempt's end is the measurement's.
The model's choices: counts are kept modulo 2^32 (log entry 11), and the layout of the answer to CALIBRATE (log
entry 19). -/
def Obligations.EncoderPulseCounts : Prop :=
  ∀ (w : Wheel) (probe : Int) (s : State),
    let runs := exec (.encoderPulse w probe) s
    let allowed := s.rtu.run ≠ .none ∧ level s .driveAtSpeed = true
    let k := (s.rtu.count.get w + 1) % 4294967296
    let counted := { s.rtu with count := s.rtu.count.put w k }
    let inPulse := { counted with
      pulseCount := s.rtu.pulseCount.put w ((s.rtu.pulseCount.get w + 1) % 4294967296)
      pulseWidth := if w = .l then s.rtu.pulseWidth + 1 else s.rtu.pulseWidth }
    (¬allowed → runs = .next s) ∧
    (allowed → s.rtu.pulseOn = true → w = .r ∨ s.rtu.pulseWidth < 64 → runs = .next { s with rtu := inPulse }) ∧
    (allowed → s.rtu.pulseOn = true → w = .l → 64 ≤ s.rtu.pulseWidth → s.rtu.attempt < 3 →
      runs = .next (nextAttempt { s with rtu := inPulse })) ∧
    (allowed → s.rtu.pulseOn = true → w = .l → 64 ≤ s.rtu.pulseWidth → 3 ≤ s.rtu.attempt →
      (s.rtu.run = .measure → s.vc.state = .measuring →
        ∃ t, runs = .next t ∧ MeasurementFails .markFault s t ∧ t.rcu.phase = .held) ∧
      ∀ c, s.rtu.run = .calibrate → s.ss.calRun = some c → ∃ t, runs = .next t ∧
        CalibrationEnds .markFault (calibrationFailure c 2 ((s.rtu.slip.get c.wheel).map (·.total))) [.stop]
          (latchWord s.cp.status .measureFailed) s t) ∧
    (allowed → s.rtu.pulseOn = false →
      s.rtu.run ≠ .measure ∨ s.rtu.prevCount.get w = none ∨ s.rtu.prevCount.get w = some 0 →
      runs = .next { s with rtu := counted }) ∧
    (∀ n, allowed → s.rtu.pulseOn = false → s.rtu.run = .measure → s.rtu.prevCount.get w = some n → 0 < n →
      let i := min 255 (k * 256 / n)
      let rtu := { counted with
        binIndex := s.rtu.binIndex.put w (some i)
        clampSummary := s.rtu.clampSummary || decide (255 < k * 256 / n) }
      let r := s.rcu.wheel.get w
      let r1 := takeSample (conf s).jump i probe { r with lastIndex := some i }
      (s.rcu.phase ≠ .filling ∨ r.lastIndex = some i → runs = .next { s with rtu := rtu }) ∧
      (s.rcu.phase = .filling → r.lastIndex ≠ some i → r1.liftRev = r.liftRev ∨ r1.liftRev < 17 →
        runs = .next { s with rtu := rtu, rcu := { s.rcu with wheel := s.rcu.wheel.put w r1 } }) ∧
      (s.rcu.phase = .filling → r.lastIndex ≠ some i → r.liftRev < r1.liftRev → 17 ≤ r1.liftRev →
        s.rtu.attempt < 3 → runs = .next (nextAttempt { s with rtu := rtu })) ∧
      (s.rcu.phase = .filling → r.lastIndex ≠ some i → r.liftRev < r1.liftRev → 17 ≤ r1.liftRev →
        3 ≤ s.rtu.attempt → s.vc.state = .measuring →
        ∃ t, runs = .next t ∧ MeasurementFails .probeLiftoff s t ∧ t.rcu.phase = .held))

/-- MARK_LEADING_EDGE and MARK_TRAILING_EDGE (R25 to R28, R33, R34, R41, R47): the leading edge captures the counter;
the trailing edge of a pulse of fewer than 2 L pulses is noise; the first valid mark starts counting, a steady one
pushes the counts of its revolution, an unsteady one restarts, and the fourth restart ends its attempt with SLIP. At
noise and at a steady mark both indices are brought up to date and supplied with the probes' readings. The model's
choices: L is supplied before R (log entry 8), the fourth restart has the effects of a restart before it ends its
attempt (log entry 9), a second leading edge captures afresh (log entry 10), and the layout of the SLIP that a
calibration run answers after its third attempt (log entry 19). -/
def Obligations.MarksBoundRevolutions : Prop :=
  ∀ (probe : LR Int) (s : State),
    let allowed := s.rtu.run ≠ .none ∧ level s .driveAtSpeed = true
    let u := s.rtu
    let lead := exec .markLeadingEdge s
    let trail := exec (.markTrailingEdge probe) s
    let period := (u.capture - u.lastMark.getD 0#32).toNat
    let unsteady := ∃ q, u.prevPeriod = some q ∧ (q : Int) < 4 * |(period : Int) - q|
    let rcu : RCU := if s.rcu.phase = .filling then
      ⟨.filling, ⟨{ s.rcu.wheel.l with liftRev := 0 }, { s.rcu.wheel.r with liftRev := 0 }⟩⟩ else s.rcu
    let marked := { u with
      pulseOn := false, firstMark := true, lastMark := some u.capture, count := u.pulseCount
      markTimer := some 4000000 }
    let noise : State := { s with rtu := { u with pulseOn := false } }
    let steady : State := { s with
      rcu := rcu
      rtu := { marked with
        window := ⟨u.window.l ++ [u.count.l - u.pulseCount.l], u.window.r ++ [u.count.r - u.pulseCount.r]⟩
        prevCount := ⟨some (u.count.l - u.pulseCount.l), some (u.count.r - u.pulseCount.r)⟩
        prevPeriod := some period } }
    let noLimit := fun (before after : State) => ∀ w : Wheel, (after.rcu.wheel.get w).liftRev < 17 ∨
      (after.rcu.wheel.get w).liftRev = (before.rcu.wheel.get w).liftRev
    (¬allowed → lead = .next s ∧ trail = .next s) ∧
    (allowed → lead = .next { s with
      rtu := { u with pulseOn := true, capture := u.counter, pulseWidth := 0, pulseCount := .both 0 } }) ∧
    (u.pulseOn = false → trail = .next s) ∧
    (allowed → u.pulseOn = true → u.pulseWidth < 2 → noLimit noise (markSupplied probe noise) →
      trail = .next (markSupplied probe noise)) ∧
    (allowed → u.pulseOn = true → 2 ≤ u.pulseWidth → u.firstMark = false →
      trail = .next { s with rtu := marked, rcu := rcu }) ∧
    (allowed → u.pulseOn = true → 2 ≤ u.pulseWidth → u.firstMark = true → ¬unsteady →
      u.window.l.length < 7 ∨ u.window.r.length < 7 → noLimit steady (markSupplied probe steady) →
      trail = .next (markSupplied probe steady)) ∧
    (allowed → u.pulseOn = true → 2 ≤ u.pulseWidth → u.firstMark = true → unsteady → u.restarts < 3 →
      trail = .next { s with
        rtu := { marked with
          restarts := u.restarts + 1, window := .both [], prevCount := .both none, prevPeriod := none
          binIndex := .both none }
        rcu := if u.run = .measure then ⟨.filling, .both (rcuWindow (conf s).jump)⟩ else rcu }) ∧
    (allowed → u.pulseOn = true → 2 ≤ u.pulseWidth → u.firstMark = true → unsteady → 3 ≤ u.restarts →
      (u.attempt < 3 → trail = .next (nextAttempt { s with rcu := rcu })) ∧
      (3 ≤ u.attempt → u.run = .measure → s.vc.state = .measuring → ∃ t r, trail = .next t ∧
        MeasurementFails .slip s t ∧ t.rcu = ⟨.held, .both (rcuWindow (conf s).jump)⟩ ∧ t.result.rtu = some r ∧
        r.restarts = u.restarts + 1 ∧ r.window = .both [] ∧ r.period = none) ∧
      ∀ c, 3 ≤ u.attempt → u.run = .calibrate → s.ss.calRun = some c → ∃ t r, trail = .next t ∧
        CalibrationEnds .slip (calibrationFailure c 1 ((u.slip.get c.wheel).map (·.total))) [.stop]
          (latchWord s.cp.status .measureFailed) { s with rcu := rcu } t ∧
        t.result.rtu = some r ∧ r.restarts = u.restarts + 1 ∧ r.window = .both [] ∧ r.period = none)

/-- The eighth revolution (R29 to R32, R36, R37, R48, R49, R55). In a measurement run that passes the slip test the
diameters are computed, even and rounded half up to the nearest multiple of 2 µm, and handed on, the drive stopped; with
every bin present the runouts follow and SWEEP is ordered on the L side, with one absent the measurement ends with
RUNOUT_INCOMPLETE. A wheel beyond its allowance is SLIP, another attempt or after the third the measurement's end; a
diameter outside 600,000 to 1,300,000 ends it with DIAMETER_RANGE. In a calibration run the named wheel alone is
tested; D_m,new in 100,000 to 250,000 begins the write, outside it is refused with CAL_RANGE; SLIP is answered after the
third attempt. A named wheel that counted no pulse is left out: its D_m,new is a free value (log entry 7). That the RTU is
out of its run while the calibration write is in flight is read by inference (log entry 12). That the bytes and their checksum stand in the image from the beginning of the write is the model's
choice (log entry 14), and so is the layout of the answer (log entry 19). -/
def Obligations.WindowCloses : Prop :=
  ∀ (probe : LR Int) (s : State) (cl cr : List Nat),
    let u := s.rtu
    let period := (u.capture - u.lastMark.getD 0#32).toNat
    let d := fun (dm e : Nat) (c : List Nat) => 2 * ((dm * c.sum + 8 * e) / (16 * e))
    let dl := d (conf s).dm.l (conf s).counts.l cl
    let dr := d (conf s).dm.r (conf s).counts.r cr
    let slips := fun (c : List Nat) => (c.foldl max 0 : Nat) ≤ c.foldl min (c.headD 0) + c.sum / 8 * (conf s).slip / 1000
    let figures := fun (c : List Nat) => some (SlipResult.mk c.sum (c.sum / 8)
      (c.foldl max 0 - c.foldl min (c.headD 0)) (c.sum / 8 * (conf s).slip / 1000))
    let inRange := fun (x : Nat) => 600000 ≤ x ∧ x ≤ 1300000
    let closed := exec (.markTrailingEdge probe) s
    let rcu : RCU := if s.rcu.phase = .filling then
      ⟨.filling, ⟨{ s.rcu.wheel.l with liftRev := 0 }, { s.rcu.wheel.r with liftRev := 0 }⟩⟩ else s.rcu
    u.run ≠ .none → level s .driveAtSpeed = true → u.pulseOn = true →
    2 ≤ u.pulseWidth → u.firstMark = true → (∀ q, u.prevPeriod = some q → 4 * |(period : Int) - q| ≤ q) →
    u.window.l ++ [u.count.l - u.pulseCount.l] = cl →
    u.window.r ++ [u.count.r - u.pulseCount.r] = cr → 8 ≤ cl.length → 8 ≤ cr.length →
    (s.vc.state = .measuring → u.run = .measure → slips cl → slips cr → inRange dl → inRange dr →
      ∃ t, closed = .next t ∧ t.rtu.run = .none ∧ t.rtu.markTimer = none ∧
      dl % 2 = 0 ∧ 8 * (conf s).counts.l * (dl - 1) ≤ (conf s).dm.l * cl.sum ∧
      (conf s).dm.l * cl.sum < 8 * (conf s).counts.l * (dl + 1) ∧
      t.rtu.diameter = ⟨some dl, some dr⟩ ∧ t.fe.fit.diameter = some ⟨dl, dr⟩ ∧ t.rcu.phase = .held ∧
      (s.rcu.wheel.l.bins.all Option.isSome = true → s.rcu.wheel.r.bins.all Option.isSome = true →
        t.vc = s.vc ∧ t.ptu = { s.ptu with phase := .sweepL, sweepTimer := some 60000000 } ∧
        t.out = s.out.grewBy [.stop, .sweep .l] [] ∧
        t.fe.fit.runout =
          some ⟨spreadOf (s.rcu.wheel.l.bins.filterMap id), spreadOf (s.rcu.wheel.r.bins.filterMap id)⟩) ∧
      (s.rcu.wheel.l.bins.all Option.isSome = false ∨ s.rcu.wheel.r.bins.all Option.isSome = false →
        t.vc = { s.vc with state := .unmeasured } ∧ t.out = s.out.grewBy [.stop] [] ∧
        t.fe.fit.runout = s.fe.fit.runout ∧ (∃ r, t.result.rtu = some r ∧ r.reason = .runoutIncomplete) ∧
        t.cp = { s.cp with status := latchWord s.cp.status .measureFailed, newResult := true })) ∧
    (u.run = .measure → ¬(slips cl ∧ slips cr) →
      (u.attempt < 3 → closed = .next (nextAttempt s)) ∧
      (3 ≤ u.attempt → s.vc.state = .measuring → ∃ t r, closed = .next t ∧ MeasurementFails .slip s t ∧
        t.rcu.phase = .held ∧ t.result.rtu = some r ∧ r.slip = ⟨figures cl, figures cr⟩ ∧ r.diameter = u.diameter)) ∧
    (u.run = .measure → s.vc.state = .measuring → slips cl → slips cr → ¬(inRange dl ∧ inRange dr) →
      ∃ t r, closed = .next t ∧ MeasurementFails .diameterRange s t ∧ t.rcu.phase = .held ∧
        t.result.rtu = some r ∧ r.diameter = ⟨some dl, some dr⟩ ∧ r.slip = ⟨figures cl, figures cr⟩) ∧
    ∀ x, u.run = .calibrate → s.ss.calRun = some x →
      let c := match x.wheel with
        | .l => cl
        | .r => cr
      let dNew := (16 * (conf s).counts.get x.wheel * x.dRef + c.sum) / (2 * c.sum)
      (slips c → 0 < c.sum → 100000 ≤ dNew → dNew ≤ 250000 →
        let b := beginWrite s.ss.image (match x.wheel with
          | .l => 0
          | .r => 4) (be4 dNew)
        ∃ t, closed = .next t ∧ KeepsBut [.rtu, .rcu, .ss, .out] s t ∧ t.rcu = rcu ∧ t.rtu.run = .none ∧
          t.rtu.slip = u.slip.put x.wheel (figures c) ∧ t.out = s.out.grewBy [.stop] [] ∧
          t.ss = { s.ss with image := b.1, calWrite := some b.2, calRun := some { x with dNew := some dNew } }) ∧
      (slips c → 0 < c.sum → ¬(100000 ≤ dNew ∧ dNew ≤ 250000) → ∃ t, closed = .next t ∧
        CalibrationEnds .none (.refused .calibrate .calRange) [.stop] s.cp.status { s with rcu := rcu } t) ∧
      (¬slips c → u.attempt < 3 → closed = .next (nextAttempt { s with rcu := rcu })) ∧
      (¬slips c → 3 ≤ u.attempt → ∃ t, closed = .next t ∧
        CalibrationEnds .slip (calibrationFailure x 1 (some c.sum)) [.stop] (latchWord s.cp.status .measureFailed)
          { s with rcu := rcu } t)

/-- MARK_TIMER_EXPIRY, DRIVE_TIMER_EXPIRY and SWEEP_TIMER_EXPIRY (R24, R26, R30, R37, R63): the mark timer ends the
attempt with MARK_LOST, and the third attempt's end the run; the drive timer ends the run at once; a calibration then
answers with its reason; the sweep timer parks the tracer and ends the measurement with TRACE_TIMEOUT. The model's
choices: an expiry while its timer is stopped changes nothing (log entry 6), and the layout of the answer (log
entry 19). -/
def Obligations.MeasurementTimeouts : Prop :=
  ∀ s : State,
    (s.rtu.markTimer = none → exec .markTimerExpiry s = .next s) ∧
    (s.rtu.driveTimer = none → exec .driveTimerExpiry s = .next s) ∧
    (openSweep s.ptu.phase = none → exec .sweepTimerExpiry s = .next s) ∧
    (s.rtu.markTimer ≠ none → s.rtu.attempt < 3 → exec .markTimerExpiry s = .next (nextAttempt s)) ∧
    (s.rtu.markTimer ≠ none → 3 ≤ s.rtu.attempt → s.vc.state = .measuring → s.rtu.run = .measure →
      ∃ t, exec .markTimerExpiry s = .next t ∧ MeasurementFails .markLost s t ∧ t.rcu.phase = .held) ∧
    (s.rtu.driveTimer ≠ none → s.vc.state = .measuring → s.rtu.run = .measure →
      ∃ t, exec .driveTimerExpiry s = .next t ∧ MeasurementFails .driveTimeout s t ∧ t.rcu.phase = .held) ∧
    (∀ c, s.rtu.driveTimer ≠ none → s.rtu.run = .calibrate → s.ss.calRun = some c →
      ∃ t, exec .driveTimerExpiry s = .next t ∧
        CalibrationEnds .driveTimeout (calibrationFailure c 5 ((s.rtu.slip.get c.wheel).map (·.total))) [.stop]
          (latchWord s.cp.status .measureFailed) s t) ∧
    (∀ c, s.rtu.markTimer ≠ none → 3 ≤ s.rtu.attempt → s.rtu.run = .calibrate → s.ss.calRun = some c →
      ∃ t, exec .markTimerExpiry s = .next t ∧
        CalibrationEnds .markLost (calibrationFailure c 3 ((s.rtu.slip.get c.wheel).map (·.total))) [.stop]
          (latchWord s.cp.status .measureFailed) s t) ∧
    (∀ w, openSweep s.ptu.phase = some w → s.vc.state = .measuring →
      ∃ t r, exec .sweepTimerExpiry s = .next t ∧ t.vc = { s.vc with state := .unmeasured } ∧
        t.ptu = { s.ptu with phase := .held, sweepTimer := none, failing := some w } ∧
        t.out = s.out.grewBy [.park w] [] ∧ t.result.rtu = some r ∧ r.reason = .traceTimeout ∧
        t.cp = { s.cp with status := latchWord s.cp.status .measureFailed, newResult := true } ∧
        KeepsBut [.vc, .rtu, .ptu, .lc, .cp, .result, .out] s t)

/-- TRACER_READING (R56 to R60): a reading of the open sweep's tracer is received; out of range it is counted so; one
that jumps is a lift-off, the sixteenth in a row giving up the reference; any other becomes the reference and is
binned at the grid point within 250 µm of it, counted outside or, at a full point, saturated. A reading of the other
tracer is stray; with no open sweep it is ignored. -/
def Obligations.TracerReadingBinned : Prop :=
  ∀ (w : Wheel) (x r : Int) (s : State),
    let runs := exec (.tracerReading w x r) s
    (openSweep s.ptu.phase = none → runs = .next s) ∧
    (∀ o, openSweep s.ptu.phase = some o → o ≠ w →
      runs = .next { s with ptu := { s.ptu with stray := min 65535 (s.ptu.stray + 1) } }) ∧
    (openSweep s.ptu.phase = some w →
      let p := s.ptu.wheel.get w
      let jt := (conf s).jumpT
      let jumps := ∃ q, p.reference = some q ∧ jt ≠ 0 ∧ (jt : Int) < |r - q|
      let inRange := -50000 ≤ r ∧ r ≤ 50000
      ∃ q, runs = .next { s with ptu := { s.ptu with wheel := s.ptu.wheel.put w q } } ∧
        q.received = min 65535 (p.received + 1) ∧
        (¬inRange → q = { p with received := q.received, outOfRange := min 65535 (p.outOfRange + 1) }) ∧
        (inRange → jumps → p.jumpRun < 15 →
          q = { p with
            received := q.received, liftoffs := min 65535 (p.liftoffs + 1), jumpRun := p.jumpRun + 1 }) ∧
        (inRange → jumps → 15 ≤ p.jumpRun →
          q = { p with
            received := q.received, liftoffs := min 65535 (p.liftoffs + 1), jumpRun := 0, reference := none
            reseats := min 255 (p.reseats + 1) }) ∧
        (inRange → ¬jumps → (∀ j : Nat, j ≤ 119 → 250 < |x - 1000 * j|) →
          q = { p with
            received := q.received, reference := some r, jumpRun := 0, outside := min 65535 (p.outside + 1) }) ∧
        ∀ j : Nat, inRange → ¬jumps → j ≤ 119 → |x - 1000 * j| ≤ 250 → ∀ pt, p.points[j]? = some pt →
          (pt.count < 65535 → q = { p with
            received := q.received, reference := some r, jumpRun := 0, binned := min 65535 (p.binned + 1)
            points := p.points.set j { pt with sum := pt.sum + r, count := pt.count + 1 } }) ∧
          (65535 ≤ pt.count → q = { p with
            received := q.received, reference := some r, jumpRun := 0, saturated := min 65535 (p.saturated + 1) }))

/-- SWEEP_END (R55, R56, R61, R62, R65, R7, R13, R72 to R77, R119): the record is formed from the mean of each point; a
complete record on the L side starts the R sweep, on the R side the fit, whose ceilings, or the least of them and of the
announced ones, enter the ceiling record: the station is in RECONCILING, or with no entry pending in READY on its first
plan, and below Z in CONDEMNED; an incomplete record ends the measurement with TRACE_INCOMPLETE. -/
def Obligations.SweepEndFormsTheRecord : Prop :=
  ∀ (w : Wheel) (s : State),
    let runs := exec (.sweepEnd w) s
    let p := s.ptu.wheel.get w
    let tap := (conf s).taping
    let present := fun (j : Nat) => ∃ pt, p.points[j]? = some pt ∧ pt.count ≠ 0
    let complete := present tap ∧ (∀ j, j ≤ (conf s).flange → present j) ∧
      (p.points.filter fun pt => pt.count == 0).length ≤ 12
    (openSweep s.ptu.phase = none → runs = .next s) ∧
    (∀ o, openSweep s.ptu.phase = some o → o ≠ w →
      runs = .next { s with ptu := { s.ptu with stray := min 65535 (s.ptu.stray + 1) } }) ∧
    (openSweep s.ptu.phase = some w → p.points.length = 120 → (conf s).flange ≤ 60 →
      ∃ t, runs = .next t ∧
      (∀ (j : Nat) (pt : Point), p.points[j]? = some pt → ∃ f : Point, (t.ptu.wheel.get w).points[j]? = some f ∧ f.count = pt.count ∧
        f.sum = pt.sum ∧ f.value = (if pt.count = 0 then none else some (pt.sum / (pt.count : Int))) ∧
        ∀ ref v, complete → (p.points[tap]?.map fun q => q.sum / (q.count : Int)) = some ref → f.value = some v →
          f.height = some (v - ref)) ∧
      ((t.ptu.wheel.get w).verdict = .complete ↔ complete) ∧
      (complete → w = .l → t.ptu.phase = .sweepR ∧ t.ptu.sweepTimer = some 60000000 ∧
        t.out = s.out.grewBy [.sweep .r] [] ∧ KeepsBut [.ptu, .out] s t) ∧
      (complete → w = .r → t.ptu.phase = .complete ∧ t.ptu.sweepTimer = none ∧
        t.fe.fit.worn = some ⟨t.ptu.wheel.l.points.map (·.height), t.ptu.wheel.r.points.map (·.height)⟩) ∧
      (∀ di ρ worn best, complete → w = .r → s.vc.state = .measuring → s.fe.fit.diameter = some di →
        s.fe.fit.runout = some ρ → t.fe.fit.worn = some worn →
        chooseVariant (s.fe.effective.filterMap fun k => (s.fe.variants[k]?).map fun v =>
          fitVariant (conf s).minCut k v ρ worn) = some best →
        let c := fitCeilings di best
        let held := if s.fe.ceil.status = .normal ∧ s.fe.ceil.announced = true then s.fe.ceil.value else none
        let taken : LR Int := held.elim c fun h => ⟨min c.l h.l, min c.r h.r⟩
        let fits := ((conf s).condemn : Int) ≤ taken.l ∧ ((conf s).condemn : Int) ≤ taken.r
        let waits := anyPending (groupView s) = true
        t.fe.fit.chosen = some best.index ∧ t.fe.fit.ceiling = some c ∧
        (∃ r, t.result.rtu = some r ∧ r.reason = .none) ∧ t.cp.newResult = true ∧ t.out = s.out ∧
        (fits → t.fe.fit.state = .fitted ∧ t.cp = { s.cp with newResult := true } ∧
          t.fe.ceil = { s.fe.ceil with
            status := .normal, value := some taken, announced := true
            seq := if held = some taken then s.fe.ceil.seq else nextSeq s.fe.ceil.seq } ∧
          (waits → t.vc = { s.vc with state := .reconciling } ∧ t.ru = s.ru ∧ t.pc = s.pc) ∧
          (¬waits → t.vc = { s.vc with state := .ready } ∧
            t.ru.plan = some (computePlan (conf s) s.ss.straps.bogie taken (groupView s)) ∧ t.pc.surface = some di ∧
            t.pc.uncertain = false ∧ t.pc.finishDone = false ∧ t.pc.chosen = some best.index ∧
            t.ru.intent = some ⟨nextSeq s.ru.intentSeq, t.fe.ceil.seq,
              (computePlan (conf s) s.ss.straps.bogie taken (groupView s)).target⟩)) ∧
        (¬fits → t.vc.state = .condemned ∧ t.fe.fit.state = .condemning ∧ t.fe.ceil.status = .condemned ∧
          t.fe.ceil.value = none ∧ t.fe.ceil.condemning = some taken ∧ t.fe.ceil.seq = nextSeq s.fe.ceil.seq ∧
          t.cp = { s.cp with status := latchWord s.cp.status .condemned, newResult := true })) ∧
      (¬complete → s.vc.state = .measuring → t.vc = { s.vc with state := .unmeasured } ∧ t.ptu.phase = .held ∧
        t.ptu.failing = some w ∧ (∃ r, t.result.rtu = some r ∧ r.reason = .traceIncomplete) ∧
        t.cp = { s.cp with status := latchWord s.cp.status .measureFailed, newResult := true } ∧ t.out = s.out))

/-! ## The pit link -/

/-- ANNOUNCE_TIMER_EXPIRY (R3, R91, R101): the timer reloads at P; in START the second expiry ends the listen period,
into IDLE, or INVALID with SETTINGS_INVALID, or straight on into ESTOP; after it every expiry queues a STATE, and each
fourth the own CEILING and INTENT too. An expiry while it is stopped
changes nothing (log entry 6, the model's choice). -/
def Obligations.AnnounceTimer : Prop :=
  ∀ s : State,
    let runs := exec .announceTimerExpiry s
    let n := s.lc.expiryCount % 4 + 1
    let lc := { s.lc with announce := some ((conf s).announce * 1000) }
    let lcN := handed .state { lc with expiryCount := n }
    let lcC := if s.fe.ceil.status = .none then lcN
      else handed (.ceiling s.fe.ceil.seq s.fe.ceil.status s.fe.ceil.value) lcN
    let lcI := s.ru.intent.elim lcC fun i => handed (.intent i.seq i.basis i.target) lcC
    (s.lc.announce = none → runs = .next s) ∧
    (s.lc.announce ≠ none → s.vc.state = .start → 1 < s.lc.listenLeft →
      runs = .next { s with lc := { lc with listenLeft := s.lc.listenLeft - 1 } }) ∧
    (s.lc.announce ≠ none → s.vc.state = .start → s.lc.listenLeft = 1 → level s .estop = false →
      s.result.start.good = true → runs = .next { s with
        vc := { s.vc with state := .idle }, lc := handed .state { lc with listenLeft := 0 } }) ∧
    (s.lc.announce ≠ none → s.vc.state = .start → s.lc.listenLeft = 1 → level s .estop = false →
      s.result.start.good = false → runs = .next { s with
        vc := { s.vc with state := .invalid, settingsInvalid := true }, lc := handed .state { lc with listenLeft := 0 }
        cp := { s.cp with status := latchWord s.cp.status .settingsInvalid } }) ∧
    (s.lc.announce ≠ none → s.vc.state = .start → s.lc.listenLeft = 1 → level s .estop = true → s.rtu.run = .none →
      ∃ t, runs = .next t ∧ t.vc.state = .estop ∧
        t.vc.returnState = some (if s.result.start.good then .idle else .invalid) ∧
        flagSet t.cp.status .estopSeen = true ∧ t.pc = s.pc) ∧
    (s.lc.announce ≠ none → s.vc.state ≠ .start → n < 4 → runs = .next { s with lc := lcN }) ∧
    (s.lc.announce ≠ none → s.vc.state ≠ .start → n = 4 → runs = .next { s with lc := lcI })

/-- TRANSMIT_START and FRAME_SENT (R87 to R90, R93 to R96, R164): the head frame goes on the line, assembled from the
values of that moment; sent whole it leaves the queue, or stays with its new content where it was replaced, and an
overflow frame enters behind its class; a CLAIM sent by an ARMED station enters the claim list and the slot is HELD where
the list leaves room, or else is released after it; so is a CLAIM that was given up while it was on the line, and an ask
that has come since is then tested, the new CLAIM queued behind that RELEASE (R163). A frame
handed to a full queue drops the oldest STATE, or else the oldest INTENT, not in transmission, or waits in the overflow
position. Read by inference: while the overflow position is occupied the room of a drop goes to the new frame (log
entry 15), and a given-up CLAIM that is sent whole is followed by its RELEASE, the slot at NONE meanwhile and no second
CLAIM queued until then (log entry 22).
The model's choices: an event that cannot happen in the state changes nothing (log entry 6), and the order in which a
start's orders are recorded (log entry 39). -/
def Obligations.FramesAreSent : Prop :=
  ∀ (e : QEntry) (q : List QEntry) (f : LinkFrame) (s : State),
    let cleared := { s.lc with
      errRun := 0, onLine := none, queue := s.lc.queue.map fun x => { x with tx := false, replaced := false } }
    let gone := lcRefill { s.lc with errRun := 0, onLine := none, queue := s.lc.queue.eraseP (·.tx) }
    let sent := { s.out with sent := s.out.sent ++ [f] }
    let others := s.scu.claims.filter fun c => decide (c.station ≠ ownStation s)
    (s.lc.queue = [] → exec .transmitStart s = .next s) ∧
    (s.vc.state = .start ∨ s.lc.silenced = true ∨ s.lc.listenOnly ≠ none ∨ (∃ x ∈ s.lc.queue, x.tx = true) →
      exec .transmitStart s = .next s) ∧
    (s.lc.queue = e :: q → s.vc.state ≠ .start → s.lc.silenced = false → s.lc.listenOnly = none →
      (∀ x ∈ s.lc.queue, x.tx = false) → exec .transmitStart s = .next { s with lc := { s.lc with
        queue := { e with tx := true, replaced := false } :: q, onLine := some (encodeFrame e.frame s) } }) ∧
    (s.lc.onLine = none → exec .frameSent s = .next s) ∧
    (s.lc.onLine = some f → s.lc.queue.find? (·.tx) = some e → e.replaced = true → e.frame.kindCode ≠ 1 →
      exec .frameSent s = .next { s with lc := cleared, out := sent }) ∧
    (s.lc.onLine = some f → s.lc.queue.find? (·.tx) = some e → e.replaced = false → e.frame.kindCode ≠ 1 →
      exec .frameSent s = .next { s with lc := gone, out := sent }) ∧
    (∀ n, s.lc.onLine = some f → s.lc.queue.find? (·.tx) = some e → e.replaced = false → e.frame = .claim n →
      e.withdraw ≠ some .givenUp → s.scu.slot = .armed → others.length < (conf s).slots →
      ∃ t, exec .frameSent s = .next t ∧ Settled { s with
        lc := gone, out := sent
        scu := { s.scu with claims := others ++ [⟨ownStation s, some n⟩], slot := .held, ask := false } } t) ∧
    (∀ n, s.lc.onLine = some f → s.lc.queue.find? (·.tx) = some e → e.replaced = false → e.frame = .claim n →
      e.withdraw ≠ some .givenUp → s.scu.slot = .armed → (conf s).slots ≤ others.length → s.vc.state ≠ .start →
      ∃ t, exec .frameSent s = .next t ∧ Settled { s with
        lc := handed (.release n) gone, out := sent
        scu := { s.scu with
          claims := others, slot := .backoff, claimPass := none, backoff := some (((ownStation s).val + 1) * 20000)
          yields := min 255 (s.scu.yields + 1) } } t) ∧
    (∀ n, s.lc.onLine = some f → s.lc.queue.find? (·.tx) = some e → e.replaced = false → e.frame = .claim n →
      e.withdraw = some .givenUp ∨ s.scu.slot ≠ .armed → s.vc.state ≠ .start →
      let b : State := { s with lc := handed (.release n) gone, out := sent, scu := { s.scu with claims := others } }
      let asks := s.scu.ask = true ∧ (s.scu.slot = .none ∨ s.scu.slot = .waiting)
      ∃ t, exec .frameSent s = .next t ∧
        (¬asks ∨ (others.length < (conf s).slots ∧ framesOfKind 1 gone ≠ []) → Settled b t) ∧
        (asks → (conf s).slots ≤ others.length → Settled { b with scu := { b.scu with slot := .waiting } } t) ∧
        ∀ p rest, asks → others.length < (conf s).slots → framesOfKind 1 gone = [] → s.pc.queue = p :: rest →
          p.kind = .rough → Settled { b with
            scu := { b.scu with slot := .armed, claimPass := some p.number }
            lc := handed (.claim p.number) b.lc } t) ∧
    (∀ (g : QFrame) (c : LC),
      let place := fun (l : List QEntry) =>
        (l.takeWhile fun x => decide (x.frame.cls ≤ g.cls)) ++ QEntry.mk g false false none ::
          (l.dropWhile fun x => decide (x.frame.cls ≤ g.cls))
      let still := fun (k : Nat) (x : QEntry) => x.frame.kindCode == k && !x.tx
      let alone := (3 ≤ g.kindCode → ∀ x ∈ c.queue, x.frame.kindCode ≠ g.kindCode) ∧
        ∀ o, c.overflow = some o → 3 ≤ g.kindCode → o.kindCode ≠ g.kindCode
      (c.overflow = some g → c.queue.length < 4 → lcRefill c = { c with queue := place c.queue, overflow := none }) ∧
      (c.overflow = none ∨ 4 ≤ c.queue.length → lcRefill c = c) ∧
      (alone → c.queue.length < 4 → lcHand g c = { c with queue := place c.queue }) ∧
      (alone → 4 ≤ c.queue.length → c.queue.any (still 5) = true →
        lcHand g c = { c with queue := place (c.queue.eraseP (still 5)) }) ∧
      (alone → 4 ≤ c.queue.length → c.queue.any (still 5) = false → c.queue.any (still 4) = true →
        lcHand g c = { c with queue := place (c.queue.eraseP (still 4)) }) ∧
      (alone → 4 ≤ c.queue.length → c.queue.any (still 5) = false → c.queue.any (still 4) = false →
        c.overflow = none → lcHand g c = { c with overflow := some g, txOverflow := true }))

/-- ARBITRATION_LOST, OWN_FRAME_ERROR and LISTEN_ONLY_END (R87 to R89, R96, R165): a frame whose recessive bit read back
dominant stays queued for the retry, but for a CLAIM whose withdrawal waited, which leaves the queue, a lost reservation
then going to BACKOFF, and an ask that has come since a reservation was given up being tested then (R163; that it waits
for this answer is read by inference, log entry 22); so does one whose own sending failed, which is counted, and the sixteenth failure in a row
puts the station in listen-only for 2 s with LINK_SILENT, after which it sends again. An event that cannot happen in
the state changes nothing (log entries 6 and 23, the model's choices). -/
def Obligations.TransmissionsLost : Prop :=
  ∀ (i : Fin 6) (s : State),
    let retry := { s.lc with
      onLine := none, queue := s.lc.queue.map fun x => { x with tx := false, replaced := false } }
    let counted := { retry with
      errRun := min 16 (s.lc.errRun + 1), errTotal := min 65535 (s.lc.errTotal + 1) }
    (s.lc.onLine = none → exec (.arbitrationLost i) s = .next s ∧ exec .ownFrameError s = .next s) ∧
    (∀ f, s.lc.onLine = some f → (f.cls.toNat * 16 + f.station.val).testBit (5 - i.val) = false →
      exec (.arbitrationLost i) s = .next s) ∧
    (∀ f, s.lc.onLine = some f → (f.cls.toNat * 16 + f.station.val).testBit (5 - i.val) = true →
      (∀ e, s.lc.queue.find? (·.tx) = some e → e.withdraw = none) →
      exec (.arbitrationLost i) s = .next { s with lc := retry }) ∧
    (∀ f, s.lc.onLine = some f → (∀ e, s.lc.queue.find? (·.tx) = some e → e.withdraw = none) →
      s.lc.errRun < 15 → exec .ownFrameError s = .next { s with lc := counted }) ∧
    (∀ f, s.lc.onLine = some f → (∀ e, s.lc.queue.find? (·.tx) = some e → e.withdraw = none) →
      15 ≤ s.lc.errRun → exec .ownFrameError s = .next { s with
        lc := { counted with listenOnly := some 2000000, listenPeriods := min 255 (s.lc.listenPeriods + 1) }
        cp := { s.cp with status := latchWord s.cp.status .linkSilent } }) ∧
    (∀ f e why, s.lc.onLine = some f → s.lc.queue.find? (·.tx) = some e → e.withdraw = some why →
      let waiting := fun (x : QEntry) => x.frame.kindCode == 1 && x.withdraw.isSome
      let lost := why = .lost ∧ s.scu.slot = .armed
      let asks := s.scu.ask = true ∧ (s.scu.slot = .none ∨ s.scu.slot = .waiting)
      let room := s.scu.claims.length < (conf s).slots
      let ends := fun (c : LC) (t : State) =>
        (lost → t = { s with lc := c, scu := { s.scu with
          slot := .backoff, claimPass := none, backoff := some (((ownStation s).val + 1) * 20000) } }) ∧
        (¬lost → ¬asks ∨ (room ∧ framesOfKind 1 c ≠ []) → t = { s with lc := c }) ∧
        (asks → ¬room → t = { s with lc := c, scu := { s.scu with slot := .waiting } }) ∧
        ∀ p rest, asks → room → framesOfKind 1 c = [] → s.vc.state ≠ .start → s.pc.queue = p :: rest →
          p.kind = .rough → t = { s with
            lc := handed (.claim p.number) c, scu := { s.scu with slot := .armed, claimPass := some p.number } }
      ((f.cls.toNat * 16 + f.station.val).testBit (5 - i.val) = true → ∃ t, exec (.arbitrationLost i) s = .next t ∧
        ends (lcRefill { retry with queue := retry.queue.eraseP waiting }) t) ∧
      (s.lc.errRun < 15 → ∃ t, exec .ownFrameError s = .next t ∧
        ends (lcRefill { counted with queue := counted.queue.eraseP waiting }) t)) ∧
    (s.lc.listenOnly ≠ none →
      exec .listenOnlyEnd s = .next { s with lc := { s.lc with listenOnly := none, errRun := 0 } }) ∧
    (s.lc.listenOnly = none → exec .listenOnlyEnd s = .next s)

/-- STATE_RECEIVED, CEILING_RECEIVED and INTENT_RECEIVED (R98, R104 to R110, R112): a good frame of another station
makes that station's entry fresh, or leaves it RESTARTED, at age 0 and takes its fields by the sequence order; no other
entry changes. -/
def Obligations.PeerFramesUpdateTheirEntry : Prop :=
  ∀ (f : LinkFrame) (s : State), f.station ≠ ownStation s →
    let e := (findPeer f.station s.peers).getD ⟨f.station, none, false, none, none, 0, .fresh⟩
    let others := fun (t : State) => ∀ m, m ≠ f.station → findPeer m t.peers = findPeer m s.peers
    (∀ p, goodAs .state f = true → readState s.ss.digest f.payload = some p →
      let restart := ∃ c, e.ceiling = some c ∧ (p.annCeiling = 0 ∨ seqOlder p.annCeiling c.seq = true)
      ∃ t e', exec (.stateReceived f) s = .next t ∧ others t ∧ findPeer f.station t.peers = some e' ∧
        e'.st = some p ∧ e'.age = 0 ∧
        (restart → e'.freshness = .restarted ∧ e'.ceiling = none ∧ e'.intent = none) ∧
        (¬restart → e'.ceiling = e.ceiling ∧ e'.intent = (if p.annIntent = 0 then none else e.intent) ∧
          e'.freshness = (if e.freshness = .restarted then .restarted else .fresh)) ∧
        (p.digestMatch = false → e'.mismatchReported = true ∧
          (e.mismatchReported = false → flagSet t.cp.status .configMismatch = true))) ∧
    (∀ c, goodAs .ceiling f = true → readCeiling f.payload = some c →
      let takes := e.freshness = .restarted ∨ ∀ old, e.ceiling = some old → seqNewer c.seq old.seq = true
      ∃ t, exec (.ceilingReceived f) s = .next t ∧ others t ∧ findPeer f.station t.peers = some { e with
        age := 0, freshness := .fresh, ceiling := if takes then some c else e.ceiling }) ∧
    (∀ i, goodAs .intent f = true → readIntent f.payload = some i →
      let takes := ∀ old, e.intent = some old → seqNewer i.seq old.seq = true
      ∃ t, exec (.intentReceived f) s = .next t ∧ others t ∧ findPeer f.station t.peers = some { e with
        age := 0, freshness := if e.freshness = .restarted then .restarted else .fresh
        intent := if takes then some i else e.intent })

/-- A frame with the own station number (R19, R99): the station is SILENCED until a reset, DUPLICATE_ID latched, the
transmit queue emptied, the announce timer stopped, the plan dropped, any claim given up, and the work in progress
stopped by the state left, a calibration run in IDLE answered WRONG_STATE and an open sweep given PARK (R37, R64). That
every good frame of the own number silences, and that a silenced station takes no further notice of one, is read by
inference (log entry 24); the order in which the orders of an abort, and PARK and STOP, are recorded is the model's
choice (log entry 39). -/
def Obligations.OwnNumberSilences : Prop :=
  ∀ (f : LinkFrame) (s : State), f.station = ownStation s →
    ∀ c : Instr,
      (c = .stateReceived f ∧ goodAs .state f = true ∨ c = .ceilingReceived f ∧ goodAs .ceiling f = true ∨
        c = .intentReceived f ∧ goodAs .intent f = true ∨ c = .claimReceived f ∧ goodAs .claim f = true ∨
        c = .releaseReceived f ∧ goodAs .release f = true) →
      (s.lc.silenced = true → exec c s = .next s) ∧
      (s.lc.silenced = false → ∃ t, exec c s = .next t ∧ t.vc.state = .silenced ∧ t.lc.silenced = true ∧
        t.lc.queue = [] ∧ t.lc.overflow = none ∧ t.lc.onLine = none ∧ t.lc.announce = none ∧ t.ru.plan = none ∧
        t.ru.intent = none ∧ t.scu.slot = .none ∧ t.scu.ask = false ∧
        (s.vc.state ≠ .measuring → s.vc.state ≠ .idle → t.pc.queue = []) ∧
        flagSet t.cp.status .duplicateId = true ∧ t.peers = s.peers ∧ t.iiu.clamped = s.iiu.clamped ∧
        (s.vc.state = .cutting → activePass s = none → t.out = s.out.grewBy [.stop] []) ∧
        (∀ p, s.vc.state = .cutting → activePass s = some p →
          t.out = s.out.grewBy abortSequence [] ∧ t.pc.aborted p .silenced ∧ t.pc.queueFinish = none ∧
          AbortOffered p s t ∧ t.iiu = { s.iiu with latch := ⟨level s .homeL, level s .homeR⟩ } ∧
          flagSet t.cp.status .passAborted = true) ∧
        (s.vc.state = .measuring → s.rtu.run = .measure → t.rtu.run = .none ∧ t.out = s.out.grewBy [.stop] [] ∧
          ∃ r, t.result.rtu = some r ∧ r.reason = .silenced) ∧
        (∀ w, s.vc.state = .measuring → s.rtu.run ≠ .measure → openSweep s.ptu.phase = some w →
          t.ptu = { s.ptu with phase := .held, sweepTimer := none } ∧ t.out = s.out.grewBy [.park w, .stop] [] ∧
          t.cp = { s.cp with status := latchWord s.cp.status .duplicateId, newResult := true } ∧
          ∃ r, t.result.rtu = some r ∧ r.reason = .silenced) ∧
        (s.vc.state = .idle → s.rtu.run = .calibrate → s.ss.calRun ≠ none → t.rtu.run = .none ∧
          t.vc.calRunning = false ∧ t.ss = { s.ss with calRun := none } ∧
          t.out = s.out.grewBy [.stop] [.refused .calibrate .wrongState] ∧
          flagSet t.cp.status .measureFailed = true ∧ ∃ r, t.result.rtu = some r ∧ r.reason = .silenced))

/-- CLAIM_RECEIVED and RELEASE_RECEIVED (R105, R111, R161, R165): a good one of another station sets its entry's age
and freshness and no other field; a CLAIM enters the claim list, or gives its pass to the entry that stands there, and
a station whose own CLAIM is queued or in the overflow position but not on the line loses its reservation, one whose
CLAIM is on the line waits for the end of that transmission (R96); a RELEASE removes the entry, and in WAITING a removal
that brings the list below K_slots arms, but while a CLAIM is still queued (R163; log entry 22, read by inference). -/
def Obligations.ClaimsHeard : Prop :=
  ∀ (f : LinkFrame) (n : Nat) (s : State), f.station ≠ ownStation s → readPass f.payload = some n →
    let e := (findPeer f.station s.peers).getD ⟨f.station, none, false, none, none, 0, .fresh⟩
    let e' := { e with age := 0, freshness := if e.freshness = .restarted then Freshness.restarted else .fresh }
    let entryAfter := fun (t : State) => findPeer f.station t.peers = some e' ∧
      ∀ m, m ≠ f.station → findPeer m t.peers = findPeer m s.peers
    let same := (groupView s).map reportKey = (groupView { s with peers := putPeer e' s.peers }).map reportKey
    (goodAs .claim f = true → ∃ t, exec (.claimReceived f) s = .next t ∧ entryAfter t) ∧
    (goodAs .release f = true → ∃ t, exec (.releaseReceived f) s = .next t ∧ entryAfter t) ∧
    (goodAs .claim f = true → same → s.scu.slot ≠ .armed → ∃ t, exec (.claimReceived f) s = .next t ∧
      KeepsBut [.peers, .scu] s t ∧ t.scu = { s.scu with
        claims :=
          (if s.scu.claims.any (fun c => c.station == f.station) then
            s.scu.claims.map fun c => if c.station = f.station then { c with pass := some n } else c
          else s.scu.claims ++ [⟨f.station, some n⟩]) }) ∧
    (goodAs .claim f = true → same → s.scu.slot = .armed → s.lc.silenced = false →
      (∃ x ∈ s.lc.queue, x.frame.kindCode = 1 ∧ x.tx = false) →
      (∀ x ∈ s.lc.queue, x.withdraw ≠ some .lost) → ∃ t, exec (.claimReceived f) s = .next t ∧
      t.scu.slot = .backoff ∧ t.scu.claimPass = none ∧ t.scu.lost = min 255 (s.scu.lost + 1) ∧
      t.scu.backoff = some (((ownStation s).val + 1) * 20000) ∧ t.scu.ask = s.scu.ask) ∧
    (goodAs .claim f = true → same → s.scu.slot = .armed → s.lc.silenced = false →
      let lost := { s.scu with
        claims :=
          (if s.scu.claims.any (fun c => c.station == f.station) then
            s.scu.claims.map fun c => if c.station = f.station then { c with pass := some n } else c
          else s.scu.claims ++ [⟨f.station, some n⟩])
        lost := min 255 (s.scu.lost + 1) }
      ((∃ x ∈ s.lc.queue, x.frame.kindCode = 1) →
        (∀ x ∈ s.lc.queue, x.frame.kindCode = 1 → x.tx = true ∧ x.withdraw ≠ some .lost) →
        exec (.claimReceived f) s = .next { s with
          peers := putPeer e' s.peers
          scu := lost
          lc := { s.lc with queue := s.lc.queue.map fun x =>
            if x.frame.kindCode = 1 then { x with withdraw := some .lost } else x } }) ∧
      ∀ k, (∀ x ∈ s.lc.queue, x.frame.kindCode ≠ 1) → s.lc.overflow = some (.claim k) →
        exec (.claimReceived f) s = .next { s with
          peers := putPeer e' s.peers
          scu := { lost with
            slot := .backoff, claimPass := none, backoff := some (((ownStation s).val + 1) * 20000) }
          lc := { s.lc with overflow := none } }) ∧
    (goodAs .release f = true → same → s.scu.slot ≠ .waiting → ∃ t, exec (.releaseReceived f) s = .next t ∧
      KeepsBut [.peers, .scu] s t ∧
      t.scu = { s.scu with claims := s.scu.claims.filter fun c => decide (c.station ≠ f.station) }) ∧
    (goodAs .release f = true → same → s.scu.slot = .waiting → s.scu.ask = true → ∃ t,
      exec (.releaseReceived f) s = .next t ∧ KeepsBut [.peers, .scu, .lc] s t ∧
      let left := s.scu.claims.filter fun c => decide (c.station ≠ f.station)
      (left = s.scu.claims ∨ (conf s).slots ≤ left.length ∨ framesOfKind 1 s.lc ≠ [] →
        t.scu = { s.scu with claims := left } ∧ t.lc = s.lc) ∧
      ∀ p rest, left ≠ s.scu.claims → left.length < (conf s).slots → framesOfKind 1 s.lc = [] →
        s.vc.state = .cutting → s.pc.queue = p :: rest → p.kind = .rough →
        t.scu = { s.scu with claims := left, slot := .armed, claimPass := some p.number } ∧
          t.lc = handed (.claim p.number) s.lc)

/-- PEER_AGE_EXPIRY, VIOLATION_TIMER_EXPIRY and PEER_WAIT_TIMER_EXPIRY (R105, R115, R133, R134, R162): a FRESH or
RESTARTED entry turns STALE, past 3P, and its claim leaves the claim list, which in WAITING may arm, but while a CLAIM is
still queued (R163; log entry 22, read by inference); a STALE entry and a station without an entry change nothing. Each wait timer latches its flag once at its limit, 40P and 120 s, and stays there. The model's choices:
a new STALE entry's age is past 3P (log entry 28), and an expiry while its timer is stopped, BACKOFF_EXPIRY among
them, changes nothing (log entry 6). -/
def Obligations.WaitsForPeersEnd : Prop :=
  ∀ (n : Fin 16) (s : State),
    (findPeer n s.peers = none → exec (.peerAgeExpiry n) s = .next s) ∧
    (∀ e, findPeer n s.peers = some e → e.freshness = .stale → exec (.peerAgeExpiry n) s = .next s) ∧
    (∀ e, findPeer n s.peers = some e → e.freshness ≠ .stale →
      ∃ t e', exec (.peerAgeExpiry n) s = .next t ∧ findPeer n t.peers = some e' ∧
        e' = { e with freshness := .stale, age := e'.age } ∧ 3 * (conf s).announce * 1000 < e'.age ∧
        (∀ m, m ≠ n → findPeer m t.peers = findPeer m s.peers) ∧ (∀ c ∈ t.scu.claims, c.station ≠ n) ∧
        let left := s.scu.claims.filter fun c => decide (c.station ≠ n)
        ∀ p rest, (∀ q, e.st = some q → q.car ≠ s.ss.straps.car) → s.scu.slot = .waiting → s.scu.ask = true →
          left ≠ s.scu.claims → left.length < (conf s).slots → s.vc.state = .cutting → s.pc.queue = p :: rest →
          p.kind = .rough →
          (framesOfKind 1 s.lc = [] → t.scu = { s.scu with claims := left, slot := .armed, claimPass := some p.number } ∧
            t.lc = handed (.claim p.number) s.lc) ∧
          (framesOfKind 1 s.lc ≠ [] → t.scu = { s.scu with claims := left } ∧ t.lc = s.lc)) ∧
    (s.ru.violationTimer ≠ none → s.ru.violationLatched = false → exec .violationTimerExpiry s = .next { s with
      ru := { s.ru with violationTimer := some (40 * (conf s).announce * 1000), violationLatched := true }
      cp := { s.cp with status := latchWord s.cp.status .agreementTimeout } }) ∧
    (s.ru.violationTimer = none ∨ s.ru.violationLatched = true → exec .violationTimerExpiry s = .next s) ∧
    (s.ru.peerWaitTimer ≠ none → s.ru.peerWaitLatched = false → exec .peerWaitTimerExpiry s = .next { s with
      ru := { s.ru with peerWaitTimer := some 120000000, peerWaitLatched := true }
      cp := { s.cp with status := latchWord s.cp.status .peerWait } }) ∧
    (s.ru.peerWaitTimer = none ∨ s.ru.peerWaitLatched = true → exec .peerWaitTimerExpiry s = .next s) ∧
    (s.scu.slot ≠ .backoff → exec .backoffExpiry s = .next s)

/-! ## Passes and slots -/

/-- No pass starts unless its start conditions hold (R144): whatever the command, CUT_SPEED is ordered only with a pass
become ACTIVE in CUTTING, CLAMPED and GUARD_CLOSED active, ESTOP inactive, no feed hold, no same-car entry pending and
the intent agreement holding, and for a ROUGH pass the slot HELD. -/
def Obligations.NoPassStartsUnready : Prop :=
  ∀ (c : Instr) (s t : State), exec c s = .next t → .cutSpeed ∈ t.out.orders.drop s.out.orders.length →
    t.vc.state = .cutting ∧ level t .clamped = true ∧ level t .guardClosed = true ∧ level t .estop = false ∧
    t.pc.holds = HoldCauses.empty ∧ anyPending (groupView t) = false ∧ t.ru.violation = false ∧ t.ru.awaited = [] ∧
    ∃ p, activePass t = some p ∧ (p.kind = .rough → t.scu.slot = .held)

/-- SLIDE_DONE (R146 to R149, R167): a return that matches no owed slide of an ACTIVE pass is stray; with the other
slide owed it marks its own; the last completes the pass: the record DONE and last ended, the surfaces at its expected
diameters, the counts advanced, the offer of R148 made. Where that lowers no ceiling and nothing is pending: the queue
goes on, on the claim for a ROUGH head and with the claim released for a FINISH one, or after the FINISH pass the
station is FINISHED with the drive stopped; a build owed is made on the targets held, a DEEP one leading to READY, an
empty one to FINISHED. A ROUGH pass whose offer lowers a ceiling announces it and re-plans on it, the intent on the new
sequence; so does the FINISH pass that ends the queue, and where the re-plan asks for no recut the station is FINISHED,
the drive stopped, and CEILING, INTENT and STATE are queued; an offer below Z leaves the station CONDEMNED. That an ask beside a given-up CLAIM still queued
arms nothing yet is read by inference (log entry 22). The model's
choices: finish done, once set, stays set when a ROUGH pass of a recut completes (log entry 40), and the order in which
the orders of one step are recorded (log entry 39). -/
def Obligations.SlideReturns : Prop :=
  ∀ (w : Wheel) (s : State),
    let runs := exec (.slideDone w) s
    let stray := { s with pc := { s.pc with stray := min 255 (s.pc.stray + 1) } }
    (activePass s = none → runs = .next stray) ∧
    ∀ p, activePass s = some p →
      let p1 := { p with slideDone := p.slideDone.put w true }
      let done := { p1 with state := .done }
      let mr : Int := (conf s).minRecut
      let offer : LR Int := if p.kind = .rough then ⟨p.expected.l - 2 * mr, p.expected.r - 2 * mr⟩ else p.expected
      let pc := { s.pc with
        queue := s.pc.queue.tail, lastEnded := some done, timer := .stopped, surface := some p.expected
        passesDone := s.pc.passesDone + 1, passesVisit := min 255 (s.pc.passesVisit + 1)
        finishDone := s.pc.finishDone || decide (p.kind = .finish) }
      let vc := { s.vc with passCompleted := true }
      let ends := s.vc.state = .cutting ∧ w ∈ owedSlides p ∧ owedSlides p1 = []
      let quiet := s.pc.rebuildOwed = false ∧ s.vc.condPending = false ∧
        ∃ held, s.fe.ceil.status = .normal ∧ s.fe.ceil.value = some held ∧ held.l ≤ offer.l ∧ held.r ≤ offer.r ∧
          (conf s).condemn ≤ held.l ∧ (conf s).condemn ≤ held.r
      (w ∉ owedSlides p → runs = .next stray) ∧
      (w ∈ owedSlides p → owedSlides p1 ≠ [] →
        runs = .next { s with pc := { s.pc with queue := p1 :: s.pc.queue.tail } }) ∧
      (ends → ∃ t, runs = .next t ∧ t.pc.lastEnded = some done ∧ t.pc.surface = some p.expected ∧
        t.pc.passesVisit = min 255 (s.pc.passesVisit + 1) ∧ t.vc.passCompleted = true ∧
        (p.kind = .finish → t.pc.finishDone = true)) ∧
      (ends → quiet → s.pc.queue.tail = [] → s.scu.slot = .none → ∃ t, runs = .next t ∧ t.vc.state = .finished ∧
        t.out = s.out.grewBy [.stop] [] ∧ t.fe = s.fe ∧
        t.pc = { pc with queueFinish := some p.expected, holds := HoldCauses.empty }) ∧
      (∀ q rest, ends → quiet → s.pc.queue.tail = q :: rest → q.kind = .rough → ∃ t, runs = .next t ∧
        Settled { s with vc := vc, pc := pc } t) ∧
      (∀ q rest, ends → quiet → s.pc.queue.tail = q :: rest → q.kind = .finish → s.scu.slot = .held →
        ∃ t, runs = .next t ∧ Settled { claimReleased s with vc := vc, pc := pc } t) ∧
      (∀ held plan, ends → p.kind = .rough → s.pc.rebuildOwed = true → s.pc.finishDone = false →
        s.pc.uncertain = false → s.vc.condPending = false → s.ru.plan = some plan → s.fe.ceil.status = .normal →
        s.fe.ceil.value = some held → held.l ≤ offer.l → held.r ≤ offer.r → (conf s).condemn ≤ held.l →
        (conf s).condemn ≤ held.r → s.scu.slot = .held →
        let b := buildFrom (conf s) false true (s.pc.passesDone + 1) p.expected plan.target
        let after := { pc with rebuildOwed := false }
        (∀ qs fin h, b = .made qs fin → qs.head? = some h → ∃ t, runs = .next t ∧
          Settled (agree { (if h.kind = .rough then s else claimReleased s) with vc := vc, pc := PC.built b after }) t) ∧
        (∀ n, b = .deep n → ∃ t, runs = .next t ∧ t.vc.state = .ready ∧
          t.pc = PC.built (buildFrom (conf s) false false 0 p.expected plan.target)
            { after with holds := HoldCauses.empty, passesDone := 0 } ∧
          t.out = s.out.grewBy [.stop] [] ∧ t.scu = (claimReleased s).scu ∧
          t.cp = { s.cp with status := latchWord s.cp.status .recutRequired }) ∧
        (b = .empty → ∃ t, runs = .next t ∧ t.vc.state = .finished ∧
          t.pc = PC.built b { after with holds := HoldCauses.empty } ∧ t.out = s.out.grewBy [.stop] [] ∧
          t.scu = (claimReleased s).scu ∧ t.cp = s.cp)) ∧
      (∀ held plan, ends → p.kind = .rough → s.pc.rebuildOwed = false → s.pc.finishDone = false →
        s.vc.condPending = false → (∀ x ∈ s.pc.queue.tail, x.state = .queued) → s.ru.plan = some plan →
        (∀ i, s.ru.intent = some i → i.basis ≠ nextSeq s.fe.ceil.seq) →
        s.fe.ceil.status = .normal → s.fe.ceil.value = some held → offer.l < held.l ∨ offer.r < held.r →
        let taken : LR Int := ⟨min offer.l held.l, min offer.r held.r⟩
        let fits := ((conf s).condemn : Int) ≤ taken.l ∧ ((conf s).condemn : Int) ≤ taken.r
        let p' := computePlan (conf s) s.ss.straps.bogie taken (groupView s)
        (fits → anyPending (groupView s) = false → ∃ t, runs = .next t ∧
          t.fe = { s.fe with ceil := ⟨.normal, some taken, nextSeq s.fe.ceil.seq, true, s.fe.ceil.condemning⟩ } ∧
          t.ru.plan = some p' ∧ t.ru.intentSeq = nextSeq s.ru.intentSeq ∧
          t.ru.intent = some ⟨nextSeq s.ru.intentSeq, nextSeq s.fe.ceil.seq, p'.target⟩)) ∧
      (∀ held plan, ends → p.kind = .finish → s.pc.queue.tail = [] → s.pc.rebuildOwed = false →
        s.vc.condPending = false → s.scu.slot = .none → s.ru.plan = some plan →
        (∀ i, s.ru.intent = some i → i.basis ≠ nextSeq s.fe.ceil.seq) →
        s.fe.ceil.status = .normal → s.fe.ceil.value = some held → offer.l < held.l ∨ offer.r < held.r →
        let taken : LR Int := ⟨min offer.l held.l, min offer.r held.r⟩
        let pending := anyPending (groupView s)
        let p' := if pending then { plan with target := ⟨min plan.target.l taken.l, min plan.target.r taken.r⟩ }
          else computePlan (conf s) s.ss.straps.bogie taken (groupView s)
        let intent : Intent := ⟨nextSeq s.ru.intentSeq, nextSeq s.fe.ceil.seq, p'.target⟩
        ((conf s).condemn : Int) ≤ taken.l → ((conf s).condemn : Int) ≤ taken.r →
        p'.target = plan.target ∨ (p.expected.l ≤ p'.target.l ∧ p.expected.r ≤ p'.target.r) →
        ∃ t, runs = .next t ∧ t.vc = { vc with state := .finished, sub := none } ∧ t.out = s.out.grewBy [.stop] [] ∧
          t.fe = { s.fe with ceil := ⟨.normal, some taken, intent.basis, true, s.fe.ceil.condemning⟩ } ∧
          t.pc = { pc with
            queueFinish := some p.expected, holds := HoldCauses.empty, planDeep := t.pc.planDeep } ∧
          t.ru.plan = some p' ∧ t.ru.replanOwed = pending ∧ t.ru.intentSeq = intent.seq ∧ t.ru.intent = some intent ∧
          t.lc = handed .state (handed (.intent intent.seq intent.basis intent.target)
            (handed (.ceiling intent.basis .normal (some taken)) s.lc)) ∧
          t.scu = s.scu.freed ∧ KeepsBut [.vc, .fe, .lc, .ru, .pc, .scu, .out] s t) ∧
      (∀ held, ends → (∀ x ∈ s.pc.queue.tail, x.state = .queued) → s.fe.ceil.status = .normal →
        s.fe.ceil.value = some held → min offer.l held.l < (conf s).condemn ∨ min offer.r held.r < (conf s).condemn →
        ∃ t, runs = .next t ∧ t.vc.state = .condemned ∧ t.fe.ceil.status = .condemned ∧ t.pc.queue = [] ∧
          t.ru.plan = none ∧ t.out = s.out.grewBy [.stop] [] ∧ t.scu.slot = .none ∧
          t.cp = { s.cp with status := latchWord s.cp.status .condemned })

/-- BACKOFF_EXPIRY (R163, R166) with the ask standing returns the station to the test of R163, which arms below K_slots
and waits otherwise; with no ask it puts the slot state at NONE; a removal from the list in BACKOFF does not shorten it.
With a CLAIM still queued, which no run has in BACKOFF, the test waits (log entry 22, read by inference). -/
def Obligations.BackoffEnds : Prop :=
  ∀ s : State,
    (s.scu.slot = .backoff → s.scu.ask = false →
      exec .backoffExpiry s = .next { s with scu := { s.scu with slot := .none, backoff := none } }) ∧
    (s.scu.slot = .backoff → s.scu.ask = true → (conf s).slots ≤ s.scu.claims.length →
      exec .backoffExpiry s = .next { s with scu := { s.scu with slot := .waiting, backoff := none } }) ∧
    (s.scu.slot = .backoff → s.scu.ask = true → s.scu.claims.length < (conf s).slots → framesOfKind 1 s.lc ≠ [] →
      exec .backoffExpiry s = .next { s with scu := { s.scu with slot := .none, backoff := none } }) ∧
    (∀ p rest, s.scu.slot = .backoff → s.scu.ask = true → s.scu.claims.length < (conf s).slots →
      framesOfKind 1 s.lc = [] → s.vc.state = .cutting → s.pc.queue = p :: rest → p.kind = .rough → exec .backoffExpiry s = .next { s with
        scu := { s.scu with slot := .armed, backoff := none, claimPass := some p.number }
        lc := handed (.claim p.number) s.lc }) ∧
    (∀ n, s.scu.slot = .backoff → (removePeerClaim n s).scu.backoff = s.scu.backoff ∧
      (removePeerClaim n s).scu.slot = .backoff)

/-! ## Reset -/

/-- RESET (R2, R20, R67, R68, R91, R100, R192 to R194): the image stands, but for a write in progress, of which the bytes written
so far stand; the start copy is the image's settings clamped, the digest the check over six of them, the variant table that of the
image, each variant with the verdict of the first test that applies; every block is at its reset values, the status word
RESTARTED and EVENT alone (0x8100), a new result waiting, the raw input lines as they are; the record of outputs and
the commands waiting are outside the block's reset. The model's choices: how many bytes of a write had reached the store
is the command's operand (log entry 14), the raw lines stand (log entry 4), and so does the record of outputs (log
entry 5). -/
def Obligations.ResetStarts : Prop :=
  ∀ (k : ResetKind) (p : Straps) (n : Nat) (s : State), ∃ t, exec (.reset k p n) s = .next t ∧
    t.vc = VC.reset ∧ t.rtu = RTU.reset 0#32 ∧ t.rcu = RCU.reset ∧ t.ptu = PTU.reset ∧ t.peers = [] ∧
    t.ru = RU.reset 0 ∧ t.pc = PC.reset ∧ t.scu = SCU.reset ∧ t.fe.ceil = CeilingRecord.reset ∧
    t.fe.fit = FitRecord.reset ∧ t.fe.effective = [] ∧ t.lc = LC.reset t.ss.startCopy.announce ∧
    t.cp.status = 0x8100#16 ∧ t.cp.newResult = true ∧ t.cp.waiting = none ∧ t.cp.unlock = .closed ∧
    t.cp.watchdog = .unarmed ∧ t.cp.rxBuffer = [] ∧
    t.ss.straps = p ∧ t.ss.hostWrite = none ∧ t.ss.calWrite = none ∧ t.ss.calRun = none ∧
    t.ss.startCopy = clampSettings (readGeneral t.ss.image) ∧ t.ss.digest = configDigest t.ss.startCopy ∧
    (s.ss.hostWrite = none → s.ss.calWrite = none → t.ss.image = s.ss.image) ∧
    (∀ w, s.ss.hostWrite = some w → t.ss.image = imagePutAll w.before (w.bytes.take n)) ∧
    (∀ w, s.ss.hostWrite = none → s.ss.calWrite = some w → t.ss.image = imagePutAll w.before (w.bytes.take n)) ∧
    t.result.start.kind = k ∧ t.result.start.straps = p ∧ t.result.start.good = imageGood t.ss.image ∧
    t.result.rtu = none ∧ t.result.rcu = none ∧ t.result.ptu = none ∧ t.result.fe = none ∧
    (∀ i, (t.iiu.line i).raw = (s.iiu.line i).raw ∧ (t.iiu.line i).level = decide (i = .estop) ∧
      ((t.iiu.line i).timer = none ↔ (s.iiu.line i).raw = decide (i = .estop))) ∧
    t.iiu.latch = .both false ∧ t.out = s.out ∧ t.pending = s.pending ∧
    600000 ≤ t.ss.startCopy.condemn ∧ t.ss.startCopy.condemn ≤ 1300000 ∧
    1 ≤ t.ss.startCopy.slots ∧ t.ss.startCopy.slots ≤ 8 ∧ t.ss.startCopy.announce % 50 = 0 ∧
    t.ss.startCopy.minRecut ≤ t.ss.startCopy.minCut ∧ t.ss.startCopy.minCut ≤ t.ss.startCopy.finish ∧
    t.ss.startCopy.tolAxle % 2 = 0 ∧ t.ss.startCopy.tolBogie % 2 = 0 ∧ t.ss.startCopy.tolCar % 2 = 0 ∧
    (let g := t.ss.startCopy
     t.ss.digest = crc16 (be2 g.tolAxle ++ be2 g.tolBogie ++ be2 g.tolCar ++ be4 g.condemn ++ be1 g.slots ++
       be2 g.announce)) ∧
    t.fe.variants.length = 4 ∧ t.result.start.verdicts = t.fe.variants.map (·.verdict) ∧
    ∀ i, i < 4 → ∃ v, t.fe.variants[i]? = some v ∧
      let o := 48 + 244 * i
      v.enable = decide (imageGet t.ss.image o ≠ 0#8) ∧ v.thickness = ofBytes (imageBytes t.ss.image (o + 2) 2) ∧
      v.heights.length = 120 ∧
      (∀ j, j < 120 → v.heights[j]? = some (ofSigned2 (ofBytes (imageBytes t.ss.image (o + 4 + 2 * j) 2)))) ∧
      v.verdict =
        (if imageGood t.ss.image = false then .noSettings
         else if v.enable = false then .off
         else if v.heights.getD t.ss.startCopy.taping 0 ≠ 0 then .tapingNonzero
         else if v.thickness < 20000 ∨ 40000 < v.thickness then .flangeRange
         else .usable)
end

