-- ==== Sys2Proof/Laws/State.lean ====
section
/-! SUPPORT. One lemma per field per update of the state: an update of one block's record changes that record and
leaves every other field as it was. -/

namespace Sys2Proof.Machine

open Sys2Proof

/-! ### vc -/

@[simp] theorem State.onVC_pending (s : State) (f : VC → VC) : (s.onVC f).pending = s.pending := rfl
@[simp] theorem State.onVC_vc (s : State) (f : VC → VC) : (s.onVC f).vc = f s.vc := rfl
@[simp] theorem State.onVC_rtu (s : State) (f : VC → VC) : (s.onVC f).rtu = s.rtu := rfl
@[simp] theorem State.onVC_rcu (s : State) (f : VC → VC) : (s.onVC f).rcu = s.rcu := rfl
@[simp] theorem State.onVC_ptu (s : State) (f : VC → VC) : (s.onVC f).ptu = s.ptu := rfl
@[simp] theorem State.onVC_fe (s : State) (f : VC → VC) : (s.onVC f).fe = s.fe := rfl
@[simp] theorem State.onVC_lc (s : State) (f : VC → VC) : (s.onVC f).lc = s.lc := rfl
@[simp] theorem State.onVC_peers (s : State) (f : VC → VC) : (s.onVC f).peers = s.peers := rfl
@[simp] theorem State.onVC_ru (s : State) (f : VC → VC) : (s.onVC f).ru = s.ru := rfl
@[simp] theorem State.onVC_pc (s : State) (f : VC → VC) : (s.onVC f).pc = s.pc := rfl
@[simp] theorem State.onVC_scu (s : State) (f : VC → VC) : (s.onVC f).scu = s.scu := rfl
@[simp] theorem State.onVC_iiu (s : State) (f : VC → VC) : (s.onVC f).iiu = s.iiu := rfl
@[simp] theorem State.onVC_cp (s : State) (f : VC → VC) : (s.onVC f).cp = s.cp := rfl
@[simp] theorem State.onVC_ss (s : State) (f : VC → VC) : (s.onVC f).ss = s.ss := rfl
@[simp] theorem State.onVC_result (s : State) (f : VC → VC) : (s.onVC f).result = s.result := rfl
@[simp] theorem State.onVC_out (s : State) (f : VC → VC) : (s.onVC f).out = s.out := rfl

/-! ### rtu -/

@[simp] theorem State.onRTU_pending (s : State) (f : RTU → RTU) : (s.onRTU f).pending = s.pending := rfl
@[simp] theorem State.onRTU_vc (s : State) (f : RTU → RTU) : (s.onRTU f).vc = s.vc := rfl
@[simp] theorem State.onRTU_rtu (s : State) (f : RTU → RTU) : (s.onRTU f).rtu = f s.rtu := rfl
@[simp] theorem State.onRTU_rcu (s : State) (f : RTU → RTU) : (s.onRTU f).rcu = s.rcu := rfl
@[simp] theorem State.onRTU_ptu (s : State) (f : RTU → RTU) : (s.onRTU f).ptu = s.ptu := rfl
@[simp] theorem State.onRTU_fe (s : State) (f : RTU → RTU) : (s.onRTU f).fe = s.fe := rfl
@[simp] theorem State.onRTU_lc (s : State) (f : RTU → RTU) : (s.onRTU f).lc = s.lc := rfl
@[simp] theorem State.onRTU_peers (s : State) (f : RTU → RTU) : (s.onRTU f).peers = s.peers := rfl
@[simp] theorem State.onRTU_ru (s : State) (f : RTU → RTU) : (s.onRTU f).ru = s.ru := rfl
@[simp] theorem State.onRTU_pc (s : State) (f : RTU → RTU) : (s.onRTU f).pc = s.pc := rfl
@[simp] theorem State.onRTU_scu (s : State) (f : RTU → RTU) : (s.onRTU f).scu = s.scu := rfl
@[simp] theorem State.onRTU_iiu (s : State) (f : RTU → RTU) : (s.onRTU f).iiu = s.iiu := rfl
@[simp] theorem State.onRTU_cp (s : State) (f : RTU → RTU) : (s.onRTU f).cp = s.cp := rfl
@[simp] theorem State.onRTU_ss (s : State) (f : RTU → RTU) : (s.onRTU f).ss = s.ss := rfl
@[simp] theorem State.onRTU_result (s : State) (f : RTU → RTU) : (s.onRTU f).result = s.result := rfl
@[simp] theorem State.onRTU_out (s : State) (f : RTU → RTU) : (s.onRTU f).out = s.out := rfl

/-! ### rcu -/

@[simp] theorem State.onRCU_pending (s : State) (f : RCU → RCU) : (s.onRCU f).pending = s.pending := rfl
@[simp] theorem State.onRCU_vc (s : State) (f : RCU → RCU) : (s.onRCU f).vc = s.vc := rfl
@[simp] theorem State.onRCU_rtu (s : State) (f : RCU → RCU) : (s.onRCU f).rtu = s.rtu := rfl
@[simp] theorem State.onRCU_rcu (s : State) (f : RCU → RCU) : (s.onRCU f).rcu = f s.rcu := rfl
@[simp] theorem State.onRCU_ptu (s : State) (f : RCU → RCU) : (s.onRCU f).ptu = s.ptu := rfl
@[simp] theorem State.onRCU_fe (s : State) (f : RCU → RCU) : (s.onRCU f).fe = s.fe := rfl
@[simp] theorem State.onRCU_lc (s : State) (f : RCU → RCU) : (s.onRCU f).lc = s.lc := rfl
@[simp] theorem State.onRCU_peers (s : State) (f : RCU → RCU) : (s.onRCU f).peers = s.peers := rfl
@[simp] theorem State.onRCU_ru (s : State) (f : RCU → RCU) : (s.onRCU f).ru = s.ru := rfl
@[simp] theorem State.onRCU_pc (s : State) (f : RCU → RCU) : (s.onRCU f).pc = s.pc := rfl
@[simp] theorem State.onRCU_scu (s : State) (f : RCU → RCU) : (s.onRCU f).scu = s.scu := rfl
@[simp] theorem State.onRCU_iiu (s : State) (f : RCU → RCU) : (s.onRCU f).iiu = s.iiu := rfl
@[simp] theorem State.onRCU_cp (s : State) (f : RCU → RCU) : (s.onRCU f).cp = s.cp := rfl
@[simp] theorem State.onRCU_ss (s : State) (f : RCU → RCU) : (s.onRCU f).ss = s.ss := rfl
@[simp] theorem State.onRCU_result (s : State) (f : RCU → RCU) : (s.onRCU f).result = s.result := rfl
@[simp] theorem State.onRCU_out (s : State) (f : RCU → RCU) : (s.onRCU f).out = s.out := rfl

/-! ### ptu -/

@[simp] theorem State.onPTU_pending (s : State) (f : PTU → PTU) : (s.onPTU f).pending = s.pending := rfl
@[simp] theorem State.onPTU_vc (s : State) (f : PTU → PTU) : (s.onPTU f).vc = s.vc := rfl
@[simp] theorem State.onPTU_rtu (s : State) (f : PTU → PTU) : (s.onPTU f).rtu = s.rtu := rfl
@[simp] theorem State.onPTU_rcu (s : State) (f : PTU → PTU) : (s.onPTU f).rcu = s.rcu := rfl
@[simp] theorem State.onPTU_ptu (s : State) (f : PTU → PTU) : (s.onPTU f).ptu = f s.ptu := rfl
@[simp] theorem State.onPTU_fe (s : State) (f : PTU → PTU) : (s.onPTU f).fe = s.fe := rfl
@[simp] theorem State.onPTU_lc (s : State) (f : PTU → PTU) : (s.onPTU f).lc = s.lc := rfl
@[simp] theorem State.onPTU_peers (s : State) (f : PTU → PTU) : (s.onPTU f).peers = s.peers := rfl
@[simp] theorem State.onPTU_ru (s : State) (f : PTU → PTU) : (s.onPTU f).ru = s.ru := rfl
@[simp] theorem State.onPTU_pc (s : State) (f : PTU → PTU) : (s.onPTU f).pc = s.pc := rfl
@[simp] theorem State.onPTU_scu (s : State) (f : PTU → PTU) : (s.onPTU f).scu = s.scu := rfl
@[simp] theorem State.onPTU_iiu (s : State) (f : PTU → PTU) : (s.onPTU f).iiu = s.iiu := rfl
@[simp] theorem State.onPTU_cp (s : State) (f : PTU → PTU) : (s.onPTU f).cp = s.cp := rfl
@[simp] theorem State.onPTU_ss (s : State) (f : PTU → PTU) : (s.onPTU f).ss = s.ss := rfl
@[simp] theorem State.onPTU_result (s : State) (f : PTU → PTU) : (s.onPTU f).result = s.result := rfl
@[simp] theorem State.onPTU_out (s : State) (f : PTU → PTU) : (s.onPTU f).out = s.out := rfl

/-! ### fe -/

@[simp] theorem State.onFE_pending (s : State) (f : FE → FE) : (s.onFE f).pending = s.pending := rfl
@[simp] theorem State.onFE_vc (s : State) (f : FE → FE) : (s.onFE f).vc = s.vc := rfl
@[simp] theorem State.onFE_rtu (s : State) (f : FE → FE) : (s.onFE f).rtu = s.rtu := rfl
@[simp] theorem State.onFE_rcu (s : State) (f : FE → FE) : (s.onFE f).rcu = s.rcu := rfl
@[simp] theorem State.onFE_ptu (s : State) (f : FE → FE) : (s.onFE f).ptu = s.ptu := rfl
@[simp] theorem State.onFE_fe (s : State) (f : FE → FE) : (s.onFE f).fe = f s.fe := rfl
@[simp] theorem State.onFE_lc (s : State) (f : FE → FE) : (s.onFE f).lc = s.lc := rfl
@[simp] theorem State.onFE_peers (s : State) (f : FE → FE) : (s.onFE f).peers = s.peers := rfl
@[simp] theorem State.onFE_ru (s : State) (f : FE → FE) : (s.onFE f).ru = s.ru := rfl
@[simp] theorem State.onFE_pc (s : State) (f : FE → FE) : (s.onFE f).pc = s.pc := rfl
@[simp] theorem State.onFE_scu (s : State) (f : FE → FE) : (s.onFE f).scu = s.scu := rfl
@[simp] theorem State.onFE_iiu (s : State) (f : FE → FE) : (s.onFE f).iiu = s.iiu := rfl
@[simp] theorem State.onFE_cp (s : State) (f : FE → FE) : (s.onFE f).cp = s.cp := rfl
@[simp] theorem State.onFE_ss (s : State) (f : FE → FE) : (s.onFE f).ss = s.ss := rfl
@[simp] theorem State.onFE_result (s : State) (f : FE → FE) : (s.onFE f).result = s.result := rfl
@[simp] theorem State.onFE_out (s : State) (f : FE → FE) : (s.onFE f).out = s.out := rfl

/-! ### lc -/

@[simp] theorem State.onLC_pending (s : State) (f : LC → LC) : (s.onLC f).pending = s.pending := rfl
@[simp] theorem State.onLC_vc (s : State) (f : LC → LC) : (s.onLC f).vc = s.vc := rfl
@[simp] theorem State.onLC_rtu (s : State) (f : LC → LC) : (s.onLC f).rtu = s.rtu := rfl
@[simp] theorem State.onLC_rcu (s : State) (f : LC → LC) : (s.onLC f).rcu = s.rcu := rfl
@[simp] theorem State.onLC_ptu (s : State) (f : LC → LC) : (s.onLC f).ptu = s.ptu := rfl
@[simp] theorem State.onLC_fe (s : State) (f : LC → LC) : (s.onLC f).fe = s.fe := rfl
@[simp] theorem State.onLC_lc (s : State) (f : LC → LC) : (s.onLC f).lc = f s.lc := rfl
@[simp] theorem State.onLC_peers (s : State) (f : LC → LC) : (s.onLC f).peers = s.peers := rfl
@[simp] theorem State.onLC_ru (s : State) (f : LC → LC) : (s.onLC f).ru = s.ru := rfl
@[simp] theorem State.onLC_pc (s : State) (f : LC → LC) : (s.onLC f).pc = s.pc := rfl
@[simp] theorem State.onLC_scu (s : State) (f : LC → LC) : (s.onLC f).scu = s.scu := rfl
@[simp] theorem State.onLC_iiu (s : State) (f : LC → LC) : (s.onLC f).iiu = s.iiu := rfl
@[simp] theorem State.onLC_cp (s : State) (f : LC → LC) : (s.onLC f).cp = s.cp := rfl
@[simp] theorem State.onLC_ss (s : State) (f : LC → LC) : (s.onLC f).ss = s.ss := rfl
@[simp] theorem State.onLC_result (s : State) (f : LC → LC) : (s.onLC f).result = s.result := rfl
@[simp] theorem State.onLC_out (s : State) (f : LC → LC) : (s.onLC f).out = s.out := rfl

/-! ### peers -/

@[simp] theorem State.onPeers_pending (s : State) (f : List PeerEntry → List PeerEntry) : (s.onPeers f).pending = s.pending := rfl
@[simp] theorem State.onPeers_vc (s : State) (f : List PeerEntry → List PeerEntry) : (s.onPeers f).vc = s.vc := rfl
@[simp] theorem State.onPeers_rtu (s : State) (f : List PeerEntry → List PeerEntry) : (s.onPeers f).rtu = s.rtu := rfl
@[simp] theorem State.onPeers_rcu (s : State) (f : List PeerEntry → List PeerEntry) : (s.onPeers f).rcu = s.rcu := rfl
@[simp] theorem State.onPeers_ptu (s : State) (f : List PeerEntry → List PeerEntry) : (s.onPeers f).ptu = s.ptu := rfl
@[simp] theorem State.onPeers_fe (s : State) (f : List PeerEntry → List PeerEntry) : (s.onPeers f).fe = s.fe := rfl
@[simp] theorem State.onPeers_lc (s : State) (f : List PeerEntry → List PeerEntry) : (s.onPeers f).lc = s.lc := rfl
@[simp] theorem State.onPeers_peers (s : State) (f : List PeerEntry → List PeerEntry) : (s.onPeers f).peers = f s.peers := rfl
@[simp] theorem State.onPeers_ru (s : State) (f : List PeerEntry → List PeerEntry) : (s.onPeers f).ru = s.ru := rfl
@[simp] theorem State.onPeers_pc (s : State) (f : List PeerEntry → List PeerEntry) : (s.onPeers f).pc = s.pc := rfl
@[simp] theorem State.onPeers_scu (s : State) (f : List PeerEntry → List PeerEntry) : (s.onPeers f).scu = s.scu := rfl
@[simp] theorem State.onPeers_iiu (s : State) (f : List PeerEntry → List PeerEntry) : (s.onPeers f).iiu = s.iiu := rfl
@[simp] theorem State.onPeers_cp (s : State) (f : List PeerEntry → List PeerEntry) : (s.onPeers f).cp = s.cp := rfl
@[simp] theorem State.onPeers_ss (s : State) (f : List PeerEntry → List PeerEntry) : (s.onPeers f).ss = s.ss := rfl
@[simp] theorem State.onPeers_result (s : State) (f : List PeerEntry → List PeerEntry) : (s.onPeers f).result = s.result := rfl
@[simp] theorem State.onPeers_out (s : State) (f : List PeerEntry → List PeerEntry) : (s.onPeers f).out = s.out := rfl

/-! ### ru -/

@[simp] theorem State.onRU_pending (s : State) (f : RU → RU) : (s.onRU f).pending = s.pending := rfl
@[simp] theorem State.onRU_vc (s : State) (f : RU → RU) : (s.onRU f).vc = s.vc := rfl
@[simp] theorem State.onRU_rtu (s : State) (f : RU → RU) : (s.onRU f).rtu = s.rtu := rfl
@[simp] theorem State.onRU_rcu (s : State) (f : RU → RU) : (s.onRU f).rcu = s.rcu := rfl
@[simp] theorem State.onRU_ptu (s : State) (f : RU → RU) : (s.onRU f).ptu = s.ptu := rfl
@[simp] theorem State.onRU_fe (s : State) (f : RU → RU) : (s.onRU f).fe = s.fe := rfl
@[simp] theorem State.onRU_lc (s : State) (f : RU → RU) : (s.onRU f).lc = s.lc := rfl
@[simp] theorem State.onRU_peers (s : State) (f : RU → RU) : (s.onRU f).peers = s.peers := rfl
@[simp] theorem State.onRU_ru (s : State) (f : RU → RU) : (s.onRU f).ru = f s.ru := rfl
@[simp] theorem State.onRU_pc (s : State) (f : RU → RU) : (s.onRU f).pc = s.pc := rfl
@[simp] theorem State.onRU_scu (s : State) (f : RU → RU) : (s.onRU f).scu = s.scu := rfl
@[simp] theorem State.onRU_iiu (s : State) (f : RU → RU) : (s.onRU f).iiu = s.iiu := rfl
@[simp] theorem State.onRU_cp (s : State) (f : RU → RU) : (s.onRU f).cp = s.cp := rfl
@[simp] theorem State.onRU_ss (s : State) (f : RU → RU) : (s.onRU f).ss = s.ss := rfl
@[simp] theorem State.onRU_result (s : State) (f : RU → RU) : (s.onRU f).result = s.result := rfl
@[simp] theorem State.onRU_out (s : State) (f : RU → RU) : (s.onRU f).out = s.out := rfl

/-! ### pc -/

@[simp] theorem State.onPC_pending (s : State) (f : PC → PC) : (s.onPC f).pending = s.pending := rfl
@[simp] theorem State.onPC_vc (s : State) (f : PC → PC) : (s.onPC f).vc = s.vc := rfl
@[simp] theorem State.onPC_rtu (s : State) (f : PC → PC) : (s.onPC f).rtu = s.rtu := rfl
@[simp] theorem State.onPC_rcu (s : State) (f : PC → PC) : (s.onPC f).rcu = s.rcu := rfl
@[simp] theorem State.onPC_ptu (s : State) (f : PC → PC) : (s.onPC f).ptu = s.ptu := rfl
@[simp] theorem State.onPC_fe (s : State) (f : PC → PC) : (s.onPC f).fe = s.fe := rfl
@[simp] theorem State.onPC_lc (s : State) (f : PC → PC) : (s.onPC f).lc = s.lc := rfl
@[simp] theorem State.onPC_peers (s : State) (f : PC → PC) : (s.onPC f).peers = s.peers := rfl
@[simp] theorem State.onPC_ru (s : State) (f : PC → PC) : (s.onPC f).ru = s.ru := rfl
@[simp] theorem State.onPC_pc (s : State) (f : PC → PC) : (s.onPC f).pc = f s.pc := rfl
@[simp] theorem State.onPC_scu (s : State) (f : PC → PC) : (s.onPC f).scu = s.scu := rfl
@[simp] theorem State.onPC_iiu (s : State) (f : PC → PC) : (s.onPC f).iiu = s.iiu := rfl
@[simp] theorem State.onPC_cp (s : State) (f : PC → PC) : (s.onPC f).cp = s.cp := rfl
@[simp] theorem State.onPC_ss (s : State) (f : PC → PC) : (s.onPC f).ss = s.ss := rfl
@[simp] theorem State.onPC_result (s : State) (f : PC → PC) : (s.onPC f).result = s.result := rfl
@[simp] theorem State.onPC_out (s : State) (f : PC → PC) : (s.onPC f).out = s.out := rfl

/-! ### scu -/

@[simp] theorem State.onSCU_pending (s : State) (f : SCU → SCU) : (s.onSCU f).pending = s.pending := rfl
@[simp] theorem State.onSCU_vc (s : State) (f : SCU → SCU) : (s.onSCU f).vc = s.vc := rfl
@[simp] theorem State.onSCU_rtu (s : State) (f : SCU → SCU) : (s.onSCU f).rtu = s.rtu := rfl
@[simp] theorem State.onSCU_rcu (s : State) (f : SCU → SCU) : (s.onSCU f).rcu = s.rcu := rfl
@[simp] theorem State.onSCU_ptu (s : State) (f : SCU → SCU) : (s.onSCU f).ptu = s.ptu := rfl
@[simp] theorem State.onSCU_fe (s : State) (f : SCU → SCU) : (s.onSCU f).fe = s.fe := rfl
@[simp] theorem State.onSCU_lc (s : State) (f : SCU → SCU) : (s.onSCU f).lc = s.lc := rfl
@[simp] theorem State.onSCU_peers (s : State) (f : SCU → SCU) : (s.onSCU f).peers = s.peers := rfl
@[simp] theorem State.onSCU_ru (s : State) (f : SCU → SCU) : (s.onSCU f).ru = s.ru := rfl
@[simp] theorem State.onSCU_pc (s : State) (f : SCU → SCU) : (s.onSCU f).pc = s.pc := rfl
@[simp] theorem State.onSCU_scu (s : State) (f : SCU → SCU) : (s.onSCU f).scu = f s.scu := rfl
@[simp] theorem State.onSCU_iiu (s : State) (f : SCU → SCU) : (s.onSCU f).iiu = s.iiu := rfl
@[simp] theorem State.onSCU_cp (s : State) (f : SCU → SCU) : (s.onSCU f).cp = s.cp := rfl
@[simp] theorem State.onSCU_ss (s : State) (f : SCU → SCU) : (s.onSCU f).ss = s.ss := rfl
@[simp] theorem State.onSCU_result (s : State) (f : SCU → SCU) : (s.onSCU f).result = s.result := rfl
@[simp] theorem State.onSCU_out (s : State) (f : SCU → SCU) : (s.onSCU f).out = s.out := rfl

/-! ### iiu -/

@[simp] theorem State.onIIU_pending (s : State) (f : IIU → IIU) : (s.onIIU f).pending = s.pending := rfl
@[simp] theorem State.onIIU_vc (s : State) (f : IIU → IIU) : (s.onIIU f).vc = s.vc := rfl
@[simp] theorem State.onIIU_rtu (s : State) (f : IIU → IIU) : (s.onIIU f).rtu = s.rtu := rfl
@[simp] theorem State.onIIU_rcu (s : State) (f : IIU → IIU) : (s.onIIU f).rcu = s.rcu := rfl
@[simp] theorem State.onIIU_ptu (s : State) (f : IIU → IIU) : (s.onIIU f).ptu = s.ptu := rfl
@[simp] theorem State.onIIU_fe (s : State) (f : IIU → IIU) : (s.onIIU f).fe = s.fe := rfl
@[simp] theorem State.onIIU_lc (s : State) (f : IIU → IIU) : (s.onIIU f).lc = s.lc := rfl
@[simp] theorem State.onIIU_peers (s : State) (f : IIU → IIU) : (s.onIIU f).peers = s.peers := rfl
@[simp] theorem State.onIIU_ru (s : State) (f : IIU → IIU) : (s.onIIU f).ru = s.ru := rfl
@[simp] theorem State.onIIU_pc (s : State) (f : IIU → IIU) : (s.onIIU f).pc = s.pc := rfl
@[simp] theorem State.onIIU_scu (s : State) (f : IIU → IIU) : (s.onIIU f).scu = s.scu := rfl
@[simp] theorem State.onIIU_iiu (s : State) (f : IIU → IIU) : (s.onIIU f).iiu = f s.iiu := rfl
@[simp] theorem State.onIIU_cp (s : State) (f : IIU → IIU) : (s.onIIU f).cp = s.cp := rfl
@[simp] theorem State.onIIU_ss (s : State) (f : IIU → IIU) : (s.onIIU f).ss = s.ss := rfl
@[simp] theorem State.onIIU_result (s : State) (f : IIU → IIU) : (s.onIIU f).result = s.result := rfl
@[simp] theorem State.onIIU_out (s : State) (f : IIU → IIU) : (s.onIIU f).out = s.out := rfl

/-! ### cp -/

@[simp] theorem State.onCP_pending (s : State) (f : CP → CP) : (s.onCP f).pending = s.pending := rfl
@[simp] theorem State.onCP_vc (s : State) (f : CP → CP) : (s.onCP f).vc = s.vc := rfl
@[simp] theorem State.onCP_rtu (s : State) (f : CP → CP) : (s.onCP f).rtu = s.rtu := rfl
@[simp] theorem State.onCP_rcu (s : State) (f : CP → CP) : (s.onCP f).rcu = s.rcu := rfl
@[simp] theorem State.onCP_ptu (s : State) (f : CP → CP) : (s.onCP f).ptu = s.ptu := rfl
@[simp] theorem State.onCP_fe (s : State) (f : CP → CP) : (s.onCP f).fe = s.fe := rfl
@[simp] theorem State.onCP_lc (s : State) (f : CP → CP) : (s.onCP f).lc = s.lc := rfl
@[simp] theorem State.onCP_peers (s : State) (f : CP → CP) : (s.onCP f).peers = s.peers := rfl
@[simp] theorem State.onCP_ru (s : State) (f : CP → CP) : (s.onCP f).ru = s.ru := rfl
@[simp] theorem State.onCP_pc (s : State) (f : CP → CP) : (s.onCP f).pc = s.pc := rfl
@[simp] theorem State.onCP_scu (s : State) (f : CP → CP) : (s.onCP f).scu = s.scu := rfl
@[simp] theorem State.onCP_iiu (s : State) (f : CP → CP) : (s.onCP f).iiu = s.iiu := rfl
@[simp] theorem State.onCP_cp (s : State) (f : CP → CP) : (s.onCP f).cp = f s.cp := rfl
@[simp] theorem State.onCP_ss (s : State) (f : CP → CP) : (s.onCP f).ss = s.ss := rfl
@[simp] theorem State.onCP_result (s : State) (f : CP → CP) : (s.onCP f).result = s.result := rfl
@[simp] theorem State.onCP_out (s : State) (f : CP → CP) : (s.onCP f).out = s.out := rfl

/-! ### ss -/

@[simp] theorem State.onSS_pending (s : State) (f : SS → SS) : (s.onSS f).pending = s.pending := rfl
@[simp] theorem State.onSS_vc (s : State) (f : SS → SS) : (s.onSS f).vc = s.vc := rfl
@[simp] theorem State.onSS_rtu (s : State) (f : SS → SS) : (s.onSS f).rtu = s.rtu := rfl
@[simp] theorem State.onSS_rcu (s : State) (f : SS → SS) : (s.onSS f).rcu = s.rcu := rfl
@[simp] theorem State.onSS_ptu (s : State) (f : SS → SS) : (s.onSS f).ptu = s.ptu := rfl
@[simp] theorem State.onSS_fe (s : State) (f : SS → SS) : (s.onSS f).fe = s.fe := rfl
@[simp] theorem State.onSS_lc (s : State) (f : SS → SS) : (s.onSS f).lc = s.lc := rfl
@[simp] theorem State.onSS_peers (s : State) (f : SS → SS) : (s.onSS f).peers = s.peers := rfl
@[simp] theorem State.onSS_ru (s : State) (f : SS → SS) : (s.onSS f).ru = s.ru := rfl
@[simp] theorem State.onSS_pc (s : State) (f : SS → SS) : (s.onSS f).pc = s.pc := rfl
@[simp] theorem State.onSS_scu (s : State) (f : SS → SS) : (s.onSS f).scu = s.scu := rfl
@[simp] theorem State.onSS_iiu (s : State) (f : SS → SS) : (s.onSS f).iiu = s.iiu := rfl
@[simp] theorem State.onSS_cp (s : State) (f : SS → SS) : (s.onSS f).cp = s.cp := rfl
@[simp] theorem State.onSS_ss (s : State) (f : SS → SS) : (s.onSS f).ss = f s.ss := rfl
@[simp] theorem State.onSS_result (s : State) (f : SS → SS) : (s.onSS f).result = s.result := rfl
@[simp] theorem State.onSS_out (s : State) (f : SS → SS) : (s.onSS f).out = s.out := rfl

/-! ### result -/

@[simp] theorem State.onResult_pending (s : State) (f : ResultRecord → ResultRecord) : (s.onResult f).pending = s.pending := rfl
@[simp] theorem State.onResult_vc (s : State) (f : ResultRecord → ResultRecord) : (s.onResult f).vc = s.vc := rfl
@[simp] theorem State.onResult_rtu (s : State) (f : ResultRecord → ResultRecord) : (s.onResult f).rtu = s.rtu := rfl
@[simp] theorem State.onResult_rcu (s : State) (f : ResultRecord → ResultRecord) : (s.onResult f).rcu = s.rcu := rfl
@[simp] theorem State.onResult_ptu (s : State) (f : ResultRecord → ResultRecord) : (s.onResult f).ptu = s.ptu := rfl
@[simp] theorem State.onResult_fe (s : State) (f : ResultRecord → ResultRecord) : (s.onResult f).fe = s.fe := rfl
@[simp] theorem State.onResult_lc (s : State) (f : ResultRecord → ResultRecord) : (s.onResult f).lc = s.lc := rfl
@[simp] theorem State.onResult_peers (s : State) (f : ResultRecord → ResultRecord) : (s.onResult f).peers = s.peers := rfl
@[simp] theorem State.onResult_ru (s : State) (f : ResultRecord → ResultRecord) : (s.onResult f).ru = s.ru := rfl
@[simp] theorem State.onResult_pc (s : State) (f : ResultRecord → ResultRecord) : (s.onResult f).pc = s.pc := rfl
@[simp] theorem State.onResult_scu (s : State) (f : ResultRecord → ResultRecord) : (s.onResult f).scu = s.scu := rfl
@[simp] theorem State.onResult_iiu (s : State) (f : ResultRecord → ResultRecord) : (s.onResult f).iiu = s.iiu := rfl
@[simp] theorem State.onResult_cp (s : State) (f : ResultRecord → ResultRecord) : (s.onResult f).cp = s.cp := rfl
@[simp] theorem State.onResult_ss (s : State) (f : ResultRecord → ResultRecord) : (s.onResult f).ss = s.ss := rfl
@[simp] theorem State.onResult_result (s : State) (f : ResultRecord → ResultRecord) : (s.onResult f).result = f s.result := rfl
@[simp] theorem State.onResult_out (s : State) (f : ResultRecord → ResultRecord) : (s.onResult f).out = s.out := rfl

/-! ### out -/

@[simp] theorem State.onOut_pending (s : State) (f : Outputs → Outputs) : (s.onOut f).pending = s.pending := rfl
@[simp] theorem State.onOut_vc (s : State) (f : Outputs → Outputs) : (s.onOut f).vc = s.vc := rfl
@[simp] theorem State.onOut_rtu (s : State) (f : Outputs → Outputs) : (s.onOut f).rtu = s.rtu := rfl
@[simp] theorem State.onOut_rcu (s : State) (f : Outputs → Outputs) : (s.onOut f).rcu = s.rcu := rfl
@[simp] theorem State.onOut_ptu (s : State) (f : Outputs → Outputs) : (s.onOut f).ptu = s.ptu := rfl
@[simp] theorem State.onOut_fe (s : State) (f : Outputs → Outputs) : (s.onOut f).fe = s.fe := rfl
@[simp] theorem State.onOut_lc (s : State) (f : Outputs → Outputs) : (s.onOut f).lc = s.lc := rfl
@[simp] theorem State.onOut_peers (s : State) (f : Outputs → Outputs) : (s.onOut f).peers = s.peers := rfl
@[simp] theorem State.onOut_ru (s : State) (f : Outputs → Outputs) : (s.onOut f).ru = s.ru := rfl
@[simp] theorem State.onOut_pc (s : State) (f : Outputs → Outputs) : (s.onOut f).pc = s.pc := rfl
@[simp] theorem State.onOut_scu (s : State) (f : Outputs → Outputs) : (s.onOut f).scu = s.scu := rfl
@[simp] theorem State.onOut_iiu (s : State) (f : Outputs → Outputs) : (s.onOut f).iiu = s.iiu := rfl
@[simp] theorem State.onOut_cp (s : State) (f : Outputs → Outputs) : (s.onOut f).cp = s.cp := rfl
@[simp] theorem State.onOut_ss (s : State) (f : Outputs → Outputs) : (s.onOut f).ss = s.ss := rfl
@[simp] theorem State.onOut_result (s : State) (f : Outputs → Outputs) : (s.onOut f).result = s.result := rfl
@[simp] theorem State.onOut_out (s : State) (f : Outputs → Outputs) : (s.onOut f).out = f s.out := rfl

end Sys2Proof.Machine
end

