-- ==== Sys2Proof/Laws/Frames.lean ====
section
/-! SUPPORT. For each shared operation, one lemma that says which parts of the state it leaves as they were. -/

namespace Sys2Proof.Machine

open Sys2Proof

@[simp] theorem latch_frame (f : Flag) (s : State) :
    (latch f s).pending = s.pending ∧ (latch f s).vc = s.vc ∧ (latch f s).rtu = s.rtu ∧ (latch f s).rcu = s.rcu ∧
    (latch f s).ptu = s.ptu ∧ (latch f s).fe = s.fe ∧ (latch f s).lc = s.lc ∧ (latch f s).peers = s.peers ∧
    (latch f s).ru = s.ru ∧ (latch f s).pc = s.pc ∧ (latch f s).scu = s.scu ∧ (latch f s).iiu = s.iiu ∧
    (latch f s).ss = s.ss ∧ (latch f s).result = s.result ∧ (latch f s).out = s.out := by
  simp [latch]

@[simp] theorem order_frame (o : Order) (s : State) :
    (order o s).pending = s.pending ∧ (order o s).vc = s.vc ∧ (order o s).rtu = s.rtu ∧ (order o s).rcu = s.rcu ∧
    (order o s).ptu = s.ptu ∧ (order o s).fe = s.fe ∧ (order o s).lc = s.lc ∧ (order o s).peers = s.peers ∧
    (order o s).ru = s.ru ∧ (order o s).pc = s.pc ∧ (order o s).scu = s.scu ∧ (order o s).iiu = s.iiu ∧
    (order o s).cp = s.cp ∧ (order o s).ss = s.ss ∧ (order o s).result = s.result := by
  simp [order]

@[simp] theorem respond_frame (r : Response) (s : State) :
    (respond r s).pending = s.pending ∧ (respond r s).vc = s.vc ∧ (respond r s).rtu = s.rtu ∧
    (respond r s).rcu = s.rcu ∧ (respond r s).ptu = s.ptu ∧ (respond r s).fe = s.fe ∧ (respond r s).lc = s.lc ∧
    (respond r s).peers = s.peers ∧ (respond r s).ru = s.ru ∧ (respond r s).pc = s.pc ∧ (respond r s).scu = s.scu ∧
    (respond r s).iiu = s.iiu ∧ (respond r s).cp = s.cp ∧ (respond r s).ss = s.ss ∧
    (respond r s).result = s.result := by
  simp [respond]

@[simp] theorem queueFrame_frame (f : QFrame) (s : State) :
    (queueFrame f s).pending = s.pending ∧ (queueFrame f s).vc = s.vc ∧ (queueFrame f s).rtu = s.rtu ∧
    (queueFrame f s).rcu = s.rcu ∧ (queueFrame f s).ptu = s.ptu ∧ (queueFrame f s).fe = s.fe ∧
    (queueFrame f s).peers = s.peers ∧ (queueFrame f s).ru = s.ru ∧ (queueFrame f s).pc = s.pc ∧
    (queueFrame f s).scu = s.scu ∧ (queueFrame f s).iiu = s.iiu ∧ (queueFrame f s).cp = s.cp ∧
    (queueFrame f s).ss = s.ss ∧ (queueFrame f s).result = s.result ∧ (queueFrame f s).out = s.out := by
  simp only [queueFrame]; (repeat' split) <;> simp

@[simp] theorem leaveCutting_frame (s : State) :
    (leaveCutting s).pending = s.pending ∧ (leaveCutting s).rtu = s.rtu ∧ (leaveCutting s).rcu = s.rcu ∧
    (leaveCutting s).ptu = s.ptu ∧ (leaveCutting s).fe = s.fe ∧ (leaveCutting s).lc = s.lc ∧
    (leaveCutting s).peers = s.peers ∧ (leaveCutting s).scu = s.scu ∧ (leaveCutting s).iiu = s.iiu ∧
    (leaveCutting s).cp = s.cp ∧ (leaveCutting s).ss = s.ss ∧ (leaveCutting s).result = s.result ∧
    (leaveCutting s).out = s.out := by
  simp [leaveCutting]

@[simp] theorem setStation_frame (st : StationState) (s : State) :
    (setStation st s).pending = s.pending ∧ (setStation st s).rtu = s.rtu ∧ (setStation st s).rcu = s.rcu ∧
    (setStation st s).ptu = s.ptu ∧ (setStation st s).fe = s.fe ∧ (setStation st s).peers = s.peers ∧
    (setStation st s).scu = s.scu ∧ (setStation st s).iiu = s.iiu ∧ (setStation st s).ss = s.ss ∧
    (setStation st s).result = s.result ∧ (setStation st s).out = s.out := by
  simp only [setStation]; (repeat' split) <;> simp

@[simp] theorem setEffState_frame (st : StationState) (s : State) :
    (setEffState st s).pending = s.pending ∧ (setEffState st s).rtu = s.rtu ∧ (setEffState st s).rcu = s.rcu ∧
    (setEffState st s).ptu = s.ptu ∧ (setEffState st s).fe = s.fe ∧ (setEffState st s).peers = s.peers ∧
    (setEffState st s).scu = s.scu ∧ (setEffState st s).iiu = s.iiu ∧ (setEffState st s).ss = s.ss ∧
    (setEffState st s).result = s.result ∧ (setEffState st s).out = s.out := by
  simp only [setEffState]; (repeat' split) <;> simp

@[simp] theorem changeCeiling_frame (st : CeilStatus) (value : Option (LR Int)) (s : State) :
    (changeCeiling st value s).pending = s.pending ∧ (changeCeiling st value s).vc = s.vc ∧
    (changeCeiling st value s).rtu = s.rtu ∧ (changeCeiling st value s).rcu = s.rcu ∧
    (changeCeiling st value s).ptu = s.ptu ∧ (changeCeiling st value s).peers = s.peers ∧
    (changeCeiling st value s).ru = s.ru ∧ (changeCeiling st value s).pc = s.pc ∧
    (changeCeiling st value s).scu = s.scu ∧ (changeCeiling st value s).iiu = s.iiu ∧
    (changeCeiling st value s).cp = s.cp ∧ (changeCeiling st value s).ss = s.ss ∧
    (changeCeiling st value s).result = s.result ∧ (changeCeiling st value s).out = s.out := by
  simp only [changeCeiling]; (repeat' split) <;> simp

@[simp] theorem takeCeiling_frame (taken : LR Int) (fresh : Bool) (s : State) :
    (takeCeiling taken fresh s).1.pending = s.pending ∧ (takeCeiling taken fresh s).1.vc = s.vc ∧
    (takeCeiling taken fresh s).1.rtu = s.rtu ∧ (takeCeiling taken fresh s).1.rcu = s.rcu ∧
    (takeCeiling taken fresh s).1.ptu = s.ptu ∧ (takeCeiling taken fresh s).1.peers = s.peers ∧
    (takeCeiling taken fresh s).1.ru = s.ru ∧ (takeCeiling taken fresh s).1.pc = s.pc ∧
    (takeCeiling taken fresh s).1.scu = s.scu ∧ (takeCeiling taken fresh s).1.iiu = s.iiu ∧
    (takeCeiling taken fresh s).1.cp = s.cp ∧ (takeCeiling taken fresh s).1.ss = s.ss ∧
    (takeCeiling taken fresh s).1.result = s.result ∧ (takeCeiling taken fresh s).1.out = s.out := by
  simp only [takeCeiling]; (repeat' split) <;> simp

@[simp] theorem offerCeiling_frame (offer : LR Int) (s : State) :
    (offerCeiling offer s).1.pending = s.pending ∧ (offerCeiling offer s).1.vc = s.vc ∧
    (offerCeiling offer s).1.rtu = s.rtu ∧ (offerCeiling offer s).1.rcu = s.rcu ∧
    (offerCeiling offer s).1.ptu = s.ptu ∧ (offerCeiling offer s).1.peers = s.peers ∧
    (offerCeiling offer s).1.ru = s.ru ∧ (offerCeiling offer s).1.pc = s.pc ∧ (offerCeiling offer s).1.scu = s.scu ∧
    (offerCeiling offer s).1.iiu = s.iiu ∧ (offerCeiling offer s).1.cp = s.cp ∧ (offerCeiling offer s).1.ss = s.ss ∧
    (offerCeiling offer s).1.result = s.result ∧ (offerCeiling offer s).1.out = s.out := by
  simp only [offerCeiling]; (repeat' split) <;> simp

@[simp] theorem removeOwnClaim_frame (s : State) :
    (removeOwnClaim s).pending = s.pending ∧ (removeOwnClaim s).vc = s.vc ∧ (removeOwnClaim s).rtu = s.rtu ∧
    (removeOwnClaim s).rcu = s.rcu ∧ (removeOwnClaim s).ptu = s.ptu ∧ (removeOwnClaim s).fe = s.fe ∧
    (removeOwnClaim s).lc = s.lc ∧ (removeOwnClaim s).peers = s.peers ∧ (removeOwnClaim s).ru = s.ru ∧
    (removeOwnClaim s).pc = s.pc ∧ (removeOwnClaim s).iiu = s.iiu ∧ (removeOwnClaim s).cp = s.cp ∧
    (removeOwnClaim s).ss = s.ss ∧ (removeOwnClaim s).result = s.result ∧ (removeOwnClaim s).out = s.out := by
  simp [removeOwnClaim]

@[simp] theorem slotTest_frame (s : State) :
    (slotTest s).pending = s.pending ∧ (slotTest s).vc = s.vc ∧ (slotTest s).rtu = s.rtu ∧ (slotTest s).rcu = s.rcu ∧
    (slotTest s).ptu = s.ptu ∧ (slotTest s).fe = s.fe ∧ (slotTest s).peers = s.peers ∧ (slotTest s).ru = s.ru ∧
    (slotTest s).pc = s.pc ∧ (slotTest s).iiu = s.iiu ∧ (slotTest s).cp = s.cp ∧ (slotTest s).ss = s.ss ∧
    (slotTest s).result = s.result ∧ (slotTest s).out = s.out := by
  simp only [slotTest]; (repeat' split) <;> simp

@[simp] theorem slotAsk_frame (s : State) :
    (slotAsk s).pending = s.pending ∧ (slotAsk s).vc = s.vc ∧ (slotAsk s).rtu = s.rtu ∧ (slotAsk s).rcu = s.rcu ∧
    (slotAsk s).ptu = s.ptu ∧ (slotAsk s).fe = s.fe ∧ (slotAsk s).peers = s.peers ∧ (slotAsk s).ru = s.ru ∧
    (slotAsk s).pc = s.pc ∧ (slotAsk s).iiu = s.iiu ∧ (slotAsk s).cp = s.cp ∧ (slotAsk s).ss = s.ss ∧
    (slotAsk s).result = s.result ∧ (slotAsk s).out = s.out := by
  simp only [slotAsk]; (repeat' split) <;> simp

@[simp] theorem toBackoff_frame (s : State) :
    (toBackoff s).pending = s.pending ∧ (toBackoff s).vc = s.vc ∧ (toBackoff s).rtu = s.rtu ∧
    (toBackoff s).rcu = s.rcu ∧ (toBackoff s).ptu = s.ptu ∧ (toBackoff s).fe = s.fe ∧ (toBackoff s).lc = s.lc ∧
    (toBackoff s).peers = s.peers ∧ (toBackoff s).ru = s.ru ∧ (toBackoff s).pc = s.pc ∧ (toBackoff s).iiu = s.iiu ∧
    (toBackoff s).cp = s.cp ∧ (toBackoff s).ss = s.ss ∧ (toBackoff s).result = s.result ∧
    (toBackoff s).out = s.out := by
  simp [toBackoff]

@[simp] theorem releaseClaim_frame (s : State) :
    (releaseClaim s).pending = s.pending ∧ (releaseClaim s).vc = s.vc ∧ (releaseClaim s).rtu = s.rtu ∧
    (releaseClaim s).rcu = s.rcu ∧ (releaseClaim s).ptu = s.ptu ∧ (releaseClaim s).fe = s.fe ∧
    (releaseClaim s).peers = s.peers ∧ (releaseClaim s).ru = s.ru ∧ (releaseClaim s).pc = s.pc ∧
    (releaseClaim s).iiu = s.iiu ∧ (releaseClaim s).cp = s.cp ∧ (releaseClaim s).ss = s.ss ∧
    (releaseClaim s).result = s.result ∧ (releaseClaim s).out = s.out := by
  simp only [releaseClaim]; (repeat' split) <;> simp

@[simp] theorem slotHead_frame (s : State) :
    (slotHead s).pending = s.pending ∧ (slotHead s).vc = s.vc ∧ (slotHead s).rtu = s.rtu ∧ (slotHead s).rcu = s.rcu ∧
    (slotHead s).ptu = s.ptu ∧ (slotHead s).fe = s.fe ∧ (slotHead s).peers = s.peers ∧ (slotHead s).ru = s.ru ∧
    (slotHead s).pc = s.pc ∧ (slotHead s).iiu = s.iiu ∧ (slotHead s).cp = s.cp ∧ (slotHead s).ss = s.ss ∧
    (slotHead s).result = s.result ∧ (slotHead s).out = s.out := by
  simp only [slotHead]; (repeat' split) <;> simp

@[simp] theorem removePeerClaim_frame (n : Fin 16) (s : State) :
    (removePeerClaim n s).pending = s.pending ∧ (removePeerClaim n s).vc = s.vc ∧ (removePeerClaim n s).rtu = s.rtu ∧
    (removePeerClaim n s).rcu = s.rcu ∧ (removePeerClaim n s).ptu = s.ptu ∧ (removePeerClaim n s).fe = s.fe ∧
    (removePeerClaim n s).peers = s.peers ∧ (removePeerClaim n s).ru = s.ru ∧ (removePeerClaim n s).pc = s.pc ∧
    (removePeerClaim n s).iiu = s.iiu ∧ (removePeerClaim n s).cp = s.cp ∧ (removePeerClaim n s).ss = s.ss ∧
    (removePeerClaim n s).result = s.result ∧ (removePeerClaim n s).out = s.out := by
  simp only [removePeerClaim]; (repeat' split) <;> simp

@[simp] theorem appendHeldClaim_frame (n : Fin 16) (s : State) :
    (appendHeldClaim n s).pending = s.pending ∧ (appendHeldClaim n s).vc = s.vc ∧ (appendHeldClaim n s).rtu = s.rtu ∧
    (appendHeldClaim n s).rcu = s.rcu ∧ (appendHeldClaim n s).ptu = s.ptu ∧ (appendHeldClaim n s).fe = s.fe ∧
    (appendHeldClaim n s).lc = s.lc ∧ (appendHeldClaim n s).peers = s.peers ∧ (appendHeldClaim n s).ru = s.ru ∧
    (appendHeldClaim n s).pc = s.pc ∧ (appendHeldClaim n s).iiu = s.iiu ∧ (appendHeldClaim n s).cp = s.cp ∧
    (appendHeldClaim n s).ss = s.ss ∧ (appendHeldClaim n s).result = s.result ∧
    (appendHeldClaim n s).out = s.out := by
  simp only [appendHeldClaim]; (repeat' split) <;> simp

@[simp] theorem reservationLost_frame (s : State) :
    (reservationLost s).pending = s.pending ∧ (reservationLost s).vc = s.vc ∧ (reservationLost s).rtu = s.rtu ∧
    (reservationLost s).rcu = s.rcu ∧ (reservationLost s).ptu = s.ptu ∧ (reservationLost s).fe = s.fe ∧
    (reservationLost s).peers = s.peers ∧ (reservationLost s).ru = s.ru ∧ (reservationLost s).pc = s.pc ∧
    (reservationLost s).iiu = s.iiu ∧ (reservationLost s).cp = s.cp ∧ (reservationLost s).ss = s.ss ∧
    (reservationLost s).result = s.result ∧ (reservationLost s).out = s.out := by
  simp only [reservationLost]; (repeat' split) <;> simp

@[simp] theorem claimHeard_frame (n : Fin 16) (pass : Nat) (s : State) :
    (claimHeard n pass s).pending = s.pending ∧ (claimHeard n pass s).vc = s.vc ∧ (claimHeard n pass s).rtu = s.rtu ∧
    (claimHeard n pass s).rcu = s.rcu ∧ (claimHeard n pass s).ptu = s.ptu ∧ (claimHeard n pass s).fe = s.fe ∧
    (claimHeard n pass s).peers = s.peers ∧ (claimHeard n pass s).ru = s.ru ∧ (claimHeard n pass s).pc = s.pc ∧
    (claimHeard n pass s).iiu = s.iiu ∧ (claimHeard n pass s).cp = s.cp ∧ (claimHeard n pass s).ss = s.ss ∧
    (claimHeard n pass s).result = s.result ∧ (claimHeard n pass s).out = s.out := by
  simp only [claimHeard]; (repeat' split) <;> simp

@[simp] theorem ownClaimSent_frame (pass : Nat) (givenUp : Bool) (s : State) :
    (ownClaimSent pass givenUp s).pending = s.pending ∧ (ownClaimSent pass givenUp s).vc = s.vc ∧
    (ownClaimSent pass givenUp s).rtu = s.rtu ∧ (ownClaimSent pass givenUp s).rcu = s.rcu ∧
    (ownClaimSent pass givenUp s).ptu = s.ptu ∧ (ownClaimSent pass givenUp s).fe = s.fe ∧
    (ownClaimSent pass givenUp s).peers = s.peers ∧ (ownClaimSent pass givenUp s).ru = s.ru ∧
    (ownClaimSent pass givenUp s).pc = s.pc ∧ (ownClaimSent pass givenUp s).iiu = s.iiu ∧
    (ownClaimSent pass givenUp s).cp = s.cp ∧ (ownClaimSent pass givenUp s).ss = s.ss ∧
    (ownClaimSent pass givenUp s).result = s.result ∧ (ownClaimSent pass givenUp s).out = s.out := by
  simp only [ownClaimSent]; (repeat' split) <;> simp

@[simp] theorem formIntent_frame (target : LR Int) (s : State) :
    (formIntent target s).pending = s.pending ∧ (formIntent target s).vc = s.vc ∧ (formIntent target s).rtu = s.rtu ∧
    (formIntent target s).rcu = s.rcu ∧ (formIntent target s).ptu = s.ptu ∧ (formIntent target s).fe = s.fe ∧
    (formIntent target s).peers = s.peers ∧ (formIntent target s).pc = s.pc ∧ (formIntent target s).scu = s.scu ∧
    (formIntent target s).iiu = s.iiu ∧ (formIntent target s).cp = s.cp ∧ (formIntent target s).ss = s.ss ∧
    (formIntent target s).result = s.result ∧ (formIntent target s).out = s.out := by
  simp [formIntent]

@[simp] theorem takePlan_frame (first : Bool) (p : Plan) (s : State) :
    (takePlan first p s).1.pending = s.pending ∧ (takePlan first p s).1.vc = s.vc ∧
    (takePlan first p s).1.rtu = s.rtu ∧ (takePlan first p s).1.rcu = s.rcu ∧ (takePlan first p s).1.ptu = s.ptu ∧
    (takePlan first p s).1.fe = s.fe ∧ (takePlan first p s).1.peers = s.peers ∧ (takePlan first p s).1.pc = s.pc ∧
    (takePlan first p s).1.scu = s.scu ∧ (takePlan first p s).1.iiu = s.iiu ∧ (takePlan first p s).1.cp = s.cp ∧
    (takePlan first p s).1.ss = s.ss ∧ (takePlan first p s).1.result = s.result ∧
    (takePlan first p s).1.out = s.out := by
  simp only [takePlan]; (repeat' split) <;> simp

@[simp] theorem replan_frame (s : State) :
    (replan s).1.pending = s.pending ∧ (replan s).1.vc = s.vc ∧ (replan s).1.rtu = s.rtu ∧ (replan s).1.rcu = s.rcu ∧
    (replan s).1.ptu = s.ptu ∧ (replan s).1.fe = s.fe ∧ (replan s).1.peers = s.peers ∧ (replan s).1.pc = s.pc ∧
    (replan s).1.scu = s.scu ∧ (replan s).1.iiu = s.iiu ∧ (replan s).1.cp = s.cp ∧ (replan s).1.ss = s.ss ∧
    (replan s).1.result = s.result ∧ (replan s).1.out = s.out := by
  simp only [replan]; (repeat' split) <;> simp

@[simp] theorem dropPlan_frame (s : State) :
    (dropPlan s).pending = s.pending ∧ (dropPlan s).vc = s.vc ∧ (dropPlan s).rtu = s.rtu ∧ (dropPlan s).rcu = s.rcu ∧
    (dropPlan s).ptu = s.ptu ∧ (dropPlan s).fe = s.fe ∧ (dropPlan s).lc = s.lc ∧ (dropPlan s).peers = s.peers ∧
    (dropPlan s).pc = s.pc ∧ (dropPlan s).scu = s.scu ∧ (dropPlan s).iiu = s.iiu ∧ (dropPlan s).cp = s.cp ∧
    (dropPlan s).ss = s.ss ∧ (dropPlan s).result = s.result ∧ (dropPlan s).out = s.out := by
  simp [dropPlan]

@[simp] theorem agree_frame (s : State) :
    (agree s).pending = s.pending ∧ (agree s).vc = s.vc ∧ (agree s).rtu = s.rtu ∧ (agree s).rcu = s.rcu ∧
    (agree s).ptu = s.ptu ∧ (agree s).fe = s.fe ∧ (agree s).lc = s.lc ∧ (agree s).peers = s.peers ∧
    (agree s).pc = s.pc ∧ (agree s).scu = s.scu ∧ (agree s).iiu = s.iiu ∧ (agree s).cp = s.cp ∧ (agree s).ss = s.ss ∧
    (agree s).result = s.result ∧ (agree s).out = s.out := by
  simp only [agree]; (repeat' split) <;> simp

@[simp] theorem discardQueue_frame (s : State) :
    (discardQueue s).pending = s.pending ∧ (discardQueue s).vc = s.vc ∧ (discardQueue s).rtu = s.rtu ∧
    (discardQueue s).rcu = s.rcu ∧ (discardQueue s).ptu = s.ptu ∧ (discardQueue s).fe = s.fe ∧
    (discardQueue s).lc = s.lc ∧ (discardQueue s).peers = s.peers ∧ (discardQueue s).ru = s.ru ∧
    (discardQueue s).scu = s.scu ∧ (discardQueue s).iiu = s.iiu ∧ (discardQueue s).cp = s.cp ∧
    (discardQueue s).ss = s.ss ∧ (discardQueue s).result = s.result ∧ (discardQueue s).out = s.out := by
  simp [discardQueue]

@[simp] theorem enterCondemned_frame (s : State) :
    (enterCondemned s).pending = s.pending ∧ (enterCondemned s).rtu = s.rtu ∧ (enterCondemned s).rcu = s.rcu ∧
    (enterCondemned s).ptu = s.ptu ∧ (enterCondemned s).peers = s.peers ∧ (enterCondemned s).iiu = s.iiu ∧
    (enterCondemned s).ss = s.ss ∧ (enterCondemned s).result = s.result := by
  simp only [enterCondemned]; (repeat' split) <;> simp

@[simp] theorem condemnationFound_frame (s : State) :
    (condemnationFound s).pending = s.pending ∧ (condemnationFound s).rtu = s.rtu ∧
    (condemnationFound s).rcu = s.rcu ∧ (condemnationFound s).ptu = s.ptu ∧ (condemnationFound s).peers = s.peers ∧
    (condemnationFound s).iiu = s.iiu ∧ (condemnationFound s).ss = s.ss ∧
    (condemnationFound s).result = s.result := by
  simp only [condemnationFound]; (repeat' split) <;> simp

@[simp] theorem storeOutside_frame (b : BuildResult) (s : State) :
    (storeOutside b s).pending = s.pending ∧ (storeOutside b s).vc = s.vc ∧ (storeOutside b s).rtu = s.rtu ∧
    (storeOutside b s).rcu = s.rcu ∧ (storeOutside b s).ptu = s.ptu ∧ (storeOutside b s).fe = s.fe ∧
    (storeOutside b s).lc = s.lc ∧ (storeOutside b s).peers = s.peers ∧ (storeOutside b s).ru = s.ru ∧
    (storeOutside b s).scu = s.scu ∧ (storeOutside b s).iiu = s.iiu ∧ (storeOutside b s).cp = s.cp ∧
    (storeOutside b s).ss = s.ss ∧ (storeOutside b s).result = s.result ∧ (storeOutside b s).out = s.out := by
  simp only [storeOutside]; (repeat' split) <;> simp

@[simp] theorem enterFinished_frame (s : State) :
    (enterFinished s).pending = s.pending ∧ (enterFinished s).rtu = s.rtu ∧ (enterFinished s).rcu = s.rcu ∧
    (enterFinished s).ptu = s.ptu ∧ (enterFinished s).fe = s.fe ∧ (enterFinished s).peers = s.peers ∧
    (enterFinished s).iiu = s.iiu ∧ (enterFinished s).ss = s.ss ∧ (enterFinished s).result = s.result := by
  simp [enterFinished]

@[simp] theorem deepToReady_frame (s : State) :
    (deepToReady s).pending = s.pending ∧ (deepToReady s).rtu = s.rtu ∧ (deepToReady s).rcu = s.rcu ∧
    (deepToReady s).ptu = s.ptu ∧ (deepToReady s).fe = s.fe ∧ (deepToReady s).peers = s.peers ∧
    (deepToReady s).iiu = s.iiu ∧ (deepToReady s).ss = s.ss ∧ (deepToReady s).result = s.result := by
  simp [deepToReady]

@[simp] theorem applyBuild_frame (s : State) :
    (applyBuild s).pending = s.pending ∧ (applyBuild s).rtu = s.rtu ∧ (applyBuild s).rcu = s.rcu ∧
    (applyBuild s).ptu = s.ptu ∧ (applyBuild s).fe = s.fe ∧ (applyBuild s).peers = s.peers ∧
    (applyBuild s).iiu = s.iiu ∧ (applyBuild s).ss = s.ss ∧ (applyBuild s).result = s.result := by
  simp only [applyBuild]; (repeat' split) <;> simp

@[simp] theorem build_frame (n : Nat) (s : State) :
    (build n s).pending = s.pending ∧ (build n s).rtu = s.rtu ∧ (build n s).rcu = s.rcu ∧ (build n s).ptu = s.ptu ∧
    (build n s).peers = s.peers ∧ (build n s).iiu = s.iiu ∧ (build n s).ss = s.ss ∧
    (build n s).result = s.result := by
  induction n generalizing s with
  | zero => simp [build]
  | succ n ih =>
    simp only [build]
    split
    · simp
    · rename_i o _
      have h := offerCeiling_frame o s
      revert h
      split <;> rename_i h2 <;> rw [h2] <;> intro h <;> simp_all

@[simp] theorem targetsChanged_frame (s : State) :
    (targetsChanged s).pending = s.pending ∧ (targetsChanged s).rtu = s.rtu ∧ (targetsChanged s).rcu = s.rcu ∧
    (targetsChanged s).ptu = s.ptu ∧ (targetsChanged s).peers = s.peers ∧ (targetsChanged s).iiu = s.iiu ∧
    (targetsChanged s).ss = s.ss ∧ (targetsChanged s).result = s.result := by
  simp only [targetsChanged]; (repeat' split) <;> simp

@[simp] theorem handTargets_frame (r : State × Bool) :
    (handTargets r).pending = r.1.pending ∧ (handTargets r).rtu = r.1.rtu ∧ (handTargets r).rcu = r.1.rcu ∧
    (handTargets r).ptu = r.1.ptu ∧ (handTargets r).peers = r.1.peers ∧ (handTargets r).iiu = r.1.iiu ∧
    (handTargets r).ss = r.1.ss ∧ (handTargets r).result = r.1.result := by
  obtain ⟨s, x⟩ := r
  cases x <;> simp [handTargets]

@[simp] theorem firstPlan_frame (s : State) :
    (firstPlan s).pending = s.pending ∧ (firstPlan s).rtu = s.rtu ∧ (firstPlan s).rcu = s.rcu ∧
    (firstPlan s).ptu = s.ptu ∧ (firstPlan s).fe = s.fe ∧ (firstPlan s).peers = s.peers ∧ (firstPlan s).scu = s.scu ∧
    (firstPlan s).iiu = s.iiu ∧ (firstPlan s).ss = s.ss ∧ (firstPlan s).result = s.result ∧
    (firstPlan s).out = s.out := by
  simp only [firstPlan]; (repeat' split) <;> simp

@[simp] theorem ownCeilingChanged_frame (s : State) :
    (ownCeilingChanged s).pending = s.pending ∧ (ownCeilingChanged s).rtu = s.rtu ∧
    (ownCeilingChanged s).rcu = s.rcu ∧ (ownCeilingChanged s).ptu = s.ptu ∧ (ownCeilingChanged s).peers = s.peers ∧
    (ownCeilingChanged s).iiu = s.iiu ∧ (ownCeilingChanged s).ss = s.ss ∧
    (ownCeilingChanged s).result = s.result := by
  simp only [ownCeilingChanged]; (repeat' split) <;> simp

@[simp] theorem passOrder_frame (p : Pass) (w : Wheel) (s : State) :
    (passOrder p w s).pending = s.pending ∧ (passOrder p w s).vc = s.vc ∧ (passOrder p w s).rtu = s.rtu ∧
    (passOrder p w s).rcu = s.rcu ∧ (passOrder p w s).ptu = s.ptu ∧ (passOrder p w s).fe = s.fe ∧
    (passOrder p w s).lc = s.lc ∧ (passOrder p w s).peers = s.peers ∧ (passOrder p w s).ru = s.ru ∧
    (passOrder p w s).pc = s.pc ∧ (passOrder p w s).scu = s.scu ∧ (passOrder p w s).iiu = s.iiu ∧
    (passOrder p w s).cp = s.cp ∧ (passOrder p w s).ss = s.ss ∧ (passOrder p w s).result = s.result := by
  simp only [passOrder]; (repeat' split) <;> simp

@[simp] theorem setHead_frame (p : Pass) (s : State) :
    (setHead p s).pending = s.pending ∧ (setHead p s).vc = s.vc ∧ (setHead p s).rtu = s.rtu ∧
    (setHead p s).rcu = s.rcu ∧ (setHead p s).ptu = s.ptu ∧ (setHead p s).fe = s.fe ∧ (setHead p s).lc = s.lc ∧
    (setHead p s).peers = s.peers ∧ (setHead p s).ru = s.ru ∧ (setHead p s).scu = s.scu ∧ (setHead p s).iiu = s.iiu ∧
    (setHead p s).cp = s.cp ∧ (setHead p s).ss = s.ss ∧ (setHead p s).result = s.result ∧
    (setHead p s).out = s.out := by
  simp [setHead]

@[simp] theorem startPass_frame (p : Pass) (s : State) :
    (startPass p s).pending = s.pending ∧ (startPass p s).vc = s.vc ∧ (startPass p s).rtu = s.rtu ∧
    (startPass p s).rcu = s.rcu ∧ (startPass p s).ptu = s.ptu ∧ (startPass p s).fe = s.fe ∧
    (startPass p s).lc = s.lc ∧ (startPass p s).peers = s.peers ∧ (startPass p s).ru = s.ru ∧
    (startPass p s).scu = s.scu ∧ (startPass p s).iiu = s.iiu ∧ (startPass p s).cp = s.cp ∧
    (startPass p s).ss = s.ss ∧ (startPass p s).result = s.result := by
  simp [startPass]

@[simp] theorem tryStart_frame (s : State) :
    (tryStart s).pending = s.pending ∧ (tryStart s).vc = s.vc ∧ (tryStart s).rtu = s.rtu ∧ (tryStart s).rcu = s.rcu ∧
    (tryStart s).ptu = s.ptu ∧ (tryStart s).fe = s.fe ∧ (tryStart s).peers = s.peers ∧ (tryStart s).ru = s.ru ∧
    (tryStart s).iiu = s.iiu ∧ (tryStart s).cp = s.cp ∧ (tryStart s).ss = s.ss ∧ (tryStart s).result = s.result := by
  simp only [tryStart]; (repeat' split) <;> simp

@[simp] theorem waitTimers_frame (s : State) :
    (waitTimers s).pending = s.pending ∧ (waitTimers s).vc = s.vc ∧ (waitTimers s).rtu = s.rtu ∧
    (waitTimers s).rcu = s.rcu ∧ (waitTimers s).ptu = s.ptu ∧ (waitTimers s).fe = s.fe ∧ (waitTimers s).lc = s.lc ∧
    (waitTimers s).peers = s.peers ∧ (waitTimers s).pc = s.pc ∧ (waitTimers s).scu = s.scu ∧
    (waitTimers s).iiu = s.iiu ∧ (waitTimers s).cp = s.cp ∧ (waitTimers s).ss = s.ss ∧
    (waitTimers s).result = s.result ∧ (waitTimers s).out = s.out := by
  simp [waitTimers]

@[simp] theorem settle_frame (s : State) :
    (settle s).pending = s.pending ∧ (settle s).rtu = s.rtu ∧ (settle s).rcu = s.rcu ∧ (settle s).ptu = s.ptu ∧
    (settle s).fe = s.fe ∧ (settle s).peers = s.peers ∧ (settle s).iiu = s.iiu ∧ (settle s).cp = s.cp ∧
    (settle s).ss = s.ss ∧ (settle s).result = s.result := by
  simp [settle]

@[simp] theorem holdOrder_frame (p : Pass) (w : Wheel) (s : State) :
    (holdOrder p w s).pending = s.pending ∧ (holdOrder p w s).vc = s.vc ∧ (holdOrder p w s).rtu = s.rtu ∧
    (holdOrder p w s).rcu = s.rcu ∧ (holdOrder p w s).ptu = s.ptu ∧ (holdOrder p w s).fe = s.fe ∧
    (holdOrder p w s).lc = s.lc ∧ (holdOrder p w s).peers = s.peers ∧ (holdOrder p w s).ru = s.ru ∧
    (holdOrder p w s).pc = s.pc ∧ (holdOrder p w s).scu = s.scu ∧ (holdOrder p w s).iiu = s.iiu ∧
    (holdOrder p w s).cp = s.cp ∧ (holdOrder p w s).ss = s.ss ∧ (holdOrder p w s).result = s.result := by
  simp only [holdOrder]; (repeat' split) <;> simp

@[simp] theorem rateOrder_frame (p : Pass) (w : Wheel) (s : State) :
    (rateOrder p w s).pending = s.pending ∧ (rateOrder p w s).vc = s.vc ∧ (rateOrder p w s).rtu = s.rtu ∧
    (rateOrder p w s).rcu = s.rcu ∧ (rateOrder p w s).ptu = s.ptu ∧ (rateOrder p w s).fe = s.fe ∧
    (rateOrder p w s).lc = s.lc ∧ (rateOrder p w s).peers = s.peers ∧ (rateOrder p w s).ru = s.ru ∧
    (rateOrder p w s).pc = s.pc ∧ (rateOrder p w s).scu = s.scu ∧ (rateOrder p w s).iiu = s.iiu ∧
    (rateOrder p w s).cp = s.cp ∧ (rateOrder p w s).ss = s.ss ∧ (rateOrder p w s).result = s.result := by
  simp only [rateOrder]; (repeat' split) <;> simp

@[simp] theorem addHold_frame (c : HoldCause) (s : State) :
    (addHold c s).pending = s.pending ∧ (addHold c s).vc = s.vc ∧ (addHold c s).rtu = s.rtu ∧
    (addHold c s).rcu = s.rcu ∧ (addHold c s).ptu = s.ptu ∧ (addHold c s).fe = s.fe ∧ (addHold c s).lc = s.lc ∧
    (addHold c s).peers = s.peers ∧ (addHold c s).ru = s.ru ∧ (addHold c s).scu = s.scu ∧ (addHold c s).iiu = s.iiu ∧
    (addHold c s).cp = s.cp ∧ (addHold c s).ss = s.ss ∧ (addHold c s).result = s.result := by
  simp only [addHold]; (repeat' split) <;> simp

@[simp] theorem clearHolds_frame (s : State) :
    (clearHolds s).pending = s.pending ∧ (clearHolds s).vc = s.vc ∧ (clearHolds s).rtu = s.rtu ∧
    (clearHolds s).rcu = s.rcu ∧ (clearHolds s).ptu = s.ptu ∧ (clearHolds s).fe = s.fe ∧ (clearHolds s).lc = s.lc ∧
    (clearHolds s).peers = s.peers ∧ (clearHolds s).ru = s.ru ∧ (clearHolds s).scu = s.scu ∧
    (clearHolds s).iiu = s.iiu ∧ (clearHolds s).cp = s.cp ∧ (clearHolds s).ss = s.ss ∧
    (clearHolds s).result = s.result := by
  simp only [clearHolds]; (repeat' split) <;> simp

@[simp] theorem completeRecord_frame (p : Pass) (s : State) :
    (completeRecord p s).pending = s.pending ∧ (completeRecord p s).rtu = s.rtu ∧ (completeRecord p s).rcu = s.rcu ∧
    (completeRecord p s).ptu = s.ptu ∧ (completeRecord p s).fe = s.fe ∧ (completeRecord p s).lc = s.lc ∧
    (completeRecord p s).peers = s.peers ∧ (completeRecord p s).ru = s.ru ∧ (completeRecord p s).scu = s.scu ∧
    (completeRecord p s).iiu = s.iiu ∧ (completeRecord p s).cp = s.cp ∧ (completeRecord p s).ss = s.ss ∧
    (completeRecord p s).result = s.result ∧ (completeRecord p s).out = s.out := by
  simp [completeRecord]

@[simp] theorem afterOffer_frame (r : State × OfferResult) :
    (afterOffer r).pending = r.1.pending ∧ (afterOffer r).rtu = r.1.rtu ∧ (afterOffer r).rcu = r.1.rcu ∧
    (afterOffer r).ptu = r.1.ptu ∧ (afterOffer r).peers = r.1.peers ∧ (afterOffer r).iiu = r.1.iiu ∧
    (afterOffer r).ss = r.1.ss ∧ (afterOffer r).result = r.1.result := by
  obtain ⟨s, x⟩ := r
  cases x <;> simp [afterOffer]

@[simp] theorem owedBuild_frame (s : State) :
    (owedBuild s).pending = s.pending ∧ (owedBuild s).rtu = s.rtu ∧ (owedBuild s).rcu = s.rcu ∧
    (owedBuild s).ptu = s.ptu ∧ (owedBuild s).peers = s.peers ∧ (owedBuild s).iiu = s.iiu ∧ (owedBuild s).ss = s.ss ∧
    (owedBuild s).result = s.result := by
  simp only [owedBuild]; (repeat' split) <;> simp

@[simp] theorem completePass_frame (p : Pass) (s : State) :
    (completePass p s).pending = s.pending ∧ (completePass p s).rtu = s.rtu ∧ (completePass p s).rcu = s.rcu ∧
    (completePass p s).ptu = s.ptu ∧ (completePass p s).peers = s.peers ∧ (completePass p s).iiu = s.iiu ∧
    (completePass p s).ss = s.ss ∧ (completePass p s).result = s.result := by
  simp only [completePass]; (repeat' split) <;> simp

@[simp] theorem latchesAtRetract_frame (s : State) :
    (latchesAtRetract s).pending = s.pending ∧ (latchesAtRetract s).vc = s.vc ∧ (latchesAtRetract s).rtu = s.rtu ∧
    (latchesAtRetract s).rcu = s.rcu ∧ (latchesAtRetract s).ptu = s.ptu ∧ (latchesAtRetract s).fe = s.fe ∧
    (latchesAtRetract s).lc = s.lc ∧ (latchesAtRetract s).peers = s.peers ∧ (latchesAtRetract s).ru = s.ru ∧
    (latchesAtRetract s).pc = s.pc ∧ (latchesAtRetract s).scu = s.scu ∧ (latchesAtRetract s).cp = s.cp ∧
    (latchesAtRetract s).ss = s.ss ∧ (latchesAtRetract s).result = s.result ∧ (latchesAtRetract s).out = s.out := by
  simp [latchesAtRetract]

@[simp] theorem abortOrders_frame (s : State) :
    (abortOrders s).pending = s.pending ∧ (abortOrders s).rtu = s.rtu ∧ (abortOrders s).rcu = s.rcu ∧
    (abortOrders s).ptu = s.ptu ∧ (abortOrders s).fe = s.fe ∧ (abortOrders s).lc = s.lc ∧
    (abortOrders s).peers = s.peers ∧ (abortOrders s).ru = s.ru ∧ (abortOrders s).pc = s.pc ∧
    (abortOrders s).scu = s.scu ∧ (abortOrders s).ss = s.ss ∧ (abortOrders s).result = s.result := by
  simp [abortOrders]

@[simp] theorem abortRecord_frame (p : Pass) (why : AbortReason) (s : State) :
    (abortRecord p why s).pending = s.pending ∧ (abortRecord p why s).vc = s.vc ∧ (abortRecord p why s).rtu = s.rtu ∧
    (abortRecord p why s).rcu = s.rcu ∧ (abortRecord p why s).ptu = s.ptu ∧ (abortRecord p why s).fe = s.fe ∧
    (abortRecord p why s).lc = s.lc ∧ (abortRecord p why s).peers = s.peers ∧ (abortRecord p why s).ru = s.ru ∧
    (abortRecord p why s).scu = s.scu ∧ (abortRecord p why s).iiu = s.iiu ∧ (abortRecord p why s).cp = s.cp ∧
    (abortRecord p why s).ss = s.ss ∧ (abortRecord p why s).result = s.result ∧
    (abortRecord p why s).out = s.out := by
  simp [abortRecord]

@[simp] theorem afterAbortOffer_frame (r : State × OfferResult) :
    (afterAbortOffer r).pending = r.1.pending ∧ (afterAbortOffer r).rtu = r.1.rtu ∧
    (afterAbortOffer r).rcu = r.1.rcu ∧ (afterAbortOffer r).ptu = r.1.ptu ∧ (afterAbortOffer r).peers = r.1.peers ∧
    (afterAbortOffer r).iiu = r.1.iiu ∧ (afterAbortOffer r).ss = r.1.ss ∧
    (afterAbortOffer r).result = r.1.result := by
  obtain ⟨s, x⟩ := r
  cases x <;> simp [afterAbortOffer]

@[simp] theorem abortPass_frame (p : Pass) (why : AbortReason) (s : State) :
    (abortPass p why s).pending = s.pending ∧ (abortPass p why s).rtu = s.rtu ∧ (abortPass p why s).rcu = s.rcu ∧
    (abortPass p why s).ptu = s.ptu ∧ (abortPass p why s).peers = s.peers ∧ (abortPass p why s).ss = s.ss ∧
    (abortPass p why s).result = s.result := by
  simp [abortPass]

@[simp] theorem retractTest_frame (s : State) :
    (retractTest s).pending = s.pending ∧ (retractTest s).rtu = s.rtu ∧ (retractTest s).rcu = s.rcu ∧
    (retractTest s).ptu = s.ptu ∧ (retractTest s).peers = s.peers ∧ (retractTest s).iiu = s.iiu ∧
    (retractTest s).ss = s.ss ∧ (retractTest s).result = s.result := by
  simp only [retractTest]; (repeat' split) <;> simp

@[simp] theorem abortToAborting_frame (p : Pass) (why : AbortReason) (s : State) :
    (abortToAborting p why s).pending = s.pending ∧ (abortToAborting p why s).rtu = s.rtu ∧
    (abortToAborting p why s).rcu = s.rcu ∧ (abortToAborting p why s).ptu = s.ptu ∧
    (abortToAborting p why s).peers = s.peers ∧ (abortToAborting p why s).ss = s.ss ∧
    (abortToAborting p why s).result = s.result := by
  simp [abortToAborting]

@[simp] theorem writeResult_frame (why : Reason) (s : State) :
    (writeResult why s).pending = s.pending ∧ (writeResult why s).vc = s.vc ∧ (writeResult why s).rcu = s.rcu ∧
    (writeResult why s).ptu = s.ptu ∧ (writeResult why s).fe = s.fe ∧ (writeResult why s).lc = s.lc ∧
    (writeResult why s).peers = s.peers ∧ (writeResult why s).ru = s.ru ∧ (writeResult why s).pc = s.pc ∧
    (writeResult why s).scu = s.scu ∧ (writeResult why s).iiu = s.iiu ∧ (writeResult why s).ss = s.ss ∧
    (writeResult why s).out = s.out := by
  simp only [writeResult]; (repeat' split) <;> simp

@[simp] theorem measurementFails_frame (why : Reason) (s : State) :
    (measurementFails why s).pending = s.pending ∧ (measurementFails why s).rcu = s.rcu ∧
    (measurementFails why s).ptu = s.ptu ∧ (measurementFails why s).fe = s.fe ∧
    (measurementFails why s).peers = s.peers ∧ (measurementFails why s).scu = s.scu ∧
    (measurementFails why s).iiu = s.iiu ∧ (measurementFails why s).ss = s.ss ∧
    (measurementFails why s).out = s.out := by
  simp only [measurementFails]; (repeat' split) <;> simp

@[simp] theorem offerFit_frame (c : LR Int) (s : State) :
    (offerFit c s).1.pending = s.pending ∧ (offerFit c s).1.vc = s.vc ∧ (offerFit c s).1.rtu = s.rtu ∧
    (offerFit c s).1.rcu = s.rcu ∧ (offerFit c s).1.ptu = s.ptu ∧ (offerFit c s).1.peers = s.peers ∧
    (offerFit c s).1.ru = s.ru ∧ (offerFit c s).1.pc = s.pc ∧ (offerFit c s).1.scu = s.scu ∧
    (offerFit c s).1.iiu = s.iiu ∧ (offerFit c s).1.cp = s.cp ∧ (offerFit c s).1.ss = s.ss ∧
    (offerFit c s).1.result = s.result ∧ (offerFit c s).1.out = s.out := by
  simp only [offerFit]; (repeat' split) <;> simp

@[simp] theorem setFitState_frame (st : FitState) (s : State) :
    (setFitState st s).pending = s.pending ∧ (setFitState st s).vc = s.vc ∧ (setFitState st s).rtu = s.rtu ∧
    (setFitState st s).rcu = s.rcu ∧ (setFitState st s).ptu = s.ptu ∧ (setFitState st s).lc = s.lc ∧
    (setFitState st s).peers = s.peers ∧ (setFitState st s).ru = s.ru ∧ (setFitState st s).pc = s.pc ∧
    (setFitState st s).scu = s.scu ∧ (setFitState st s).iiu = s.iiu ∧ (setFitState st s).cp = s.cp ∧
    (setFitState st s).ss = s.ss ∧ (setFitState st s).result = s.result ∧ (setFitState st s).out = s.out := by
  simp [setFitState]

@[simp] theorem endFit_frame (r : State × OfferResult) :
    (endFit r).pending = r.1.pending ∧ (endFit r).rcu = r.1.rcu ∧ (endFit r).ptu = r.1.ptu ∧
    (endFit r).peers = r.1.peers ∧ (endFit r).iiu = r.1.iiu ∧ (endFit r).ss = r.1.ss := by
  obtain ⟨s, x⟩ := r
  cases x <;> simp [endFit]

@[simp] theorem runFit_frame (worn : LR (List (Option Int))) (s : State) :
    (runFit worn s).pending = s.pending ∧ (runFit worn s).rcu = s.rcu ∧ (runFit worn s).ptu = s.ptu ∧
    (runFit worn s).peers = s.peers ∧ (runFit worn s).iiu = s.iiu ∧ (runFit worn s).ss = s.ss := by
  simp only [runFit]; (repeat' split) <;> simp

@[simp] theorem startSweep_frame (w : Wheel) (s : State) :
    (startSweep w s).pending = s.pending ∧ (startSweep w s).vc = s.vc ∧ (startSweep w s).rtu = s.rtu ∧
    (startSweep w s).rcu = s.rcu ∧ (startSweep w s).fe = s.fe ∧ (startSweep w s).lc = s.lc ∧
    (startSweep w s).peers = s.peers ∧ (startSweep w s).ru = s.ru ∧ (startSweep w s).pc = s.pc ∧
    (startSweep w s).scu = s.scu ∧ (startSweep w s).iiu = s.iiu ∧ (startSweep w s).cp = s.cp ∧
    (startSweep w s).ss = s.ss ∧ (startSweep w s).result = s.result := by
  simp only [startSweep]; (repeat' split) <;> simp

@[simp] theorem countStray_frame (s : State) :
    (countStray s).pending = s.pending ∧ (countStray s).vc = s.vc ∧ (countStray s).rtu = s.rtu ∧
    (countStray s).rcu = s.rcu ∧ (countStray s).fe = s.fe ∧ (countStray s).lc = s.lc ∧
    (countStray s).peers = s.peers ∧ (countStray s).ru = s.ru ∧ (countStray s).pc = s.pc ∧
    (countStray s).scu = s.scu ∧ (countStray s).iiu = s.iiu ∧ (countStray s).cp = s.cp ∧ (countStray s).ss = s.ss ∧
    (countStray s).result = s.result ∧ (countStray s).out = s.out := by
  simp [countStray]

@[simp] theorem holdTrace_frame (s : State) :
    (holdTrace s).pending = s.pending ∧ (holdTrace s).vc = s.vc ∧ (holdTrace s).rtu = s.rtu ∧
    (holdTrace s).rcu = s.rcu ∧ (holdTrace s).fe = s.fe ∧ (holdTrace s).lc = s.lc ∧ (holdTrace s).peers = s.peers ∧
    (holdTrace s).ru = s.ru ∧ (holdTrace s).pc = s.pc ∧ (holdTrace s).scu = s.scu ∧ (holdTrace s).iiu = s.iiu ∧
    (holdTrace s).cp = s.cp ∧ (holdTrace s).ss = s.ss ∧ (holdTrace s).result = s.result ∧
    (holdTrace s).out = s.out := by
  simp [holdTrace]

@[simp] theorem endSweep_frame (w : Wheel) (s : State) :
    (endSweep w s).pending = s.pending ∧ (endSweep w s).rcu = s.rcu ∧ (endSweep w s).peers = s.peers ∧
    (endSweep w s).iiu = s.iiu ∧ (endSweep w s).ss = s.ss := by
  simp only [endSweep]; (repeat' split) <;> simp

@[simp] theorem interruptTrace_frame (s : State) :
    (interruptTrace s).pending = s.pending ∧ (interruptTrace s).vc = s.vc ∧ (interruptTrace s).rtu = s.rtu ∧
    (interruptTrace s).rcu = s.rcu ∧ (interruptTrace s).fe = s.fe ∧ (interruptTrace s).lc = s.lc ∧
    (interruptTrace s).peers = s.peers ∧ (interruptTrace s).ru = s.ru ∧ (interruptTrace s).pc = s.pc ∧
    (interruptTrace s).scu = s.scu ∧ (interruptTrace s).iiu = s.iiu ∧ (interruptTrace s).cp = s.cp ∧
    (interruptTrace s).ss = s.ss ∧ (interruptTrace s).result = s.result := by
  simp only [interruptTrace]; (repeat' split) <;> simp

@[simp] theorem windowStart_frame (s : State) :
    (windowStart s).pending = s.pending ∧ (windowStart s).vc = s.vc ∧ (windowStart s).rtu = s.rtu ∧
    (windowStart s).ptu = s.ptu ∧ (windowStart s).fe = s.fe ∧ (windowStart s).lc = s.lc ∧
    (windowStart s).peers = s.peers ∧ (windowStart s).ru = s.ru ∧ (windowStart s).pc = s.pc ∧
    (windowStart s).scu = s.scu ∧ (windowStart s).iiu = s.iiu ∧ (windowStart s).cp = s.cp ∧
    (windowStart s).ss = s.ss ∧ (windowStart s).result = s.result ∧ (windowStart s).out = s.out := by
  simp only [windowStart]; (repeat' split) <;> simp

@[simp] theorem holdRcu_frame (s : State) :
    (holdRcu s).pending = s.pending ∧ (holdRcu s).vc = s.vc ∧ (holdRcu s).rtu = s.rtu ∧ (holdRcu s).ptu = s.ptu ∧
    (holdRcu s).fe = s.fe ∧ (holdRcu s).lc = s.lc ∧ (holdRcu s).peers = s.peers ∧ (holdRcu s).ru = s.ru ∧
    (holdRcu s).pc = s.pc ∧ (holdRcu s).scu = s.scu ∧ (holdRcu s).iiu = s.iiu ∧ (holdRcu s).cp = s.cp ∧
    (holdRcu s).ss = s.ss ∧ (holdRcu s).result = s.result ∧ (holdRcu s).out = s.out := by
  simp [holdRcu]

@[simp] theorem attemptStart_frame (s : State) :
    (attemptStart s).pending = s.pending ∧ (attemptStart s).vc = s.vc ∧ (attemptStart s).ptu = s.ptu ∧
    (attemptStart s).fe = s.fe ∧ (attemptStart s).lc = s.lc ∧ (attemptStart s).peers = s.peers ∧
    (attemptStart s).ru = s.ru ∧ (attemptStart s).pc = s.pc ∧ (attemptStart s).scu = s.scu ∧
    (attemptStart s).iiu = s.iiu ∧ (attemptStart s).cp = s.cp ∧ (attemptStart s).ss = s.ss ∧
    (attemptStart s).result = s.result ∧ (attemptStart s).out = s.out := by
  simp only [attemptStart]; (repeat' split) <;> simp

@[simp] theorem startRun_frame (k : RunKind) (s : State) :
    (startRun k s).pending = s.pending ∧ (startRun k s).vc = s.vc ∧ (startRun k s).ptu = s.ptu ∧
    (startRun k s).fe = s.fe ∧ (startRun k s).lc = s.lc ∧ (startRun k s).peers = s.peers ∧ (startRun k s).ru = s.ru ∧
    (startRun k s).pc = s.pc ∧ (startRun k s).scu = s.scu ∧ (startRun k s).iiu = s.iiu ∧ (startRun k s).cp = s.cp ∧
    (startRun k s).ss = s.ss ∧ (startRun k s).result = s.result := by
  simp only [startRun]; (repeat' split) <;> simp

@[simp] theorem startMeasurement_frame (s : State) :
    (startMeasurement s).pending = s.pending ∧ (startMeasurement s).vc = s.vc ∧ (startMeasurement s).lc = s.lc ∧
    (startMeasurement s).peers = s.peers ∧ (startMeasurement s).ru = s.ru ∧ (startMeasurement s).pc = s.pc ∧
    (startMeasurement s).scu = s.scu ∧ (startMeasurement s).iiu = s.iiu ∧ (startMeasurement s).cp = s.cp ∧
    (startMeasurement s).ss = s.ss ∧ (startMeasurement s).result = s.result := by
  simp [startMeasurement]

@[simp] theorem leaveRun_frame (why : Reason) (s : State) :
    (leaveRun why s).pending = s.pending ∧ (leaveRun why s).vc = s.vc ∧ (leaveRun why s).rcu = s.rcu ∧
    (leaveRun why s).ptu = s.ptu ∧ (leaveRun why s).fe = s.fe ∧ (leaveRun why s).lc = s.lc ∧
    (leaveRun why s).peers = s.peers ∧ (leaveRun why s).ru = s.ru ∧ (leaveRun why s).pc = s.pc ∧
    (leaveRun why s).scu = s.scu ∧ (leaveRun why s).iiu = s.iiu ∧ (leaveRun why s).cp = s.cp ∧
    (leaveRun why s).ss = s.ss ∧ (leaveRun why s).result = s.result := by
  simp [leaveRun]

@[simp] theorem endCalibration_frame (why : Reason) (r : Response) (s : State) :
    (endCalibration why r s).pending = s.pending ∧ (endCalibration why r s).rcu = s.rcu ∧
    (endCalibration why r s).ptu = s.ptu ∧ (endCalibration why r s).fe = s.fe ∧ (endCalibration why r s).lc = s.lc ∧
    (endCalibration why r s).peers = s.peers ∧ (endCalibration why r s).ru = s.ru ∧
    (endCalibration why r s).pc = s.pc ∧ (endCalibration why r s).scu = s.scu ∧
    (endCalibration why r s).iiu = s.iiu := by
  simp only [endCalibration]; (repeat' split) <;> simp

@[simp] theorem calibrationFails_frame (why : Reason) (s : State) :
    (calibrationFails why s).pending = s.pending ∧ (calibrationFails why s).rcu = s.rcu ∧
    (calibrationFails why s).ptu = s.ptu ∧ (calibrationFails why s).fe = s.fe ∧ (calibrationFails why s).lc = s.lc ∧
    (calibrationFails why s).peers = s.peers ∧ (calibrationFails why s).ru = s.ru ∧
    (calibrationFails why s).pc = s.pc ∧ (calibrationFails why s).scu = s.scu ∧
    (calibrationFails why s).iiu = s.iiu := by
  simp only [calibrationFails]; (repeat' split) <;> simp

@[simp] theorem endRun_frame (why : Reason) (s : State) :
    (endRun why s).pending = s.pending ∧ (endRun why s).ptu = s.ptu ∧ (endRun why s).fe = s.fe ∧
    (endRun why s).peers = s.peers ∧ (endRun why s).scu = s.scu ∧ (endRun why s).iiu = s.iiu := by
  simp only [endRun]; (repeat' split) <;> simp

@[simp] theorem endAttempt_frame (why : Reason) (s : State) :
    (endAttempt why s).pending = s.pending ∧ (endAttempt why s).ptu = s.ptu ∧ (endAttempt why s).fe = s.fe ∧
    (endAttempt why s).peers = s.peers ∧ (endAttempt why s).scu = s.scu ∧ (endAttempt why s).iiu = s.iiu := by
  simp only [endAttempt]; (repeat' split) <;> simp

@[simp] theorem cutMeasurement_frame (why : Reason) (s : State) :
    (cutMeasurement why s).pending = s.pending ∧ (cutMeasurement why s).fe = s.fe ∧
    (cutMeasurement why s).peers = s.peers ∧ (cutMeasurement why s).scu = s.scu ∧
    (cutMeasurement why s).iiu = s.iiu := by
  simp only [cutMeasurement]; (repeat' split) <;> simp

@[simp] theorem closeRcu_frame (s : State) :
    (closeRcu s).pending = s.pending ∧ (closeRcu s).peers = s.peers ∧ (closeRcu s).scu = s.scu ∧
    (closeRcu s).iiu = s.iiu ∧ (closeRcu s).ss = s.ss := by
  simp only [closeRcu]; (repeat' split) <;> simp

@[simp] theorem measureClosed_frame (total : LR Nat) (s : State) :
    (measureClosed total s).pending = s.pending ∧ (measureClosed total s).peers = s.peers ∧
    (measureClosed total s).scu = s.scu ∧ (measureClosed total s).iiu = s.iiu := by
  simp only [measureClosed]; (repeat' split) <;> simp

@[simp] theorem calibrateClosed_frame (c : CalRun) (total : Nat) (s : State) :
    (calibrateClosed c total s).pending = s.pending ∧ (calibrateClosed c total s).rcu = s.rcu ∧
    (calibrateClosed c total s).ptu = s.ptu ∧ (calibrateClosed c total s).fe = s.fe ∧
    (calibrateClosed c total s).lc = s.lc ∧ (calibrateClosed c total s).peers = s.peers ∧
    (calibrateClosed c total s).ru = s.ru ∧ (calibrateClosed c total s).pc = s.pc ∧
    (calibrateClosed c total s).scu = s.scu ∧ (calibrateClosed c total s).iiu = s.iiu := by
  simp only [calibrateClosed]; (repeat' split) <;> simp

@[simp] theorem closeAttempt_frame (s : State) :
    (closeAttempt s).pending = s.pending ∧ (closeAttempt s).peers = s.peers ∧ (closeAttempt s).scu = s.scu ∧
    (closeAttempt s).iiu = s.iiu := by
  simp only [closeAttempt]; (repeat' split) <;> simp

@[simp] theorem computeBin_frame (w : Wheel) (s : State) :
    (computeBin w s).pending = s.pending ∧ (computeBin w s).vc = s.vc ∧ (computeBin w s).rcu = s.rcu ∧
    (computeBin w s).ptu = s.ptu ∧ (computeBin w s).fe = s.fe ∧ (computeBin w s).lc = s.lc ∧
    (computeBin w s).peers = s.peers ∧ (computeBin w s).ru = s.ru ∧ (computeBin w s).pc = s.pc ∧
    (computeBin w s).scu = s.scu ∧ (computeBin w s).iiu = s.iiu ∧ (computeBin w s).cp = s.cp ∧
    (computeBin w s).ss = s.ss ∧ (computeBin w s).result = s.result ∧ (computeBin w s).out = s.out := by
  simp only [computeBin]; (repeat' split) <;> simp

@[simp] theorem supplyBin_frame (w : Wheel) (probe : Int) (s : State) :
    (supplyBin w probe s).pending = s.pending ∧ (supplyBin w probe s).ptu = s.ptu ∧ (supplyBin w probe s).fe = s.fe ∧
    (supplyBin w probe s).peers = s.peers ∧ (supplyBin w probe s).scu = s.scu ∧
    (supplyBin w probe s).iiu = s.iiu := by
  simp only [supplyBin]; (repeat' split) <;> simp

@[simp] theorem supply_frame (w : Wheel) (probe : Int) (s : State) :
    (supply w probe s).pending = s.pending ∧ (supply w probe s).ptu = s.ptu ∧ (supply w probe s).fe = s.fe ∧ (supply
    w probe s).peers = s.peers ∧ (supply w probe s).scu = s.scu ∧ (supply w probe s).iiu = s.iiu := by
  simp only [supply]; split <;> simp

@[simp] theorem supplyBins_frame (probe : LR Int) (s : State) :
    (supplyBins probe s).pending = s.pending ∧ (supplyBins probe s).ptu = s.ptu ∧ (supplyBins probe s).fe = s.fe ∧
    (supplyBins probe s).peers = s.peers ∧ (supplyBins probe s).scu = s.scu ∧ (supplyBins probe s).iiu = s.iiu := by
  simp [supplyBins]

@[simp] theorem encoderPulse_frame (w : Wheel) (probe : Int) (s : State) :
    (encoderPulse w probe s).pending = s.pending ∧ (encoderPulse w probe s).ptu = s.ptu ∧
    (encoderPulse w probe s).fe = s.fe ∧ (encoderPulse w probe s).peers = s.peers ∧
    (encoderPulse w probe s).scu = s.scu ∧ (encoderPulse w probe s).iiu = s.iiu := by
  simp only [encoderPulse]; (repeat' split) <;> simp

@[simp] theorem restartWindows_frame (s : State) :
    (restartWindows s).pending = s.pending ∧ (restartWindows s).vc = s.vc ∧ (restartWindows s).ptu = s.ptu ∧
    (restartWindows s).fe = s.fe ∧ (restartWindows s).lc = s.lc ∧ (restartWindows s).peers = s.peers ∧
    (restartWindows s).ru = s.ru ∧ (restartWindows s).pc = s.pc ∧ (restartWindows s).scu = s.scu ∧
    (restartWindows s).iiu = s.iiu ∧ (restartWindows s).cp = s.cp ∧ (restartWindows s).ss = s.ss ∧
    (restartWindows s).result = s.result ∧ (restartWindows s).out = s.out := by
  simp [restartWindows]

@[simp] theorem newRevolution_frame (s : State) :
    (newRevolution s).pending = s.pending ∧ (newRevolution s).vc = s.vc ∧ (newRevolution s).rtu = s.rtu ∧
    (newRevolution s).ptu = s.ptu ∧ (newRevolution s).fe = s.fe ∧ (newRevolution s).lc = s.lc ∧
    (newRevolution s).peers = s.peers ∧ (newRevolution s).ru = s.ru ∧ (newRevolution s).pc = s.pc ∧
    (newRevolution s).scu = s.scu ∧ (newRevolution s).iiu = s.iiu ∧ (newRevolution s).cp = s.cp ∧
    (newRevolution s).ss = s.ss ∧ (newRevolution s).result = s.result ∧ (newRevolution s).out = s.out := by
  simp only [newRevolution]; (repeat' split) <;> simp

@[simp] theorem validMark_frame (probe : LR Int) (s : State) :
    (validMark probe s).pending = s.pending ∧ (validMark probe s).peers = s.peers ∧ (validMark probe s).scu = s.scu ∧
    (validMark probe s).iiu = s.iiu := by
  simp only [validMark]; (repeat' split) <;> simp

@[simp] theorem markPulseEnd_frame (probe : LR Int) (s : State) :
    (markPulseEnd probe s).pending = s.pending ∧ (markPulseEnd probe s).peers = s.peers ∧ (markPulseEnd probe s).scu = s.scu ∧
    (markPulseEnd probe s).iiu = s.iiu := by
  simp only [markPulseEnd]; (repeat' split) <;> simp

@[simp] theorem driveAtSpeed_frame (s : State) :
    (driveAtSpeed s).pending = s.pending ∧ (driveAtSpeed s).vc = s.vc ∧ (driveAtSpeed s).rcu = s.rcu ∧
    (driveAtSpeed s).ptu = s.ptu ∧ (driveAtSpeed s).fe = s.fe ∧ (driveAtSpeed s).lc = s.lc ∧
    (driveAtSpeed s).peers = s.peers ∧ (driveAtSpeed s).ru = s.ru ∧ (driveAtSpeed s).pc = s.pc ∧
    (driveAtSpeed s).scu = s.scu ∧ (driveAtSpeed s).iiu = s.iiu ∧ (driveAtSpeed s).cp = s.cp ∧
    (driveAtSpeed s).ss = s.ss ∧ (driveAtSpeed s).result = s.result ∧ (driveAtSpeed s).out = s.out := by
  simp only [driveAtSpeed]; (repeat' split) <;> simp

@[simp] theorem driveLost_frame (s : State) :
    (driveLost s).pending = s.pending ∧ (driveLost s).ptu = s.ptu ∧ (driveLost s).fe = s.fe ∧
    (driveLost s).peers = s.peers ∧ (driveLost s).scu = s.scu ∧ (driveLost s).iiu = s.iiu := by
  simp only [driveLost]; (repeat' split) <;> simp

@[simp] theorem clearVisit_frame (s : State) :
    (clearVisit s).pending = s.pending ∧ (clearVisit s).lc = s.lc ∧ (clearVisit s).peers = s.peers ∧
    (clearVisit s).scu = s.scu ∧ (clearVisit s).iiu = s.iiu ∧ (clearVisit s).cp = s.cp ∧ (clearVisit s).ss = s.ss ∧
    (clearVisit s).out = s.out := by
  simp [clearVisit]

@[simp] theorem clearCeiling_frame (s : State) :
    (clearCeiling s).pending = s.pending ∧ (clearCeiling s).vc = s.vc ∧ (clearCeiling s).rtu = s.rtu ∧
    (clearCeiling s).rcu = s.rcu ∧ (clearCeiling s).ptu = s.ptu ∧ (clearCeiling s).peers = s.peers ∧
    (clearCeiling s).ru = s.ru ∧ (clearCeiling s).pc = s.pc ∧ (clearCeiling s).scu = s.scu ∧
    (clearCeiling s).iiu = s.iiu ∧ (clearCeiling s).cp = s.cp ∧ (clearCeiling s).ss = s.ss ∧
    (clearCeiling s).result = s.result ∧ (clearCeiling s).out = s.out := by
  simp only [clearCeiling]; (repeat' split) <;> simp

@[simp] theorem visitEnd_frame (s : State) :
    (visitEnd s).pending = s.pending ∧ (visitEnd s).peers = s.peers ∧ (visitEnd s).iiu = s.iiu ∧
    (visitEnd s).cp = s.cp ∧ (visitEnd s).ss = s.ss ∧ (visitEnd s).out = s.out := by
  simp [visitEnd]

@[simp] theorem estopStops_frame (old : StationState) (s : State) :
    (estopStops old s).pending = s.pending ∧ (estopStops old s).peers = s.peers := by
  simp only [estopStops]; (repeat' split) <;> simp

@[simp] theorem enterEstop_frame (s : State) :
    (enterEstop s).pending = s.pending ∧ (enterEstop s).peers = s.peers := by
  simp [enterEstop]

@[simp] theorem estopToAborted_frame (s : State) :
    (estopToAborted s).pending = s.pending ∧ (estopToAborted s).rtu = s.rtu ∧ (estopToAborted s).rcu = s.rcu ∧
    (estopToAborted s).ptu = s.ptu ∧ (estopToAborted s).fe = s.fe ∧ (estopToAborted s).peers = s.peers ∧
    (estopToAborted s).scu = s.scu ∧ (estopToAborted s).iiu = s.iiu ∧ (estopToAborted s).ss = s.ss ∧
    (estopToAborted s).result = s.result ∧ (estopToAborted s).out = s.out := by
  simp [estopToAborted]

@[simp] theorem exitEstop_frame (s : State) :
    (exitEstop s).pending = s.pending ∧ (exitEstop s).rtu = s.rtu ∧ (exitEstop s).rcu = s.rcu ∧
    (exitEstop s).ptu = s.ptu ∧ (exitEstop s).peers = s.peers ∧ (exitEstop s).iiu = s.iiu ∧ (exitEstop s).ss = s.ss ∧
    (exitEstop s).result = s.result := by
  simp only [exitEstop]; (repeat' split) <;> simp

@[simp] theorem estopActive_frame (s : State) :
    (estopActive s).pending = s.pending ∧ (estopActive s).peers = s.peers := by
  simp only [estopActive]; (repeat' split) <;> simp

@[simp] theorem estopInactive_frame (s : State) :
    (estopInactive s).pending = s.pending ∧ (estopInactive s).rtu = s.rtu ∧ (estopInactive s).rcu = s.rcu ∧
    (estopInactive s).ptu = s.ptu ∧ (estopInactive s).peers = s.peers ∧ (estopInactive s).iiu = s.iiu ∧
    (estopInactive s).ss = s.ss ∧ (estopInactive s).result = s.result := by
  simp only [estopInactive]; (repeat' split) <;> simp

@[simp] theorem endStart_frame (s : State) :
    (endStart s).pending = s.pending ∧ (endStart s).peers = s.peers := by
  simp only [endStart]; (repeat' split) <;> simp

@[simp] theorem silenceStops_frame (old : StationState) (s : State) :
    (silenceStops old s).pending = s.pending ∧ (silenceStops old s).peers = s.peers := by
  simp only [silenceStops]; (repeat' split) <;> simp

@[simp] theorem silence_frame (s : State) :
    (silence s).pending = s.pending ∧ (silence s).peers = s.peers := by
  simp [silence]

@[simp] theorem refuse_frame (c : HostCmd) (why : RefuseReason) (s : State) :
    (refuse c why s).pending = s.pending ∧ (refuse c why s).vc = s.vc ∧ (refuse c why s).rtu = s.rtu ∧
    (refuse c why s).rcu = s.rcu ∧ (refuse c why s).ptu = s.ptu ∧ (refuse c why s).fe = s.fe ∧
    (refuse c why s).lc = s.lc ∧ (refuse c why s).peers = s.peers ∧ (refuse c why s).ru = s.ru ∧
    (refuse c why s).pc = s.pc ∧ (refuse c why s).scu = s.scu ∧ (refuse c why s).iiu = s.iiu ∧
    (refuse c why s).cp = s.cp ∧ (refuse c why s).ss = s.ss ∧ (refuse c why s).result = s.result := by
  simp [refuse]

@[simp] theorem accept_frame (c : HostCmd) (s : State) :
    (accept c s).pending = s.pending ∧ (accept c s).vc = s.vc ∧ (accept c s).rtu = s.rtu ∧ (accept c s).rcu = s.rcu ∧
    (accept c s).ptu = s.ptu ∧ (accept c s).fe = s.fe ∧ (accept c s).lc = s.lc ∧ (accept c s).peers = s.peers ∧
    (accept c s).ru = s.ru ∧ (accept c s).pc = s.pc ∧ (accept c s).scu = s.scu ∧ (accept c s).iiu = s.iiu ∧
    (accept c s).cp = s.cp ∧ (accept c s).ss = s.ss ∧ (accept c s).result = s.result := by
  simp [accept]

@[simp] theorem actVisit_frame (p : List Byte) (s : State) :
    (actVisit p s).pending = s.pending ∧ (actVisit p s).peers = s.peers ∧ (actVisit p s).scu = s.scu ∧
    (actVisit p s).iiu = s.iiu ∧ (actVisit p s).ss = s.ss ∧ (actVisit p s).result = s.result := by
  simp only [actVisit]; (repeat' split) <;> simp

@[simp] theorem measureDrops_frame (s : State) :
    (measureDrops s).pending = s.pending ∧ (measureDrops s).vc = s.vc ∧ (measureDrops s).rtu = s.rtu ∧
    (measureDrops s).rcu = s.rcu ∧ (measureDrops s).ptu = s.ptu ∧ (measureDrops s).fe = s.fe ∧
    (measureDrops s).lc = s.lc ∧ (measureDrops s).peers = s.peers ∧ (measureDrops s).scu = s.scu ∧
    (measureDrops s).iiu = s.iiu ∧ (measureDrops s).cp = s.cp ∧ (measureDrops s).ss = s.ss ∧
    (measureDrops s).result = s.result ∧ (measureDrops s).out = s.out := by
  simp only [measureDrops]; (repeat' split) <;> simp

@[simp] theorem actMeasure_frame (_xp : List Byte) (s : State) :
    (actMeasure _xp s).pending = s.pending ∧ (actMeasure _xp s).peers = s.peers ∧ (actMeasure _xp s).scu = s.scu ∧
    (actMeasure _xp s).iiu = s.iiu ∧ (actMeasure _xp s).ss = s.ss ∧ (actMeasure _xp s).result = s.result := by
  simp only [actMeasure]; (repeat' split) <;> simp

@[simp] theorem actCut_frame (_xp : List Byte) (s : State) :
    (actCut _xp s).pending = s.pending ∧ (actCut _xp s).rtu = s.rtu ∧ (actCut _xp s).rcu = s.rcu ∧
    (actCut _xp s).ptu = s.ptu ∧ (actCut _xp s).fe = s.fe ∧ (actCut _xp s).peers = s.peers ∧
    (actCut _xp s).iiu = s.iiu ∧ (actCut _xp s).ss = s.ss ∧ (actCut _xp s).result = s.result := by
  simp only [actCut]; (repeat' split) <;> simp

@[simp] theorem actHold_frame (_xp : List Byte) (s : State) :
    (actHold _xp s).pending = s.pending ∧ (actHold _xp s).rtu = s.rtu ∧ (actHold _xp s).rcu = s.rcu ∧
    (actHold _xp s).ptu = s.ptu ∧ (actHold _xp s).fe = s.fe ∧ (actHold _xp s).peers = s.peers ∧
    (actHold _xp s).iiu = s.iiu ∧ (actHold _xp s).cp = s.cp ∧ (actHold _xp s).ss = s.ss ∧
    (actHold _xp s).result = s.result := by
  simp only [actHold]; (repeat' split) <;> simp

@[simp] theorem actResume_frame (_xp : List Byte) (s : State) :
    (actResume _xp s).pending = s.pending ∧ (actResume _xp s).rtu = s.rtu ∧ (actResume _xp s).rcu = s.rcu ∧
    (actResume _xp s).ptu = s.ptu ∧ (actResume _xp s).fe = s.fe ∧ (actResume _xp s).peers = s.peers ∧
    (actResume _xp s).iiu = s.iiu ∧ (actResume _xp s).cp = s.cp ∧ (actResume _xp s).ss = s.ss ∧
    (actResume _xp s).result = s.result := by
  simp only [actResume]; (repeat' split) <;> simp

@[simp] theorem actFeed_frame (p : List Byte) (s : State) :
    (actFeed p s).pending = s.pending ∧ (actFeed p s).vc = s.vc ∧ (actFeed p s).rtu = s.rtu ∧
    (actFeed p s).rcu = s.rcu ∧ (actFeed p s).ptu = s.ptu ∧ (actFeed p s).fe = s.fe ∧ (actFeed p s).lc = s.lc ∧
    (actFeed p s).peers = s.peers ∧ (actFeed p s).ru = s.ru ∧ (actFeed p s).scu = s.scu ∧ (actFeed p s).iiu = s.iiu ∧
    (actFeed p s).cp = s.cp ∧ (actFeed p s).ss = s.ss ∧ (actFeed p s).result = s.result := by
  simp only [actFeed]; (repeat' split) <;> simp

@[simp] theorem actWithdraw_frame (p : List Byte) (s : State) :
    (actWithdraw p s).pending = s.pending ∧ (actWithdraw p s).peers = s.peers ∧ (actWithdraw p s).iiu = s.iiu ∧
    (actWithdraw p s).ss = s.ss := by
  simp only [actWithdraw]; (repeat' split) <;> simp

@[simp] theorem actRelease_frame (p : List Byte) (s : State) :
    (actRelease p s).pending = s.pending ∧ (actRelease p s).peers = s.peers ∧ (actRelease p s).iiu = s.iiu ∧
    (actRelease p s).ss = s.ss := by
  simp only [actRelease]; (repeat' split) <;> simp

@[simp] theorem actCalibrate_frame (p : List Byte) (s : State) :
    (actCalibrate p s).pending = s.pending ∧ (actCalibrate p s).ptu = s.ptu ∧ (actCalibrate p s).fe = s.fe ∧
    (actCalibrate p s).lc = s.lc ∧ (actCalibrate p s).peers = s.peers ∧ (actCalibrate p s).ru = s.ru ∧
    (actCalibrate p s).pc = s.pc ∧ (actCalibrate p s).scu = s.scu ∧ (actCalibrate p s).iiu = s.iiu ∧
    (actCalibrate p s).cp = s.cp ∧ (actCalibrate p s).result = s.result := by
  simp only [actCalibrate]; (repeat' split) <;> simp

@[simp] theorem actUnlock_frame (p : List Byte) (s : State) :
    (actUnlock p s).pending = s.pending ∧ (actUnlock p s).vc = s.vc ∧ (actUnlock p s).rtu = s.rtu ∧
    (actUnlock p s).rcu = s.rcu ∧ (actUnlock p s).ptu = s.ptu ∧ (actUnlock p s).fe = s.fe ∧
    (actUnlock p s).lc = s.lc ∧ (actUnlock p s).peers = s.peers ∧ (actUnlock p s).ru = s.ru ∧
    (actUnlock p s).pc = s.pc ∧ (actUnlock p s).scu = s.scu ∧ (actUnlock p s).iiu = s.iiu ∧
    (actUnlock p s).ss = s.ss ∧ (actUnlock p s).result = s.result := by
  simp only [actUnlock]; (repeat' split) <;> simp

@[simp] theorem actWriteSettings_frame (unlock : UnlockState) (p : List Byte) (s : State) :
    (actWriteSettings unlock p s).pending = s.pending ∧ (actWriteSettings unlock p s).vc = s.vc ∧
    (actWriteSettings unlock p s).rtu = s.rtu ∧ (actWriteSettings unlock p s).rcu = s.rcu ∧
    (actWriteSettings unlock p s).ptu = s.ptu ∧ (actWriteSettings unlock p s).fe = s.fe ∧
    (actWriteSettings unlock p s).lc = s.lc ∧ (actWriteSettings unlock p s).peers = s.peers ∧
    (actWriteSettings unlock p s).ru = s.ru ∧ (actWriteSettings unlock p s).pc = s.pc ∧
    (actWriteSettings unlock p s).scu = s.scu ∧ (actWriteSettings unlock p s).iiu = s.iiu ∧
    (actWriteSettings unlock p s).cp = s.cp ∧ (actWriteSettings unlock p s).result = s.result := by
  simp only [actWriteSettings]; (repeat' split) <;> simp

@[simp] theorem actReadSettings_frame (p : List Byte) (s : State) :
    (actReadSettings p s).pending = s.pending ∧ (actReadSettings p s).vc = s.vc ∧ (actReadSettings p s).rtu = s.rtu ∧
    (actReadSettings p s).rcu = s.rcu ∧ (actReadSettings p s).ptu = s.ptu ∧ (actReadSettings p s).fe = s.fe ∧
    (actReadSettings p s).lc = s.lc ∧ (actReadSettings p s).peers = s.peers ∧ (actReadSettings p s).ru = s.ru ∧
    (actReadSettings p s).pc = s.pc ∧ (actReadSettings p s).scu = s.scu ∧ (actReadSettings p s).iiu = s.iiu ∧
    (actReadSettings p s).cp = s.cp ∧ (actReadSettings p s).ss = s.ss ∧ (actReadSettings p s).result = s.result := by
  simp only [actReadSettings]; (repeat' split) <;> simp

@[simp] theorem clearStatus_frame (s : State) :
    (clearStatus s).pending = s.pending ∧ (clearStatus s).vc = s.vc ∧ (clearStatus s).rtu = s.rtu ∧
    (clearStatus s).rcu = s.rcu ∧ (clearStatus s).ptu = s.ptu ∧ (clearStatus s).fe = s.fe ∧
    (clearStatus s).lc = s.lc ∧ (clearStatus s).peers = s.peers ∧ (clearStatus s).ru = s.ru ∧
    (clearStatus s).pc = s.pc ∧ (clearStatus s).scu = s.scu ∧ (clearStatus s).iiu = s.iiu ∧
    (clearStatus s).ss = s.ss ∧ (clearStatus s).result = s.result ∧ (clearStatus s).out = s.out := by
  simp [clearStatus]

@[simp] theorem actReadStatus_frame (s : State) :
    (actReadStatus s).pending = s.pending ∧ (actReadStatus s).vc = s.vc ∧ (actReadStatus s).rtu = s.rtu ∧
    (actReadStatus s).rcu = s.rcu ∧ (actReadStatus s).ptu = s.ptu ∧ (actReadStatus s).fe = s.fe ∧
    (actReadStatus s).lc = s.lc ∧ (actReadStatus s).peers = s.peers ∧ (actReadStatus s).ru = s.ru ∧
    (actReadStatus s).pc = s.pc ∧ (actReadStatus s).scu = s.scu ∧ (actReadStatus s).iiu = s.iiu ∧
    (actReadStatus s).ss = s.ss ∧ (actReadStatus s).result = s.result := by
  simp [actReadStatus]

@[simp] theorem actReadResult_frame (s : State) :
    (actReadResult s).pending = s.pending ∧ (actReadResult s).vc = s.vc ∧ (actReadResult s).rtu = s.rtu ∧
    (actReadResult s).rcu = s.rcu ∧ (actReadResult s).ptu = s.ptu ∧ (actReadResult s).fe = s.fe ∧
    (actReadResult s).lc = s.lc ∧ (actReadResult s).peers = s.peers ∧ (actReadResult s).ru = s.ru ∧
    (actReadResult s).pc = s.pc ∧ (actReadResult s).scu = s.scu ∧ (actReadResult s).iiu = s.iiu ∧
    (actReadResult s).ss = s.ss ∧ (actReadResult s).result = s.result := by
  simp only [actReadResult]; (repeat' split) <;> simp

@[simp] theorem actReadPeers_frame (s : State) :
    (actReadPeers s).pending = s.pending ∧ (actReadPeers s).vc = s.vc ∧ (actReadPeers s).rtu = s.rtu ∧
    (actReadPeers s).rcu = s.rcu ∧ (actReadPeers s).ptu = s.ptu ∧ (actReadPeers s).fe = s.fe ∧
    (actReadPeers s).lc = s.lc ∧ (actReadPeers s).peers = s.peers ∧ (actReadPeers s).ru = s.ru ∧
    (actReadPeers s).pc = s.pc ∧ (actReadPeers s).scu = s.scu ∧ (actReadPeers s).iiu = s.iiu ∧
    (actReadPeers s).cp = s.cp ∧ (actReadPeers s).ss = s.ss ∧ (actReadPeers s).result = s.result := by
  simp [actReadPeers]

@[simp] theorem actReadPasses_frame (s : State) :
    (actReadPasses s).pending = s.pending ∧ (actReadPasses s).vc = s.vc ∧ (actReadPasses s).rtu = s.rtu ∧
    (actReadPasses s).rcu = s.rcu ∧ (actReadPasses s).ptu = s.ptu ∧ (actReadPasses s).fe = s.fe ∧
    (actReadPasses s).lc = s.lc ∧ (actReadPasses s).peers = s.peers ∧ (actReadPasses s).ru = s.ru ∧
    (actReadPasses s).pc = s.pc ∧ (actReadPasses s).scu = s.scu ∧ (actReadPasses s).iiu = s.iiu ∧
    (actReadPasses s).cp = s.cp ∧ (actReadPasses s).ss = s.ss ∧ (actReadPasses s).result = s.result := by
  simp [actReadPasses]

@[simp] theorem actCommand_frame (c : HostCmd) (p : List Byte) (unlock : UnlockState) (s : State) :
    (actCommand c p unlock s).pending = s.pending ∧ (actCommand c p unlock s).peers = s.peers ∧
    (actCommand c p unlock s).iiu = s.iiu := by
  simp only [actCommand]; (repeat' split) <;> simp

@[simp] theorem commandTaken_frame (s : State) :
    (commandTaken s).pending = s.pending ∧ (commandTaken s).vc = s.vc ∧ (commandTaken s).rtu = s.rtu ∧
    (commandTaken s).rcu = s.rcu ∧ (commandTaken s).ptu = s.ptu ∧ (commandTaken s).fe = s.fe ∧
    (commandTaken s).lc = s.lc ∧ (commandTaken s).peers = s.peers ∧ (commandTaken s).ru = s.ru ∧
    (commandTaken s).pc = s.pc ∧ (commandTaken s).scu = s.scu ∧ (commandTaken s).iiu = s.iiu ∧
    (commandTaken s).ss = s.ss ∧ (commandTaken s).result = s.result ∧ (commandTaken s).out = s.out := by
  simp only [commandTaken]; (repeat' split) <;> simp

@[simp] theorem takeCommand_frame (c : HostCmd) (p : List Byte) (s : State) :
    (takeCommand c p s).pending = s.pending ∧ (takeCommand c p s).peers = s.peers ∧
    (takeCommand c p s).iiu = s.iiu := by
  simp only [takeCommand]; (repeat' split) <;> simp

@[simp] theorem discardFrame_frame (s : State) :
    (discardFrame s).pending = s.pending ∧ (discardFrame s).vc = s.vc ∧ (discardFrame s).rtu = s.rtu ∧
    (discardFrame s).rcu = s.rcu ∧ (discardFrame s).ptu = s.ptu ∧ (discardFrame s).fe = s.fe ∧
    (discardFrame s).lc = s.lc ∧ (discardFrame s).peers = s.peers ∧ (discardFrame s).ru = s.ru ∧
    (discardFrame s).pc = s.pc ∧ (discardFrame s).scu = s.scu ∧ (discardFrame s).iiu = s.iiu ∧
    (discardFrame s).ss = s.ss ∧ (discardFrame s).result = s.result ∧ (discardFrame s).out = s.out := by
  simp [discardFrame]

@[simp] theorem cpSubmit_frame (c : HostCmd) (p : List Byte) (s : State) :
    (cpSubmit c p s).pending = s.pending ∧ (cpSubmit c p s).peers = s.peers ∧ (cpSubmit c p s).iiu = s.iiu := by
  simp only [cpSubmit]; (repeat' split) <;> simp

@[simp] theorem takeWaiting_frame (s : State) :
    (takeWaiting s).pending = s.pending ∧ (takeWaiting s).peers = s.peers ∧ (takeWaiting s).iiu = s.iiu := by
  simp only [takeWaiting]; (repeat' split) <;> simp

@[simp] theorem hostWriteEnd_frame (misread : List (Nat × Byte)) (s : State) :
    (hostWriteEnd misread s).pending = s.pending ∧ (hostWriteEnd misread s).peers = s.peers ∧
    (hostWriteEnd misread s).iiu = s.iiu := by
  simp only [hostWriteEnd]; (repeat' split) <;> simp

@[simp] theorem calWriteEnd_frame (misread : List (Nat × Byte)) (s : State) :
    (calWriteEnd misread s).pending = s.pending ∧ (calWriteEnd misread s).rcu = s.rcu ∧
    (calWriteEnd misread s).ptu = s.ptu ∧ (calWriteEnd misread s).fe = s.fe ∧ (calWriteEnd misread s).lc = s.lc ∧
    (calWriteEnd misread s).peers = s.peers ∧ (calWriteEnd misread s).ru = s.ru ∧ (calWriteEnd misread s).pc = s.pc ∧
    (calWriteEnd misread s).scu = s.scu ∧ (calWriteEnd misread s).iiu = s.iiu := by
  simp only [calWriteEnd]; (repeat' split) <;> simp

@[simp] theorem refresh_frame (s : State) :
    (refresh s).pending = s.pending ∧ (refresh s).vc = s.vc ∧ (refresh s).rtu = s.rtu ∧ (refresh s).rcu = s.rcu ∧
    (refresh s).ptu = s.ptu ∧ (refresh s).fe = s.fe ∧ (refresh s).peers = s.peers ∧ (refresh s).ru = s.ru ∧
    (refresh s).pc = s.pc ∧ (refresh s).scu = s.scu ∧ (refresh s).iiu = s.iiu ∧ (refresh s).cp = s.cp ∧
    (refresh s).ss = s.ss ∧ (refresh s).result = s.result ∧ (refresh s).out = s.out := by
  simp only [refresh]; (repeat' split) <;> simp

@[simp] theorem announce_frame (s : State) :
    (announce s).pending = s.pending ∧ (announce s).vc = s.vc ∧ (announce s).rtu = s.rtu ∧ (announce s).rcu = s.rcu ∧
    (announce s).ptu = s.ptu ∧ (announce s).fe = s.fe ∧ (announce s).peers = s.peers ∧ (announce s).ru = s.ru ∧
    (announce s).pc = s.pc ∧ (announce s).scu = s.scu ∧ (announce s).iiu = s.iiu ∧ (announce s).cp = s.cp ∧
    (announce s).ss = s.ss ∧ (announce s).result = s.result ∧ (announce s).out = s.out := by
  simp only [announce]; (repeat' split) <;> simp

@[simp] theorem listenExpiry_frame (s : State) :
    (listenExpiry s).pending = s.pending ∧ (listenExpiry s).peers = s.peers := by
  simp only [listenExpiry]; (repeat' split) <;> simp

@[simp] theorem transmissionFailed_frame (s : State) :
    (transmissionFailed s).pending = s.pending ∧ (transmissionFailed s).vc = s.vc ∧
    (transmissionFailed s).rtu = s.rtu ∧ (transmissionFailed s).rcu = s.rcu ∧ (transmissionFailed s).ptu = s.ptu ∧
    (transmissionFailed s).fe = s.fe ∧ (transmissionFailed s).peers = s.peers ∧ (transmissionFailed s).ru = s.ru ∧
    (transmissionFailed s).pc = s.pc ∧ (transmissionFailed s).iiu = s.iiu ∧ (transmissionFailed s).cp = s.cp ∧
    (transmissionFailed s).ss = s.ss ∧ (transmissionFailed s).result = s.result ∧
    (transmissionFailed s).out = s.out := by
  simp only [transmissionFailed]; (repeat' split) <;> simp

@[simp] theorem goListenOnly_frame (s : State) :
    (goListenOnly s).pending = s.pending ∧ (goListenOnly s).vc = s.vc ∧ (goListenOnly s).rtu = s.rtu ∧
    (goListenOnly s).rcu = s.rcu ∧ (goListenOnly s).ptu = s.ptu ∧ (goListenOnly s).fe = s.fe ∧
    (goListenOnly s).peers = s.peers ∧ (goListenOnly s).ru = s.ru ∧ (goListenOnly s).pc = s.pc ∧
    (goListenOnly s).scu = s.scu ∧ (goListenOnly s).iiu = s.iiu ∧ (goListenOnly s).ss = s.ss ∧
    (goListenOnly s).result = s.result ∧ (goListenOnly s).out = s.out := by
  simp [goListenOnly]

@[simp] theorem reportSent_frame (e : QEntry) (s : State) :
    (reportSent e s).pending = s.pending ∧ (reportSent e s).rtu = s.rtu ∧ (reportSent e s).rcu = s.rcu ∧
    (reportSent e s).ptu = s.ptu ∧ (reportSent e s).fe = s.fe ∧ (reportSent e s).peers = s.peers ∧
    (reportSent e s).iiu = s.iiu ∧ (reportSent e s).cp = s.cp ∧ (reportSent e s).ss = s.ss ∧
    (reportSent e s).result = s.result := by
  simp only [reportSent]; (repeat' split) <;> simp

@[simp] theorem ruPlans_frame (before : List ViewEntry) (s : State) :
    (ruPlans before s).pending = s.pending ∧ (ruPlans before s).rtu = s.rtu ∧ (ruPlans before s).rcu = s.rcu ∧
    (ruPlans before s).ptu = s.ptu ∧ (ruPlans before s).peers = s.peers ∧ (ruPlans before s).iiu = s.iiu ∧
    (ruPlans before s).ss = s.ss ∧ (ruPlans before s).result = s.result := by
  simp only [ruPlans]; (repeat' split) <;> simp

@[simp] theorem ruReport_frame (told : Bool) (before : List ViewEntry) (s : State) :
    (ruReport told before s).pending = s.pending ∧ (ruReport told before s).rtu = s.rtu ∧ (ruReport told before s).rcu = s.rcu ∧
    (ruReport told before s).ptu = s.ptu ∧ (ruReport told before s).peers = s.peers ∧ (ruReport told before s).iiu = s.iiu ∧
    (ruReport told before s).ss = s.ss ∧ (ruReport told before s).result = s.result := by
  simp only [ruReport]; (repeat' split) <;> simp

@[simp] theorem deliverState_frame (n : Fin 16) (p : PeerState) (s : State) :
    (deliverState n p s).pending = s.pending ∧ (deliverState n p s).rtu = s.rtu ∧ (deliverState n p s).rcu = s.rcu ∧
    (deliverState n p s).ptu = s.ptu ∧ (deliverState n p s).iiu = s.iiu ∧ (deliverState n p s).ss = s.ss ∧
    (deliverState n p s).result = s.result := by
  simp only [deliverState]; (repeat' split) <;> simp

@[simp] theorem deliverCeiling_frame (n : Fin 16) (c : StoredCeiling) (s : State) :
    (deliverCeiling n c s).pending = s.pending ∧ (deliverCeiling n c s).rtu = s.rtu ∧
    (deliverCeiling n c s).rcu = s.rcu ∧ (deliverCeiling n c s).ptu = s.ptu ∧ (deliverCeiling n c s).iiu = s.iiu ∧
    (deliverCeiling n c s).ss = s.ss ∧ (deliverCeiling n c s).result = s.result := by
  simp [deliverCeiling]

@[simp] theorem deliverIntent_frame (n : Fin 16) (i : Intent) (s : State) :
    (deliverIntent n i s).pending = s.pending ∧ (deliverIntent n i s).rtu = s.rtu ∧
    (deliverIntent n i s).rcu = s.rcu ∧ (deliverIntent n i s).ptu = s.ptu ∧ (deliverIntent n i s).iiu = s.iiu ∧
    (deliverIntent n i s).ss = s.ss ∧ (deliverIntent n i s).result = s.result := by
  simp [deliverIntent]

@[simp] theorem deliverClaim_frame (n : Fin 16) (pass : Nat) (s : State) :
    (deliverClaim n pass s).pending = s.pending ∧ (deliverClaim n pass s).rtu = s.rtu ∧
    (deliverClaim n pass s).rcu = s.rcu ∧ (deliverClaim n pass s).ptu = s.ptu ∧ (deliverClaim n pass s).iiu = s.iiu ∧
    (deliverClaim n pass s).ss = s.ss ∧ (deliverClaim n pass s).result = s.result := by
  simp [deliverClaim]

@[simp] theorem deliverRelease_frame (n : Fin 16) (s : State) :
    (deliverRelease n s).pending = s.pending ∧ (deliverRelease n s).rtu = s.rtu ∧ (deliverRelease n s).rcu = s.rcu ∧
    (deliverRelease n s).ptu = s.ptu ∧ (deliverRelease n s).iiu = s.iiu ∧ (deliverRelease n s).ss = s.ss ∧
    (deliverRelease n s).result = s.result := by
  simp [deliverRelease]

@[simp] theorem receiveError_frame (s : State) :
    (receiveError s).pending = s.pending ∧ (receiveError s).vc = s.vc ∧ (receiveError s).rtu = s.rtu ∧
    (receiveError s).rcu = s.rcu ∧ (receiveError s).ptu = s.ptu ∧ (receiveError s).fe = s.fe ∧
    (receiveError s).peers = s.peers ∧ (receiveError s).ru = s.ru ∧ (receiveError s).pc = s.pc ∧
    (receiveError s).scu = s.scu ∧ (receiveError s).iiu = s.iiu ∧ (receiveError s).cp = s.cp ∧
    (receiveError s).ss = s.ss ∧ (receiveError s).result = s.result ∧ (receiveError s).out = s.out := by
  simp [receiveError]

@[simp] theorem clampedChanged_frame (v : Bool) (s : State) :
    (clampedChanged v s).pending = s.pending ∧ (clampedChanged v s).peers = s.peers := by
  simp only [clampedChanged]; (repeat' split) <;> simp

@[simp] theorem guardChanged_frame (v : Bool) (s : State) :
    (guardChanged v s).pending = s.pending ∧ (guardChanged v s).rtu = s.rtu ∧ (guardChanged v s).rcu = s.rcu ∧
    (guardChanged v s).ptu = s.ptu ∧ (guardChanged v s).fe = s.fe ∧ (guardChanged v s).peers = s.peers ∧
    (guardChanged v s).iiu = s.iiu ∧ (guardChanged v s).cp = s.cp ∧ (guardChanged v s).ss = s.ss ∧
    (guardChanged v s).result = s.result := by
  simp only [guardChanged]; (repeat' split) <;> simp

@[simp] theorem homeEdge_frame (w : Wheel) (s : State) :
    (homeEdge w s).pending = s.pending ∧ (homeEdge w s).rtu = s.rtu ∧ (homeEdge w s).rcu = s.rcu ∧
    (homeEdge w s).ptu = s.ptu ∧ (homeEdge w s).peers = s.peers ∧ (homeEdge w s).ss = s.ss ∧
    (homeEdge w s).result = s.result := by
  simp [homeEdge]

@[simp] theorem inputChanged_frame (i : Input) (v : Bool) (s : State) :
    (inputChanged i v s).pending = s.pending ∧ (inputChanged i v s).peers = s.peers := by
  simp only [inputChanged]; (repeat' split) <;> simp

@[simp] theorem strayReturn_frame (s : State) :
    (strayReturn s).pending = s.pending ∧ (strayReturn s).vc = s.vc ∧ (strayReturn s).rtu = s.rtu ∧
    (strayReturn s).rcu = s.rcu ∧ (strayReturn s).ptu = s.ptu ∧ (strayReturn s).fe = s.fe ∧
    (strayReturn s).lc = s.lc ∧ (strayReturn s).peers = s.peers ∧ (strayReturn s).ru = s.ru ∧
    (strayReturn s).scu = s.scu ∧ (strayReturn s).iiu = s.iiu ∧ (strayReturn s).cp = s.cp ∧
    (strayReturn s).ss = s.ss ∧ (strayReturn s).result = s.result ∧ (strayReturn s).out = s.out := by
  simp [strayReturn]

end Sys2Proof.Machine
end

