-- ==== Sys2Proof/Laws/Image.lean ====
section
/-! SUPPORT. What the operations of the settings image do: a byte stored reads back, every other byte stays, and the
canonical form is kept. -/

namespace Sys2Proof.Machine

open Sys2Proof

/-- Every offset below the least of a canonical list of cells reads as shipped. -/
theorem imageGet_below (m : Image) (least a : Nat) (h : cellsWf least m = true) (ha : a < least) :
    imageGet m a = shippedByte a := by
  induction m generalizing least with
  | nil => rfl
  | cons c t ih =>
    obtain ⟨k, v⟩ := c
    simp only [cellsWf, Bool.and_eq_true, decide_eq_true_eq] at h
    have hk : k ≠ a := by omega
    simp only [imageGet, if_neg hk]
    exact ih (k + 1) h.2 (by omega)

/-- A lower bound on the offsets may be lowered. -/
theorem cellsWf_mono (m : Image) (i j : Nat) (hij : i ≤ j) (h : cellsWf j m = true) : cellsWf i m = true := by
  cases m with
  | nil => rfl
  | cons c t =>
    obtain ⟨k, v⟩ := c
    simp only [cellsWf, Bool.and_eq_true, decide_eq_true_eq] at *
    exact ⟨⟨⟨by omega, h.1.1.2⟩, h.1.2⟩, h.2⟩

/-- A byte stored keeps the canonical form. -/
theorem cellsWf_cellsPut (m : Image) (least a : Nat) (b : Byte) (h : cellsWf least m = true) (hl : least ≤ a)
    (ha : a < imageSize) : cellsWf least (cellsPut m a b) = true := by
  induction m generalizing least with
  | nil =>
    unfold cellsPut
    split
    · rfl
    · simp [cellsWf, *]
  | cons c t ih =>
    obtain ⟨k, v⟩ := c
    have h0 := h
    simp only [cellsWf, Bool.and_eq_true, decide_eq_true_eq] at h
    obtain ⟨⟨⟨h1, h2⟩, h3⟩, h4⟩ := h
    unfold cellsPut
    split
    · rename_i hk
      simp only [cellsWf, Bool.and_eq_true, decide_eq_true_eq]
      exact ⟨⟨⟨h1, h2⟩, h3⟩, ih (k + 1) h4 (by omega)⟩
    · split
      · rename_i hk
        subst hk
        split
        · exact cellsWf_mono t least (k + 1) (by omega) h4
        · rename_i hb
          simp only [cellsWf, Bool.and_eq_true, decide_eq_true_eq]
          exact ⟨⟨⟨h1, h2⟩, hb⟩, h4⟩
      · split
        · exact h0
        · rename_i hb
          simp only [cellsWf, Bool.and_eq_true, decide_eq_true_eq]
          exact ⟨⟨⟨hl, ha⟩, hb⟩, ⟨⟨by omega, h2⟩, h3⟩, h4⟩

/-- What an offset reads after a byte is stored. -/
theorem imageGet_cellsPut (m : Image) (least a x : Nat) (b : Byte) (h : cellsWf least m = true) :
    imageGet (cellsPut m a b) x = if x = a then b else imageGet m x := by
  induction m generalizing least with
  | nil =>
    unfold cellsPut
    split
    · rename_i hb
      by_cases hx : x = a
      · subst hx; simp [imageGet, hb]
      · simp [imageGet, hx]
    · by_cases hx : x = a
      · subst hx; simp [imageGet]
      · simp [imageGet, hx, Ne.symm hx]
  | cons c t ih =>
    obtain ⟨k, v⟩ := c
    simp only [cellsWf, Bool.and_eq_true, decide_eq_true_eq] at h
    obtain ⟨⟨⟨h1, h2⟩, h3⟩, h4⟩ := h
    unfold cellsPut
    split
    · rename_i hk
      simp only [imageGet, ih (k + 1) h4]
      by_cases hx : x = a
      · simp [hx]; intro; omega
      · simp [hx]
    · split
      · rename_i hk
        subst hk
        split
        · rename_i hb
          by_cases hx : x = k
          · subst hx; simp [imageGet_below t (x + 1) x h4 (by omega), hb]
          · simp [imageGet, hx, Ne.symm hx]
        · by_cases hx : x = k
          · subst hx; simp [imageGet]
          · simp [imageGet, hx, Ne.symm hx]
      · have hlt : a < k := by omega
        split
        · rename_i hb
          by_cases hx : x = a
          · subst hx
            have : k ≠ x := by omega
            simp [imageGet, this, imageGet_below t (k + 1) x h4 (by omega), hb]
          · simp [imageGet, hx]
        · by_cases hx : x = a
          · subst hx; simp [imageGet]
          · simp [imageGet, hx, Ne.symm hx]

/-- One byte stored keeps the canonical form. -/
theorem imageWf_imagePut (m : Image) (a : Nat) (b : Byte) (h : imageWf m = true) : imageWf (imagePut m a b) = true := by
  unfold imagePut
  split
  · exact cellsWf_cellsPut m 0 a b h (by omega) ‹_›
  · exact h

/-- A stored byte reads back, and every other byte stays. -/
theorem imageGet_imagePut (m : Image) (a x : Nat) (b : Byte) (h : imageWf m = true) :
    imageGet (imagePut m a b) x = if x = a ∧ a < imageSize then b else imageGet m x := by
  unfold imagePut
  split
  · rename_i ha
    simp [imageGet_cellsPut m 0 a x b h, ha]
  · rename_i ha
    simp [ha]

/-- Several bytes stored keep the canonical form. -/
theorem imageWf_imagePutAll (ws : List (Nat × Byte)) (m : Image) (h : imageWf m = true) :
    imageWf (imagePutAll m ws) = true := by
  induction ws generalizing m with
  | nil => exact h
  | cons w t ih => exact ih _ (imageWf_imagePut m w.1 w.2 h)

/-- An offset that none of the stored bytes names reads as before. -/
theorem imageGet_imagePutAll_other (ws : List (Nat × Byte)) (m : Image) (x : Nat) (h : imageWf m = true)
    (hx : ∀ w ∈ ws, w.1 ≠ x) : imageGet (imagePutAll m ws) x = imageGet m x := by
  induction ws generalizing m with
  | nil => rfl
  | cons w t ih =>
    have hw : x ≠ w.1 := fun e => hx w (.head _) e.symm
    show imageGet (imagePutAll (imagePut m w.1 w.2) t) x = _
    rw [ih _ (imageWf_imagePut m w.1 w.2 h) fun y hy => hx y (.tail _ hy), imageGet_imagePut m w.1 x w.2 h]
    simp [hw]

/-- A write of the store keeps the canonical form, and remembers the image it began from. -/
theorem imageWf_beginWrite (m : Image) (off : Nat) (data : List Byte) (h : imageWf m = true) :
    imageWf (beginWrite m off data).1 = true ∧ (beginWrite m off data).2.before = m :=
  ⟨imageWf_imagePutAll _ m h, rfl⟩

/-- A readback keeps the canonical form. -/
theorem imageWf_afterReadback (m : Image) (w : StoreWrite) (r : List (Nat × Byte)) (h : imageWf m = true) :
    imageWf (afterReadback m w r) = true := imageWf_imagePutAll _ m h

/-- A write stopped by a reset leaves the canonical form. -/
theorem imageWf_interruptedWrite (w : StoreWrite) (n : Nat) (h : imageWf w.before = true) :
    imageWf (interruptedWrite w n) = true := imageWf_imagePutAll _ _ h

/-- The image as shipped is in canonical form. -/
theorem imageWf_reset : imageWf State.reset.ss.image = true := rfl

end Sys2Proof.Machine
end

