-- ==== Sys2Proof/Laws/Queue.lean ====
section
/-! SUPPORT. What the operations of the transmit queue keep: the class order, the bound of 4, one frame of each
replaceable kind (R93 to R96). -/

namespace Sys2Proof.Machine

open Sys2Proof

/-- The form of the queue reads the queue and the overflow position alone. -/
theorem txQueueOk_congr {c d : LC} (h1 : c.queue = d.queue) (h2 : c.overflow = d.overflow) : TxQueueOk c ↔ TxQueueOk d := by
  simp [TxQueueOk, framesOfKind, h1, h2]

/-- The frames of one kind, counted in the queue and in the overflow position. -/
theorem framesOfKind_length (k : Nat) (c : LC) : (framesOfKind k c).length =
    (c.queue.filter fun e => e.frame.kindCode == k).length + (c.overflow.toList.filter fun f => f.kindCode == k).length := by
  simp [framesOfKind, List.filter_map, Function.comp_def]

/-- A CLAIM stands in the queue or in the overflow position. -/
theorem claimQueued_iff (c : LC) : claimQueued c = true ↔ framesOfKind 1 c ≠ [] := by
  rw [← List.length_pos_iff_ne_nil, framesOfKind_length]
  cases h : c.overflow <;>
    simp [claimQueued, isClaimEntry, h, List.length_pos_iff_exists_mem, List.filter_cons]

/-- The class follows from the kind (R86). -/
theorem cls_of_kindCode {a b : QFrame} (h : a.kindCode = b.kindCode) : a.cls = b.cls := by
  cases a <;> cases b <;> simp_all [QFrame.kindCode, QFrame.cls]

/-- A placed entry joins the others. -/
theorem queueInsert_perm (e : QEntry) (q : List QEntry) : (queueInsert e q).Perm (e :: q) := by
  induction q with
  | nil => exact .refl _
  | cons h t ih =>
    unfold queueInsert; split
    · exact (ih.cons h).trans (.swap e h t)
    · exact .refl _

/-- A placed entry keeps the class order (R93). -/
theorem queueInsert_sorted (e : QEntry) (q : List QEntry) (h : q.Pairwise (fun a b => a.frame.cls ≤ b.frame.cls)) :
    (queueInsert e q).Pairwise (fun a b => a.frame.cls ≤ b.frame.cls) := by
  induction q with
  | nil => simp [queueInsert]
  | cons x t ih =>
    rw [List.pairwise_cons] at h
    unfold queueInsert; split
    · rename_i hx
      rw [List.pairwise_cons]
      refine ⟨fun y hy => ?_, ih h.2⟩
      rcases List.mem_cons.1 ((queueInsert_perm e t).mem_iff.1 hy) with rfl | hy
      · exact hx
      · exact h.1 y hy
    · rename_i hx
      rw [List.pairwise_cons]
      refine ⟨fun y hy => ?_, List.pairwise_cons.2 h⟩
      rcases List.mem_cons.1 hy with rfl | hy
      · omega
      · have := h.1 y hy; omega

/-- How many entries of a kind stand after one is placed. -/
theorem queueInsert_countKind (k : Nat) (e : QEntry) (q : List QEntry) :
    ((queueInsert e q).filter fun x => x.frame.kindCode == k).length =
      (if e.frame.kindCode = k then 1 else 0) + (q.filter fun x => x.frame.kindCode == k).length := by
  rw [((queueInsert_perm e q).filter _).length_eq, List.filter_cons]
  split
  · simp_all; omega
  · simp_all

/-- A placed entry lengthens the queue by one. -/
theorem queueInsert_length (e : QEntry) (q : List QEntry) : (queueInsert e q).length = q.length + 1 := by
  simpa using (queueInsert_perm e q).length_eq

/-- A change of entries that keeps their kinds keeps the order and the counts. -/
theorem queueMap_keeps (g : QEntry → QEntry) (hg : ∀ e, (g e).frame.kindCode = e.frame.kindCode) (q : List QEntry)
    (h : q.Pairwise (fun a b => a.frame.cls ≤ b.frame.cls)) :
    (q.map g).Pairwise (fun a b => a.frame.cls ≤ b.frame.cls) ∧
    ∀ k, ((q.map g).filter fun x => x.frame.kindCode == k).length = (q.filter fun x => x.frame.kindCode == k).length := by
  constructor
  · rw [List.pairwise_map]; exact h.imp fun {a b} hab => by rw [cls_of_kindCode (hg a), cls_of_kindCode (hg b)]; exact hab
  · intro k; rw [List.filter_map, List.length_map]; congr 2; funext e; simp [hg]

/-- Entries removed keep the order, and no count grows. -/
theorem queueSublist_keeps {q q' : List QEntry} (hs : q'.Sublist q) (h : q.Pairwise (fun a b => a.frame.cls ≤ b.frame.cls)) :
    q'.Pairwise (fun a b => a.frame.cls ≤ b.frame.cls) ∧ q'.length ≤ q.length ∧
    ∀ k, (q'.filter fun x => x.frame.kindCode == k).length ≤ (q.filter fun x => x.frame.kindCode == k).length :=
  ⟨h.sublist hs, hs.length_le, fun _ => (hs.filter _).length_le⟩

/-- A change of entries that keeps their kinds keeps the form. -/
theorem txQueueOk_map (c : LC) (g : QEntry → QEntry) (hg : ∀ e, (g e).frame.kindCode = e.frame.kindCode) (h : TxQueueOk c) :
    TxQueueOk { c with queue := c.queue.map g } := by
  obtain ⟨h1, h2, h3, h4, h5⟩ := h
  have k := queueMap_keeps g hg c.queue h2
  simp only [framesOfKind_length] at h3 h4 h5
  simp only [TxQueueOk, framesOfKind_length, k.2]
  exact ⟨by simpa using h1, k.1, h3, h4, h5⟩

/-- The overflow frame that enters keeps the form (R95). -/
theorem txQueueOk_lcRefill (c : LC) (h : TxQueueOk c) : TxQueueOk (lcRefill c) := by
  unfold lcRefill
  split
  · rename_i f hf
    split
    · rename_i hl
      obtain ⟨h1, h2, h3, h4, h5⟩ := h
      simp only [TxQueueOk, framesOfKind_length, hf] at *
      simp only [queueInsert_countKind, queueInsert_length, QEntry.new]
      refine ⟨hl, queueInsert_sorted _ _ h2, ?_, ?_, ?_⟩
      all_goals simp [List.filter_cons] at *
      · by_cases e : f.kindCode = 3 <;> simp [e] at * <;> omega
      · by_cases e : f.kindCode = 4 <;> simp [e] at * <;> omega
      · by_cases e : f.kindCode = 5 <;> simp [e] at * <;> omega
    · exact h
  · exact h

/-- Entries removed keep the form. -/
theorem txQueueOk_sublist (c : LC) (q : List QEntry) (hs : q.Sublist c.queue) (h : TxQueueOk c) : TxQueueOk { c with queue := q } := by
  obtain ⟨h1, h2, h3, h4, h5⟩ := h
  have := queueSublist_keeps hs h2
  have k := this.2.2
  simp only [TxQueueOk, framesOfKind_length] at *
  refine ⟨by omega, this.1, ?_, ?_, ?_⟩
  · have := k 3; omega
  · have := k 4; omega
  · have := k 5; omega

/-- A queue without a frame of a kind holds none of it. -/
theorem countKind_eq_zero (f : QFrame) (q : List QEntry) (h : q.any (fun e => sameKind e.frame f) = false) :
    (q.filter fun x => x.frame.kindCode == f.kindCode).length = 0 := by
  simp only [List.length_eq_zero_iff, List.filter_eq_nil_iff]
  intro a ha; simp [sameKind] at h; simpa using h a ha

/-- A frame handed to the LC keeps the form (R93 to R95). -/
theorem txQueueOk_lcHand (f : QFrame) (c : LC) (h : TxQueueOk c) : TxQueueOk (lcHand f c) := by
  unfold lcHand
  split
  · apply txQueueOk_map _ _ _ h
    intro e; split
    · rename_i hk; simp [sameKind] at hk; exact hk.symm
    · rfl
  · rename_i hr
    have hany : replaceable f = true → (c.queue.filter fun x => x.frame.kindCode == f.kindCode).length = 0 := by
      intro h1; apply countKind_eq_zero; simpa [h1] using hr
    split
    · rename_i ho
      obtain ⟨h1, h2, h3, h4, h5⟩ := h
      simp only [overflowReplaced, Bool.and_eq_true] at ho
      obtain ⟨hf, ho⟩ := ho
      split at ho
      · rename_i o hoo
        simp [sameKind] at ho
        simp only [framesOfKind_length, hoo, Option.toList, List.filter_cons, ho, List.filter_nil] at h3 h4 h5
        simp only [TxQueueOk, framesOfKind_length, Option.toList, List.filter_cons, List.filter_nil]
        refine ⟨h1, h2, ?_, ?_, ?_⟩
        · by_cases e : f.kindCode = 3 <;> simp [e] at h3 ⊢ <;> omega
        · by_cases e : f.kindCode = 4 <;> simp [e] at h4 ⊢ <;> omega
        · by_cases e : f.kindCode = 5 <;> simp [e] at h5 ⊢ <;> omega
      · cases ho
    · rename_i hno
      have hov : replaceable f = true → (c.overflow.toList.filter fun x => x.kindCode == f.kindCode).length = 0 := by
        intro h1
        simp only [overflowReplaced, h1, Bool.true_and] at hno
        cases hoo : c.overflow with
        | none => simp
        | some o => simp [hoo, sameKind] at hno; simp [hno]
      have hrep : ∀ k, f.kindCode = k → 3 ≤ k → replaceable f = true := by intro k h1 h2; simp [replaceable, h1, h2]
      have key : ∀ (q : List QEntry), q.Sublist c.queue → q.length < 4 → TxQueueOk { c with queue := queueInsert (.new f) q } := by
        intro q hs hl
        obtain ⟨h1, h2, h3, h4, h5⟩ := h
        have sk := queueSublist_keeps hs h2
        have k := sk.2.2
        simp only [TxQueueOk, framesOfKind_length] at *
        simp only [queueInsert_countKind, queueInsert_length, QEntry.new]
        refine ⟨by omega, queueInsert_sorted _ _ sk.1, ?_, ?_, ?_⟩
        · have := k 3; split
          · rename_i e; have a := hany (hrep _ e (by omega)); have b := hov (hrep _ e (by omega)); rw [e] at a b; omega
          · omega
        · have := k 4; split
          · rename_i e; have a := hany (hrep _ e (by omega)); have b := hov (hrep _ e (by omega)); rw [e] at a b; omega
          · omega
        · have := k 5; split
          · rename_i e; have a := hany (hrep _ e (by omega)); have b := hov (hrep _ e (by omega)); rw [e] at a b; omega
          · omega
      unfold lcPlace
      split
      · rename_i hl; exact key _ (.refl _) hl
      · split
        · rename_i q hd
          unfold queueDrop at hd
          have hlen := h.1
          simp only [] at hd
          split at hd
          · rename_i ha
            cases hd
            obtain ⟨a, ha1, ha2⟩ := List.any_eq_true.1 ha
            refine key _ List.eraseP_sublist ?_
            unfold queueErase; rw [List.length_eraseP_of_mem ha1 ha2]; have := List.length_pos_of_mem ha1; omega
          · split at hd
            · rename_i ha
              cases hd
              obtain ⟨a, ha1, ha2⟩ := List.any_eq_true.1 ha
              refine key _ List.eraseP_sublist ?_
              unfold queueErase; rw [List.length_eraseP_of_mem ha1 ha2]; have := List.length_pos_of_mem ha1; omega
            · cases hd
        · unfold lcOverflow
          have hov2 : TxQueueOk { c with overflow := some f } := by
            obtain ⟨h1, h2, h3, h4, h5⟩ := h
            simp only [TxQueueOk, framesOfKind_length] at *
            refine ⟨h1, h2, ?_, ?_, ?_⟩
            all_goals simp only [Option.toList, List.filter_cons, List.filter_nil]
            · split
              · rename_i e; have e' : f.kindCode = 3 := by simpa using e
                have a := hany (hrep _ e' (by omega)); rw [e'] at a; simp only [a, List.length_singleton]; omega
              · simp only [List.length_nil]; omega
            · split
              · rename_i e; have e' : f.kindCode = 4 := by simpa using e
                have a := hany (hrep _ e' (by omega)); rw [e'] at a; simp only [a, List.length_singleton]; omega
              · simp only [List.length_nil]; omega
            · split
              · rename_i e; have e' : f.kindCode = 5 := by simpa using e
                have a := hany (hrep _ e' (by omega)); rw [e'] at a; simp only [a, List.length_singleton]; omega
              · simp only [List.length_nil]; omega
          split
          · exact (txQueueOk_congr rfl rfl).1 hov2
          · split
            · exact hov2
            · exact (txQueueOk_congr rfl rfl).1 h

/-! ## How many frames of a kind stand -/

/-- A map that leaves each entry's kind leaves how many of a kind stand. -/
theorem countKind_map (k : Nat) (c : LC) (g : QEntry → QEntry) (hg : ∀ e, (g e).frame.kindCode = e.frame.kindCode) :
    (framesOfKind k { c with queue := c.queue.map g }).length = (framesOfKind k c).length := by
  simp [framesOfKind_length, List.filter_map, Function.comp_def, hg]

/-- A shorter queue holds no more of a kind. -/
theorem countKind_sublist (k : Nat) (c : LC) (q : List QEntry) (hs : q.Sublist c.queue) :
    (framesOfKind k { c with queue := q }).length ≤ (framesOfKind k c).length := by
  have := (hs.filter fun e => e.frame.kindCode == k).length_le
  simp only [framesOfKind_length]; omega

/-- The overflow frame that enters is counted where it stood and where it stands (R95). -/
theorem countKind_lcRefill (k : Nat) (c : LC) : (framesOfKind k (lcRefill c)).length = (framesOfKind k c).length := by
  unfold lcRefill; split
  · rename_i f hf; split
    · simp only [framesOfKind_length, queueInsert_countKind, QEntry.new, hf, Option.toList, List.filter_cons, List.filter_nil]
      split <;> simp_all; omega
    · rfl
  · rfl

/-- A frame handed to the LC adds at most itself (R93 to R95). -/
theorem countKind_lcHand (k : Nat) (f : QFrame) (c : LC) :
    (framesOfKind k (lcHand f c)).length ≤ (framesOfKind k c).length + if f.kindCode = k then 1 else 0 := by
  have spill : ∀ b, (framesOfKind k { c with overflow := some f, txOverflow := b }).length ≤
      (framesOfKind k c).length + if f.kindCode = k then 1 else 0 := by
    intro b; simp only [framesOfKind_length, Option.toList, List.filter_cons, List.filter_nil]
    by_cases h : f.kindCode = k <;> simp [h]
  have put : ∀ q : List QEntry, q.Sublist c.queue → (framesOfKind k { c with queue := queueInsert (.new f) q }).length ≤
      (framesOfKind k c).length + if f.kindCode = k then 1 else 0 := by
    intro q hs
    have := (hs.filter fun e => e.frame.kindCode == k).length_le
    simp only [framesOfKind_length, queueInsert_countKind, QEntry.new]; omega
  unfold lcHand; split
  · rw [show queueReplace f c.queue = c.queue.map _ from rfl, countKind_map k c _ (by
      intro e; split
      · rename_i h; simp [sameKind] at h; exact h.symm
      · rfl)]
    omega
  · split
    · exact spill c.txOverflow
    · unfold lcPlace; split
      · exact put _ (.refl _)
      · split
        · rename_i q hq
          refine put _ ?_
          unfold queueDrop at hq; simp only [] at hq
          split at hq
          · cases hq; exact List.eraseP_sublist
          · split at hq
            · cases hq; exact List.eraseP_sublist
            · cases hq
        · unfold lcOverflow; split
          · exact spill true
          · split
            · exact spill c.txOverflow
            · show (framesOfKind k c).length ≤ _; omega

/-- A withdrawal adds no frame (R96). -/
theorem countKind_lcWithdraw (k : Nat) (w : Withdraw) (c : LC) :
    (framesOfKind k (lcWithdraw w c).1).length ≤ (framesOfKind k c).length := by
  unfold lcWithdraw; split
  · exact le_rfl
  · split
    · rw [countKind_lcRefill]; exact countKind_sublist k c _ List.eraseP_sublist
    · split
      · exact (countKind_map k c _ (by intro e; split <;> rfl)).le
      · split
        · simp only [framesOfKind_length]; simp
        · exact le_rfl

/-- A frame sent adds none (R88, R94). -/
theorem countKind_lcTxSent (k : Nat) (c : LC) : (framesOfKind k (lcTxSent c)).length ≤ (framesOfKind k c).length := by
  unfold lcTxSent; split
  · split
    · exact (countKind_map k c (fun e => { e with tx := false, replaced := false }) (fun _ => rfl)).le
    · rw [countKind_lcRefill]; exact countKind_sublist k c _ List.eraseP_sublist
  · exact le_rfl

/-- A withdrawn CLAIM taken out adds none (R96). -/
theorem countKind_lcDropWithdrawn (k : Nat) (c : LC) :
    (framesOfKind k (lcDropWithdrawn c)).length ≤ (framesOfKind k c).length := by
  unfold lcDropWithdrawn; rw [countKind_lcRefill]; exact countKind_sublist k c _ List.eraseP_sublist

/-! ## The form, further -/

/-- A withdrawal keeps the form (R96). -/
theorem txQueueOk_lcWithdraw (w : Withdraw) (c : LC) (h : TxQueueOk c) : TxQueueOk (lcWithdraw w c).1 := by
  unfold lcWithdraw
  split
  · exact h
  · split
    · exact txQueueOk_lcRefill _ (txQueueOk_sublist _ _ List.eraseP_sublist h)
    · split
      · exact txQueueOk_map _ _ (by intro e; split <;> rfl) h
      · split
        · rename_i n ho
          obtain ⟨h1, h2, h3, h4, h5⟩ := h
          simp only [TxQueueOk, framesOfKind_length, ho] at *
          simp at *; exact ⟨h1, h2, by omega, by omega, by omega⟩
        · exact h

/-- A transmission that ended unsent keeps the form (R87, R88). -/
theorem txQueueOk_lcTxFailed (c : LC) (h : TxQueueOk c) : TxQueueOk (lcTxFailed c) :=
  (txQueueOk_congr rfl rfl).1 (txQueueOk_map c (fun e => { e with tx := false, replaced := false }) (fun _ => rfl) h)

/-- A frame sent keeps the form (R88, R94). -/
theorem txQueueOk_lcTxSent (c : LC) (h : TxQueueOk c) : TxQueueOk (lcTxSent c) := by
  unfold lcTxSent; split
  · split
    · exact txQueueOk_lcTxFailed c h
    · exact txQueueOk_lcRefill _ ((txQueueOk_congr rfl rfl).1 (txQueueOk_sublist _ _ List.eraseP_sublist h))
  · exact h

/-- A withdrawn CLAIM taken out keeps the form (R96). -/
theorem txQueueOk_lcDropWithdrawn (c : LC) (h : TxQueueOk c) : TxQueueOk (lcDropWithdrawn c) :=
  txQueueOk_lcRefill _ (txQueueOk_sublist _ _ List.eraseP_sublist h)

end Sys2Proof.Machine
end

