-- ==== Sys2Proof/Laws/Settle.lean ====
section
/-! SUPPORT. What settling comes to: one lemma, settle_settled, that says everything a change of the start conditions
brings about (R10, R133 to R135, R144, R145, R163). -/

namespace Sys2Proof.Machine

open Sys2Proof

theorem HoldCauses.any_false (h : HoldCauses) : h.any = false ↔ h = HoldCauses.empty := by
  obtain ⟨a, b, c⟩ := h
  cases a <;> cases b <;> cases c <;> simp [HoldCauses.any, HoldCauses.empty]

theorem canStart_iff (s : State) :
    CanStart s ↔ (s.vc.state = .cutting ∧ (activePass s).isNone ∧ s.pc.holds.any = false ∧ groupReady s = true) := by
  simp only [CanStart, HoldCauses.any_false, groupReady, agreementHolds, Option.isNone_iff_eq_none, Bool.and_eq_true,
    Bool.not_eq_true', List.isEmpty_iff]
  tauto

theorem cutSub_eq (s : State) : cutSub s = SubState s := by
  unfold cutSub SubState
  by_cases h : s.vc.state = .cutting
  · by_cases h2 : s.pc.holds = HoldCauses.empty
    · simp only [h, h2]
      simp [groupReady, agreementHolds, Bool.and_assoc, HoldCauses.any, HoldCauses.empty]
    · have : s.pc.holds.any = true := by
        rw [← Bool.not_eq_false]; exact fun e => h2 ((HoldCauses.any_false _).1 e)
      simp [h, h2, this]
  · simp [h]


theorem passOrder_out (p : Pass) (w : Wheel) (s : State) :
    (passOrder p w s).out = { s.out with orders := s.out.orders ++
      (if decide (0 < p.depth.get w) && !p.slideDone.get w then [Order.pass w (p.depth.get w) s.pc.chosen s.pc.feed]
       else []) } := by
  unfold passOrder
  by_cases hb : (ordered p w && !p.slideDone.get w) = true
  · have hb' : (decide (0 < p.depth.get w) && !p.slideDone.get w) = true := hb
    rw [if_pos hb, if_pos hb']; rfl
  · have hb' : ¬(decide (0 < p.depth.get w) && !p.slideDone.get w) = true := hb
    rw [if_neg hb, if_neg hb']; simp

theorem startPass_spec (p : Pass) (s : State) :
    (startPass p s).pc = { s.pc with
      queue := { p with state := .active } :: s.pc.queue.tail
      timer := .running ((conf s).passTime * Config.sec) } ∧
    (startPass p s).out = { s.out with orders := s.out.orders ++ .cutSpeed :: passOrders p s.pc } := by
  constructor
  · simp [startPass, setHead, order]
  · simp only [startPass, setHead, passOrder_out, State.onPC_out, passOrder_frame, passOrders, owedSlides]
    simp [order, List.filter_cons]
    split <;> split <;> simp

theorem slotTest_spec (s : State) (h : s.scu.ask = true) :
    slotTest s =
      if s.scu.slot ≠ .none ∧ s.scu.slot ≠ .waiting then s
      else if s.scu.claims.length < (conf s).slots then
        if framesOfKind 1 s.lc ≠ [] then s
        else queueFrame (.claim ((headRough s).getD 1))
          (s.onSCU fun u => { u with slot := .armed, claimPass := some ((headRough s).getD 1) })
      else s.onSCU fun u => { u with slot := .waiting } := by
  unfold slotTest
  by_cases h1 : s.scu.slot = .none <;> by_cases h2 : s.scu.slot = .waiting <;> simp [h, h1, h2, claimQueued_iff]

/-- The test never queues a second CLAIM (R163). -/
theorem slotTest_oneClaim (s : State) (h : (framesOfKind 1 s.lc).length ≤ 1) :
    (framesOfKind 1 (slotTest s).lc).length ≤ 1 := by
  unfold slotTest
  split
  · split
    · split
      · exact h
      · rename_i hq
        have h0 : framesOfKind 1 s.lc = [] := by simpa [claimQueued_iff] using hq
        simp only [queueFrame]; split
        · exact h
        · have := countKind_lcHand 1 (.claim ((headRough s).getD 1)) s.lc
          simp only [h0, QFrame.kindCode] at this
          simpa using this
    · exact h
  · exact h

theorem tryStart_spec (s : State) :
    (CanStart s ∧ s.pc.queue ≠ [] ∧ ∃ p rest, s.pc.queue = p :: rest ∧
      ((p.kind = .finish ∨ s.scu.slot = .held) ∧ tryStart s = startPass p s ∨
       ¬(p.kind = .finish ∨ s.scu.slot = .held) ∧ tryStart s = slotAsk s)) ∨
    ((¬CanStart s ∨ s.pc.queue = []) ∧ tryStart s = s) := by
  unfold tryStart
  rcases h : s.pc.queue with _ | ⟨p, rest⟩
  · right; simp
  · by_cases hc : CanStart s
    · left
      refine ⟨hc, by simp, p, rest, rfl, ?_⟩
      have hc' := (canStart_iff s).1 hc
      by_cases h2 : p.kind = .finish ∨ s.scu.slot = .held <;> simp [hc', h2]
    · right; have hc' := fun h => hc ((canStart_iff s).2 h)
      exact ⟨.inl hc, if_neg hc'⟩



theorem keepsBut_settle (s : State) : KeepsBut [.vc, .lc, .ru, .pc, .scu, .out] s (settle s) := by
  intro b hb
  have := settle_frame s
  cases b <;> simp_all [Block.same]

theorem slotAsk_spec (p : Pass) (rest : List Pass) (s : State) (hq : s.pc.queue = p :: rest) (hk : p.kind = .rough)
    (hs : s.vc.state ≠ .start) :
    (slotAsk s).pc = s.pc ∧ (slotAsk s).out = s.out ∧
    (if s.scu.ask then (slotAsk s).scu = s.scu ∧ (slotAsk s).lc = s.lc
     else if s.scu.slot ≠ .none ∧ s.scu.slot ≠ .waiting then
       (slotAsk s).scu = { s.scu with ask := true } ∧ (slotAsk s).lc = s.lc
     else if s.scu.claims.length < (conf s).slots then
       if framesOfKind 1 s.lc ≠ [] then (slotAsk s).scu = { s.scu with ask := true } ∧ (slotAsk s).lc = s.lc
       else (slotAsk s).scu = { s.scu with ask := true, slot := .armed, claimPass := some p.number } ∧
         (slotAsk s).lc = handed (.claim p.number) s.lc
     else (slotAsk s).scu = { s.scu with ask := true, slot := .waiting } ∧ (slotAsk s).lc = s.lc) := by
  refine ⟨by simp, by simp, ?_⟩
  have hh : headRough (s.onSCU fun u => { u with ask := true }) = some p.number := by simp [headRough, hq, hk]
  by_cases ha : s.scu.ask
  · simp [slotAsk, ha]
  · simp only [slotAsk, ha]
    rw [slotTest_spec _ (by simp)]
    simp only [State.onSCU_scu, hh]
    by_cases h1 : s.scu.slot ≠ .none ∧ s.scu.slot ≠ .waiting
    · simp [h1]
    · by_cases h2 : s.scu.claims.length < (conf s).slots
      · have : conf (s.onSCU fun u => { u with ask := true }) = conf s := rfl
        simp only [this, h1, h2, State.onSCU_lc]
        by_cases hq1 : framesOfKind 1 s.lc = []
        · simp [hq1, queueFrame, handed, hs]
          split <;> simp
        · simp [hq1]
      · have : conf (s.onSCU fun u => { u with ask := true }) = conf s := rfl
        simp [this, h1, h2]

theorem settle_settled (s : State) : Settled s (settle s) := by
  have hts := tryStart_spec s
  have f := tryStart_frame s
  have e : settle s = waitTimers ((tryStart s).onVC fun v => { v with sub := cutSub (tryStart s) }) := rfl
  have hpc : (settle s).pc = (tryStart s).pc := by simp [e]
  have hout : (settle s).out = (tryStart s).out := by simp [e]
  have hscu : (settle s).scu = (tryStart s).scu := by simp [e]
  have hlc : (settle s).lc = (tryStart s).lc := by simp [e]
  have hru : (tryStart s).ru = s.ru := by simp
  have hvc : (tryStart s).vc = s.vc := by simp
  have hpe : groupView (tryStart s) = groupView s := by simp [groupView]
  have hsub : (settle s).vc.sub = cutSub (tryStart s) := by simp [e]
  have hsub2 : cutSub (tryStart s) = SubState (settle s) := by
    rw [cutSub_eq]; simp [SubState, activePass, e, level, groupView, waitTimers]
  refine ⟨keepsBut_settle s, ?_, ?_, ?_, ?_, ?_, ?_, ?_⟩
  · rw [← hsub2]; simp [e]
  · intro p rest hq hc hk
    obtain ⟨-, -, p', r', hq', h | h⟩ | ⟨h, -⟩ := hts
    · obtain ⟨rfl, rfl⟩ : p' = p ∧ r' = rest := by simpa [hq, eq_comm] using hq'
      have hs := startPass_spec p' s
      rw [hpc, hout, hscu, hlc, h.2]
      simp [hs, hq]
    · obtain ⟨rfl, rfl⟩ : p' = p ∧ r' = rest := by simpa [hq, eq_comm] using hq'
      exact absurd hk h.1
    · rcases h with h | h
      · exact absurd hc h
      · simp [hq] at h
  · intro p rest hq hc hk hsl
    obtain ⟨-, -, p', r', hq', h | h⟩ | ⟨h, -⟩ := hts
    · obtain ⟨rfl, rfl⟩ : p' = p ∧ r' = rest := by simpa [hq, eq_comm] using hq'
      rcases h.1 with h1 | h1
      · simp [hk] at h1
      · exact absurd h1 hsl
    · obtain ⟨rfl, rfl⟩ : p' = p ∧ r' = rest := by simpa [hq, eq_comm] using hq'
      rw [hpc, hout, hscu, hlc, h.2]
      exact slotAsk_spec p' r' s hq hk (by rw [hc.1]; decide)
    · rcases h with h | h
      · exact absurd hc h
      · simp [hq] at h
  · intro h
    obtain ⟨hc, hq, -⟩ | ⟨-, h⟩ := hts
    · rcases h with h | h
      · exact absurd hc h
      · exact absurd h hq
    · rw [hpc, hout, hscu, hlc, h]; simp
  · simp [e, waitTimers]
  · intro h
    rw [hsub] at h
    simp only [e, waitTimers, State.onRU_ru, State.onVC_ru, State.onVC_vc, h, hru]
    have hgv : ∀ f, groupView ((tryStart s).onVC f) = groupView s := fun _ => hpe
    simp only [hgv]
    cases s.ru.violation <;> cases anyPending (groupView s) <;> rcases s.ru.awaited with _ | ⟨x, y⟩ <;>
      simp [waitTimer]
  · intro h
    rw [hsub] at h
    simp [e, waitTimers, h, waitTimer]

end Sys2Proof.Machine
end

