-- ==== Sys2Proof/Laws/Ops.lean ====
section
/-! SUPPORT. What the shared operations come to, each said once as an equation on the whole state or as what it reads:
frames handed, the ceiling record, the intent, the station state, a visit end, a run begun, the orders of a pass, the
peer table, a host command the port acts on. -/

namespace Sys2Proof.Machine

open Sys2Proof

/-! ## Frames, records and the station state -/

/-- A frame queued by a station past START (R101). -/
theorem queueFrame_eq (f : QFrame) (s : State) (h : s.vc.state ≠ .start) :
    queueFrame f s = { s with lc := handed f s.lc } := by
  cases hs : s.lc.silenced <;> simp [queueFrame, handed, h, hs, State.onLC]

/-- A change of the ceiling record past START (R76). -/
theorem changeCeiling_eq (st : CeilStatus) (v : Option (LR Int)) (s : State) (h : s.vc.state ≠ .start) :
    changeCeiling st v s = { s with
      fe := { s.fe with
        ceil := ⟨st, v, nextSeq s.fe.ceil.seq, true, if st = .passive ∨ st = .cleared then none else s.fe.ceil.condemning⟩ }
      lc := handed (.ceiling (nextSeq s.fe.ceil.seq) st v) s.lc } := by
  simp only [changeCeiling]
  rw [queueFrame_eq _ _ (by exact h)]
  rfl

/-- A new own intent past START (R123). -/
theorem formIntent_eq (d : LR Int) (s : State) (h : s.vc.state ≠ .start) :
    formIntent d s = { s with
      ru := { s.ru with
        intentSeq := nextSeq s.ru.intentSeq, intent := some ⟨nextSeq s.ru.intentSeq, s.fe.ceil.seq, d⟩ }
      lc := handed (.intent (nextSeq s.ru.intentSeq) s.fe.ceil.seq d) s.lc } := by
  simp only [formIntent]
  rw [queueFrame_eq _ _ (by exact h)]
  rfl

/-- A change of the station state that does not leave CUTTING (R1, R189). -/
theorem setStation_eq (st : StationState) (s : State) (h : s.vc.state ≠ .cutting) (h2 : st ≠ .start)
    (h3 : linkCode st ≠ linkCode s.vc.state) (h4 : (linkCode st).isSome) :
    setStation st s = { s with
      vc := { s.vc with state := st }
      lc := handed .state s.lc
      cp := if isOpenState s.vc.state && !isOpenState st then { s.cp with unlock := .closed } else s.cp } := by
  by_cases hs : s.lc.silenced = true <;> by_cases hh : (isOpenState s.vc.state && !isOpenState st) = true <;>
    simp [setStation, h, h3, h4, hh, hs, h2, queueFrame, handed, State.onCP, State.onVC, State.onLC]

/-- A reservation given up with no slot and no reservation (R168). -/
theorem releaseClaim_none (s : State) (h : s.scu.slot = .none) : releaseClaim s = { s with scu := s.scu.freed } := by
  simp [releaseClaim, h, State.onSCU, SCU.freed]

/-- A visit end with no slot and no reservation (R14, R81, R194). -/
theorem visitEnd_none (s : State) (h : s.scu.slot = .none) (hs : s.vc.state ≠ .start) :
    visitEnd s = { s with
      vc := s.vc.ended, rtu := RTU.reset s.rtu.counter, rcu := RCU.reset, ptu := PTU.reset, fe := s.fe.ended
      lc := s.lc.ended s.fe.ceil, ru := RU.reset s.ru.intentSeq, pc := PC.reset, scu := s.scu.freed
      result := s.result.ended } := by
  unfold visitEnd
  rw [releaseClaim_none s h]
  by_cases ha : s.fe.ceil.announced <;> by_cases hsil : s.lc.silenced <;>
    simp [clearVisit, clearCeiling, ha, hs, hsil, changeCeiling, queueFrame, ceilingFrame, State.onFE, State.onLC,
      VC.ended, FE.ended, LC.ended, CeilingRecord.ended, ResultRecord.ended, handed]

/-! ## Runs -/

/-- A run begun, but for the RCU (R22, R23). -/
theorem startRun_eq (k : RunKind) (s : State) :
    startRun k s = windowStart { s with
      rtu := s.rtu.begun k (level s .driveAtSpeed), out := s.out.grewBy [.measureSpeed] [] } := by
  have h1 : ∀ f g, level ((s.onRTU f).onOut g) .driveAtSpeed = level s .driveAtSpeed := fun _ _ => rfl
  have h2 : ∀ f, level (s.onRTU f) .driveAtSpeed = level s .driveAtSpeed := fun _ => rfl
  simp only [startRun, attemptStart, order, h1]
  simp [State.onRTU, State.onOut, RTU.begun, Outputs.grewBy]

/-- An attempt begun (R23, R40). -/
theorem attemptStart_eq (s : State) : attemptStart s = nextAttempt s := by
  by_cases h : s.rtu.run = .measure <;>
    simp [attemptStart, nextAttempt, windowStart, h, State.onRTU, State.onRCU, conf]

/-- A reason that allows another attempt, before the third (R30). -/
theorem endAttempt_retry (why : Reason) (s : State) (h : why.retries = true) (h2 : s.rtu.attempt < 3) :
    endAttempt why s = nextAttempt s := by
  simp [endAttempt, h, h2, attemptStart_eq]

/-- When counting is allowed (R24). -/
theorem counting_iff (s : State) : counting s = true ↔ (s.rtu.run ≠ .none ∧ level s .driveAtSpeed = true) := by
  simp [counting]

/-- When a revolution is unsteady (R28). -/
theorem unsteady_iff (p : Nat) (q : Option Nat) :
    unsteady p q = true ↔ ∃ x, q = some x ∧ (x : Int) < 4 * |(p : Int) - x| := by
  rcases q with _ | x
  · simp [unsteady]
  · simp only [unsteady, decide_eq_true_eq, Option.some.injEq, exists_eq_left']
    rcases le_total p x with h | h
    · rw [abs_of_nonpos (by omega)]; omega
    · rw [abs_of_nonneg (by omega)]; omega

/-- The lift-offs of the revolution at a valid mark (R47). -/
theorem newRevolution_eq (s : State) :
    newRevolution s = { s with
      rcu := if s.rcu.phase = .filling then
        ⟨.filling, ⟨{ s.rcu.wheel.l with liftRev := 0 }, { s.rcu.wheel.r with liftRev := 0 }⟩⟩ else s.rcu } := by
  by_cases h : s.rcu.phase = .filling <;> simp [newRevolution, h, State.onRCU, LR.map]

/-! ## The orders of a pass -/

/-- An order given under a condition. -/
theorem order_if (b : Bool) (o : Order) (s : State) :
    (if b = true then order o s else s) = { s with out := s.out.grewBy (if b = true then [o] else []) [] } := by
  cases b <;> simp [order, State.onOut, Outputs.grewBy]

/-- The owed slides, L before R. -/
theorem owedSlides_map (p : Pass) (g : Wheel → Order) :
    (owedSlides p).map g = (if (ordered p .l && !p.slideDone.get .l) = true then [g .l] else []) ++
      (if (ordered p .r && !p.slideDone.get .r) = true then [g .r] else []) := by
  have e : owedSlides p = [Wheel.l, Wheel.r].filter fun w => ordered p w && !p.slideDone.get w := rfl
  rw [e]
  cases h1 : (ordered p .l && !p.slideDone.get .l) <;> cases h2 : (ordered p .r && !p.slideDone.get .r) <;>
    simp only [List.filter_cons, h1, h2, List.filter_nil] <;> rfl

/-- HOLD to the owed slides (R154). -/
theorem holdOrder_eq (p : Pass) (s : State) :
    holdOrder p .r (holdOrder p .l s) = { s with out := s.out.grewBy ((owedSlides p).map Order.holdSlide) [] } := by
  simp only [holdOrder, order_if, owedSlides_map, Outputs.grewBy, List.append_assoc, List.append_nil]

/-- RATE to the owed slides (R155). -/
theorem rateOrder_eq (p : Pass) (s : State) :
    rateOrder p .r (rateOrder p .l s) =
      { s with out := s.out.grewBy ((owedSlides p).map fun w => Order.rate w s.pc.feed) [] } := by
  simp only [rateOrder, order_if, owedSlides_map, Outputs.grewBy, List.append_assoc, List.append_nil]

/-- PASS to the owed slides (R145, R154). -/
theorem passOrder_eq (p : Pass) (s : State) :
    passOrder p .r (passOrder p .l s) = { s with out := s.out.grewBy (passOrders p s.pc) [] } := by
  simp only [passOrder, order_if, passOrders, owedSlides_map, Outputs.grewBy, List.append_assoc, List.append_nil]

/-! ## The peer table -/

/-- The entry put is the one its station number finds (R102). -/
theorem findPeer_putPeer_same (e : PeerEntry) (t : List PeerEntry) : findPeer e.station (putPeer e t) = some e := by
  induction t with
  | nil => simp [putPeer, findPeer]
  | cons h t ih =>
    unfold putPeer
    split
    · rename_i hl
      have : (h.station == e.station) = false := by simpa using ne_of_lt hl
      simpa [findPeer, this] using ih
    · split <;> simp [findPeer]

/-- Every other station number finds what it found (R102). -/
theorem findPeer_putPeer_other (e : PeerEntry) (t : List PeerEntry) (m : Fin 16) (hm : m ≠ e.station) :
    findPeer m (putPeer e t) = findPeer m t := by
  have he : (e.station == m) = false := by simpa using hm.symm
  induction t with
  | nil => simp [putPeer, findPeer, he]
  | cons h t ih =>
    unfold putPeer
    split
    · by_cases hh : h.station = m
      · simp [findPeer, hh]
      · have : (h.station == m) = false := by simpa using hh
        simpa [findPeer, this] using ih
    · split
      · rename_i h1
        have : (h.station == m) = false := by simpa [h1] using hm.symm
        simp [findPeer, he, this]
      · simp [findPeer, he]

/-- The entries after one is put: that one, and others that stood there. -/
theorem mem_putPeer (e x : PeerEntry) (t : List PeerEntry) (h : x ∈ putPeer e t) : x = e ∨ x ∈ t := by
  induction t with
  | nil => simp [putPeer] at h; exact .inl h
  | cons y t ih =>
    unfold putPeer at h
    split at h
    · rcases List.mem_cons.1 h with rfl | h
      · exact .inr (.head _)
      · exact (ih h).imp_right (.tail _)
    · split at h
      · rcases List.mem_cons.1 h with rfl | h
        · exact .inl rfl
        · exact .inr (.tail _ h)
      · rcases List.mem_cons.1 h with rfl | h
        · exact .inl rfl
        · exact .inr h

/-- An entry put keeps the station-number order, one entry a station (R102). -/
theorem putPeer_sorted (e : PeerEntry) (t : List PeerEntry) (h : t.Pairwise fun a b => a.station < b.station) :
    (putPeer e t).Pairwise fun a b => a.station < b.station := by
  induction t with
  | nil => simp [putPeer]
  | cons y t ih =>
    rw [List.pairwise_cons] at h
    unfold putPeer
    split
    · rename_i hl
      refine List.pairwise_cons.2 ⟨fun x hx => ?_, ih h.2⟩
      rcases mem_putPeer e x t hx with rfl | hx
      · exact hl
      · exact h.1 x hx
    · split
      · rename_i he
        exact List.pairwise_cons.2 ⟨fun x hx => he ▸ h.1 x hx, h.2⟩
      · rename_i h1 h2
        have hey : e.station < y.station := lt_of_le_of_ne (not_lt.1 h1) (Ne.symm h2)
        refine List.pairwise_cons.2 ⟨fun x hx => ?_, List.pairwise_cons.2 h⟩
        rcases List.mem_cons.1 hx with rfl | hx
        · exact hey
        · exact lt_trans hey (h.1 x hx)

/-! ## Host commands -/

/-- A command the port acts on, its payload of a length it takes (R181, R182). -/
theorem exec_hostCommand (k : HostCmd) (p : List Byte) (s : State) (h : PortFree s)
    (hl : lengthFits k p.length = true) :
    exec (k.instr p) s = .next (actCommand k p s.cp.unlock (commandTaken s)) := by
  obtain ⟨h1, h2⟩ := h
  cases k <;>
    simp_all [HostCmd.instr, exec, execVisit, execMeasure, execCut, execHold, execResume, execFeed, execWithdraw,
      execRelease, execCalibrate, execUnlock, execWriteSettings, execReadSettings, execReadStatus, execReadResult,
      execReadPeers, execReadPasses, cpSubmit, takeCommand]

/-- The port's own part of a command (R186, R189). -/
theorem commandTaken_eq (s : State) : commandTaken s = { s with cp := s.cp.afterCommand (conf s).watch } := rfl

/-- A refusal of a command taken (R181). -/
theorem refuse_commandTaken (k : HostCmd) (w : RefuseReason) (s : State) :
    refuse k w (commandTaken s) = refusal k w s := by
  simp [refuse, refusal, respond, commandTaken, State.onCP, State.onOut, CP.afterCommand, Outputs.grewBy]

/-- An acceptance of a command taken (R181). -/
theorem accept_commandTaken (c : HostCmd) (s : State) :
    accept c (commandTaken s) = { s with
      cp := s.cp.afterCommand (conf s).watch, out := s.out.grewBy [] [.ok c []] } := by
  simp [accept, respond, State.onOut, commandTaken, State.onCP, CP.afterCommand, Outputs.grewBy]

end Sys2Proof.Machine
end

