-- ==== Sys2Proof/WellFormed.lean ====
section
/-! DEFINITION. Which commands can come from outside: operands in the forms the line, the port and the store give
them. The meanings are total and do not ask for it. -/

namespace Sys2Proof

open Sys2Proof.Machine

/-- A payload of a cell port frame: its length fits the length byte (R180). -/
def payloadOk (p : List Byte) : Bool := decide (p.length ≤ 255)

/-- A frame of the pit link: its payload length fits the header (R86). -/
def linkFrameOk (f : LinkFrame) : Bool := decide (f.payload.length ≤ 15)

/-- Bytes received of a cell port frame: some, and no more than its longest has (R180). -/
def receivedOk (r : List Byte) : Bool := decide (1 ≤ r.length) && decide (r.length ≤ 259)

/-- Bytes of an incomplete cell port frame, some of which may stand in the buffer: fewer than its longest has (R180). -/
def gapOk (r : List Byte) : Bool := decide (r.length ≤ 258)

/-- Misread bytes of the store: each at an offset of the image (R187). -/
def misreadOk (m : List (Nat × Byte)) : Bool := m.all fun x => decide (x.1 < imageSize)

/-- The checks on a command's operands. -/
def Instr.wellFormed : Instr → Bool
  | .reset _ _ _ => true
  | .announceTimerExpiry => true
  | .visit p => payloadOk p
  | .measure p => payloadOk p
  | .cut p => payloadOk p
  | .hold p => payloadOk p
  | .resume p => payloadOk p
  | .feed p => payloadOk p
  | .withdraw p => payloadOk p
  | .release p => payloadOk p
  | .calibrate p => payloadOk p
  | .unlock p => payloadOk p
  | .writeSettings p => payloadOk p
  | .readSettings p => payloadOk p
  | .readStatus p => payloadOk p
  | .readResult p => payloadOk p
  | .readPeers p => payloadOk p
  | .readPasses p => payloadOk p
  | .discardedFrame f => receivedOk f
  | .frameGapTimeout r => gapOk r
  | .settingsWriteDone m => misreadOk m
  | .calibrationWriteDone m => misreadOk m
  | .unlockTimerExpiry => true
  | .watchdogExpiry => true
  | .rawInputChange _ _ => true
  | .debounceExpiry _ => true
  | .homeTimerExpiry => true
  | .encoderPulse _ _ => true
  | .markLeadingEdge => true
  | .markTrailingEdge _ => true
  | .markTimerExpiry => true
  | .driveTimerExpiry => true
  | .tracerReading _ _ _ => true
  | .sweepEnd _ => true
  | .sweepTimerExpiry => true
  | .transmitStart => true
  | .arbitrationLost _ => true
  | .ownFrameError => true
  | .listenOnlyEnd => true
  | .frameSent => true
  | .receiveError f => linkFrameOk f
  | .stateReceived f => linkFrameOk f
  | .ceilingReceived f => linkFrameOk f
  | .intentReceived f => linkFrameOk f
  | .claimReceived f => linkFrameOk f
  | .releaseReceived f => linkFrameOk f
  | .peerAgeExpiry _ => true
  | .violationTimerExpiry => true
  | .peerWaitTimerExpiry => true
  | .slideDone _ => true
  | .slideFault _ => true
  | .passTimerExpiry => true
  | .backoffExpiry => true

end Sys2Proof
end

