-- ==== Sys2Proof/Tests/Slice0.lean ====
section
/-! SUPPORT. The model's own tests: ill-formed commands refused, the manual's worked cases, and for every obligation
with hypotheses a state and operands that meet them. Expected values are the manual's own, or the hypotheses' bounds. -/

namespace Sys2Proof.Tests

set_option Elab.async false

open Sys2Proof Sys2Proof.Machine

/-! ## Well-formedness: each check refuses an ill-formed command -/

theorem smoke_payload_too_long : (Instr.visit (List.replicate 256 0#8)).wellFormed = false := by decide +kernel
theorem smoke_payload_longest : (Instr.writeSettings (List.replicate 255 0#8)).wellFormed = true := by decide +kernel
theorem smoke_discarded_nothing : (Instr.discardedFrame []).wellFormed = false := by decide
theorem smoke_discarded_too_long : (Instr.discardedFrame (List.replicate 260 0#8)).wellFormed = false := by decide +kernel
theorem smoke_discarded_longest : (Instr.discardedFrame (List.replicate 259 0#8)).wellFormed = true := by decide +kernel
theorem smoke_gap_too_long : (Instr.frameGapTimeout (List.replicate 259 0#8)).wellFormed = false := by decide +kernel
theorem smoke_misread_outside : (Instr.settingsWriteDone [(1026, 0#8)]).wellFormed = false := by decide
theorem smoke_misread_inside : (Instr.calibrationWriteDone [(1025, 0#8)]).wellFormed = true := by decide
theorem smoke_link_payload_too_long :
    (Instr.receiveError ⟨0#2, 0, 1#4, List.replicate 16 0#8, 0#16⟩).wellFormed = false := by decide

/-! ## The settings of the worked cases -/

/-- The defaults of 00_scope.md, with the installation's entries of the worked cases (E = 4,096, D_m = 150,000,
Z = 820,000, two slots, W = 500). -/
def cfg : Settings where
  dm := .both 150000
  counts := .both 4096
  slip := 3
  jump := 400
  jumpT := 800
  taping := 70
  flange := 35
  minCut := 200
  minRecut := 50
  finish := 300
  rough := 1500
  condemn := 820000
  tolAxle := 400
  tolBogie := 2000
  tolCar := 6000
  slots := 2
  announce := 250
  passTime := 900
  watch := 500
  spare := 0

/-! ## Worked cases of the manual -/

/-- R196: the digits 1 to 9 give 0x29B1; over no bytes the check is 0xFFFF. -/
theorem test_check_of_digits :
    crc16 ([0x31, 0x32, 0x33, 0x34, 0x35, 0x36, 0x37, 0x38, 0x39].map (BitVec.ofNat 8)) = 0x29B1#16 ∧
    crc16 [] = 0xFFFF#16 := by decide +kernel

/-- R196: run over the covered bytes and the check together, a frame leaves the register at 0. -/
theorem test_check_leaves_zero :
    crc16 (([1, 2, 3].map (BitVec.ofNat 8)) ++ crcBytes ([1, 2, 3].map (BitVec.ofNat 8))) = 0#16 := by decide +kernel

/-- Section 2.4, slip test: the eight counts of the table, and with 25,200 as the fifth. -/
theorem test_slip_case :
    slipTest 3 [25118, 25125, 25122, 25120, 25124, 25119, 25127, 25122] = ⟨200977, 25122, 9, 75⟩ ∧
    slipPasses (slipTest 3 [25118, 25125, 25122, 25120, 25200, 25119, 25127, 25122]) = false := by decide +kernel

/-- Section 2.5, diameters: 920,000; the exact half 900,016; the small wheelset of section 3.8, 600,098. -/
theorem test_diameter_cases :
    diameterOf 150000 4096 200977 = 920000 ∧ diameterOf 122880 1024 60001 = 900016 ∧
    diameterOf 250000 1024 19664 = 600098 ∧ diameterOf 149908 4096 201100 = 919998 := by decide +kernel

/-- Section 2.6, angle bins: k = 98, 99, 25,024 and 25,200 with n_prev = 25,122. -/
theorem test_bin_cases :
    binOf 98 25122 = (0, false) ∧ binOf 99 25122 = (1, false) ∧ binOf 25023 25122 = (254, false) ∧
    binOf 25024 25122 = (255, false) ∧ binOf 25200 25122 = (255, true) := by decide +kernel

/-- Section 2.7, calibration: 150,000 and 149,908. -/
theorem test_calibration_cases :
    newMeasuring 4096 920000 200977 = 150000 ∧ newMeasuring 4096 920000 201100 = 149908 := by
  constructor <;> simp [newMeasuring]

/-- Section 3.8: the gate over the first four samples of the stretch. -/
theorem test_gate_stretch :
    let r := takeSample 400 3 1240 (takeSample 400 2 30 (takeSample 400 1 22 (takeSample 400 0 18 (rcuWindow 400))))
    r.gate = .seeking ∧ r.lastAccepted = none ∧ r.liftRev = 1 ∧ r.bins.take 4 = [some 18, some 22, some 30, none] := by
  decide +kernel

/-- Section 4.8: reading 3 is outside the window, 4 a lift-off, 9 at a distance of exactly 250 is binned. -/
theorem test_binning_near_taping :
    let p0 := { PtuWheel.reset with reference := some (-1199) }
    let p1 := takeReading 800 70750 (-1176) (takeReading 800 69700 2400 (takeReading 800 69400 (-1190) p0))
    p1.received = 3 ∧ p1.outside = 1 ∧ p1.liftoffs = 1 ∧ p1.binned = 1 ∧ p1.reference = some (-1176) ∧
    ((p1.points.getD 71 Point.absent).formed).value = some (-1176) := by decide +kernel

/-- Section 4.8: the mean -1,201.5 rounds toward minus infinity. -/
theorem test_mean_rounds_down : (Point.formed ⟨-2403, 2, none, none⟩).value = some (-1202) := by decide

/-- Points with the given ones absent. -/
def pointsWithout (absent : List Nat) : List Point :=
  (List.range 120).map fun j => if absent.contains j then Point.absent else ⟨0, 1, none, none⟩

/-- Section 4.10: the four verdicts. -/
theorem test_completeness_cases :
    traceVerdict 70 35 (pointsWithout [37, 38, 90, 91, 92, 93, 94, 95, 96, 97]) = .complete ∧
    traceVerdict 70 35 (pointsWithout [12]) = .flangeZone 12 ∧
    traceVerdict 70 35 (pointsWithout [36, 40, 41, 42, 43, 44, 100, 101, 102, 103, 104, 105, 106]) = .tooManyAbsent 13 ∧
    traceVerdict 70 35 (pointsWithout [70, 3]) = .tapingPoint := by decide +kernel

/-- Section 5.7: the excess of variant 0 on wheel L, at the third of the points given. -/
theorem test_excess_case :
    excess ⟨true, 300, [23100, 27000, 20800, 3900], .usable⟩ [some 21400, some 24690, some 18930, some 3120] =
      (2310, 1) := by decide +kernel

/-- A variant with the given excess at its first point. -/
def flatVariant (e : Int) : Variant := ⟨true, 300, [e], .usable⟩

/-- Section 5.9: with runouts above both excesses the axle depths are equal, and the lower index is chosen. -/
theorem test_tie_case :
    ((chooseVariant [fitVariant 200 0 (flatVariant 620) ⟨700, 810⟩ ⟨[some 0], [some 80]⟩,
      fitVariant 200 1 (flatVariant 580) ⟨700, 810⟩ ⟨[some 0], [some 20]⟩]).map fun f => (f.index, f.axle)) =
      some (0, 1010) := by decide +kernel

/-- Section 5.7: the fit ceilings 848,900 and 849,500 of variant 1. -/
theorem test_fit_ceilings_case :
    fitCeilings ⟨852000, 853400⟩ ⟨1, ⟨1350, 1750⟩, ⟨12, 12⟩, ⟨1550, 1950⟩, 1950⟩ = ⟨848900, 849500⟩ := by decide +kernel

/-- R106: 1 is newer than 255 by 1, 200 older than 1, and 255 is followed by 1. -/
theorem test_sequence_cases :
    seqNewer 1 255 = true ∧ seqOlder 255 1 = true ∧ nextSeq 255 = 1 ∧ nextSeq 0 = 1 ∧ seqNewer 7 7 = false := by
  decide +kernel

/-- An entry of the group view: a member with a ceiling. -/
def memberOf (n : Fin 16) (b : Fin 4) (l r : Int) : ViewEntry :=
  ⟨n, b, .reconciling, .member, some ⟨l, r⟩, none, none⟩

/-- Section 8.9: the targets of station 2 (own bogie 0) and of station 4 (bogie 1). -/
theorem test_targets_of_the_car :
    let s1 := memberOf 1 0 851240 850100
    let s2 := memberOf 2 0 848900 849500
    let s3 := memberOf 3 1 845020 846880
    let s4 := memberOf 4 1 853600 852980
    (computePlan cfg 0 ⟨848900, 849500⟩ [s1, s3, s4]).target = ⟨848900, 849300⟩ ∧
    (computePlan cfg 1 ⟨853600, 852980⟩ [s1, s2, s3]).target = ⟨847020, 847020⟩ := by decide +kernel

/-- Section 9.2, the split of 4,000 and 3,130: depths of the four passes. -/
theorem test_split_case :
    (splitPasses ⟨3700, 2830⟩ ⟨300, 300⟩ 3 0 3 0 ⟨900000, 900000⟩).map (·.depth) =
      [⟨1234, 944⟩, ⟨1233, 943⟩, ⟨1233, 943⟩, ⟨300, 300⟩] := by decide +kernel

/-- Section 9.9: station 2 of the car example: two ROUGH passes and a FINISH pass, ending on the targets. -/
theorem test_build_of_station_2 :
    (match buildFrom cfg false false 0 ⟨852000, 853400⟩ ⟨848900, 849300⟩ with
     | .made q f => (q.map (·.depth), f)
     | _ => ([], ⟨0, 0⟩)) = ([⟨625, 875⟩, ⟨625, 875⟩, ⟨300, 300⟩], ⟨848900, 849300⟩) := by decide +kernel

/-- R141: a plan of more than eight passes is DEEP, with the ROUGH passes it would take. -/
theorem test_deep_build :
    buildFrom cfg false false 0 ⟨900000, 900000⟩ ⟨876000, 876000⟩ = .deep 8 := by decide +kernel

/-- Section 13.2: station 2's first CEILING carries 1, 1, 424,450 (06 7A 02) and 424,750 (06 7B 2E). -/
theorem test_ceiling_payload :
    ceilingPayload ⟨1, .normal, some ⟨848900, 849500⟩⟩ =
      [1#8, 1#8, 0x06#8, 0x7A#8, 0x02#8, 0x06#8, 0x7B#8, 0x2E#8] := by decide +kernel

/-- R187, R190: a byte stored at an even offset moves the even sum alone, and both checksum bytes match after it. -/
theorem test_checksum_follows_write :
    let m := (beginWrite [] 38 [0x10#8]).1
    imageSum m 0 = (imageSum [] 0 + 16) % 256 ∧ imageSum m 1 = imageSum [] 1 ∧ imageGood m = true := by
  decide +kernel

/-- R183, R199: the status word after a reset, and with SETTINGS_INVALID and with PASS_ABORTED and ESTOP_SEEN. -/
theorem test_status_words :
    statusAtReset = 0x8100#16 ∧ latchWord 0#16 .settingsInvalid = 0xC000#16 ∧
    latchWord (latchWord 0#16 .passAborted) .estopSeen = 0x8C00#16 := by decide +kernel

/-- R180, R198: the bytes of VISIT with mask 3 read as that command. -/
theorem test_visit_frame_reads :
    cellCommand (([1, 1, 3].map (BitVec.ofNat 8)) ++ crcBytes ([1, 1, 3].map (BitVec.ofNat 8))) =
      some (.visit, [3#8]) := by decide +kernel

/-- R86: the lengths of the frames, CLAIM and RELEASE 47 bits, CEILING 103; and the start of station 2's CLAIM of
pass 1: start bit, class 0, station 2, kind 1. -/
theorem test_frame_lengths :
    (frameBits (makeFrame .claim 2 (be1 1))).length = 47 ∧ (frameBits (makeFrame .release 2 (be1 1))).length = 47 ∧
    (frameBits (makeFrame .ceiling 2 (ceilingPayload ⟨1, .normal, some ⟨848900, 849500⟩⟩))).length = 103 ∧
    ((frameBits (makeFrame .claim 2 (be1 1))).take 11).map Bool.toNat = [0, 0, 0, 0, 0, 1, 0, 0, 0, 0, 1] := by
  decide +kernel

/-! ## States for the witnesses -/

/-- The inputs of a machine ready to cut: clamped, guard closed, no emergency stop, drive at speed, tools away. -/
def inputsReady : IIU where
  clamped := ⟨true, true, none⟩
  guardClosed := ⟨true, true, none⟩
  estop := ⟨false, false, none⟩
  driveAtSpeed := ⟨true, true, none⟩
  homeL := ⟨false, false, none⟩
  homeR := ⟨false, false, none⟩
  latch := .both false

/-- A variant that may be chosen. -/
def usable : Variant := ⟨true, 300, List.replicate 120 0, .usable⟩

/-- A station in a state, past START, its inputs ready. -/
def inState (st : StationState) : State :=
  { State.reset with
    vc := { VC.reset with state := st }
    fe := { State.reset.fe with variants := [usable, usable, { usable with verdict := .off }, usable] }
    lc := LC.reset 250
    iiu := inputsReady
    ss := ⟨[], cfg, ⟨2, 0, 0, 0, false⟩, 7#16, none, none, none⟩ }

/-- A pass of the queue of section 9.9. -/
def passOf (n : Nat) (k : PassKind) (st : PassState) : Pass :=
  ⟨n, k, ⟨625, 875⟩, ⟨850750, 851650⟩, st, .none, .both false⟩

/-- A peer of the own car, a member. -/
def peerOf (n : Fin 16) (st : StationState) : PeerEntry where
  station := n
  st := some ⟨0, 0, st, 0, 3, 7#16, true, 1, 0, false⟩
  mismatchReported := false
  ceiling := some ⟨1, .normal, some ⟨851240, 850100⟩⟩
  intent := none
  age := 100
  freshness := .fresh

/-- A station in CUTTING with a queue; NORMAL ceilings held. -/
def cutting (q : List Pass) : State :=
  let s := inState .cutting
  { s with
    vc := { s.vc with visitOpen := true, cutBegun := true }
    pc := { PC.reset with queue := q, surface := some ⟨852000, 853400⟩, chosen := some 1 }
    fe := { s.fe with ceil := ⟨.normal, some ⟨848900, 849500⟩, 1, true, none⟩ } }

/-- A ROUGH pass ACTIVE on a held slot, a ROUGH and the FINISH pass behind it, two peers, two frames queued. -/
def busy : State :=
  let s := cutting [passOf 1 .rough .active, passOf 2 .rough .queued, passOf 3 .finish .queued]
  { s with
    pc := { s.pc with timer := .running 900000000 }
    scu := { SCU.reset with claims := [⟨1, some 2⟩, ⟨2, some 1⟩], slot := .held, claimPass := some 1 }
    peers := [peerOf 1 .idle, peerOf 3 .idle]
    lc := { s.lc with queue := [.new (.ceiling 1 .normal (some ⟨848900, 849500⟩)), .new .state] } }

/-- Every timer at its last microsecond, the gap of a frame and that of the commands at their limits, an entry's age a
microsecond short of 3P + 1 ms. -/
def allDue : State :=
  let s := inState .idle
  { s with
    lc := { s.lc with announce := some 1, listenOnly := some 1 }
    cp := { s.cp with
      rxBuffer := [1#8], rxGap := 20000, unlock := .opened .general 1, watchdog := .running 500000 }
    rtu := { s.rtu with markTimer := some 1, driveTimer := some 1 }
    ptu := { s.ptu with sweepTimer := some 1 }
    vc := { s.vc with homeTimer := some 1 }
    iiu := { s.iiu with homeL := ⟨true, false, some 1⟩ }
    peers := [{ peerOf 3 .ready with age := 750999 }]
    ru := { s.ru with violationTimer := some 9999999, peerWaitTimer := some 119999999 }
    scu := { s.scu with backoff := some 1 }
    pc := { s.pc with timer := .running 1 } }

/-- Of a command's outcome, something of the next state. -/
def after {α : Type} (o : Host.Outcome State Fault Refusal) (f : State → α) : Option α :=
  match o with
  | .next t => some (f t)
  | _ => none

/-! ## The queue, the clock and the invariants -/

/-- EmptyQueueCountsOneMicrosecond: its premises: each timer running, a paused and a stopped pass timer, an open and a
closed unlock, a watchdog that runs and one that does not; and the fifteen commands due at once, in their order. -/
theorem witness_emptyQueue :
    allDue.pending = [] ∧ allDue.pc.timer = .running 1 ∧
    { allDue with pc := { allDue.pc with timer := .paused 3 } }.pc.timer = .paused 3 ∧
    (inState .idle).pc.timer = .stopped ∧ allDue.cp.unlock = .opened .general 1 ∧ (inState .idle).cp.unlock = .closed ∧
    allDue.cp.watchdog = .running 500000 ∧ (inState .idle).cp.watchdog = .unarmed ∧
    after (step allDue) (·.pending) = some [.announceTimerExpiry, .frameGapTimeout [], .unlockTimerExpiry,
      .watchdogExpiry, .debounceExpiry .homeL, .homeTimerExpiry, .markTimerExpiry, .driveTimerExpiry, .sweepTimerExpiry,
      .listenOnlyEnd, .peerAgeExpiry 3, .violationTimerExpiry, .peerWaitTimerExpiry, .passTimerExpiry,
      .backoffExpiry] := by decide +kernel

/-- A step of the busy state: the premises of the seven invariants, and a next state. -/
theorem witness_invariants :
    let s := { busy with pending := [.slideDone .l] }
    StatusInv s ∧ ImagesInv s ∧ TxQueueInv s ∧ PeersInv s ∧ ClaimsInv s ∧ PassQueueInv s ∧ RangesInv s ∧
    ∃ t, step s = .next t := by
  refine ⟨rfl, ⟨rfl, nofun, nofun⟩, ?_, ⟨?_, ?_⟩, ⟨?_, ?_⟩, ⟨by decide +kernel, by decide +kernel, ?_, by decide +kernel⟩,
    ?_, _, rfl⟩
  · refine ⟨?_, by decide +kernel⟩
    show _ ∧ _ ∧ _ ∧ _ ∧ _
    decide +kernel
  · decide +kernel
  · decide +kernel
  · decide +kernel
  · intro; rfl
  · intro p hp
    injection hp with hp
    subst hp; rfl
  · show _ ∧ _
    decide +kernel

/-- StartValuesStandUntilReset: a command that is no reset and none of those that write the image. -/
theorem witness_startValues :
    (∀ k p w, Instr.slideDone .l ≠ .reset k p w) ∧ (∃ t, exec (.slideDone .l) busy = .next t) ∧
    (∀ p, Instr.slideDone .l ≠ .writeSettings p) ∧ (∀ m, Instr.slideDone .l ≠ .settingsWriteDone m) ∧
    (∀ m, Instr.slideDone .l ≠ .calibrationWriteDone m) ∧ (∀ p, Instr.slideDone .l ≠ .markTrailingEdge p) ∧
    (∀ f, Instr.slideDone .l = .discardedFrame f → cellComplete f = true) :=
  ⟨nofun, ⟨_, rfl⟩, nofun, nofun, nofun, nofun, nofun⟩

/-- AnnouncedCeilingNeverRises: an announced NORMAL record that stays NORMAL. -/
theorem witness_announcedCeiling :
    (∀ k p w, Instr.slideDone .l ≠ .reset k p w) ∧ busy.fe.ceil.status = .normal ∧ busy.fe.ceil.announced = true ∧
    busy.fe.ceil.value = some ⟨848900, 849500⟩ ∧
    after (exec (.slideDone .l) busy) (·.fe.ceil.status) = some .normal :=
  ⟨nofun, rfl, rfl, rfl, by decide +kernel⟩

/-- A silenced station at rest. -/
def quiet : State := let s := inState .silenced; { s with lc := { s.lc with silenced := true, announce := none } }

/-- SilencedUntilReset. -/
theorem witness_silenced :
    (∀ k p w, Instr.visit [3#8] ≠ .reset k p w) ∧ Quiet quiet ∧ ∃ t, exec (.visit [3#8]) quiet = .next t :=
  ⟨nofun, ⟨rfl, rfl, rfl, rfl, rfl, rfl⟩, _, rfl⟩

/-! ## Frames, the image, and what the blocks compute -/

/-- CellFramesReadBack: the longest payload. -/
theorem witness_cellFrames : (List.replicate 255 0#8 : List Byte).length ≤ 255 := by decide +kernel

/-- LinkFramesReadBack: each kind's premises at the ends of its ranges. -/
theorem witness_linkFrames :
    ((linkCode .estop).isSome = true ∧ 8 ≤ 8 ∧ 255 ≤ 255) ∧
    ((LR.mk 600000 1300000 : LR Int).all (fun d => decide (d % 2 = 0) && linkDiameterOk d) = true) ∧
    ((LR.mk 0 33554430 : LR Int).all (fun d => decide (d % 2 = 0) && decide (0 ≤ d) && decide (d < 33554432)) = true) ∧
    1 ≤ 1 ∧ 8 ≤ 8 ∧ (makeFrame .state 2 (List.replicate 15 0#8)).payload.length ≤ 15 ∧
    (makeFrame .claim 2 (be1 8)).payload[0]? = some 8#8 := by decide +kernel

/-- WrittenImageIsGood: a write that ends at the last data byte, over a spare byte's neighbour, and offsets on both
sides of it. -/
theorem witness_writtenImage :
    imageWf [] = true ∧ 1022 + [1#8, 2#8].length ≤ 1024 ∧ 1 < [1#8, 2#8].length ∧ isSpare 49 = true ∧
    (1021 < 1024 ∧ 1021 < 1022) ∧ (30 < 1024 ∧ 20 + [1#8, 2#8].length ≤ 30) := by decide +kernel

/-- A gate that has accepted 100, and one that has it as candidate in bin 4. -/
def gateOpen : RcuWheel := { RcuWheel.reset with gate := .opened, lastAccepted := some 100 }
def gateCandidate : RcuWheel := { RcuWheel.reset with gate := .candidate, candidate := some (100, 4) }

/-- RunoutGate: each clause at a boundary of its range. -/
theorem witness_runoutGate :
    ((-20001 : Int) < -20000) ∧ ((20000 : Int) < 20001) ∧ (-20000 ≤ (-20000 : Int) ∧ (20000 : Int) ≤ 20000) ∧
    (gateOpen.gate = .opened ∧ gateOpen.lastAccepted = some 100 ∧ |(500 : Int) - 100| ≤ (400 : Nat) ∧
      ((400 : Nat) : Int) < |(501 : Int) - 100|) ∧
    RcuWheel.reset.gate = .seeking ∧ gateCandidate.gate = .candidate ∧ gateCandidate.candidate = some (100, 4) := by
  decide +kernel

/-- FitChoosesTheVariant: profiles of one length with a present point, and fits of rising index. -/
theorem witness_fit :
    let f := fun k => fitVariant 200 k (flatVariant 620) ⟨700, 810⟩ ⟨[some 0], [some 80]⟩
    [some (0 : Int), none].length = [(5 : Int), 6].length ∧ [some (0 : Int), none][0]? = some (some 0) ∧
    [(5 : Int), 6][0]? = some 5 ∧ [f 0, f 1].Pairwise (fun a b => a.index < b.index) ∧
    (chooseVariant [f 0, f 1]).isSome = true := by decide +kernel

/-- SequenceWrapOrder: the ends of the range, equal and unequal. -/
theorem witness_sequence : 1 ≤ 1 ∧ 255 ≤ 255 ∧ (1 : Nat) ≠ 255 := by decide

/-- TargetsFromCeilings: a member with a ceiling in the own bogie, everything even. -/
theorem witness_targets :
    let v := [memberOf 1 0 851240 850100, memberOf 3 1 845020 846880]
    (∃ e ∈ v, e.cls = .member ∧ e.bogie = 0) ∧ (848900 : Int) % 2 = 0 ∧ (849500 : Int) % 2 = 0 ∧ cfg.tolAxle % 2 = 0 ∧
    cfg.tolBogie % 2 = 0 ∧ cfg.tolCar % 2 = 0 ∧
    (∀ e ∈ v, e.ceiling.all (fun x => x.l % 2 == 0 && x.r % 2 == 0)) := by decide +kernel

/-- TargetsFromCeilings: an entry of each class. -/
theorem witness_classes :
    let p := fun st => (⟨0, 0, st, 0, 3, 7#16, true, 1, 0, false⟩ : PeerState)
    let e := peerOf 3 .ready
    let cls := fun (p : PeerState) (e : PeerEntry) => peerClass p { e with st := some p }
    cls (p .idle) e = .notMember ∧ cls (p .unmeasured) e = .pending .measuring ∧
    cls (p .ready) { e with freshness := .stale } = .pending .stale ∧
    cls (p .ready) { e with freshness := .restarted } = .pending .restarted ∧
    cls { p .ready with digestMatch := false } e = .pending .digest ∧
    cls { p .ready with annCeiling := 2 } e = .pending .noCeiling ∧
    cls (p .ready) { e with ceiling := none } = .pending .noCeiling ∧ cls (p .ready) e = .member := by
  decide +kernel

/-- A station that holds ceilings and a surface, and hears station 3 of its own bogie; with a plan or none. -/
def hearing (st : StationState) (plan : Option Plan) (sf : LR Int) : State :=
  let s := inState st
  { s with
    vc := { s.vc with visitOpen := true }
    fe := { s.fe with
      ceil := ⟨.normal, some ⟨848900, 849500⟩, 1, true, none⟩
      fit := { FitRecord.reset with diameter := some ⟨852000, 853400⟩, chosen := some 1 } }
    peers := [peerOf 3 .ready]
    ru := { s.ru with plan := plan, intent := plan.map fun p => ⟨1, 1, p.target⟩, intentSeq := 1 }
    pc := { s.pc with surface := some sf } }

/-- The first plan of section 8.9, with the entry of station 3 in the own bogie. -/
def oldPlan : Plan := computePlan cfg 0 ⟨848900, 849500⟩ [memberOf 3 0 851240 850100]

/-- A CEILING of station 3, and the state that has taken it. -/
def newCeiling (v : LR Int) : StoredCeiling := ⟨2, .normal, some v⟩
def taken (v : LR Int) (s : State) : State :=
  { s with peers := putPeer (takeCeilingFrame (newCeiling v) (entryOf 3 s)) s.peers }

theorem hears (v : LR Int) (s : State) (hv : v = ⟨845020, 846880⟩ ∨ v = ⟨852000, 853400⟩)
    (hs : s.ss.straps.station = 2) (hp : PeersInv s) :
    HearsCeiling (makeFrame .ceiling 3 (ceilingPayload (newCeiling v))) (newCeiling v) s (taken v s) := by
  refine ⟨?_, ?_, ?_, hp, rfl⟩
  · show (3 : Fin 16) ≠ s.ss.straps.station
    rw [hs]; decide
  · rcases hv with rfl | rfl <;> decide +kernel
  · rcases hv with rfl | rfl <;> decide +kernel

/-- A second entry of the own car, pending. -/
def withPending (s : State) : State := { s with peers := s.peers ++ [peerOf 4 .measuring] }

/-- TargetsFromCeilings: the agreement check in READY, a member awaited and one whose targets are too far. -/
theorem witness_agree :
    let s := { hearing .ready (some oldPlan) ⟨852000, 853400⟩ with
      peers := [peerOf 3 .ready, { peerOf 4 .ready with intent := some ⟨1, 1, ⟨840000, 840000⟩⟩ }] }
    effState s = .ready ∧ PeersInv s ∧ (agree s).ru.awaited = [3] ∧ (agree s).ru.violation = true :=
  ⟨rfl, ⟨by decide +kernel, by decide +kernel⟩, by decide +kernel, by decide +kernel⟩

/-- A STATE of station 3 with a status, and the state that has taken it. -/
def newState (st : StationState) : PeerState := ⟨0, 0, st, 0, 3, 7#16, true, 1, 0, false⟩
def heard (st : StationState) (s : State) : State :=
  { s with peers := putPeer (takeState (newState st) (entryOf 3 s)) s.peers }

/-- TargetsFromCeilings, R131: a STATE that takes an awaited member from CUTTING to ABORTED takes it off the list, one
that takes it from ABORTED to ESTOP puts it there, one that changes nothing leaves the state as it is. -/
theorem witness_statusHeard :
    let s := fun (st : StationState) => agree { hearing .ready (some oldPlan) ⟨852000, 853400⟩ with peers := [peerOf 3 st] }
    let f := fun (st : StationState) => makeFrame .state 3 (statePayload (newState st))
    let run := fun (a b : StationState) => after (exec (.stateReceived (f b)) (s a)) (fun t => (t.ru.awaited, t.ru.intent))
    HearsState (f .aborted) (newState .aborted) (s .cutting) (heard .aborted (s .cutting)) ∧
    ((groupView (s .cutting)).map (·.cls) = [.member] ∧
      (groupView (heard .aborted (s .cutting))).map (·.cls) = [.member]) ∧
    ((s .cutting).ru.awaited = [3] ∧ run .cutting .aborted = some ([], (s .cutting).ru.intent)) ∧
    ((s .aborted).ru.awaited = [] ∧ run .aborted .estop = some ([3], (s .aborted).ru.intent)) ∧
    run .cutting .cutting = some ([3], (s .cutting).ru.intent) :=
  ⟨⟨by decide +kernel, by decide +kernel, by decide +kernel, ⟨by decide +kernel, by decide +kernel⟩, rfl,
    by decide +kernel, by decide +kernel, rfl⟩, by decide +kernel, by decide +kernel, by decide +kernel, by decide +kernel⟩

/-- TargetsFromCeilings: a report with nothing changed; in RECONCILING, with an entry pending and with none. -/
theorem witness_firstPlan :
    let s := hearing .reconciling none ⟨852000, 853400⟩
    let v : LR Int := ⟨845020, 846880⟩
    let same := { s with peers := [{ peerOf 3 .ready with ceiling := some (newCeiling ⟨852000, 853400⟩) }] }
    HearsCeiling (makeFrame .ceiling 3 (ceilingPayload (newCeiling v))) (newCeiling v) s (taken v s) ∧
    (groupView same).map reportKey = (groupView (taken v same)).map reportKey ∧
    (groupView s).map reportKey ≠ (groupView (taken v s)).map reportKey ∧
    anyPending (groupView (taken v (withPending s))) = true ∧ anyPending (groupView (taken v s)) = false ∧
    (s.fe.ceil.status = .normal ∧ s.fe.ceil.value = some ⟨848900, 849500⟩ ∧ s.vc.state = .reconciling ∧
      s.ru.plan = none ∧ s.fe.fit.diameter = some ⟨852000, 853400⟩) ∧
    after (exec (.ceilingReceived (makeFrame .ceiling 3 (ceilingPayload (newCeiling v)))) s)
      (fun t => (t.vc.state, t.ru.plan.map (·.target))) = some (.ready, some ⟨847020, 847020⟩) :=
  ⟨hears _ _ (.inl rfl) rfl ⟨by decide +kernel, by decide +kernel⟩, by decide +kernel, by decide +kernel,
    by decide +kernel, by decide +kernel, ⟨rfl, rfl, rfl, rfl, rfl⟩, by decide +kernel⟩

/-- A plan whose targets stand above the own ceilings of `hearing`, fallen since. -/
def highPlan : Plan := computePlan cfg 0 ⟨851000, 851000⟩ []

/-- TargetsFromCeilings: a moved input; the targets changed, unchanged and lowered, an entry pending or none, a pass
ACTIVE. -/
theorem witness_replan :
    let s := hearing .ready (some oldPlan) ⟨852000, 853400⟩
    let c := { hearing .cutting (some oldPlan) ⟨852000, 853400⟩ with
      pc := { PC.reset with queue := [passOf 1 .finish .active] } }
    let low : LR Int := ⟨845020, 846880⟩
    let high : LR Int := ⟨852000, 853400⟩
    InputMoved (groupView s) (groupView (taken low s)) ∧ InputMoved (groupView s) (groupView (taken high s)) ∧
    (oldPlan.target = ⟨848900, 849300⟩ ∧
      (computePlan cfg 0 ⟨848900, 849500⟩ (groupView (taken low s))).target = ⟨847020, 847020⟩ ∧
      (computePlan cfg 0 ⟨848900, 849500⟩ (groupView (taken high s))).target = ⟨848900, 849300⟩) ∧
    (anyPending (groupView (taken low s)) = false ∧ anyPending (groupView (taken low (withPending s))) = true) ∧
    (min highPlan.target.l 848900 ≠ highPlan.target.l ∧ min oldPlan.target.l 848900 = oldPlan.target.l) ∧
    (c.vc.state = .cutting ∧ (activePass c).isSome = true) ∧
    after (exec (.ceilingReceived (makeFrame .ceiling 3 (ceilingPayload (newCeiling low)))) c) (·.pc.rebuildOwed) =
      some true := by
  refine ⟨?_, ?_, by decide +kernel⟩ <;> (unfold InputMoved; decide +kernel)

/-- BuiltQueueAddsUp: the build of section 9.9, a DEEP one and an empty one. -/
theorem witness_build :
    0 < cfg.rough ∧ (∃ q f, buildFrom cfg false false 0 ⟨852000, 853400⟩ ⟨848900, 849300⟩ = .made q f) ∧
    (∃ n, buildFrom cfg false true 7 ⟨852000, 853400⟩ ⟨847020, 847020⟩ = .deep n) ∧
    buildFrom cfg true false 0 ⟨847020, 847000⟩ ⟨847020, 847020⟩ = .empty :=
  ⟨by decide, ⟨_, _, rfl⟩, ⟨_, rfl⟩, rfl⟩

/-- BuiltQueueAddsUp: changed targets of 847,020 in READY, in CUTTING and in FINISHED: what each clause builds, whether
a depth is thin, and the ends of a recut in READY, of a DEEP one and of an empty one in CUTTING. -/
theorem witness_rebuild :
    let go := fun (s : State) => exec (.ceilingReceived (makeFrame .ceiling 3 (ceilingPayload
      (newCeiling ⟨845020, 846880⟩)))) s
    let tg : LR Int := ⟨847020, 847020⟩
    let at_ := fun (st : StationState) (sf : LR Int) (fin : Bool) =>
      let s := hearing st (some oldPlan) sf
      { s with pc := { s.pc with finishDone := fin } }
    oldPlan.target ≠ tg ∧ (at_ .ready tg true).pc.uncertain = false ∧ (at_ .ready tg true).scu.slot = .none ∧
    buildFrom cfg false false 0 ⟨852000, 853400⟩ tg ≠ .empty ∧ buildFrom cfg true false 0 ⟨847020, 847020⟩ tg = .empty ∧
    ((match buildFrom cfg false true 0 ⟨852000, 853400⟩ tg with
      | .made q _ => q.head?.map (·.kind)
      | _ => none) = some .rough ∧
     (match buildFrom cfg false true 0 ⟨847220, 847220⟩ tg with
      | .made q _ => q.head?.map (·.kind)
      | _ => none) = some .finish) ∧
    (2 ≤ (848900 : Int) - 847020 ∧ ¬((848900 : Int) - 847020) / 2 < 50) ∧
    (0 < ((847100 : Int) - 847020) / 2 ∧ ((847100 : Int) - 847020) / 2 < 50 ∧ (820000 : Int) ≤ 847100 - 2 * 50) ∧
    after (go (at_ .ready ⟨852000, 853400⟩ false)) (fun t => (t.vc.state, t.pc.queue.length)) = some (.ready, 3) ∧
    after (go (at_ .ready tg true)) (·.vc.state) = some .finished ∧
    after (go (at_ .cutting tg true)) (·.vc.state) = some .finished ∧
    after (go { at_ .cutting ⟨852000, 853400⟩ false with
        pc := { PC.reset with surface := some ⟨852000, 853400⟩, passesDone := 7 } })
      (fun t => (t.vc.state, flagSet t.cp.status .recutRequired)) = some (.ready, true) ∧
    after (go (at_ .finished ⟨848900, 848900⟩ true)) (fun t => (t.vc.state, flagSet t.cp.status .recutRequired)) =
      some (.ready, true) ∧
    after (go (at_ .finished ⟨847100, 847100⟩ true)) (fun t => (t.vc.state, t.fe.ceil.value)) =
      some (.ready, some ⟨847000, 847000⟩) ∧
    after (go (at_ .ready ⟨847100, 847100⟩ true)) (fun t => (t.vc.state, t.fe.ceil.value)) =
      some (.ready, some ⟨847000, 847000⟩) ∧
    after (go (at_ .cutting ⟨847100, 847100⟩ true)) (fun t => (t.vc.state, t.fe.ceil.value)) =
      some (.cutting, some ⟨847000, 847000⟩) ∧
    (let s := at_ .finished ⟨847100, 847100⟩ true
     after (go { s with ss := { s.ss with startCopy := { cfg with condemn := 847050 } } }) (·.vc.state)) =
      some .condemned := by decide +kernel

/-! ## Host commands -/

/-- The port acts at once in every state built here. -/
theorem portFree_inState (st : StationState) : PortFree (inState st) :=
  ⟨rfl, (by decide +kernel : anyCritical bootCP.status = false)⟩

/-- A WRITE_SETTINGS being taken, with and without a command that waits. -/
def writing (w : Option (HostCmd × List Byte)) : State :=
  let s := inState .idle
  { s with ss := { s.ss with hostWrite := some (beginWrite [] 38 [16#8]).2 }, cp := { s.cp with waiting := w } }

/-- A critical flag set. -/
def critical : State :=
  let s := inState .cutting
  { s with cp := { s.cp with status := latchWord s.cp.status .passAborted } }

/-- PortBeforeAction: the four branches. -/
theorem witness_port :
    (writing none).ss.hostWrite ≠ none ∧ (writing none).cp.waiting = none ∧
    (writing (some (.visit, [3#8]))).cp.waiting ≠ none ∧
    (critical.ss.hostWrite = none ∧ anyCritical critical.cp.status = true ∧ HostCmd.hold ≠ .readStatus) ∧
    ((inState .idle).ss.hostWrite = none ∧ anyCritical (inState .idle).cp.status = false ∧
      lengthFits .withdraw 7 = false) := by decide +kernel

/-- VisitOpensAMeasurement: the refusals in order, and the accepted command. -/
theorem witness_visit :
    ((inState .ready).vc.state ≠ .idle) ∧ 16 ≤ (16#8).toNat ∧
    ((List.range 4).filter fun k => (4#8).getLsbD k &&
      decide (((inState .idle).fe.variants[k]?).map (·.verdict) = some .usable)) = [] ∧
    ((List.range 4).filter fun k => (15#8).getLsbD k &&
      decide (((inState .idle).fe.variants[k]?).map (·.verdict) = some .usable)) = [0, 1, 3] ∧
    (15#8).toNat < 16 ∧ (inState .idle).vc.calRunning = false ∧ level (inState .idle) .clamped = true ∧
    level { inState .idle with iiu := IIU.powerOn } .clamped = false ∧
    after (exec (.visit [15#8]) (inState .idle)) (·.fe.effective) = some [0, 1, 3] := by decide +kernel

/-- MeasureBeginsAgain: a state it is refused in, three it is acted on in, and no clamp. -/
theorem witness_measure :
    ((inState .idle).vc.state ≠ .unmeasured ∧ (inState .idle).vc.state ≠ .aborted ∧
      (inState .idle).vc.state ≠ .reconciling ∧ (inState .idle).vc.state ≠ .ready) ∧
    (inState .unmeasured).vc.state = .unmeasured ∧ (inState .aborted).vc.state = .aborted ∧
    ((inState .ready).vc.state = .ready ∧ (inState .ready).vc.passCompleted = false) ∧
    level (inState .ready) .clamped = true ∧
    level { inState .ready with iiu := IIU.powerOn } .clamped = false := by decide +kernel

/-- CutBegins: outside READY, a DEEP plan, and a plan that can be cut. -/
theorem witness_cut :
    (inState .idle).vc.state ≠ .ready ∧ (inState .ready).vc.state = .ready ∧ (inState .ready).pc.planDeep = none ∧
    { inState .ready with pc := { PC.reset with planDeep := some 8 } }.pc.planDeep ≠ none := by decide +kernel

/-- HoldAndResume: outside CUTTING, guard open, and with a pass ACTIVE, from an empty and a non-empty set. -/
theorem witness_hold :
    (inState .ready).vc.state ≠ .cutting ∧ busy.vc.state = .cutting ∧ level busy .guardClosed = true ∧
    level { busy with iiu := IIU.powerOn } .guardClosed = false ∧ busy.pc.holds = HoldCauses.empty ∧
    (activePass busy).isSome = true ∧ anyCritical busy.cp.status = false ∧ busy.ss.hostWrite = none ∧
    after (exec (.hold []) busy) (fun t => (t.out.orders, t.vc.sub)) =
      some ([.holdSlide .l, .holdSlide .r], some .hold) := by decide +kernel

/-- FeedOverride: refused, acted on with a pass ACTIVE, clamped at both ends; a started pass gives PASS orders. -/
theorem witness_feed :
    (inState .idle).vc.state ≠ .ready ∧ (inState .idle).vc.state ≠ .cutting ∧ busy.vc.state = .cutting ∧
    after (exec (.feed [49#8]) busy) (·.pc.feed) = some 50 ∧ after (exec (.feed [121#8]) busy) (·.pc.feed) = some 120 ∧
    Order.pass .l 625 (some 1) 100 ∈ (startPass (passOf 1 .rough .queued) busy).out.orders ∧
    Order.pass .l 625 (some 1) 100 ∉ busy.out.orders := by decide +kernel

/-- FeedOverride: a command that is none of those that may change the override. -/
theorem witness_feed_kept :
    (∃ t, exec (.slideDone .l) busy = .next t) ∧ (∀ p, Instr.slideDone .l ≠ .feed p) ∧
    (∀ p, Instr.slideDone .l ≠ .withdraw p) ∧ (∀ p, Instr.slideDone .l ≠ .release p) ∧
    (∀ m, Instr.slideDone .l ≠ .settingsWriteDone m) ∧ (∀ k p w, Instr.slideDone .l ≠ .reset k p w) ∧
    ∀ f, Instr.slideDone .l = .discardedFrame f → cellComplete f = true :=
  ⟨⟨_, rfl⟩, nofun, nofun, nofun, nofun, nofun, nofun⟩

/-- WithdrawLeavesTheCut: refused, diameters at both ends of their range and beyond, an open visit and none. -/
theorem witness_withdraw :
    let p := be4 820000 ++ be4 1300000
    let q := be4 819998 ++ be4 1300000
    (inState .cutting).vc.state ≠ .ready ∧ ((inState .idle).vc.state = .idle ∧ (inState .idle).vc.calRunning = false) ∧
    p.length = 8 ∧ (LR.mk (field p 0 4) (field p 4 4)).all (fun x =>
      decide (x % 2 = 0) && decide (cfg.condemn ≤ x) && decide (x ≤ 1300000)) = true ∧
    (LR.mk (field q 0 4) (field q 4 4)).all (fun x =>
      decide (x % 2 = 0) && decide (cfg.condemn ≤ x) && decide (x ≤ 1300000)) = false ∧
    (inState .idle).scu.slot = .none ∧ (inState .idle).vc.visitOpen = false ∧
    { inState .ready with vc := { VC.reset with state := .ready, visitOpen := true } }.vc.visitOpen = true ∧
    after (exec (.withdraw p) (inState .idle)) (·.fe.ceil.value) = some (some ⟨820000, 1300000⟩) := by decide +kernel

/-- ReleaseEndsTheVisit: refused by state, by argument and by a busy group; accepted with force, and without. -/
theorem witness_release :
    (inState .cutting).vc.state ≠ .finished ∧ (inState .finished).vc.state = .finished ∧
    (inState .excluded).vc.state = .excluded ∧ 1 < (2#8).toNat ∧ (1#8).toNat ≤ 1 ∧
    (∃ e ∈ [peerOf 3 .cutting], ∃ p, e.st = some p ∧ p.car = (inState .finished).ss.straps.car ∧ p.status = .cutting) ∧
    (inState .finished).peers = [] ∧ (inState .finished).scu.slot = .none :=
  ⟨by decide, rfl, rfl, by decide, by decide, ⟨_, .head _, _, rfl, rfl, rfl⟩, rfl, rfl⟩

/-- CalibrateBeginsARun: refused by state, wheel and diameter; both ends of the range; clamped and not. -/
theorem witness_calibrate :
    let p := be1 1 ++ be4 600000
    let q := be1 0 ++ be4 1300002
    (inState .invalid).vc.state ≠ .idle ∧ (inState .idle).vc.state = .idle ∧ p.length = 5 ∧ field p 0 1 ≤ 1 ∧
    field p 1 4 % 2 = 0 ∧ 600000 ≤ field p 1 4 ∧ ¬field q 1 4 ≤ 1300000 ∧ ¬field (be1 2 ++ be4 900000) 0 1 ≤ 1 ∧
    level (inState .idle) .clamped = true ∧
    level { inState .idle with iiu := IIU.powerOn } .clamped = false := by decide +kernel

/-- UnlockOpensAnArea: refused by state and by area; both areas. -/
theorem witness_unlock :
    (inState .ready).vc.state ≠ .idle ∧ (inState .ready).vc.state ≠ .invalid ∧ (inState .invalid).vc.state = .invalid ∧
    (inState .invalid).vc.calRunning = false ∧ (3#8 ≠ 1#8 ∧ 3#8 ≠ 2#8) := by decide +kernel

/-- The unlock open for GENERAL. -/
def unlockedGeneral : State :=
  let s := inState .idle
  { s with cp := { s.cp with unlock := .opened .general 5 } }

/-- WriteSettingsBegins: the refusals, and a write that ends at the last byte of GENERAL. -/
theorem witness_writeSettings :
    let p := be1 1 ++ be2 47 ++ [9#8]
    let q := be1 2 ++ be2 976 ++ [9#8]
    (4 ≤ p.length ∧ p.length ≤ 247) ∧ (inState .ready).vc.state ≠ .idle ∧ unlockedGeneral.vc.state = .idle ∧
    (field p 0 1 = 1 ∧ field p 1 2 + (p.drop 3).length ≤ 48) ∧ ¬field q 1 2 + (q.drop 3).length ≤ 976 ∧
    unlockedGeneral.cp.unlock = .opened .general 5 ∧ (inState .idle).cp.unlock = .closed := by decide +kernel

/-- A calibration write in progress. -/
def calibrationWriting : State :=
  let s := inState .idle
  { s with
    ss := { s.ss with
      image := (beginWrite [] 0 (be4 150000)).1, calWrite := some (beginWrite [] 0 (be4 150000)).2
      calRun := some ⟨.l, 920000, some 150000⟩ }
    vc := { s.vc with calRunning := true } }

/-- ReadbackAnswers: a write with and without a waiting command, none, and a calibration write. -/
theorem witness_readback :
    (writing none).ss.hostWrite = some (beginWrite [] 38 [16#8]).2 ∧ (writing none).cp.waiting = none ∧
    (writing (some (.visit, [3#8]))).cp.waiting = some (.visit, [3#8]) ∧ (inState .idle).ss.hostWrite = none ∧
    calibrationWriting.ss.calWrite = some (beginWrite [] 0 (be4 150000)).2 ∧
    calibrationWriting.ss.calRun = some ⟨.l, 920000, some 150000⟩ ∧
    after (exec (.settingsWriteDone [(38, 17#8)]) (writing none)) (·.out.responses) =
      some [.refused .writeSettings .storeFault] := by decide +kernel

/-- ReadSettingsReturnsBytes: during a calibration write, a place outside the area, and the last bytes of each source
and area, of a variant table of four variants. -/
theorem witness_readSettings :
    let p := fun (src a off n : Nat) => be1 src ++ be1 a ++ be2 off ++ be1 n
    let fits := fun (q : List Byte) => q.length = 5 ∧
      field q 2 2 + field q 4 1 ≤ (if field q 1 1 = 1 then 48 else if field q 1 1 = 2 then 976 else 2)
    calibrationWriting.ss.calWrite ≠ none ∧ (inState .idle).ss.calWrite = none ∧
    (fits (p 1 1 0 48) ∧ fits (p 1 2 732 244) ∧ fits (p 1 3 1 1) ∧ fits (p 2 1 44 4) ∧ fits (p 2 2 975 1) ∧
      fits (p 2 3 0 2)) ∧ ¬fits (p 1 3 1 2) ∧ ¬fits (p 2 1 45 4) ∧ (inState .idle).fe.variants.length = 4 ∧
    (∀ v ∈ (inState .idle).fe.variants, v.heights.length = 120) ∧
    after (exec (.readSettings (p 2 1 8 4)) (inState .idle)) (·.out.responses) =
      some [.ok .readSettings (be2 4096 ++ be2 4096)] := by decide +kernel

/-- ReadRecords: the new-result mark set and clear. -/
theorem witness_readRecords :
    (inState .idle).cp.newResult = true ∧
    { inState .idle with cp := { bootCP with newResult := false } }.cp.newResult = false ∧
    after (exec (.readStatus []) (inState .idle)) (fun t => t.cp.status) = some 0#16 ∧
    (List.replicate 32 true).length ≤ 32 ∧ (List.replicate 60 0#8).length ≤ 60000 := by decide +kernel

/-- FramesLost: a frame with a wrong check, a good one without room, a part of one, a bad link frame. -/
theorem witness_framesLost :
    let bad := [1#8, 0#8, 0#8, 0#8]
    cellComplete bad = true ∧ cellCommand bad = none ∧ cellCommand (cellFrame .visit [3#8]) ≠ none ∧
    ((writing (some (.visit, [3#8]))).ss.hostWrite ≠ none ∧ (writing (some (.visit, [3#8]))).cp.waiting ≠ none) ∧
    cellPartial ((inState .idle).cp.rxBuffer ++ [1#8]) = true ∧ goodFrame ⟨0#2, 0, 0#4, [], 0#16⟩ = false := by
  decide +kernel

/-- FramesLost: the bytes of a command's frame that leave it incomplete, that complete it, that spoil it, and that run
past its end. -/
theorem witness_assembly :
    let f := cellFrame .visit [3#8]
    let got := { inState .idle with cp := { bootCP with rxBuffer := f.take 3 } }
    (f.length = 5 ∧ f.take 3 ≠ [] ∧ f.drop 3 ≠ [] ∧ cellComplete (f.take 3) = false ∧ cellComplete (f.drop 3) = false) ∧
    cellPartial (got.cp.rxBuffer ++ [7#8]) = true ∧ cellCommand (got.cp.rxBuffer ++ f.drop 3) = some (.visit, [3#8]) ∧
    (cellComplete (got.cp.rxBuffer ++ [0#8, 0#8]) = true ∧ cellCommand (got.cp.rxBuffer ++ [0#8, 0#8]) = none) ∧
    (let past := got.cp.rxBuffer ++ [0#8, 0#8, 0#8]
     cellPartial past = false ∧ cellComplete past = false) ∧
    after (exec (.discardedFrame (f.drop 3)) got) (fun t => (t.vc.state, t.cp.rxBuffer)) = some (.measuring, []) := by
  decide +kernel

/-- WatchdogHoldsThePass: not running, running with and without a pass ACTIVE. -/
theorem witness_watchdog :
    (inState .idle).cp.watchdog = .unarmed ∧
    ({ busy with cp := { bootCP with watchdog := .running 500001 } }.cp.watchdog = .running 500001 ∧
      activePass busy = some (passOf 1 .rough .active)) ∧ activePass (inState .idle) = none := by decide +kernel

/-! ## Inputs -/

/-- A state with one input's debounce running toward a raw level. -/
def changing (i : Input) (raw : Bool) (s : State) : State :=
  { s with iiu := s.iiu.setLine i ⟨raw, !raw, some 1⟩ }

/-- A station in MEASURING with a run on, in its n-th attempt. -/
def measuring (n : Nat) : State :=
  let s := inState .measuring
  { s with
    vc := { s.vc with visitOpen := true, mask := 3#4 }
    rtu := { s.rtu with run := .measure, attempt := n, markTimer := some 4000000 }
    rcu := ⟨.filling, .both (rcuWindow 400)⟩ }

/-- InputsAreDebounced: a timer that runs and one that does not; DRIVE_AT_SPEED outside a run, gained and lost in
one, the third restart the last before the attempt ends. -/
theorem witness_inputs :
    ((inState .idle).iiu.line .homeL).timer = none ∧ ((changing .homeL true (inState .idle)).iiu.line .homeL).timer ≠ none ∧
    ((changing .driveAtSpeed true (inState .idle)).iiu.line .driveAtSpeed).timer ≠ none ∧
    (inState .idle).rtu.run = .none ∧
    ((changing .driveAtSpeed true (measuring 1)).iiu.line .driveAtSpeed).raw = true ∧ (measuring 1).rtu.run ≠ .none ∧
    ((changing .driveAtSpeed false (measuring 1)).iiu.line .driveAtSpeed).raw = false ∧
    { (measuring 1).rtu with restarts := 2 }.restarts < 3 ∧
    after (exec (.rawInputChange .homeL true) (inState .idle)) (fun t => (t.iiu.line .homeL).timer) =
      some (some 10000) := by decide +kernel

/-- InputsAreDebounced: the fourth restart, in an attempt that is not the third and in the third. -/
theorem witness_fourthLoss :
    let s := fun n => changing .driveAtSpeed false { measuring n with rtu := { (measuring n).rtu with restarts := 3 } }
    ((s 2).iiu.driveAtSpeed.timer ≠ none ∧ (s 2).iiu.driveAtSpeed.raw = false ∧ (s 2).rtu.run = .measure ∧
      (s 2).vc.state = .measuring) ∧ (3 ≤ (s 2).rtu.restarts ∧ (s 2).rtu.attempt < 3) ∧ 3 ≤ (s 3).rtu.attempt ∧
    after (exec (.debounceExpiry .driveAtSpeed) (s 2)) (·.rtu.attempt) = some 3 ∧
    after (exec (.debounceExpiry .driveAtSpeed) (s 3)) (fun t => (t.vc.state, t.rcu.wheel.l)) =
      some (.unmeasured, rcuWindow 400) := by decide +kernel

/-- A sweep on the R side open, the run over. -/
def tracing : State :=
  let s := inState .measuring
  { s with ptu := { PTU.reset with phase := .sweepR, sweepTimer := some 60000000 } }

/-- ReadRecords: a run, a filling buffer and an open sweep in the run section; a plan, an intent, a pending entry, a
violation and an awaited station in the reconciliation section; written and empty fields of the result record. -/
theorem witness_records :
    let far := { peerOf 5 .ready with intent := some ⟨1, 1, ⟨840000, 840000⟩⟩ }
    let s := agree { withPending (hearing .ready (some oldPlan) ⟨852000, 853400⟩) with
      peers := [peerOf 3 .ready, peerOf 4 .measuring, far] }
    let r := match exec .driveTimerExpiry { measuring 1 with rtu := { (measuring 1).rtu with driveTimer := some 1 } } with
      | .next t => t.result
      | _ => State.reset.result
    ((measuring 1).rtu.run ≠ .none ∧ (measuring 1).rcu.phase = .filling ∧ openSweep tracing.ptu.phase = some .r) ∧
    busy.lc.queue.length ≤ 4 ∧ (s.ru.plan.isSome = true ∧ s.ru.intent.isSome = true ∧ anyPending (groupView s) = true ∧
      (violationShown s).map (·.1) = some 5 ∧ s.ru.awaited = [3]) ∧
    (State.reset.result.rtu = none ∧ r.rtu.isSome = true ∧ r.rcu.isSome = true) ∧
    PTU.reset.wheel.l.points.length = 120 ∧ busy.pc.timer = .running 900000000 := by decide +kernel

/-- ReadRecords: the bins of the largest and of the smallest value, each the lowest where it stands. -/
theorem witness_extremes :
    let bins : List (Option Int) := [none, some 3, some 7, some 3, some 7]
    ExtremeBin (· ≤ ·) bins 2 ∧ ExtremeBin (· ≥ ·) bins 1 := by
  refine ⟨⟨7, rfl, fun j u h => ?_⟩, ⟨3, rfl, fun j u h => ?_⟩⟩ <;>
    rcases j with _ | _ | _ | _ | _ | j <;> simp at h <;> omega

/-- EstopStopsTheWork: every kind of state left. -/
theorem witness_estop :
    (∀ st, (changing .estop true (inState st)).iiu.estop.timer ≠ none ∧
      (changing .estop true (inState st)).iiu.estop.raw = true ∧ (inState st).vc.state = st ∧
      (inState st).rtu.run = .none ∧ activePass (inState st) = none ∧ (inState st).scu.slot = .none) ∧
    busy.vc.state = .cutting ∧ activePass busy = some (passOf 1 .rough .active) ∧
    (tracing.vc.state = .measuring ∧ tracing.rtu.run ≠ .calibrate) ∧
    after (exec (.debounceExpiry .estop) (changing .estop true busy)) (·.out.orders) =
      some [.retract .l, .retract .r, .stop] :=
  ⟨fun _ => ⟨nofun, rfl, rfl, rfl, rfl, rfl⟩, rfl, by decide +kernel, ⟨rfl, nofun⟩, by decide +kernel⟩

/-- In ESTOP, with a return state, a condemnation pending or not, cut begun or not. -/
def inEstop (back : StationState) (pending begun : Bool) : State :=
  let s := inState .estop
  changing .estop false
    { s with vc := { s.vc with returnState := some back, condPending := pending, cutBegun := begun } }

/-- EstopExit: each row. -/
theorem witness_estopExit :
    (changing .estop false (inState .ready)).vc.state ≠ .estop ∧
    (∀ b p c, (inEstop b p c).iiu.estop.timer ≠ none ∧ (inEstop b p c).iiu.estop.raw = false ∧
      (inEstop b p c).vc.state = .estop ∧ (inEstop b p c).vc.returnState = some b ∧
      (inEstop b p c).vc.condPending = p ∧ (inEstop b p c).vc.cutBegun = c) ∧
    (linkCode .ready).isSome = true ∧
    after (exec (.debounceExpiry .estop) (inEstop .cutting false true)) (·.vc.state) = some .aborted :=
  ⟨nofun, fun _ _ _ => ⟨nofun, rfl, rfl, rfl, rfl, rfl⟩, rfl, by decide +kernel⟩

/-- InterlocksActOnThePass: a pass ACTIVE with a tool away, a run on, no pass ACTIVE. -/
theorem witness_interlocks :
    ((changing .clamped false busy).iiu.clamped.timer ≠ none ∧ (changing .clamped false busy).iiu.clamped.raw = false ∧
      ¬(level (changing .clamped false busy) .homeL = true ∧ level (changing .clamped false busy) .homeR = true) ∧
      activePass (changing .clamped false busy) = some (passOf 1 .rough .active)) ∧
    ((changing .clamped false (measuring 1)).vc.state = .measuring ∧
      (changing .clamped false (measuring 1)).rtu.run = .measure) ∧
    ((changing .clamped true (cutting [])).vc.state = .cutting ∧ activePass (changing .clamped true (cutting [])) = none) ∧
    ((changing .guardClosed false busy).iiu.guardClosed.timer ≠ none ∧
      (changing .guardClosed false busy).iiu.guardClosed.raw = false) ∧
    after (exec (.debounceExpiry .guardClosed) (changing .guardClosed false busy)) (·.pc.timer) =
      some (.paused 900000000) := by decide +kernel

/-- In ABORTING, the R latch set, a condemnation pending or not. -/
def aborting (pending : Bool) : State :=
  let s := inState .aborting
  { s with
    vc := { s.vc with condPending := pending, homeTimer := some 5 }
    iiu := { s.iiu with latch := ⟨false, true⟩ } }

/-- AbortAndRetract: an ACTIVE pass with its timer running, none, the home edges and the home timer. -/
theorem witness_abort :
    (activePass busy = some (passOf 1 .rough .active) ∧ busy.vc.state = .cutting ∧ busy.pc.timer = .running 900000000 ∧
      ¬(level busy .homeL = true ∧ level busy .homeR = true)) ∧
    activePass (inState .ready) = none ∧
    (∀ v, ((changing .homeL v (aborting false)).iiu.line .homeL).timer ≠ none ∧
      ((changing .homeL v (aborting false)).iiu.line .homeL).raw = v) ∧
    ((aborting true).iiu.latch.put .l true = ⟨true, true⟩ ∧ (aborting true).vc.state = .aborting) ∧
    (aborting false).vc.homeTimer ≠ none ∧ (inState .idle).vc.homeTimer = none ∧
    after (exec (.debounceExpiry .homeL) (changing .homeL true (aborting false))) (·.vc.state) = some .aborted :=
  ⟨by decide +kernel, by decide +kernel, fun _ => ⟨nofun, rfl⟩, by decide +kernel, nofun, rfl, by decide +kernel⟩

/-- Both slides home, the ACTIVE pass with a condemnation pending or not, Z as given. -/
def home (pending : Bool) (z : Nat) : State :=
  let on : InputLine := ⟨true, true, none⟩
  { busy with
    vc := { busy.vc with condPending := pending }
    iiu := { busy.iiu with homeL := on, homeR := on }
    ss := { busy.ss with startCopy := { cfg with condemn := z } } }

/-- AbortAndRetract, InterlocksActOnThePass: both home inputs active, an offer that lowers nothing, one below Z, a
condemnation pending (R178). -/
theorem witness_abortHome :
    (level (home false 820000) .homeL = true ∧ level (home false 820000) .homeR = true ∧
      activePass (home false 820000) = some (passOf 1 .rough .active) ∧ (home false 820000).vc.state = .cutting) ∧
    (abortTaken (passOf 1 .rough .active) (home false 820000) ⟨848900, 849500⟩ = ⟨848900, 849500⟩ ∧
      (820000 : Int) ≤ 848900 ∧ ¬(849000 : Int) ≤ 848900) ∧
    after (exec (.slideFault .l) (home false 820000)) (fun t => (t.vc.state, t.vc.homeTimer)) = some (.aborted, none) ∧
    after (exec .passTimerExpiry (home false 849000)) (fun t => (t.vc.state, t.fe.ceil.condemning)) =
      some (.condemned, some ⟨848900, 849500⟩) ∧
    after (exec (.debounceExpiry .clamped) (changing .clamped false (home true 820000))) (·.vc.state) =
      some .condemned := by decide +kernel

/-- EstopStopsTheWork: an ACTIVE pass whose offer lowers the ceiling on a plan kept, and one below Z. -/
theorem witness_estopOffers :
    let s := fun (z : Nat) => changing .estop true { busy with
      ru := { busy.ru with plan := some oldPlan }
      fe := { busy.fe with ceil := ⟨.normal, some ⟨851000, 851600⟩, 1, true, none⟩ }
      ss := { busy.ss with startCopy := { cfg with condemn := z } } }
    activePass (s 820000) = some (passOf 1 .rough .active) ∧
    after (exec (.debounceExpiry .estop) (s 820000)) (fun t => (t.fe.ceil.value, t.fe.ceil.seq, t.ru.plan.isSome)) =
      some (some ⟨850650, 851550⟩, 2, true) ∧
    after (exec (.debounceExpiry .estop) (s 850700)) (fun t => (t.fe.ceil.value, t.vc.condPending)) =
      some (some ⟨851000, 851600⟩, true) := by decide +kernel

/-! ## Measuring -/

/-- A measurement with its counts: previous count, count since mark, a mark pulse in progress or not. -/
def counted (n : Option Nat) (k : Nat) (on : Bool) (width : Nat) : State :=
  let s := measuring 1
  { s with rtu := { s.rtu with prevCount := .both n, count := .both k, pulseOn := on, pulseWidth := width } }

/-- EncoderPulseCounts: not allowed; the 64th and the 65th pulse of a mark; no previous count; a new index, and the
17th lift-off of a revolution. -/
theorem witness_encoder :
    ¬((inState .idle).rtu.run ≠ .none ∧ level (inState .idle) .driveAtSpeed = true) ∧
    (let a := fun (s : State) => s.rtu.run ≠ .none ∧ level s .driveAtSpeed = true
     (a (counted none 5 true 63) ∧ (counted none 5 true 63).rtu.pulseWidth < 64) ∧
     (a (counted none 5 true 64) ∧ 64 ≤ (counted none 5 true 64).rtu.pulseWidth ∧
       (counted none 5 true 64).rtu.attempt < 3) ∧
     (a (counted none 5 false 0) ∧ (counted none 5 false 0).rtu.prevCount.l = none) ∧
     (a (counted (some 25122) 98 false 0) ∧ (counted (some 25122) 98 false 0).rtu.prevCount.l = some 25122)) ∧
    (counted (some 25122) 98 false 0).rcu.wheel.l.lastIndex = none ∧
    (takeSample 400 0 20001 { rcuWindow 400 with liftRev := 16 }).liftRev = 17 ∧
    after (exec (.encoderPulse .l 18) (counted (some 25122) 98 false 0)) (·.rcu.wheel.l.candidate) =
      some (some (18, 1)) := by decide +kernel

/-- The third attempt of a measurement, and a calibration run's, as they are given. -/
def third (s : State) : State := { s with rtu := { s.rtu with attempt := 3 } }

/-- EncoderPulseCounts: the third attempt ended by the 65th pulse of a mark, in a measurement and in a calibration, and
by the 17th lift-off. -/
theorem witness_thirdAttempt :
    let m := third (counted none 5 true 64)
    let c := { m with
      vc := { VC.reset with state := .idle, calRunning := true }
      rtu := { m.rtu with run := .calibrate }, ss := { m.ss with calRun := some ⟨.l, 920000, none⟩ } }
    let l := let s := third (counted (some 25122) 98 false 0)
      { s with rcu := ⟨.filling, .both { rcuWindow 400 with liftRev := 16 }⟩ }
    (m.rtu.pulseOn = true ∧ 64 ≤ m.rtu.pulseWidth ∧ m.vc.state = .measuring ∧ level m .driveAtSpeed = true) ∧
    (c.rtu.run = .calibrate ∧ c.ss.calRun = some ⟨.l, 920000, none⟩) ∧
    (l.rcu.wheel.l.lastIndex ≠ some 1 ∧ (takeSample 400 1 20001 l.rcu.wheel.l).liftRev = 17) ∧
    after (exec (.encoderPulse .l 0) m) (·.vc.state) = some .unmeasured ∧
    after (exec (.encoderPulse .l 0) c) (·.out.responses) =
      some [.ok .calibrate (be1 0 ++ be1 2 ++ be4 0 ++ be4 0 ++ be4 0)] ∧
    after (exec (.encoderPulse .l 20001) l) (fun t => t.result.rtu.map (·.reason)) = some (some .probeLiftoff) := by
  decide +kernel

/-- A mark pulse in progress: its width, the first mark seen or not, the previous and the present period. -/
def marked (width : Nat) (first : Bool) (prev : Option Nat) (period : Nat) : State :=
  let s := measuring 1
  { s with
    rtu := { s.rtu with
      pulseOn := true, pulseWidth := width, firstMark := first, prevPeriod := prev
      lastMark := some 0#32, capture := BitVec.ofNat 32 period } }

/-- MarksBoundRevolutions: noise, the first mark, a steady revolution at the limit of a quarter, one beyond it. -/
theorem witness_marks :
    (marked 1 false none 0).rtu.pulseWidth < 2 ∧ (marked 2 false none 0).rtu.firstMark = false ∧
    (2 ≤ (marked 2 true (some 100) 125).rtu.pulseWidth ∧ ¬(100 : Int) < 4 * |(125 : Int) - 100|) ∧
    ((100 : Int) < 4 * |(126 : Int) - 100| ∧ (marked 2 true (some 100) 126).rtu.restarts < 3) ∧
    (marked 2 true (some 100) 125).rtu.window.l.length < 7 ∧ (inState .idle).rtu.pulseOn = false ∧
    after (exec (.markTrailingEdge (.both 0)) (marked 2 true (some 100) 126)) (·.rtu.restarts) = some 1 := by decide +kernel

/-- MarksBoundRevolutions: indices supplied at noise and at a steady mark with no lift-off at its limit; the fourth
restart with attempts left and in the third. -/
theorem witness_marksSupply :
    let supplied := fun (s : State) => { s with rtu := { s.rtu with prevCount := .both (some 9), count := .both 5 } }
    let before := supplied { marked 1 true (some 100) 100 with rcu := ⟨.filling, .both (rcuWindow 400)⟩ }
    let noise := { before with rtu := { before.rtu with pulseOn := false } }
    let fourth := let s := marked 2 true (some 100) 126
      { s with rtu := { s.rtu with restarts := 3 } }
    (∀ w : Wheel, ((markSupplied (.both 18) noise).rcu.wheel.get w).liftRev < 17) ∧ noise.rtu.indexOf .l = some 142 ∧
    (markSupplied (.both 18) noise).rcu.wheel.l.candidate = some (18, 142) ∧
    (3 ≤ fourth.rtu.restarts ∧ fourth.rtu.attempt < 3) ∧ 3 ≤ (third fourth).rtu.attempt ∧
    after (exec (.markTrailingEdge (.both 18)) before) (·.rcu.wheel.r.candidate) = some (some (18, 142)) ∧
    after (exec (.markTrailingEdge (.both 0)) fourth) (·.rtu.attempt) = some 2 ∧
    after (exec (.markTrailingEdge (.both 0)) (third fourth)) (fun t => t.result.rtu.map fun r =>
      (r.reason, r.restarts)) = some (some (.slip, 4)) := by
  refine ⟨fun w => ?_, by decide +kernel⟩
  cases w <;> decide +kernel

/-- Section 3.8: a mark of nine pulses with a previous count of 2,458: index 0 is supplied as the mark is classed, with
no sample to go to bin 1 before it. -/
theorem test_nine_pulse_mark :
    let s := marked 9 true none 0
    let t := { s with
      rtu := { s.rtu with count := .both 2467, pulseCount := .both 9 }
      rcu := ⟨.filling, .both (rcuWindow 0)⟩
      ss := { s.ss with startCopy := { cfg with jump := 0 } } }
    after (exec (.markTrailingEdge (.both 31)) t) (fun t => (t.rtu.prevCount.l, t.rtu.binIndex.l, t.rcu.wheel.l.bins[0]?)) =
      some (some 2458, some 0, some (some 31)) := by decide +kernel

/-- The eighth steady revolution of the slip case, every bin present or not. -/
def closing (bin : Option Int) : State :=
  let s := marked 2 true (some 100) 100
  { s with
    rtu := { s.rtu with
      window := .both [25118, 25125, 25122, 25120, 25124, 25119, 25127], count := .both 25122 }
    rcu := ⟨.filling, .both { rcuWindow 400 with bins := none :: List.replicate 255 (some 5) |>.set 0 bin }⟩ }

/-- WindowCloses: every premise together, with the buffers complete and with bin 0 absent. -/
theorem witness_window :
    let c := [25118, 25125, 25122, 25120, 25124, 25119, 25127, 25122]
    let d := 2 * ((cfg.dm.l * c.sum + 8 * cfg.counts.l) / (16 * cfg.counts.l))
    let s := closing (some 62)
    (s.vc.state = .measuring ∧ s.rtu.run = .measure ∧ level s .driveAtSpeed = true ∧ s.rtu.pulseOn = true ∧
      2 ≤ s.rtu.pulseWidth ∧ s.rtu.firstMark = true) ∧
    4 * |((s.rtu.capture - s.rtu.lastMark.getD 0#32).toNat : Int) - 100| ≤ 100 ∧
    (s.rtu.window.l ++ [s.rtu.count.l - s.rtu.pulseCount.l] = c ∧ s.rtu.window.r ++ [s.rtu.count.r - s.rtu.pulseCount.r] = c) ∧
    8 ≤ c.length ∧ c.foldl max 0 ≤ c.foldl min (c.headD 0) + c.sum / 8 * cfg.slip / 1000 ∧
    (600000 ≤ d ∧ d ≤ 1300000) ∧ s.rcu.wheel.l.bins.all Option.isSome = true ∧
    (closing none).rcu.wheel.l.bins.all Option.isSome = false ∧
    after (exec (.markTrailingEdge (.both 0)) s) (fun t => (t.rtu.diameter.l, t.ptu.phase)) = some (some 920000, .sweepL) := by
  decide +kernel

/-- A calibration run on. -/
def calibrating : State :=
  let s := inState .idle
  { s with
    vc := { s.vc with calRunning := true }
    rtu := { s.rtu with run := .calibrate, attempt := 1, driveTimer := some 1 }
    ss := { s.ss with calRun := some ⟨.l, 920000, none⟩ } }

/-- MarksBoundRevolutions, InputsAreDebounced: the fourth restart in the third attempt of a calibration run. -/
theorem witness_calibrationRestarts :
    let s := { marked 2 true (some 100) 126 with
      vc := calibrating.vc, ss := calibrating.ss
      rtu := { (marked 2 true (some 100) 126).rtu with run := .calibrate, attempt := 3, restarts := 3 } }
    let answer := some [Response.ok .calibrate (be1 0 ++ be1 1 ++ be4 0 ++ be4 0 ++ be4 0)]
    (s.rtu.run = .calibrate ∧ s.ss.calRun = some ⟨.l, 920000, none⟩ ∧ 3 ≤ s.rtu.restarts ∧ 3 ≤ s.rtu.attempt) ∧
    after (exec (.markTrailingEdge (.both 0)) s) (·.out.responses) = answer ∧
    after (exec (.debounceExpiry .driveAtSpeed) (changing .driveAtSpeed false s)) (·.out.responses) = answer := by
  decide +kernel

/-- WindowCloses: a wheel beyond its allowance with attempts left and in the third, a diameter out of range, and a
calibration run that succeeds, is out of range, and slips. -/
theorem witness_windowEnds :
    let slipping := fun (s : State) => { s with rtu := { s.rtu with count := .both 25200 } }
    let s := closing (some 62)
    let wide := { s with ss := { s.ss with startCopy := { cfg with dm := .both 250000 } } }
    let cal := fun (d : Nat) => { s with
      vc := calibrating.vc, rtu := { s.rtu with run := .calibrate }, ss := { s.ss with calRun := some ⟨.l, d, none⟩ } }
    let go := fun (s : State) => exec (.markTrailingEdge (.both 0)) s
    let c := [25118, 25125, 25122, 25120, 25124, 25119, 25127, 25122]
    (¬(25200 : Nat) ≤ 25118 + 201055 / 8 * 3 / 1000 ∧ (slipping s).rtu.attempt < 3 ∧
      3 ≤ (third (slipping s)).rtu.attempt ∧ (slipping s).vc.state = .measuring) ∧
    ¬2 * ((250000 * c.sum + 8 * 4096) / (16 * 4096)) ≤ 1300000 ∧
    ((16 * 4096 * 920000 + c.sum) / (2 * c.sum) = 150000 ∧ ¬(16 * 4096 * 600000 + c.sum) / (2 * c.sum) ≥ 100000 ∧
      0 < c.sum ∧ (cal 920000).rtu.run = .calibrate ∧ (cal 920000).ss.calRun = some ⟨.l, 920000, none⟩) ∧
    after (go (slipping s)) (·.rtu.attempt) = some 2 ∧
    after (go (third (slipping s))) (fun t => t.result.rtu.map (·.reason)) = some (some .slip) ∧
    after (go wide) (fun t => t.result.rtu.map (·.reason)) = some (some .diameterRange) ∧
    after (go (cal 920000)) (fun t => (t.ss.calWrite.isSome, t.ss.calRun.bind (·.dNew))) = some (true, some 150000) ∧
    after (go (cal 600000)) (·.out.responses) = some [.refused .calibrate .calRange] ∧
    after (go (slipping (cal 920000))) (·.rtu.attempt) = some 2 ∧
    after (go (third (slipping (cal 920000)))) (·.out.responses) =
      some [.ok .calibrate (be1 0 ++ be1 1 ++ be4 201055 ++ be4 0 ++ be4 0)] := by decide +kernel

/-- MeasurementTimeouts: each timer stopped, an attempt left, the third attempt, a drive timer, a calibration, a
sweep. -/
theorem witness_timeouts :
    ((inState .idle).rtu.markTimer = none ∧ (inState .idle).rtu.driveTimer = none ∧
      openSweep (inState .idle).ptu.phase = none) ∧
    ((measuring 2).rtu.markTimer ≠ none ∧ (measuring 2).rtu.attempt < 3) ∧
    (3 ≤ (measuring 3).rtu.attempt ∧ (measuring 3).vc.state = .measuring ∧ (measuring 3).rtu.run = .measure) ∧
    { (measuring 1).rtu with driveTimer := some 1 }.driveTimer ≠ none ∧
    (calibrating.rtu.driveTimer ≠ none ∧ calibrating.rtu.run = .calibrate ∧
      calibrating.ss.calRun = some ⟨.l, 920000, none⟩) ∧
    (let c := third { calibrating with rtu := { calibrating.rtu with markTimer := some 1 } }
     c.rtu.markTimer ≠ none ∧ 3 ≤ c.rtu.attempt ∧ c.rtu.run = .calibrate) ∧
    (openSweep tracing.ptu.phase = some .r ∧ tracing.vc.state = .measuring) := by decide +kernel

/-- A tracer's record with a reference, a jump run, and a count at every point. -/
def tracedWheel (q : Option Int) (jumps count : Nat) : PtuWheel :=
  { PtuWheel.reset with reference := q, jumpRun := jumps, points := List.replicate 120 ⟨0, count, none, none⟩ }

/-- TracerReadingBinned: the bounds of the range, of the jump, of the jump run, of a window and of a count. -/
theorem witness_tracer :
    openSweep (inState .idle).ptu.phase = none ∧ openSweep tracing.ptu.phase = some .r ∧ Wheel.r ≠ .l ∧
    ¬(-50000 ≤ (-50001 : Int)) ∧ (-50000 ≤ (50000 : Int) ∧ (50000 : Int) ≤ 50000) ∧
    ((800 : Nat) ≠ 0 ∧ ((800 : Nat) : Int) < |(801 : Int) - 0|) ∧ ¬((800 : Nat) : Int) < |(800 : Int) - 0| ∧
    (tracedWheel (some 0) 14 0).jumpRun < 15 ∧ 15 ≤ (tracedWheel (some 0) 15 0).jumpRun ∧
    (∀ j : Nat, j < 120 → 250 < |(70251 : Int) - 1000 * (j : Int)|) ∧ |(70250 : Int) - 1000 * ((70 : Nat) : Int)| ≤ 250 ∧
    ((tracedWheel none 0 65534).points[70]? = some ⟨0, 65534, none, none⟩ ∧ (65534 : Nat) < 65535) := by decide +kernel

/-- A sweep about to end on a side, its points as given. -/
def sweeping (ph : PtuPhase) (ps : List Point) : State :=
  let s := inState .measuring
  { s with
    fe := { s.fe with effective := [0], fit := { FitRecord.reset with
      diameter := some ⟨852000, 853400⟩, runout := some ⟨140, 90⟩, state := .collecting } }
    ptu := { PTU.reset with phase := ph, sweepTimer := some 5, wheel := .both { PtuWheel.reset with points := ps } } }

/-- SweepEndFormsTheRecord: no sweep, the other sweep, a complete record on each side with 12 absent points, an
incomplete one. -/
theorem witness_sweepEnd :
    let twelve := pointsWithout [36, 37, 38, 39, 90, 91, 92, 93, 94, 95, 96, 97]
    let thirteen := pointsWithout [36, 40, 41, 42, 43, 44, 100, 101, 102, 103, 104, 105, 106]
    twelve.length = 120 ∧ cfg.flange ≤ 60 ∧ (∀ j < 36, (twelve.getD j Point.absent).count ≠ 0) ∧
    twelve[70]? = some ⟨0, 1, none, none⟩ ∧ (twelve.filter fun pt => pt.count == 0).length ≤ 12 ∧
    ¬(thirteen.filter fun pt => pt.count == 0).length ≤ 12 ∧
    openSweep (sweeping .sweepL twelve).ptu.phase = some .l ∧ openSweep (sweeping .sweepR twelve).ptu.phase = some .r ∧
    after (exec (.sweepEnd .l) (sweeping .sweepL twelve)) (·.out.orders) = some [.sweep .r] ∧
    after (exec (.sweepEnd .l) (sweeping .sweepL thirteen)) (·.vc.state) = some .unmeasured := by decide +kernel

/-- SweepEndFormsTheRecord: the R sweep's end with ceilings at or above Z, an entry pending and none, and below Z. -/
theorem witness_measured :
    let s := sweeping .sweepR (pointsWithout [36, 37, 38, 39, 90, 91, 92, 93, 94, 95, 96, 97])
    let low := { s with ss := { s.ss with startCopy := { cfg with condemn := 860000 } } }
    s.vc.state = .measuring ∧ s.fe.fit.diameter = some ⟨852000, 853400⟩ ∧ s.fe.fit.runout = some ⟨140, 90⟩ ∧
    anyPending (groupView s) = false ∧ anyPending (groupView (withPending s)) = true ∧
    after (exec (.sweepEnd .r) s) (fun t => (t.vc.state, t.fe.ceil.value)) =
      some (.ready, some ⟨851320, 852820⟩) ∧
    after (exec (.sweepEnd .r) (withPending s)) (·.vc.state) = some .reconciling ∧
    after (exec (.sweepEnd .r) low) (fun t => (t.vc.state, t.fe.ceil.condemning)) =
      some (.condemned, some ⟨851320, 852820⟩) := by decide +kernel

/-! ## The pit link -/

/-- In START, with n expiries of the listen period to come, ESTOP active or not. -/
def listening (n : Nat) (stop : Bool) : State :=
  let s := inState .start
  { s with
    lc := { s.lc with listenLeft := n }
    iiu := { s.iiu with estop := ⟨stop, stop, none⟩ } }

/-- AnnounceTimer: stopped; the first and the last expiry in START; the third and the fourth after it. -/
theorem witness_announce :
    { (inState .idle).lc with announce := none }.announce = none ∧
    ((listening 2 false).lc.announce ≠ none ∧ (listening 2 false).vc.state = .start ∧ 1 < (listening 2 false).lc.listenLeft) ∧
    ((listening 1 false).lc.listenLeft = 1 ∧ level (listening 1 false) .estop = false ∧
      (listening 1 false).result.start.good = true) ∧
    { (listening 1 false).result.start with good := false }.good = false ∧
    (level (listening 1 true) .estop = true ∧ (listening 1 true).rtu.run = .none) ∧
    ((inState .idle).vc.state ≠ .start ∧ 2 % 4 + 1 < 4 ∧ 3 % 4 + 1 = 4) ∧
    after (exec .announceTimerExpiry (listening 1 true)) (fun t => (t.vc.state, t.vc.returnState)) =
      some (.estop, some .idle) := by decide +kernel

/-- A station whose CLAIM is on the line or waits, ARMED, with other stations' claims. -/
def armed (tx : Bool) (others : List Claim) : State :=
  let s := cutting [passOf 1 .rough .queued, passOf 2 .finish .queued]
  { s with
    lc := { s.lc with
      queue := [{ QEntry.new (.claim 1) with tx := tx }]
      onLine := if tx then some (makeFrame .claim 2 (be1 1)) else none }
    scu := { SCU.reset with slot := .armed, ask := true, claimPass := some 1, claims := others } }

/-- A state with nothing queued and nothing on the line. -/
def withoutFrames (s : State) : State := { s with lc := { s.lc with queue := [], onLine := none } }

/-- A reservation given up while its CLAIM is on the line, an ask standing since. -/
def askedAgain (others : List Claim) : State :=
  let s := armed true others
  { s with
    lc := { s.lc with queue := [{ QEntry.new (.claim 1) with tx := true, withdraw := some .givenUp }] }
    scu := { s.scu with slot := .none, claimPass := none } }

/-- R163, FramesAreSent, TransmissionsLost: an ask queues no second CLAIM beside one given up on the line; sent, that one
is followed by its RELEASE and then by the new CLAIM; lost, by the new CLAIM alone; with no room the station waits. -/
theorem test_secondClaimWaits :
    let s := askedAgain []
    let full := askedAgain [⟨1, none⟩, ⟨3, none⟩]
    let asks := { s with scu := { s.scu with ask := false } }
    let frames := fun (c : LC) => c.queue.map (·.frame)
    (frames (slotAsk asks).lc, (slotAsk asks).scu.slot, (slotAsk asks).scu.ask) = ([.claim 1], .none, true) ∧
    after (exec .frameSent s) (fun t => (frames t.lc, t.scu.slot)) = some ([.release 1, .claim 1], .armed) ∧
    after (exec .frameSent full) (fun t => (frames t.lc, t.scu.slot)) = some ([.release 1], .waiting) ∧
    after (exec (.arbitrationLost 4) s) (fun t => (frames t.lc, t.scu.slot)) = some ([.claim 1], .armed) ∧
    after (exec (.arbitrationLost 4) full) (fun t => (frames t.lc, t.scu.slot)) = some ([], .waiting) := by decide +kernel

/-- FramesAreSent: nothing queued, not allowed, begun, sent whole, replaced; a CLAIM with room for it and without. -/
theorem witness_framesSent :
    (inState .idle).lc.queue = [] ∧ (inState .start).vc.state = .start ∧
    ((armed false []).lc.queue = [.new (.claim 1)] ∧ (armed false []).lc.listenOnly = none ∧
      (armed false []).lc.silenced = false ∧ ∀ x ∈ (armed false []).lc.queue, x.tx = false) ∧
    ((armed true []).lc.onLine = some (makeFrame .claim 2 (be1 1)) ∧
      (armed true []).lc.queue.find? (·.tx) = some { QEntry.new (.claim 1) with tx := true } ∧
      (armed true []).scu.slot = .armed ∧
      ((armed true [⟨1, none⟩]).scu.claims.filter fun c => decide (c.station ≠ 2)).length < cfg.slots ∧
      cfg.slots ≤ ((armed true [⟨1, none⟩, ⟨3, none⟩]).scu.claims.filter fun c => decide (c.station ≠ 2)).length) ∧
    QFrame.state.kindCode ≠ 1 ∧
    after (exec .frameSent (armed true [⟨1, none⟩])) (·.vc.sub) = some (some .pass) ∧
    after (exec .frameSent (armed true [⟨1, none⟩, ⟨3, none⟩])) (·.scu.backoff) = some (some 60000) := by
  decide +kernel

/-- TransmissionsLost: nothing on the line; a dominant and a recessive bit of station 2's field; the 15th and 16th
error. -/
theorem witness_lost :
    (inState .idle).lc.onLine = none ∧
    (let f := makeFrame .claim 2 (be1 1)
     (f.cls.toNat * 16 + f.station.val).testBit (5 - 0) = false ∧ (f.cls.toNat * 16 + f.station.val).testBit (5 - 4) = true) ∧
    (∀ e ∈ (armed true []).lc.queue, e.withdraw = none) ∧ (14 < 15 ∧ 15 ≤ 15) ∧
    { (inState .idle).lc with listenOnly := some 5 }.listenOnly ≠ none ∧ (inState .idle).lc.listenOnly = none := by
  decide +kernel

/-- PeerFramesUpdateTheirEntry: good frames of another station; a restart by sequence 0 and by an older sequence; no
restart; a CEILING and an INTENT that are taken and ignored. -/
theorem witness_peerFrames :
    let st := makeFrame .state 3 (statePayload ⟨0, 0, .ready, 0, 3, 7#16, true, 0, 1, false⟩)
    let ce := makeFrame .ceiling 3 (ceilingPayload ⟨1, .normal, some ⟨848900, 849500⟩⟩)
    let it := makeFrame .intent 3 (intentPayload ⟨1, 1, ⟨848900, 849300⟩⟩)
    (3 : Fin 16) ≠ ownStation busy ∧ goodAs .state st = true ∧ (readState 7#16 st.payload).isSome = true ∧
    goodAs .ceiling ce = true ∧ (readCeiling ce.payload).isSome = true ∧ goodAs .intent it = true ∧
    (readIntent it.payload).isSome = true ∧ (findPeer 3 busy.peers).isSome = true ∧
    (findPeer 5 busy.peers).isSome = false ∧ seqOlder 255 1 = true ∧ seqOlder 2 1 = false ∧
    after (exec (.stateReceived st) busy) (fun t => (findPeer 3 t.peers).map (·.freshness)) =
      some (some .restarted) := by decide +kernel

/-- OwnNumberSilences: good frames of the own number; silenced and not; every state left. -/
theorem witness_ownNumber :
    (makeFrame .claim 2 (be1 1)).station = ownStation busy ∧ goodAs .claim (makeFrame .claim 2 (be1 1)) = true ∧
    quiet.lc.silenced = true ∧ busy.lc.silenced = false ∧ activePass busy = some (passOf 1 .rough .active) ∧
    activePass (cutting []) = none ∧ ((measuring 1).vc.state = .measuring ∧ (measuring 1).rtu.run = .measure) ∧
    after (exec (.claimReceived (makeFrame .claim 2 (be1 1))) busy) (fun t => t.vc.state) = some .silenced := by
  decide +kernel

/-- ClaimsHeard: good frames of another station, the group view unmoved, a queued CLAIM that is not on the line. -/
theorem witness_claims :
    let s := armed false []
    let f := makeFrame .claim 3 (be1 8)
    f.station ≠ ownStation s ∧ readPass f.payload = some 8 ∧ goodAs .claim f = true ∧
    goodAs .release (makeFrame .release 3 (be1 8)) = true ∧ busy.scu.slot ≠ .armed ∧ busy.scu.slot ≠ .waiting ∧
    (groupView s).map reportKey = (groupView { s with peers := putPeer ⟨3, none, false, none, none, 0, .fresh⟩ s.peers }).map
      reportKey ∧
    s.scu.slot = .armed ∧ s.lc.silenced = false ∧ (∃ x ∈ s.lc.queue, x.frame.kindCode = 1 ∧ x.tx = false) ∧
    (∀ x ∈ s.lc.queue, x.withdraw ≠ some .lost) ∧
    after (exec (.claimReceived f) s) (·.scu.backoff) = some (some 60000) := by decide +kernel

/-- ClaimsHeard, WaitsForPeersEnd: a station WAITING on a list that a removal brings below K_slots, or leaves at it. -/
theorem witness_waitingArms :
    let claims : List Claim := (List.range (cfg.slots - 1)).map (fun i => ⟨⟨(5 + i) % 16, by omega⟩, none⟩) ++ [⟨3, some 8⟩]
    let s := { withoutFrames (armed false []) with
      scu := { SCU.reset with slot := .waiting, ask := true, claims := claims }
      peers := [{ peerOf 3 .ready with st := none }] }
    let queued := { s with lc := (armed true []).lc }
    let left := claims.filter fun c => decide (c.station ≠ 3)
    (s.vc.state = .cutting ∧ left ≠ claims ∧ left.length < (conf s).slots ∧ framesOfKind 1 s.lc = [] ∧
      framesOfKind 1 queued.lc ≠ [] ∧ s.pc.queue = [passOf 1 .rough .queued, passOf 2 .finish .queued]) ∧
    after (exec (.releaseReceived (makeFrame .release 3 (be1 8))) s) (fun t => (t.scu.slot, t.scu.claimPass)) =
      some (.armed, some 1) ∧
    after (exec (.releaseReceived (makeFrame .release 4 (be1 8))) s) (·.scu.slot) = some .waiting ∧
    after (exec (.peerAgeExpiry 3) s) (fun t => (t.scu.slot, t.scu.claims)) = some (.armed, left) ∧
    after (exec (.peerAgeExpiry 3) queued) (fun t => (t.scu.slot, t.scu.claims)) = some (.waiting, left) := by
  decide +kernel

/-- WaitsForPeersEnd: no entry, a STALE one, a FRESH one; each wait timer running, latched and stopped. -/
theorem witness_waits :
    findPeer 5 busy.peers = none ∧ (findPeer 3 busy.peers).map (·.freshness) = some .fresh ∧
    (findPeer 4 [{ peerOf 4 .ready with freshness := .stale }]).map (·.freshness) = some .stale ∧
    { RU.reset 0 with violationTimer := some 5 }.violationTimer ≠ none ∧
    (RU.reset 0).violationLatched = false ∧ (RU.reset 0).violationTimer = none ∧
    { RU.reset 0 with peerWaitTimer := some 5 }.peerWaitTimer ≠ none ∧ (RU.reset 0).peerWaitLatched = false ∧
    after (exec (.peerAgeExpiry 3) busy) (fun t => (findPeer 3 t.peers).map (·.age)) = some (some 751000) := by
  decide +kernel

/-- EstopStopsTheWork, InterlocksActOnThePass: a calibration run stopped in IDLE; a CLAIM on the line; an open sweep
that loses the clamp. -/
theorem witness_worksStopped :
    let e := changing .estop true
    let c := changing .clamped false
    ((e calibrating).iiu.estop.timer ≠ none ∧ (e calibrating).vc.state = .idle ∧ (e calibrating).rtu.run = .calibrate ∧
      (e calibrating).ss.calRun = some ⟨.l, 920000, none⟩) ∧
    ((e (armed true [])).vc.state = .cutting ∧ activePass (e (armed true [])) = none ∧
      (e (armed true [])).scu.slot = .armed ∧ (e (armed true [])).lc.silenced = false ∧
      (∃ x ∈ (e (armed true [])).lc.queue, x.frame.kindCode = 1) ∧
      ∀ x ∈ (e (armed true [])).lc.queue, x.frame.kindCode = 1 → x.tx = true) ∧
    ((c tracing).iiu.clamped.timer ≠ none ∧ (c tracing).iiu.clamped.raw = false ∧ (c tracing).rtu.run ≠ .measure ∧
      openSweep (c tracing).ptu.phase = some .r) ∧
    ((c calibrating).iiu.clamped.raw = false ∧ (c calibrating).vc.state = .idle) ∧
    after (exec (.debounceExpiry .estop) (e calibrating)) (·.out.responses) =
      some [.refused .calibrate .wrongState] ∧
    after (exec (.debounceExpiry .clamped) (c tracing)) (·.out.orders) = some [.park .r, .stop] ∧
    after (exec (.debounceExpiry .clamped) (c calibrating)) (·.out.responses) =
      some [.ok .calibrate (be1 0 ++ be1 7 ++ be4 0 ++ be4 0 ++ be4 0)] := by decide +kernel

/-- OwnNumberSilences: an open sweep and a calibration run. -/
theorem witness_ownNumberWork :
    let f := makeFrame .claim 2 (be1 1)
    (f.station = ownStation tracing ∧ f.station = ownStation calibrating) ∧
    (tracing.lc.silenced = false ∧ tracing.vc.state = .measuring ∧ tracing.rtu.run ≠ .measure ∧
      openSweep tracing.ptu.phase = some .r) ∧
    (calibrating.lc.silenced = false ∧ calibrating.vc.state = .idle ∧ calibrating.ss.calRun ≠ none) ∧
    after (exec (.claimReceived f) tracing) (·.out.orders) = some [.park .r, .stop] ∧
    after (exec (.claimReceived f) calibrating) (·.out.responses) = some [.refused .calibrate .wrongState] := by
  decide +kernel

/-- FramesAreSent, TransmissionsLost, ClaimsHeard: a CLAIM on the line given up and lost, the full queue with a STATE,
with an INTENT and with neither, a CLAIM in the overflow position. -/
theorem witness_withdrawals :
    let givenUp := fun (why : Withdraw) =>
      { armed true [] with lc := { (armed true []).lc with
        queue := [{ QEntry.new (.claim 1) with tx := true, withdraw := some why }] } }
    let full := fun (l : List QFrame) => { (inState .idle).lc with queue := l.map QEntry.new }
    let claims : List QFrame := [.claim 1, .release 2, .claim 3]
    let f := makeFrame .claim 2 (be1 1)
    let queued := { armed false [] with lc := { (armed false []).lc with queue := [], overflow := some (.claim 1) } }
    ((givenUp .givenUp).lc.queue.find? (·.tx) = some { QEntry.new (.claim 1) with tx := true, withdraw := some .givenUp } ∧
      (givenUp .givenUp).vc.state ≠ .start ∧ (givenUp .lost).lc.errRun < 15 ∧
      (f.cls.toNat * 16 + f.station.val).testBit (5 - 4) = true ∧ (givenUp .lost).lc.onLine = some f) ∧
    (4 ≤ (full (claims ++ [.state])).queue.length ∧
      (full (claims ++ [.state])).queue.any (fun x => x.frame.kindCode == 5 && !x.tx) = true) ∧
    ((full (claims ++ [.intent 1 1 ⟨0, 0⟩])).queue.any (fun x => x.frame.kindCode == 5 && !x.tx) = false ∧
      (full (claims ++ [.intent 1 1 ⟨0, 0⟩])).queue.any (fun x => x.frame.kindCode == 4 && !x.tx) = true) ∧
    ((full (claims ++ [.claim 4])).overflow = none ∧ 4 ≤ (full (claims ++ [.claim 4])).queue.length) ∧
    ((full claims).queue.length < 4 ∧ ∀ x ∈ (full claims).queue, x.frame.kindCode ≠ 3) ∧
    ((armed true []).scu.slot = .armed ∧ ∀ x ∈ (armed true []).lc.queue, x.frame.kindCode = 1 →
      x.tx = true ∧ x.withdraw ≠ some .lost) ∧
    (queued.scu.slot = .armed ∧ queued.lc.overflow = some (.claim 1) ∧ ∀ x ∈ queued.lc.queue, x.frame.kindCode ≠ 1) ∧
    after (exec .frameSent (givenUp .givenUp)) (fun t => t.lc.queue.map (·.frame)) = some [.release 1] ∧
    after (exec (.arbitrationLost 4) (givenUp .lost)) (·.scu.slot) = some .backoff ∧
    (lcHand (.claim 5) (full (claims ++ [.claim 4]))).overflow = some (.claim 5) ∧
    after (exec (.claimReceived (makeFrame .claim 3 (be1 8))) queued) (·.scu.slot) = some .backoff := by decide +kernel

/-! ## Passes, slots and reset -/

/-- NoPassStartsUnready: a command that starts a pass. -/
theorem witness_passStarts :
    after (exec .frameSent (armed true [])) (fun t => (t.out.orders.drop (armed true []).out.orders.length, t.vc.sub)) =
      some ([.cutSpeed, .pass .l 625 (some 1) 100, .pass .r 875 (some 1) 100], some .pass) := by decide +kernel

/-- A pass ACTIVE whose L slide has returned. -/
def halfDone (k : PassKind) (rest : List Pass) : State :=
  cutting ({ passOf 1 k .active with slideDone := ⟨true, false⟩ } :: rest)

/-- SlideReturns: no pass ACTIVE, a stray return, the first return, the last of a ROUGH pass with the queue going on
and of the FINISH pass with it empty; offers that lower nothing. -/
theorem witness_slides :
    activePass (inState .ready) = none ∧
    (let p := { passOf 1 .rough .active with slideDone := ⟨true, false⟩ }
     activePass (halfDone .rough [passOf 2 .rough .queued]) = some p ∧ .l ∉ owedSlides p ∧ .r ∈ owedSlides p ∧
     owedSlides { p with slideDone := p.slideDone.put .r true } = [] ∧ owedSlides (passOf 1 .rough .active) = [.l, .r]) ∧
    (let s := halfDone .finish []
     s.vc.state = .cutting ∧ s.pc.rebuildOwed = false ∧ s.vc.condPending = false ∧ s.fe.ceil.status = .normal ∧
     s.fe.ceil.value = some ⟨848900, 849500⟩ ∧ (848900 : Int) ≤ 850750 - 100 ∧ (849500 : Int) ≤ 851650 - 100 ∧
     (820000 : Int) ≤ 848900 ∧ s.pc.queue.tail = [] ∧ s.scu.slot = .none) ∧
    after (exec (.slideDone .r) (halfDone .finish [])) (fun t => (t.vc.state, t.out.orders)) =
      some (.finished, [.stop]) := by decide +kernel

/-- SlideReturns: the last return of a ROUGH pass with a FINISH head behind it on a held slot; a build owed that is made,
DEEP and empty; an offer that lowers the ceilings, above Z and below it. -/
theorem witness_completions :
    let s := halfDone .rough [passOf 2 .finish .queued]
    let held := { s with scu := { s.scu with slot := .held, claimPass := some 1, claims := [⟨2, some 1⟩] } }
    let owed := fun (done : Nat) (tg : LR Int) => { held with
      ru := { held.ru with plan := some { oldPlan with target := tg } }
      pc := { held.pc with rebuildOwed := true, passesDone := done } }
    let lowers := fun (z : Nat) => { held with
      ru := { held.ru with plan := some oldPlan }
      fe := { held.fe with ceil := ⟨.normal, some ⟨851000, 851600⟩, 1, true, none⟩ }
      ss := { held.ss with startCopy := { cfg with condemn := z } } }
    let go := fun (s : State) => exec (.slideDone .r) s
    (held.scu.slot = .held ∧ held.pc.finishDone = false ∧ held.pc.uncertain = false ∧ held.vc.condPending = false ∧
      s.pc.queue.tail = [passOf 2 .finish .queued] ∧ (848900 : Int) ≤ 850750 - 2 * 50) ∧
    ((850750 : Int) - 2 * 50 < 851000 ∧ anyPending (groupView (lowers 820000)) = false ∧
      (lowers 820000).ru.intent = none) ∧
    after (go held) (fun t => (t.scu.slot, t.vc.sub, t.out.orders.head?)) = some (.none, some .pass, some .cutSpeed) ∧
    after (go (owed 1 ⟨848900, 849300⟩)) (fun t => (t.vc.state, t.pc.queue.length)) = some (.cutting, 2) ∧
    after (go (owed 7 ⟨848900, 849300⟩)) (fun t => (t.vc.state, flagSet t.cp.status .recutRequired)) =
      some (.ready, true) ∧
    after (go (owed 1 ⟨851650, 851650⟩)) (fun t => (t.vc.state, t.pc.queue)) = some (.finished, []) ∧
    after (go (lowers 820000)) (fun t => (t.fe.ceil.value, t.fe.ceil.seq)) = some (some ⟨850650, 851550⟩, 2) ∧
    after (go (lowers 851000)) (·.vc.state) = some .condemned := by decide +kernel

/-- The FINISH pass of section 9.9 ACTIVE, its L slide returned, with the peer and the targets of section 8.9. -/
def finishing : State :=
  let p : Pass := ⟨3, .finish, ⟨300, 300⟩, ⟨848900, 849300⟩, .active, .none, ⟨true, false⟩⟩
  let s := cutting [p]
  { s with
    pc := { s.pc with surface := some ⟨849500, 849900⟩, passesDone := 2, passesVisit := 2 }
    ru := { s.ru with plan := some oldPlan, intentSeq := 1, intent := some ⟨1, 1, ⟨848900, 849300⟩⟩ }
    peers := [peerOf 3 .ready] }

/-- SlideReturns, section 9.9: pass 3 DONE lowers the ceiling of R; the station is FINISHED, the drive stopped, the
ceiling at sequence 2, the intent at sequence 2 on that basis with the same targets, no re-plan counted. -/
theorem witness_finishLowers :
    let s := finishing
    (s.vc.state = .cutting ∧ .r ∈ owedSlides (s.pc.queue.headD (passOf 1 .rough .active)) ∧ s.pc.queue.tail = [] ∧
      s.pc.rebuildOwed = false ∧ s.vc.condPending = false ∧ s.scu.slot = .none ∧ (849300 : Int) < 849500) ∧
    anyPending (groupView s) = false ∧
    (computePlan (conf s) s.ss.straps.bogie ⟨848900, 849300⟩ (groupView s)).target = oldPlan.target ∧
    after (exec (.slideDone .r) s) (fun t => (t.vc.state, t.out.orders, t.fe.ceil.value, t.fe.ceil.seq)) =
      some (.finished, [.stop], some ⟨848900, 849300⟩, 2) ∧
    after (exec (.slideDone .r) s) (fun t => (t.ru.intent, t.ru.replanCount)) =
      some (some ⟨2, 2, ⟨848900, 849300⟩⟩, 0) := by decide +kernel

/-- A station in BACKOFF, asking or not. -/
def backedOff (ask : Bool) (others : List Claim) : State :=
  let s := withoutFrames (armed false others)
  { s with scu := { s.scu with slot := .backoff, ask := ask, backoff := some 1 } }

/-- BackoffEnds: not in BACKOFF; no ask; a full list; room for one more, the head ROUGH; a CLAIM still queued. -/
theorem witness_backoff :
    busy.scu.slot ≠ .backoff ∧ ((backedOff false []).scu.slot = .backoff ∧ (backedOff false []).scu.ask = false) ∧
    ((backedOff true []).scu.ask = true ∧ cfg.slots ≤ (backedOff true [⟨1, none⟩, ⟨3, none⟩]).scu.claims.length) ∧
    ((backedOff true [⟨1, none⟩]).scu.claims.length < cfg.slots ∧ (backedOff true [⟨1, none⟩]).vc.state = .cutting ∧
      (backedOff true [⟨1, none⟩]).pc.queue = [passOf 1 .rough .queued, passOf 2 .finish .queued]) ∧
    (framesOfKind 1 (backedOff true []).lc = [] ∧ framesOfKind 1 (armed true []).lc ≠ []) ∧
    after (exec .backoffExpiry (backedOff true [⟨1, none⟩])) (·.scu.slot) = some .armed ∧
    after (exec .backoffExpiry { backedOff true [] with lc := (armed true []).lc }) (·.scu.slot) = some .none := by
  decide +kernel

/-- ResetStarts: with no write in progress, with a WRITE_SETTINGS and with a calibration write. -/
theorem witness_reset :
    ((inState .idle).ss.hostWrite = none ∧ (inState .idle).ss.calWrite = none) ∧
    (writing none).ss.hostWrite = some (beginWrite [] 38 [16#8]).2 ∧
    (calibrationWriting.ss.hostWrite = none ∧
      calibrationWriting.ss.calWrite = some (beginWrite [] 0 (be4 150000)).2) ∧
    after (exec (.reset .resetLine ⟨2, 0, 0, 0, false⟩ 1) (writing none)) (fun t => (imageGet t.ss.image 38,
      t.result.start.good)) = some (16#8, false) := by decide +kernel

end Sys2Proof.Tests
end

