-- ==== Sys2Proof/Proofs/Silenced.lean ====
section
/-! PROOFS. A silenced station at rest stays so (R19, R99, R101): what each command leaves of the records that
`Quiet` reads. -/

namespace Sys2Proof.Machine

open Sys2Proof

/-- What `Quiet` reads, and the record of the frames sent, are the same in two states. -/
structure Unstirred (s t : State) : Prop where
  state : t.vc.state = s.vc.state
  silenced : t.lc.silenced = s.lc.silenced
  queue : t.lc.queue = s.lc.queue
  run : t.rtu.run = s.rtu.run
  phase : t.ptu.phase = s.ptu.phase
  passes : t.pc.queue = s.pc.queue
  sent : t.out.sent = s.out.sent

theorem Unstirred.refl (s : State) : Unstirred s s := ⟨rfl, rfl, rfl, rfl, rfl, rfl, rfl⟩

theorem Unstirred.trans {s t u : State} (h : Unstirred s t) (k : Unstirred t u) : Unstirred s u :=
  ⟨k.state.trans h.state, k.silenced.trans h.silenced, k.queue.trans h.queue, k.run.trans h.run,
    k.phase.trans h.phase, k.passes.trans h.passes, k.sent.trans h.sent⟩

theorem Unstirred.quiet {s t : State} (h : Unstirred s t) (hq : Quiet s) : Quiet t := by
  obtain ⟨h1, h2, h3, h4, h5, h6, h7⟩ := h
  simpa only [Quiet, h1, h2, h3, h4, h5, h6] using hq

theorem Unstirred.ite {s t u : State} {c : Prop} [Decidable c] (h : Unstirred s t) (k : Unstirred s u) :
    Unstirred s (if c then t else u) := by
  split
  · exact h
  · exact k

theorem onCP_unstirred (f : CP → CP) (s : State) : Unstirred s (s.onCP f) := by constructor <;> simp

theorem onSS_unstirred (f : SS → SS) (s : State) : Unstirred s (s.onSS f) := by constructor <;> simp

theorem onPeers_unstirred (f : List PeerEntry → List PeerEntry) (s : State) : Unstirred s (s.onPeers f) := by
  constructor <;> simp

theorem latch_unstirred (f : Flag) (s : State) : Unstirred s (latch f s) := by constructor <;> simp

/-- A response of the cell port is no frame sent on the link. -/
theorem respond_unstirred (r : Response) (s : State) : Unstirred s (respond r s) := by
  constructor <;> simp [respond]

theorem refuse_unstirred (c : HostCmd) (why : RefuseReason) (s : State) : Unstirred s (refuse c why s) :=
  respond_unstirred _ s

/-- A silenced station queues no frame (R101). -/
theorem queueFrame_silenced (f : QFrame) (s : State) (h : s.lc.silenced = true) : queueFrame f s = s := by
  simp [queueFrame, h]

theorem slotTest_lc_silenced (s : State) (h : s.lc.silenced = true) : (slotTest s).lc = s.lc := by
  simp only [slotTest, queueFrame]
  (repeat' split) <;> simp_all

theorem slotTest_unstirred (s : State) (h : s.lc.silenced = true) : Unstirred s (slotTest s) := by
  constructor <;> simp [slotTest_lc_silenced s h]

theorem removePeerClaim_unstirred (n : Fin 16) (s : State) (h : s.lc.silenced = true) :
    Unstirred s (removePeerClaim n s) := by
  have hlc : (removePeerClaim n s).lc = s.lc := by
    simp only [removePeerClaim]
    (repeat' split) <;> simp [slotTest_lc_silenced _, h]
  constructor <;> simp [hlc]

/-- Another station's CLAIM withdraws nothing from a silenced LC (R96, R101). -/
theorem claimHeard_unstirred (n : Fin 16) (pass : Nat) (s : State) (h : s.lc.silenced = true) :
    Unstirred s (claimHeard n pass s) := by
  have hlc : (claimHeard n pass s).lc = s.lc := by
    simp only [claimHeard, reservationLost, lcWithdraw]
    (repeat' split) <;> simp_all
  constructor <;> simp [hlc]

/-- With no pass queued the start conditions start nothing and ask for nothing. -/
theorem settle_unstirred (s : State) (h : s.pc.queue = []) : Unstirred s (settle s) := by
  obtain ⟨-, hvc, -, -, hstands, -, -, -⟩ := settle_settled s
  obtain ⟨hpc, hout, -, hlc⟩ := hstands (.inr h)
  constructor <;> simp [hvc, hpc, hout, hlc]

/-- SILENCED is no planning state: a report plans nothing and checks nothing (R118, R132). -/
theorem ruReport_silenced (told : Bool) (before : List ViewEntry) (s : State) (h : s.vc.state = .silenced) :
    ruReport told before s = settle s ∨ ruReport told before s = s := by
  have he : effState s = .silenced := by simp [effState, h]
  have hp : ruPlans before s = s := by simp [ruPlans, planning, he, isPlanning]
  have ha : agree s = s := by simp [agree, he]
  simp only [ruReport, hp, ha]
  (repeat' split) <;> simp

theorem ruReport_unstirred (told : Bool) (before : List ViewEntry) {s t : State} (hq : Quiet s)
    (h : Unstirred s t) : Unstirred s (ruReport told before t) := by
  obtain ⟨hst, -, -, -, -, hpc⟩ := h.quiet hq
  rcases ruReport_silenced told before t hst with e | e <;> rw [e]
  · exact h.trans (settle_unstirred t hpc)
  · exact h

/-! ## Host commands -/

/-- In SILENCED a host command is refused, or is a read that answers and changes nothing else but the port's record
(R4). -/
theorem actCommand_unstirred (c : HostCmd) (p : List Byte) (u : UnlockState) (s : State)
    (h : s.vc.state = .silenced) : Unstirred s (actCommand c p u s) := by
  cases c with
  | visit => simpa [actCommand, actVisit, freeIdle, h] using refuse_unstirred _ _ s
  | measure => simpa [actCommand, actMeasure, measureAllowed, h] using refuse_unstirred _ _ s
  | cut => simpa [actCommand, actCut, h] using refuse_unstirred _ _ s
  | hold => simpa [actCommand, actHold, h] using refuse_unstirred _ _ s
  | resume => simpa [actCommand, actResume, h] using refuse_unstirred _ _ s
  | feed => simpa [actCommand, actFeed, h] using refuse_unstirred _ _ s
  | withdraw => simpa [actCommand, actWithdraw, withdrawAllowed, freeOpen, isOpenState, h] using refuse_unstirred _ _ s
  | release => simpa [actCommand, actRelease, h] using refuse_unstirred _ _ s
  | calibrate => simpa [actCommand, actCalibrate, freeIdle, h] using refuse_unstirred _ _ s
  | unlock => simpa [actCommand, actUnlock, freeOpen, isOpenState, h] using refuse_unstirred _ _ s
  | writeSettings => simpa [actCommand, actWriteSettings, freeOpen, isOpenState, h] using refuse_unstirred _ _ s
  | readSettings =>
    simp only [actCommand, actReadSettings]
    (repeat' split) <;> exact respond_unstirred _ s
  | readStatus =>
    have hclear : ∀ t, Unstirred t (clearStatus t) := onCP_unstirred _
    exact (respond_unstirred _ s).trans (hclear _)
  | readResult =>
    exact .ite ((respond_unstirred _ s).trans (onCP_unstirred _ _)) ((respond_unstirred _ s).trans (latch_unstirred _ _))
  | readPeers => exact respond_unstirred _ s
  | readPasses => exact respond_unstirred _ s

theorem takeCommand_unstirred (c : HostCmd) (p : List Byte) (s : State) (h : s.vc.state = .silenced) :
    Unstirred s (takeCommand c p s) := by
  have htaken : Unstirred s (commandTaken s) := onCP_unstirred _ s
  exact .ite (htaken.trans ((respond_unstirred _ _).trans (onCP_unstirred _ _)))
    (.ite (htaken.trans (respond_unstirred _ _)) (htaken.trans (actCommand_unstirred c p _ _ h)))

theorem discardFrame_unstirred (s : State) : Unstirred s (discardFrame s) :=
  (onCP_unstirred _ s).trans (latch_unstirred _ _)

theorem cpSubmit_unstirred (c : HostCmd) (p : List Byte) (s : State) (h : s.vc.state = .silenced) :
    Unstirred s (cpSubmit c p s) :=
  .ite (.ite (discardFrame_unstirred s) (onCP_unstirred _ s)) (takeCommand_unstirred c p s h)

theorem receiveBytes_unstirred (bs : List Byte) (s : State) (h : s.vc.state = .silenced) :
    Unstirred s (receiveBytes bs s) := by
  simp only [receiveBytes]
  split
  · exact (onCP_unstirred _ s).trans (cpSubmit_unstirred _ _ _ h)
  · exact .ite (discardFrame_unstirred s) (.ite (onCP_unstirred _ s) (.refl s))

theorem takeWaiting_unstirred (s : State) (h : s.vc.state = .silenced) : Unstirred s (takeWaiting s) := by
  simp only [takeWaiting]
  split
  · exact (onCP_unstirred _ s).trans (takeCommand_unstirred _ _ _ h)
  · exact .refl s

theorem hostWriteEnd_unstirred (misread : List (Nat × Byte)) (s : State) (h : s.vc.state = .silenced) :
    Unstirred s (hostWriteEnd misread s) := by
  simp only [hostWriteEnd]
  split
  · have hdone : ∀ b f r r', Unstirred s (if b = true then respond r (s.onSS f) else respond r' (s.onSS f)) :=
      fun b f r r' => .ite ((onSS_unstirred f s).trans (respond_unstirred r _))
        ((onSS_unstirred f s).trans (respond_unstirred r' _))
    exact (hdone _ _ _ _).trans (takeWaiting_unstirred _ ((hdone _ _ _ _).state.trans h))
  · exact .refl s

theorem endCalibration_unstirred (why : Reason) (r : Response) (s : State) :
    Unstirred s (endCalibration why r s) := by
  constructor <;> simp [endCalibration, respond]

theorem calWriteEnd_unstirred (misread : List (Nat × Byte)) (s : State) : Unstirred s (calWriteEnd misread s) := by
  simp only [calWriteEnd]
  split
  · exact .ite ((onSS_unstirred _ s).trans (endCalibration_unstirred _ _ _))
      ((onSS_unstirred _ s).trans (endCalibration_unstirred _ _ _))
  · exact .refl s

/-! ## The line -/

theorem announce_unstirred (s : State) (h : s.lc.silenced = true) : Unstirred s (announce s) := by
  have hqueue : ∀ f t, Unstirred s t → Unstirred s (queueFrame f t) := fun f t ht => by
    rwa [queueFrame_silenced f t (ht.silenced.trans h)]
  have hcount : Unstirred s (s.onLC fun c => { c with expiryCount := c.expiryCount % 4 + 1 }) := by
    constructor <;> simp
  have hrefresh : ∀ t, Unstirred s t → Unstirred s (refresh t) := fun t ht => by
    simp only [refresh]
    split
    · exact hqueue _ _ (.ite ht (hqueue _ _ ht))
    · exact .ite ht (hqueue _ _ ht)
  exact .ite (hrefresh _ (hqueue _ _ hcount)) (hqueue _ _ hcount)

/-- Nothing is in transmission from an empty queue, so a transmission that fails takes no frame out of it (R87). -/
theorem transmissionFailed_unstirred (s : State) (h : s.lc.queue = []) : Unstirred s (transmissionFailed s) := by
  have htx : txWithdraw s.lc = none := by simp [txWithdraw, txEntry, h]
  simp only [transmissionFailed, htx]
  constructor <;> simp [lcTxFailed, h]

theorem ownFrameError_unstirred (s : State) (h : s.lc.queue = []) :
    ∀ t, execOwnFrameError s = .next t → Unstirred s t := by
  have hcount : Unstirred s (s.onLC countFrameError) := by constructor <;> simp [countFrameError]
  have hfailed := hcount.trans (transmissionFailed_unstirred _ (hcount.queue.trans h))
  have hlisten : ∀ t, Unstirred t (goListenOnly t) := fun t => by constructor <;> simp [goListenOnly]
  intro t ht
  simp only [execOwnFrameError] at ht
  split at ht <;> injection ht with ht <;> subst ht
  · exact .refl s
  · exact .ite (hfailed.trans (hlisten _)) hfailed

/-- A good frame of the own number changes nothing any more; a peer's is delivered (R97 to R99). -/
theorem receive_unstirred (k : FrameKind) (f : LinkFrame) (deliver : State → State) (s : State)
    (h : s.lc.silenced = true) (hd : Unstirred s (deliver s)) : Unstirred s (receive k f deliver s) := by
  have herr : Unstirred s (receiveError s) := by constructor <;> simp [receiveError]
  simp only [receive, h, if_true]
  exact .ite herr (.ite (.refl s) hd)

theorem deliverState_unstirred (n : Fin 16) (p : PeerState) (s : State) (hq : Quiet s) :
    Unstirred s (deliverState n p s) := by
  have hs : s.lc.silenced = true := hq.2.1
  have hremove : ∀ t, Unstirred s t → Unstirred s (removePeerClaim n t) := fun t ht =>
    ht.trans (removePeerClaim_unstirred n t (ht.silenced.trans hs))
  have hheld : ∀ t, Unstirred s t → Unstirred s (appendHeldClaim n t) := fun t ht =>
    ht.trans (.ite (.refl t) (by constructor <;> simp))
  have hpeers : ∀ f, Unstirred s (s.onPeers f) := fun f => onPeers_unstirred f s
  have hlatch : ∀ b f, Unstirred s (if b = true then latch .configMismatch (s.onPeers f) else s.onPeers f) :=
    fun b f => .ite ((hpeers f).trans (latch_unstirred _ _)) (hpeers f)
  have hclaims : ∀ b t, Unstirred s t → Unstirred s (if b = true then removePeerClaim n t else t) :=
    fun b t ht => .ite (hremove t ht) ht
  exact ruReport_unstirred _ _ hq (.ite (hheld _ (hclaims _ _ (hlatch _ _))) (hremove _ (hclaims _ _ (hlatch _ _))))

theorem deliverClaim_unstirred (n : Fin 16) (pass : Nat) (s : State) (hq : Quiet s) :
    Unstirred s (deliverClaim n pass s) :=
  ruReport_unstirred _ _ hq ((onPeers_unstirred _ s).trans (claimHeard_unstirred n pass _ hq.2.1))

theorem deliverRelease_unstirred (n : Fin 16) (s : State) (hq : Quiet s) : Unstirred s (deliverRelease n s) :=
  ruReport_unstirred _ _ hq ((onPeers_unstirred _ s).trans (removePeerClaim_unstirred n _ hq.2.1))

/-! ## The inputs and the measurement -/

/-- A debounced change in SILENCED: ESTOP latches its flag, CLAMPED and GUARD_CLOSED take the start conditions afresh,
and nothing runs that the other inputs could end (R173 to R178). -/
theorem inputChanged_unstirred (i : Input) (v : Bool) (s : State) (hq : Quiet s) :
    Unstirred s (inputChanged i v s) := by
  obtain ⟨hst, -, -, hrun, -, hpc⟩ := hq
  have hsettle := settle_unstirred s hpc
  have hhome : ∀ w, Unstirred s (homeEdge w s) := fun w => by
    have e : homeEdge w s = s.onIIU fun u => { u with latch := u.latch.put w true } := by
      simp [homeEdge, retractTest, hst]
    rw [e]
    constructor <;> simp
  cases i with
  | clamped => simpa [inputChanged, clampedChanged, hst] using .ite hsettle (.refl s)
  | guardClosed => simpa [inputChanged, guardChanged, hst] using hsettle
  | estop => simpa [inputChanged, estopActive, estopInactive, hst] using .ite (latch_unstirred _ s) (.refl s)
  | driveAtSpeed => simpa [inputChanged, driveAtSpeed, driveLost, hrun] using .refl s
  | homeL => exact .ite (hhome .l) (.refl s)
  | homeR => exact .ite (hhome .r) (.refl s)

/-- With no run an attempt that a timer ends begins nothing (R30). -/
theorem endAttempt_unstirred (why : Reason) (s : State) (h : s.rtu.run = .none) :
    Unstirred s (endAttempt why s) := by
  have hend : endRun why s = s := by simp [endRun, h]
  have hstart : Unstirred s (attemptStart s) := by
    rw [attemptStart_eq]
    constructor <;> rfl
  simpa only [endAttempt, hend] using .ite hstart (.refl s)

/-- Every command but RESET leaves what `Quiet` reads as it was, and sends no frame (R19, R99, R101). -/
theorem exec_unstirred (c : Instr) (s t : State) (hc : ∀ k p w, c ≠ .reset k p w) (hq : Quiet s)
    (he : exec c s = .next t) : Unstirred s t := by
  have hq' := hq
  obtain ⟨hst, hsil, hlcq, hrun, hph, hpc⟩ := hq'
  have hactive : activePass s = none := by simp [activePass, hpc]
  have hcounting : counting s = false := by simp [counting, hrun]
  have htx : txEntry s.lc = none := by simp [txEntry, hlcq]
  have hstray : Unstirred s (strayReturn s) := by constructor <;> simp [strayReturn]
  cases c with
  | reset k p w => exact absurd rfl (hc k p w)
  | announceTimerExpiry =>
    simp only [exec, execAnnounceTimerExpiry, hst] at he
    split at he <;> injection he with he <;> subst he
    · exact .refl s
    · exact Unstirred.trans (by constructor <;> simp) (announce_unstirred _ hsil)
  | visit p | measure p | cut p | hold p | resume p | feed p | withdraw p | release p | calibrate p | unlock p
  | writeSettings p | readSettings p | readStatus p | readResult p | readPeers p | readPasses p =>
    injection he with he; subst he
    exact cpSubmit_unstirred _ p s hst
  | discardedFrame frame =>
    injection he with he; subst he
    exact .ite (.ite (discardFrame_unstirred s) (.refl s)) (.ite (.refl s) (receiveBytes_unstirred frame s hst))
  | frameGapTimeout received =>
    injection he with he; subst he
    exact .ite (discardFrame_unstirred s) (.refl s)
  | settingsWriteDone misread =>
    injection he with he; subst he
    exact hostWriteEnd_unstirred misread s hst
  | calibrationWriteDone misread =>
    injection he with he; subst he
    exact calWriteEnd_unstirred misread s
  | unlockTimerExpiry =>
    injection he with he; subst he
    exact onCP_unstirred _ s
  | watchdogExpiry =>
    simp only [exec, execWatchdogExpiry] at he
    split at he <;> injection he with he <;> subst he
    · have hnone : ∀ f, activePass (latch .commTimeout (s.onCP f)) = none := fun f => by simp [activePass, hpc]
      simp only [hnone, Option.isSome_none, Bool.false_eq_true, if_false]
      exact (onCP_unstirred _ s).trans (latch_unstirred _ _)
    · exact .refl s
  | rawInputChange i v =>
    injection he with he; subst he
    constructor <;> simp
  | debounceExpiry i =>
    injection he with he; subst he
    have hline : ∀ f, Unstirred s (s.onIIU f) := fun f => by constructor <;> simp
    exact .ite ((hline _).trans (inputChanged_unstirred i _ _ ((hline _).quiet hq))) (.refl s)
  | homeTimerExpiry =>
    injection he with he; subst he
    exact .ite (by constructor <;> simp) (.refl s)
  | encoderPulse w probe =>
    simp only [exec, execEncoderPulse, hcounting] at he
    injection he with he; subst he
    exact .refl s
  | markLeadingEdge =>
    simp only [exec, execMarkLeadingEdge, hcounting] at he
    injection he with he; subst he
    exact .refl s
  | markTrailingEdge probe =>
    simp only [exec, execMarkTrailingEdge, hcounting] at he
    injection he with he; subst he
    exact .refl s
  | markTimerExpiry =>
    injection he with he; subst he
    exact .ite (endAttempt_unstirred _ s hrun) (.refl s)
  | driveTimerExpiry =>
    injection he with he; subst he
    have hend : endRun .driveTimeout s = s := by simp [endRun, hrun]
    exact .ite (hend.symm ▸ .refl s) (.refl s)
  | tracerReading w x r =>
    simp only [exec, execTracerReading, hph] at he
    injection he with he; subst he
    exact .refl s
  | sweepEnd w =>
    simp only [exec, execSweepEnd, hph] at he
    injection he with he; subst he
    exact .refl s
  | sweepTimerExpiry =>
    simp only [exec, execSweepTimerExpiry, hph] at he
    injection he with he; subst he
    exact .refl s
  | transmitStart =>
    simp only [exec, execTransmitStart, hlcq] at he
    injection he with he; subst he
    exact .refl s
  | arbitrationLost bit =>
    simp only [exec, execArbitrationLost] at he
    split at he <;> injection he with he <;> subst he
    · exact .ite (transmissionFailed_unstirred s hlcq) (.refl s)
    · exact .refl s
  | ownFrameError => exact ownFrameError_unstirred s hlcq t he
  | listenOnlyEnd =>
    injection he with he; subst he
    exact .ite (by constructor <;> simp) (.refl s)
  | frameSent =>
    have hnone : execFrameSent s = .next s := by
      rcases h : s.lc.onLine with _ | f <;> simp [execFrameSent, h, htx]
    injection hnone.symm.trans he with he; subst he
    exact .refl s
  | receiveError f =>
    injection he with he; subst he
    exact .ite (.refl s) (by constructor <;> simp [receiveError])
  | stateReceived f =>
    injection he with he; subst he
    refine receive_unstirred _ f _ s hsil ?_
    split
    · exact deliverState_unstirred _ _ s hq
    · exact .refl s
  | ceilingReceived f =>
    injection he with he; subst he
    refine receive_unstirred _ f _ s hsil ?_
    split
    · exact ruReport_unstirred _ _ hq (onPeers_unstirred _ s)
    · exact .refl s
  | intentReceived f =>
    injection he with he; subst he
    refine receive_unstirred _ f _ s hsil ?_
    split
    · exact ruReport_unstirred _ _ hq (onPeers_unstirred _ s)
    · exact .refl s
  | claimReceived f =>
    injection he with he; subst he
    refine receive_unstirred _ f _ s hsil ?_
    split
    · exact deliverClaim_unstirred _ _ s hq
    · exact .refl s
  | releaseReceived f =>
    injection he with he; subst he
    exact receive_unstirred _ f _ s hsil (deliverRelease_unstirred _ s hq)
  | peerAgeExpiry n =>
    simp only [exec, execPeerAgeExpiry] at he
    split at he <;> injection he with he <;> subst he
    · exact .ite (.refl s)
        (ruReport_unstirred _ _ hq ((onPeers_unstirred _ s).trans (removePeerClaim_unstirred n _ hsil)))
    · exact .refl s
  | violationTimerExpiry =>
    injection he with he; subst he
    exact .ite (by constructor <;> simp) (.refl s)
  | peerWaitTimerExpiry =>
    injection he with he; subst he
    exact .ite (by constructor <;> simp) (.refl s)
  | slideDone w =>
    simp only [exec, execSlideDone, hactive] at he
    injection he with he; subst he
    exact hstray
  | slideFault w =>
    simp only [exec, execSlideFault, hactive] at he
    injection he with he; subst he
    exact hstray
  | passTimerExpiry =>
    simp only [exec, execPassTimerExpiry, hactive] at he
    injection he with he; subst he
    exact .refl s
  | backoffExpiry =>
    injection he with he; subst he
    exact .ite (Unstirred.trans (by constructor <;> simp) (slotTest_unstirred _ hsil)) (.refl s)

/-- Settles O14: no command but RESET stirs a silenced station. -/
theorem silencedUntilReset : Obligations.SilencedUntilReset := by
  intro c s t hc hq he
  have h := exec_unstirred c s t hc hq he
  exact ⟨h.quiet hq, h.sent⟩

end Sys2Proof.Machine
end

