-- ==== Sys2Proof/Proofs/HostCommands.lean ====
section
/-! PROOFS. The visit-level host commands VISIT, MEASURE, CUT, HOLD, RESUME, WITHDRAW, RELEASE and CALIBRATE: what each
refuses and what an accepted one leaves (R4 to R6, R9, R15, R16, R36, R153, R154). -/

namespace Sys2Proof.Machine

open Sys2Proof

/-! ## Rules the commands share -/

/-- A command refused by its action, at a port that is free (R181). -/
theorem exec_refused {k : HostCmd} {p : List Byte} {s : State} {why : RefuseReason} (h : PortFree s)
    (hl : lengthFits k p.length = true)
    (ha : actCommand k p s.cp.unlock (commandTaken s) = refuse k why (commandTaken s)) :
    exec (k.instr p) s = .next (refusal k why s) := by
  rw [exec_hostCommand k p s h hl, ha, refuse_commandTaken]

/-- Outputs that grow twice. -/
@[simp] theorem Outputs.grewBy_grewBy (o : Outputs) (a c : List Order) (b d : List Response) :
    (o.grewBy a b).grewBy c d = o.grewBy (a ++ c) (b ++ d) := by
  simp [Outputs.grewBy]

@[simp] theorem level_commandTaken (s : State) (i : Input) : level (commandTaken s) i = level s i := rfl

@[simp] theorem conf_commandTaken (s : State) : conf (commandTaken s) = conf s := rfl

/-- A change of the station state with the unlock already closed, as every command leaves it (R1, R189). -/
theorem setStation_closed (st : StationState) (s : State) (h : s.vc.state ≠ .cutting) (h2 : st ≠ .start)
    (h3 : linkCode st ≠ linkCode s.vc.state) (h4 : (linkCode st).isSome) (h5 : s.cp.unlock = .closed) :
    setStation st s = { s with vc := { s.vc with state := st }, lc := handed .state s.lc } := by
  have hcp : { s.cp with unlock := .closed } = s.cp := by rw [← h5]
  simp [setStation_eq st s h h2 h3 h4, hcp]

/-- A measurement begun (R22, R23, R40, R54, R70). -/
theorem startMeasurement_eq (s : State) :
    startMeasurement s = { s with
      rtu := s.rtu.begun .measure (level s .driveAtSpeed)
      rcu := ⟨.filling, .both (rcuWindow (conf s).jump)⟩
      ptu := PTU.reset
      fe := { s.fe with fit := FitRecord.reset }
      out := s.out.grewBy [.measureSpeed] [] } := by
  have hrun : ∀ b u, (RTU.begun .measure b u).run = .measure := fun _ _ => rfl
  simp only [startMeasurement, startRun_eq, windowStart, hrun, if_true]
  rfl

/-! ## VISIT and MEASURE -/

/-- The enabled variants in a mask (R5, R69). -/
theorem effectiveSet_eq (vs : List Variant) (m : Byte) :
    effectiveSet vs m =
      (List.range 4).filter fun k => m.getLsbD k && decide ((vs[k]?).map (·.verdict) = some .usable) := by
  unfold effectiveSet
  congr 1
  funext k
  cases vs[k]? <;> simp

/-- An accepted VISIT (R5, R22, R40, R54, R69, R70). -/
theorem actVisit_accepted (m : Byte) (s : State) (hst : s.vc.state = .idle) (hcal : s.vc.calRunning = false)
    (hm : m.toNat < 16) (heff : effectiveSet s.fe.variants m ≠ []) (hcl : level s .clamped = true) :
    actVisit [m] (commandTaken s) = { s with
      vc := { s.vc with
        state := .measuring, visitOpen := true, mask := m.truncate 4, cutBegun := false, passCompleted := false
        condPending := false }
      rtu := s.rtu.begun .measure (level s .driveAtSpeed)
      rcu := ⟨.filling, .both (rcuWindow (conf s).jump)⟩
      ptu := PTU.reset
      fe := { s.fe with effective := effectiveSet s.fe.variants m, fit := FitRecord.reset }
      lc := handed .state s.lc
      cp := s.cp.afterCommand (conf s).watch
      out := s.out.grewBy [.measureSpeed] [.ok .visit []] } := by
  have hfree : freeIdle (commandTaken s) = true := by simp [freeIdle, hst, hcal]
  have hbad : ¬(16 ≤ m.toNat ∨ effectiveSet s.fe.variants m = []) := by simp [heff]; omega
  simp only [actVisit, List.headD_cons, hfree, level_commandTaken, hcl, commandTaken_frame, hbad, if_false,
    Bool.true_eq_false]
  rw [setStation_closed .measuring _ (by simp [hst]) (by decide) (by simp [hst, linkCode]) rfl (by simp [commandTaken]),
    startMeasurement_eq]
  simp [accept, respond, State.onOut, State.onVC, State.onFE, commandTaken, State.onCP, CP.afterCommand, Outputs.grewBy,
    level, conf]

/-- Settles O24. -/
theorem visitOpensAMeasurement : Obligations.VisitOpensAMeasurement := by
  intro m s hport eff
  have heff : effectiveSet s.fe.variants m = eff := effectiveSet_eq _ _
  have hrefused : ∀ {why}, actVisit [m] (commandTaken s) = refuse .visit why (commandTaken s) →
      exec (.visit [m]) s = .next (refusal .visit why s) := fun h =>
    exec_refused (k := .visit) hport rfl h
  refine ⟨fun h => hrefused ?_, fun hst hcal h => hrefused ?_, fun hst hcal hm he hcl => hrefused ?_,
    fun hst hcal hm he hcl => ?_⟩
  · have : freeIdle (commandTaken s) = false := by
      rcases h with h | h <;> simp [freeIdle, h]
    simp [actVisit, this]
  · have : freeIdle (commandTaken s) = true := by simp [freeIdle, hst, hcal]
    simp [actVisit, this, heff, h]
  · have hfree : freeIdle (commandTaken s) = true := by simp [freeIdle, hst, hcal]
    have hbad : ¬(16 ≤ m.toNat ∨ eff = []) := by simp [he]; omega
    simp [actVisit, hfree, heff, hbad, hcl]
  · rw [show Instr.visit [m] = HostCmd.visit.instr [m] from rfl, exec_hostCommand .visit [m] s hport rfl, ← heff]
    exact congrArg _ (actVisit_accepted m s hst hcal hm (heff ▸ he) hcl)

/-- The states MEASURE is acted on in (R4). -/
theorem measureAllowed_iff (s : State) :
    measureAllowed s = true ↔ s.vc.state = .unmeasured ∨ s.vc.state = .aborted ∨
      ((s.vc.state = .reconciling ∨ s.vc.state = .ready) ∧ s.vc.passCompleted = false) := by
  unfold measureAllowed
  split <;> simp_all

/-- What MEASURE drops (R6, R128, R152, R156). -/
theorem measureDrops_eq (s : State) (h : s.vc.state ≠ .unmeasured → s.vc.state ≠ .aborted →
      s.vc.state = .reconciling ∨ s.vc.state = .ready) :
    measureDrops s = { s with
      ru := if s.vc.state = .reconciling ∨ s.vc.state = .ready then s.ru.dropped else s.ru
      pc :=
        if s.vc.state = .unmeasured then s.pc
        else if s.vc.state = .aborted then { s.pc with surface := none, queueFinish := none }
        else { s.pc with queue := [], surface := none, queueFinish := none, planDeep := none, rebuildOwed := false } } := by
  by_cases hu : s.vc.state = .unmeasured
  · simp [measureDrops, hu]
  · by_cases ha : s.vc.state = .aborted
    · simp [measureDrops, ha, State.onPC]
    · rcases h hu ha with hr | hr <;> simp [measureDrops, hr, State.onPC, dropPlan, State.onRU, RU.dropped]

/-- Settles O25. -/
theorem measureBeginsAgain : Obligations.MeasureBeginsAgain := by
  intro s hport again
  have hiff : measureAllowed (commandTaken s) = true ↔ again := measureAllowed_iff _
  have hrefused : ∀ {why}, actMeasure [] (commandTaken s) = refuse .measure why (commandTaken s) →
      exec (.measure []) s = .next (refusal .measure why s) := fun h =>
    exec_refused (k := .measure) hport rfl h
  refine ⟨fun h => hrefused ?_, fun h hcl => hrefused ?_, fun h hcl => ?_⟩
  · have : measureAllowed (commandTaken s) = false := by simpa using mt hiff.1 h
    simp [actMeasure, this]
  · simp [actMeasure, hiff.2 h, hcl]
  · rw [show Instr.measure [] = HostCmd.measure.instr [] from rfl, exec_hostCommand .measure [] s hport rfl]
    have hnot : s.vc.state ≠ .unmeasured → s.vc.state ≠ .aborted → s.vc.state = .reconciling ∨ s.vc.state = .ready := by
      intro h1 h2
      rcases h with h | h | h
      · exact absurd h h1
      · exact absurd h h2
      · exact h.1
    have hcode : linkCode .measuring ≠ linkCode s.vc.state := by
      rcases h with h | h | ⟨h | h, -⟩ <;> simp [h, linkCode]
    have hcut : s.vc.state ≠ .cutting := by
      rcases h with h | h | ⟨h | h, -⟩ <;> simp [h]
    simp only [actCommand, actMeasure, hiff.2 h, level_commandTaken, hcl, Bool.true_eq_false, if_false]
    rw [setStation_closed .measuring _ (by simpa using hcut) (by decide) (by simpa using hcode) rfl (by simp [commandTaken]),
      startMeasurement_eq, measureDrops_eq _ (by simpa using hnot)]
    simp only [accept, respond, State.onOut, commandTaken, State.onCP, CP.afterCommand, Outputs.grewBy, level, conf,
      List.append_nil]
    rfl

/-! ## CUT, HOLD and RESUME -/

/-- Settles O26. -/
theorem cutBegins : Obligations.CutBegins := by
  intro s hport
  have hrefused : ∀ {why}, actCut [] (commandTaken s) = refuse .cut why (commandTaken s) →
      exec (.cut []) s = .next (refusal .cut why s) := fun h => exec_refused (k := .cut) hport rfl h
  refine ⟨fun h => hrefused ?_, fun hst hdeep => hrefused ?_, fun hst hdeep => ?_⟩
  · simp [actCut, h]
  · simp [actCut, hst, Option.isSome_iff_ne_none, hdeep]
  · rw [show Instr.cut [] = HostCmd.cut.instr [] from rfl, exec_hostCommand .cut [] s hport rfl]
    refine ⟨_, rfl, ?_⟩
    have e : actCommand .cut [] s.cp.unlock (commandTaken s) = settle { s with
        vc := { s.vc with state := .cutting, cutBegun := true }
        lc := handed .state s.lc
        cp := s.cp.afterCommand (conf s).watch
        out := s.out.grewBy [] [.ok .cut []] } := by
      simp only [actCommand, actCut, commandTaken_frame, hst, hdeep, ne_eq, not_true_eq_false, if_false,
        Option.isSome_none, Bool.false_eq_true]
      rw [setStation_closed .cutting _ (by simp [hst]) (by decide) (by simp [hst, linkCode]) rfl (by simp [commandTaken]),
        accept_commandTaken]
      rfl
    rw [e]
    exact settle_settled _

/-- A hold cause added (R150, R153). -/
theorem addHold_eq (c : HoldCause) (s : State) :
    addHold c s = { s with
      pc := { s.pc with
        holds := s.pc.holds.add c
        timer := if s.pc.holds = HoldCauses.empty ∧ (activePass s).isSome then s.pc.timer.pause else s.pc.timer }
      out := s.out.grewBy (if s.pc.holds = HoldCauses.empty ∧ (activePass s).isSome then
        ((activePass s).toList.flatMap owedSlides).map Order.holdSlide else []) [] } := by
  rcases h : activePass s with _ | p
  · simp [addHold, h, State.onPC, Outputs.grewBy]
  · by_cases he : s.pc.holds = HoldCauses.empty
    · have : s.pc.holds.any = false := (HoldCauses.any_false _).2 he
      simp [addHold, h, he, holdOrder_eq, State.onPC, Outputs.grewBy, HoldCauses.any, HoldCauses.empty]
    · have : s.pc.holds.any = true := by simpa using mt (HoldCauses.any_false _).1 he
      simp [addHold, h, he, this, State.onPC, Outputs.grewBy]

/-- Every hold cause removed (R150, R154). -/
theorem clearHolds_eq (s : State) :
    clearHolds s = { s with
      pc := { s.pc with
        holds := HoldCauses.empty
        timer := if s.pc.holds ≠ HoldCauses.empty ∧ (activePass s).isSome then s.pc.timer.resume else s.pc.timer }
      out := s.out.grewBy (if s.pc.holds ≠ HoldCauses.empty ∧ (activePass s).isSome then
        (activePass s).toList.flatMap (fun p => passOrders p s.pc) else []) [] } := by
  rcases h : activePass s with _ | p
  · simp [clearHolds, h, State.onPC, Outputs.grewBy]
  · by_cases he : s.pc.holds = HoldCauses.empty
    · have : s.pc.holds.any = false := (HoldCauses.any_false _).2 he
      simp [clearHolds, h, he, State.onPC, Outputs.grewBy, HoldCauses.any, HoldCauses.empty]
    · have : s.pc.holds.any = true := by simpa using mt (HoldCauses.any_false _).1 he
      simp [clearHolds, h, he, this, passOrder_eq, passOrders, State.onPC, Outputs.grewBy]

/-- Settles O27. -/
theorem holdAndResume : Obligations.HoldAndResume := by
  intro s hport
  have hrefused : ∀ {why}, actResume [] (commandTaken s) = refuse .resume why (commandTaken s) →
      exec (.resume []) s = .next (refusal .resume why s) := fun h => exec_refused (k := .resume) hport rfl h
  refine ⟨fun hst => ⟨exec_refused (k := .hold) hport rfl ?_, hrefused ?_⟩, fun hst hg => hrefused ?_,
    fun hst => ?_, fun hst hg => ?_⟩
  · simp [actCommand, actHold, hst]
  · simp [actResume, hst]
  · simp [actResume, hst, hg]
  · rw [show Instr.hold [] = HostCmd.hold.instr [] from rfl, exec_hostCommand .hold [] s hport rfl]
    refine ⟨_, rfl, ?_⟩
    simp only [actCommand, actHold, commandTaken_frame, hst, ne_eq, not_true_eq_false, if_false]
    rw [addHold_eq, accept_commandTaken]
    simp only [Outputs.grewBy_grewBy, List.nil_append, List.append_nil]
    exact settle_settled _
  · rw [show Instr.resume [] = HostCmd.resume.instr [] from rfl, exec_hostCommand .resume [] s hport rfl]
    refine ⟨_, rfl, ?_⟩
    simp only [actCommand, actResume, commandTaken_frame, hst, ne_eq, not_true_eq_false, if_false,
      level_commandTaken, hg, Bool.true_eq_false]
    rw [clearHolds_eq, accept_commandTaken]
    simp only [Outputs.grewBy_grewBy, List.nil_append, List.append_nil]
    exact settle_settled _

end Sys2Proof.Machine
end

