-- ==== Sys2Proof/Proofs/VisitEnds.lean ====
section
/-! PROOFS. The host commands that end a visit, WITHDRAW and RELEASE, and CALIBRATE (R14 to R16, R36, R80, R81). -/

namespace Sys2Proof.Machine

open Sys2Proof

/-! ## A visit end -/

/-- What a visit end leaves of the blocks other than the LC and the SCU, whatever the slot state (R14, R81, R194). -/
theorem visitEnd_records (s : State) :
    (visitEnd s).vc = s.vc.ended ∧ (visitEnd s).rtu = RTU.reset s.rtu.counter ∧ (visitEnd s).rcu = RCU.reset ∧
    (visitEnd s).ptu = PTU.reset ∧ (visitEnd s).fe = s.fe.ended ∧ (visitEnd s).ru = RU.reset s.ru.intentSeq ∧
    (visitEnd s).pc = PC.reset ∧ (visitEnd s).result = s.result.ended := by
  have hfe : (visitEnd s).fe = s.fe.ended := by
    by_cases h : s.fe.ceil.announced <;>
      simp [visitEnd, clearCeiling, clearVisit, h, changeCeiling, FE.ended, CeilingRecord.ended]
  simp [hfe]
  simp [visitEnd, clearVisit, VC.ended, ResultRecord.ended]

/-- A claim given up leaves no slot and no ask (R168). -/
theorem releaseClaim_freed (s : State) : (releaseClaim s).scu.slot = .none ∧ (releaseClaim s).scu.ask = false := by
  simp only [releaseClaim]
  (repeat' split) <;> simp

/-- The visit ended where one is open (R15). -/
def visitClosed (s : State) : State := if s.vc.visitOpen then visitEnd s else s

/-- What is left of the blocks other than the LC and the SCU by a visit ended where one is open. -/
theorem visitClosed_records (s : State) :
    (visitClosed s).vc = (if s.vc.visitOpen = true then s.vc.ended else s.vc) ∧
    (visitClosed s).fe = (if s.vc.visitOpen = true then s.fe.ended else s.fe) ∧
    (visitClosed s).ru = (if s.vc.visitOpen = true then RU.reset s.ru.intentSeq else s.ru) ∧
    (visitClosed s).pc = (if s.vc.visitOpen = true then PC.reset else s.pc) ∧
    (visitClosed s).cp = s.cp ∧ (visitClosed s).out = s.out ∧
    KeepsBut [.vc, .rtu, .rcu, .ptu, .fe, .lc, .ru, .pc, .scu, .result] s (visitClosed s) := by
  obtain ⟨hvc, -, -, -, hfe, hru, hpc, -⟩ := visitEnd_records s
  by_cases h : s.vc.visitOpen = true
  · simp only [visitClosed, h, if_true]
    refine ⟨hvc, hfe, hru, hpc, by simp, by simp, ?_⟩
    intro b hb
    cases b <;> simp_all [Block.same]
  · simp only [visitClosed, h]
    exact ⟨rfl, rfl, rfl, rfl, rfl, rfl, fun b _ => by cases b <;> rfl⟩

/-- With no slot and no reservation, the whole state (R14, R81, R194). -/
theorem visitClosed_none (s : State) (h : s.scu.slot = .none) (hs : s.vc.state ≠ .start) :
    visitClosed s = { s with
      vc := if s.vc.visitOpen = true then s.vc.ended else s.vc
      rtu := if s.vc.visitOpen = true then RTU.reset s.rtu.counter else s.rtu
      rcu := if s.vc.visitOpen = true then RCU.reset else s.rcu
      ptu := if s.vc.visitOpen = true then PTU.reset else s.ptu
      fe := if s.vc.visitOpen = true then s.fe.ended else s.fe
      lc := if s.vc.visitOpen = true then s.lc.ended s.fe.ceil else s.lc
      ru := if s.vc.visitOpen = true then RU.reset s.ru.intentSeq else s.ru
      pc := if s.vc.visitOpen = true then PC.reset else s.pc
      scu := if s.vc.visitOpen = true then s.scu.freed else s.scu
      result := if s.vc.visitOpen = true then s.result.ended else s.result } := by
  by_cases ho : s.vc.visitOpen = true <;> simp [visitClosed, ho, visitEnd_none s h hs]

/-! ## WITHDRAW -/

/-- The states WITHDRAW is acted on in (R4). -/
theorem withdrawAllowed_iff (s : State) :
    withdrawAllowed s = true ↔ ((s.vc.state = .idle ∨ s.vc.state = .invalid) ∧ s.vc.calRunning = false) ∨
      s.vc.state = .unmeasured ∨ s.vc.state = .reconciling ∨ s.vc.state = .ready ∨ s.vc.state = .finished ∨
      s.vc.state = .aborted ∨ s.vc.state = .condemned := by
  cases h : s.vc.state <;> simp [withdrawAllowed, freeOpen, isOpenState, h]

/-- A state in which WITHDRAW or RELEASE is acted on is one with a link status code of its own, outside CUTTING. -/
theorem withdrawAllowed_state (s : State) (h : withdrawAllowed s = true) :
    s.vc.state ≠ .cutting ∧ s.vc.state ≠ .start ∧ linkCode .excluded ≠ linkCode s.vc.state ∧
    linkCode .passive ≠ linkCode s.vc.state := by
  cases hs : s.vc.state <;> simp_all [withdrawAllowed, freeOpen, isOpenState, linkCode]

/-- An accepted WITHDRAW without diameters (R15). -/
theorem actWithdraw_excluded (s v : State) (h : withdrawAllowed s = true) (hv : v = visitClosed (commandTaken s)) :
    actWithdraw [] (commandTaken s) = { v with
      vc := { v.vc with state := .excluded, visitOpen := true }
      lc := handed .state v.lc
      out := v.out.grewBy [] [.ok .withdraw []] } := by
  subst hv
  obtain ⟨hcut, -, hcode, -⟩ := withdrawAllowed_state s h
  obtain ⟨hvc, -, -, -, hcp, -, -⟩ := visitClosed_records (commandTaken s)
  have hst : (visitClosed (commandTaken s)).vc.state = s.vc.state := by rw [hvc]; split <;> rfl
  have hclosed : (visitClosed (commandTaken s)).cp.unlock = .closed := by rw [hcp]; rfl
  have e : actWithdraw [] (commandTaken s) = setStation .excluded
      ((accept .withdraw (visitClosed (commandTaken s))).onVC fun v => { v with visitOpen := true }) := by
    simp [actWithdraw, show withdrawAllowed (commandTaken s) = true from h, visitClosed]
  rw [e, setStation_closed .excluded _ (by simpa [hst] using hcut) (by decide) (by simpa [hst] using hcode) rfl
    (by simpa using hclosed)]
  simp [accept, respond, State.onOut, State.onVC, Outputs.grewBy]

/-- An accepted WITHDRAW with diameters (R15, R80, R129). -/
theorem actWithdraw_passive (p : List Byte) (s v : State) (target : LR Int) (q i : Nat) (h : withdrawAllowed s = true)
    (hp : p ≠ []) (hok : (LR.mk (field p 0 4) (field p 4 4)).all (withdrawOk s) = true)
    (hv : v = visitClosed (commandTaken s)) (ht : target = ⟨field p 0 4, field p 4 4⟩)
    (hq : q = nextSeq v.fe.ceil.seq) (hi : i = nextSeq v.ru.intentSeq) :
    actWithdraw p (commandTaken s) = { v with
      vc := { v.vc with state := .passive, visitOpen := true }
      fe := { v.fe with ceil := ⟨.passive, some target, q, true, none⟩ }
      ru := { v.ru with intentSeq := i, intent := some ⟨i, q, target⟩ }
      lc := handed .state (handed (.intent i q target) (handed (.ceiling q .passive (some target)) v.lc))
      out := v.out.grewBy [] [.ok .withdraw []] } := by
  subst hq hi ht hv
  obtain ⟨hcut, hstart, -, hcode⟩ := withdrawAllowed_state s h
  obtain ⟨hvc, -, -, -, hcp, -, -⟩ := visitClosed_records (commandTaken s)
  have hst : (visitClosed (commandTaken s)).vc.state = s.vc.state := by rw [hvc]; split <;> rfl
  have hclosed : (visitClosed (commandTaken s)).cp.unlock = .closed := by rw [hcp]; rfl
  have hok' : (LR.mk (field p 0 4) (field p 4 4)).all (withdrawOk (commandTaken s)) = true := hok
  have e : actWithdraw p (commandTaken s) = setStation .passive (formIntent ⟨field p 0 4, field p 4 4⟩
      (changeCeiling .passive (some ⟨field p 0 4, field p 4 4⟩)
        ((accept .withdraw (visitClosed (commandTaken s))).onVC fun v => { v with visitOpen := true }))) := by
    simp [actWithdraw, show withdrawAllowed (commandTaken s) = true from h, visitClosed, hp, hok', LR.map]
  rw [e, changeCeiling_eq _ _ _ (by simpa [hst] using hstart), formIntent_eq _ _ (by simpa [hst] using hstart),
    setStation_closed .passive _ (by simpa [hst] using hcut) (by decide) (by simpa [hst] using hcode) rfl
      (by simpa using hclosed)]
  simp [accept, respond, State.onOut, State.onVC, Outputs.grewBy]

/-- Settles O29. -/
theorem withdrawLeavesTheCut : Obligations.WithdrawLeavesTheCut := by
  intro p s hport hlen may d fits opened vc fe lc ru base target q i
  have hl : lengthFits .withdraw p.length = true := by
    rcases hlen with h | h <;> simp [lengthFits, h]
  have hmay : withdrawAllowed s = true ↔ may := withdrawAllowed_iff s
  have hfits : d.all (withdrawOk s) = fits := rfl
  have hrefused : ∀ {why}, actWithdraw p (commandTaken s) = refuse .withdraw why (commandTaken s) →
      exec (.withdraw p) s = .next (refusal .withdraw why s) := fun h => exec_refused (k := .withdraw) hport hl h
  have hrun : exec (.withdraw p) s = .next (actWithdraw p (commandTaken s)) :=
    exec_hostCommand .withdraw p s hport hl
  obtain ⟨hvc, hfe, hru, hpc, hcp, hout, hkeeps⟩ := visitClosed_records (commandTaken s)
  refine ⟨fun h => hrefused ?_, fun h hp hf => hrefused ?_, fun h hp => ⟨_, hrun, ?_⟩, fun h hp hslot => ?_,
    fun h hp hf hslot => ?_⟩
  · have : withdrawAllowed (commandTaken s) = false := Bool.eq_false_iff.2 (mt hmay.1 h)
    simp [actWithdraw, this]
  · have hbad : (LR.mk (field p 0 4) (field p 4 4)).all (withdrawOk (commandTaken s)) = false := hf
    simp [actWithdraw, show withdrawAllowed (commandTaken s) = true from hmay.2 h, hp, hbad]
  · by_cases hnil : p = []
    · subst hnil
      rw [actWithdraw_excluded s _ (hmay.2 h) rfl]
      refine ⟨?_, hpc, ?_, fun hne => absurd rfl hne, fun b hb => ?_⟩
      · simp only [hvc, if_true]; rfl
      · simp only [hout]; rfl
      · have := hkeeps b
        cases b <;> simp_all [Block.same]
    · rw [actWithdraw_passive p s _ target q i.seq (hmay.2 h) hnil (hp.resolve_left hnil) rfl rfl
        (by rw [hfe]; rfl) (by rw [hru]; rfl)]
      refine ⟨?_, hpc, ?_, fun _ => ⟨?_, ?_⟩, fun b hb => ?_⟩
      · simp only [hvc, hnil, if_false]; rfl
      · simp only [hout]; rfl
      · simp only [hfe]; rfl
      · simp only [hru]; rfl
      · have := hkeeps b
        cases b <;> simp_all [Block.same]
  · subst hp
    rw [hrun, actWithdraw_excluded s _ (hmay.2 h) rfl, visitClosed_none _ (by simpa using hslot)
      (by simpa using (withdrawAllowed_state s (hmay.2 h)).2.1)]
    rfl
  · rw [hrun, actWithdraw_passive p s _ target q i.seq (hmay.2 h) hp hf rfl rfl (by rw [hfe]; rfl) (by rw [hru]; rfl),
      visitClosed_none _ (by simpa using hslot) (by simpa using (withdrawAllowed_state s (hmay.2 h)).2.1)]
    rfl

/-! ## RELEASE -/

/-- A field of one byte. -/
theorem field_singleton (b : Byte) : field [b] 0 1 = b.toNat := by
  simp [field, ofBytes]

/-- The group-busy check (R16). -/
theorem groupBusy_iff (s : State) :
    groupBusy s = true ↔ ∃ e ∈ s.peers, ∃ p, e.st = some p ∧ p.car = s.ss.straps.car ∧
      (p.status = .measuring ∨ p.status = .unmeasured ∨ p.status = .reconciling ∨ p.status = .ready ∨
        p.status = .cutting ∨ p.status = .aborting ∨ e.freshness = .stale) := by
  simp only [groupBusy, List.any_eq_true]
  refine exists_congr fun e => and_congr_right fun _ => ?_
  cases e.st <;> simp [isBusyStatus, isMeasureStatus, or_assoc]

/-- A visit end, then the way back to IDLE or INVALID (R16). -/
theorem actRelease_accepted (b : Byte) (s v : State) (hv : v = visitEnd (accept .release (commandTaken s)))
    (hb : b.toNat ≤ 1)
    (hst : s.vc.state = .finished ∨ s.vc.state = .aborted ∨ s.vc.state = .passive ∨ s.vc.state = .unmeasured ∨
      s.vc.state = .reconciling ∨ s.vc.state = .ready ∨ s.vc.state = .excluded ∨ s.vc.state = .condemned)
    (hfree : (s.vc.state = .finished ∨ s.vc.state = .aborted ∨ s.vc.state = .passive) → b.toNat = 0 →
      groupBusy s = false) :
    actRelease [b] (commandTaken s) = { v with
      vc := { v.vc with state := if s.vc.settingsInvalid then .invalid else .idle }
      lc := handed .state v.lc } := by
  subst hv
  have hrun : actRelease [b] (commandTaken s) = setStation (if s.vc.settingsInvalid then .invalid else .idle)
      (visitEnd (accept .release (commandTaken s))) := by
    obtain ⟨hvc, -⟩ := visitEnd_records (accept .release (commandTaken s))
    have hinv : (visitEnd (accept .release (commandTaken s))).vc.settingsInvalid = s.vc.settingsInvalid := by
      rw [hvc]; simp [VC.ended]
    have hbusy : groupBusy (commandTaken s) = groupBusy s := rfl
    have hgood : ¬((s.vc.state = .finished ∨ s.vc.state = .aborted ∨ s.vc.state = .passive) ∧ b.toNat = 0 ∧
        groupBusy s = true) := fun ⟨h1, h2, h3⟩ => by simp [hfree h1 h2] at h3
    have hin : ¬(¬(s.vc.state = .finished ∨ s.vc.state = .aborted ∨ s.vc.state = .passive) ∧
        ¬(s.vc.state = .unmeasured ∨ s.vc.state = .reconciling ∨ s.vc.state = .ready ∨ s.vc.state = .excluded ∨
          s.vc.state = .condemned)) := by tauto
    simp only [actRelease, field_singleton, commandTaken_frame, hinv, hbusy]
    rw [if_neg hin, if_neg (by omega), if_neg hgood]
  have hvcst : (visitEnd (accept .release (commandTaken s))).vc.state = s.vc.state := by
    rw [(visitEnd_records _).1]; simp [VC.ended]
  rw [hrun]
  refine setStation_closed _ _ ?_ ?_ ?_ ?_ (by simp [commandTaken])
  · rw [hvcst]; rintro h; simp [h] at hst
  · split <;> decide
  · rw [hvcst]
    rcases hst with h | h | h | h | h | h | h | h <;> rw [h] <;> split <;> decide
  · split <;> rfl

/-- Settles O30. -/
theorem releaseEndsTheVisit : Obligations.ReleaseEndsTheVisit := by
  intro b s hport checked plain busy
  have hbusy : groupBusy s = true ↔ busy := groupBusy_iff s
  have hrefused : ∀ {why}, actRelease [b] (commandTaken s) = refuse .release why (commandTaken s) →
      exec (.release [b]) s = .next (refusal .release why s) := fun h => exec_refused (k := .release) hport rfl h
  have hrun : exec (.release [b]) s = .next (actRelease [b] (commandTaken s)) :=
    exec_hostCommand .release [b] s hport rfl
  have haccepted : b.toNat ≤ 1 → (plain ∨ checked ∧ (b = 1#8 ∨ ¬busy)) →
      ∀ v, v = visitEnd (accept .release (commandTaken s)) → actRelease [b] (commandTaken s) = { v with
        vc := { v.vc with state := if s.vc.settingsInvalid then .invalid else .idle }
        lc := handed .state v.lc } := by
    intro hb h v hv
    refine actRelease_accepted b s v hv hb (by tauto) fun hch h0 => ?_
    rcases h with h | ⟨-, h | h⟩
    · rcases hch with e | e | e <;> simp [plain, e] at h
    · simp [h] at h0
    · simpa using mt hbusy.1 h
  refine ⟨fun hc hp => hrefused ?_, fun h hb => hrefused ?_, fun hc h0 hbz => hrefused ?_, fun hb h => ⟨_, hrun, ?_⟩,
    fun hb h hslot => ?_⟩
  · have hout : ¬checked ∧ ¬plain := ⟨hc, hp⟩
    exact if_pos hout
  · have hin : ¬(¬checked ∧ ¬plain) := fun hn => h.elim hn.1 hn.2
    exact (if_neg hin).trans (if_pos (by simpa [field_singleton] using hb))
  · have hin : ¬(¬checked ∧ ¬plain) := fun hn => hn.1 hc
    have hg : checked ∧ b.toNat = 0 ∧ groupBusy s = true := ⟨hc, by simp [h0], hbusy.2 hbz⟩
    rw [← field_singleton b] at hg
    exact (if_neg hin).trans ((if_neg (by rw [hg.2.1]; decide)).trans (if_pos hg))
  · rw [haccepted hb h _ rfl]
    obtain ⟨hvc, hrtu, hrcu, hptu, hfe, hru, hpc, hres⟩ := visitEnd_records (accept .release (commandTaken s))
    have hfreed : ∀ t, (visitEnd t).scu.slot = .none ∧ (visitEnd t).scu.ask = false := fun t => by
      simpa [visitEnd] using releaseClaim_freed t
    obtain ⟨hslot, hask⟩ := hfreed (accept .release (commandTaken s))
    refine ⟨by simp [hvc, VC.ended], hpc, by simpa using hru, by simpa using hfe, by simpa using hres, hslot, hask, ?_,
      fun b hb => ?_⟩
    · simp [accept, respond, Outputs.grewBy]
    · cases b <;> simp_all [Block.same]
  · rw [hrun, haccepted hb h _ rfl]
    have hstart : s.vc.state ≠ .start := by
      rcases h with h | ⟨h, -⟩ <;> intro e <;> simp [plain, checked, e] at h
    rw [visitEnd_none _ (by simpa using hslot) (by simpa using hstart)]
    simp [accept, respond, State.onOut, commandTaken, State.onCP, CP.afterCommand, Outputs.grewBy, VC.ended, conf]

/-! ## CALIBRATE -/

/-- Settles O31. -/
theorem calibrateBeginsARun : Obligations.CalibrateBeginsARun := by
  intro p s hport hlen free d fits
  have hl : lengthFits .calibrate p.length = true := by simp [lengthFits, hlen]
  have hrefused : ∀ {why}, actCalibrate p (commandTaken s) = refuse .calibrate why (commandTaken s) →
      exec (.calibrate p) s = .next (refusal .calibrate why s) := fun h => exec_refused (k := .calibrate) hport hl h
  have hfree : freeIdle (commandTaken s) = true ↔ free := by simp [freeIdle, free]
  have hrange : fits → ∀ {w}, wheelOf (field p 0 1) = some w →
      ¬(d % 2 = 1 ∨ d < Config.minDiameter ∨ Config.maxDiameter < d) ∧ w = if field p 0 1 = 0 then .l else .r := by
    rintro ⟨-, heven, hmin, hmax⟩ w hw
    refine ⟨by simp only [Config.minDiameter, Config.maxDiameter]; omega, ?_⟩
    revert hw
    rcases field p 0 1 with _ | _ | n <;> simp [wheelOf, eq_comm]
  have hwheel : fits → ∃ w, wheelOf (field p 0 1) = some w := by
    rintro ⟨hw, -⟩
    rcases h : field p 0 1 with _ | _ | n
    · exact ⟨_, rfl⟩
    · exact ⟨_, rfl⟩
    · omega
  refine ⟨fun h => hrefused ?_, fun h hf => hrefused ?_, fun h hf hcl => hrefused ?_, fun h hf hcl => ?_⟩
  · have : freeIdle (commandTaken s) = false := by simpa using mt hfree.1 h
    simp [actCalibrate, this]
  · simp only [actCalibrate, hfree.2 h, Bool.true_eq_false, if_false]
    rcases hw : wheelOf (field p 0 1) with _ | w
    · rfl
    · have hone : field p 0 1 ≤ 1 := by
        revert hw
        rcases field p 0 1 with _ | _ | n <;> simp [wheelOf]
      have hbad : d % 2 = 1 ∨ d < Config.minDiameter ∨ Config.maxDiameter < d := by
        simp only [Config.minDiameter, Config.maxDiameter]
        by_contra hc
        exact hf ⟨hone, by omega⟩
      exact if_pos hbad
  · obtain ⟨w, hw⟩ := hwheel hf
    simp only [actCalibrate, hfree.2 h, Bool.true_eq_false, if_false, hw]
    rw [if_neg (hrange hf hw).1, if_pos (by simpa using hcl)]
  · obtain ⟨w, hw⟩ := hwheel hf
    obtain ⟨hok, rfl⟩ := hrange hf hw
    rw [show Instr.calibrate p = HostCmd.calibrate.instr p from rfl, exec_hostCommand .calibrate p s hport hl]
    simp only [actCommand, actCalibrate, hfree.2 h, Bool.true_eq_false, if_false, hw]
    rw [if_neg hok, if_neg (by simp [hcl]), startRun_eq]
    rfl

end Sys2Proof.Machine
end

