-- ==== Sys2Proof/Proofs/Station.lean ====
section
/-! PROOFS. Rules of the station state that several statements use: a debounced change, a flag latched, entry to
CONDEMNED, a change of state; with the exit from ESTOP, the announce timer, the reset (R3, R13, R18, R91, R171, R183,
R192). -/

namespace Sys2Proof.Machine

open Sys2Proof

/-! ## Flags -/

/-- A flag latched is set (R183). -/
theorem flagSet_latchWord_same (w : BitVec 16) (f : Flag) : flagSet (latchWord w f) f = true := by
  cases f <;> simp [flagSet, latchWord, Flag.word, Flag.bit]

/-- Latching clears no flag (R183). -/
theorem flagSet_latchWord_of_set (w : BitVec 16) (f g : Flag) (h : flagSet w f = true) :
    flagSet (latchWord w g) f = true := by
  simp only [flagSet] at h
  simp [flagSet, latchWord, h]

theorem latch_eq (f : Flag) (s : State) :
    latch f s = { s with cp := { s.cp with status := latchWord s.cp.status f } } := rfl

/-! ## Inputs -/

/-- A debounced change touches the input lines alone (R171). -/
@[simp] theorem debounced_frame (i : Input) (s : State) :
    (debounced i s).pending = s.pending ∧ (debounced i s).vc = s.vc ∧ (debounced i s).rtu = s.rtu ∧
    (debounced i s).rcu = s.rcu ∧ (debounced i s).ptu = s.ptu ∧ (debounced i s).fe = s.fe ∧
    (debounced i s).lc = s.lc ∧ (debounced i s).peers = s.peers ∧ (debounced i s).ru = s.ru ∧
    (debounced i s).pc = s.pc ∧ (debounced i s).scu = s.scu ∧ (debounced i s).cp = s.cp ∧
    (debounced i s).ss = s.ss ∧ (debounced i s).result = s.result ∧ (debounced i s).out = s.out := by
  simp [debounced]

/-- A debounce timer that expires hands the debounced level on (R171, R173). -/
theorem exec_debounceExpiry (i : Input) (s : State) (h : (s.iiu.line i).timer ≠ none) :
    exec (.debounceExpiry i) s = .next (inputChanged i (s.iiu.line i).raw (debounced i s)) := by
  have hsome : (s.iiu.line i).timer.isSome = true := Option.isSome_iff_ne_none.2 h
  simp only [exec, execDebounceExpiry, hsome, if_true]
  rfl

/-! ## The station state -/

/-- A change of the station state from neither CUTTING, IDLE nor INVALID (R1). -/
theorem setStation_plain (st : StationState) (s : State) (h : s.vc.state ≠ .cutting)
    (ho : isOpenState s.vc.state = false) (h3 : linkCode st ≠ linkCode s.vc.state) (h4 : (linkCode st).isSome) :
    setStation st s = { s with vc := { s.vc with state := st }, lc := handed .state s.lc } := by
  have h2 : st ≠ .start := by rintro rfl; simp [linkCode] at h4
  simp [setStation_eq st s h h2 h3 h4, ho]

/-- The link status codes tell the states that are sent apart (R1). -/
theorem linkCode_ne {a b : StationState} (h : (linkCode a).isSome) (hab : a ≠ b) : linkCode a ≠ linkCode b := by
  cases a <;> cases b <;> simp_all [linkCode]

/-- The records of a change of the station state out of CUTTING (R1, R2, R135, R153). -/
theorem setStation_fromCutting (st : StationState) (s : State) (h : s.vc.state = .cutting) (hst : st ≠ .cutting)
    (h4 : (linkCode st).isSome) :
    setStation st s = { s with
      vc := { s.vc with state := st, sub := none }
      lc := handed .state s.lc
      ru := { s.ru with
        violationTimer := none, violationLatched := false, peerWaitTimer := none, peerWaitLatched := false }
      pc := { s.pc with holds := HoldCauses.empty } } := by
  have h2 : st ≠ .start := by rintro rfl; simp [linkCode] at h4
  have h3 : linkCode st ≠ linkCode .cutting := linkCode_ne h4 hst
  have hs : s.lc.silenced = true ∨ s.lc.silenced = false := by cases s.lc.silenced <;> simp
  rcases hs with hs | hs <;>
    simp [setStation, h, hst, h2, h3, h4, hs, leaveCutting, isOpenState, queueFrame, handed, State.onVC, State.onPC,
      State.onRU, State.onLC]

/-- Entry to CONDEMNED from neither IDLE nor INVALID, but for the claim and the transmit queue (R13, R80, R128,
R156, R168). -/
theorem enterCondemned_records (s : State) (ho : isOpenState s.vc.state = false)
    (hc : s.vc.state ≠ .condemned) :
    (enterCondemned s).vc = { s.vc with
      state := .condemned, condPending := false, sub := if s.vc.state = .cutting then none else s.vc.sub } ∧
    (enterCondemned s).pc = { s.pc with
      queue := [], queueFinish := s.pc.surface, holds := HoldCauses.empty, timer := .stopped } ∧
    (enterCondemned s).ru = s.ru.dropped ∧
    (enterCondemned s).fe = { s.fe with
      ceil := ⟨.condemned, none, nextSeq s.fe.ceil.seq, true, s.fe.ceil.condemning⟩ } ∧
    (enterCondemned s).cp = { s.cp with status := latchWord s.cp.status .condemned } ∧
    (enterCondemned s).out = s.out.grewBy (if s.vc.state = .cutting then [.stop] else []) [] ∧
    (enterCondemned s).scu.slot = .none ∧ (enterCondemned s).scu.ask = false := by
  have hcode : linkCode .condemned ≠ linkCode s.vc.state := linkCode_ne rfl (Ne.symm hc)
  obtain ⟨hslot, hask⟩ := releaseClaim_freed
    (if s.vc.state = .cutting then
      order .stop ((discardQueue s).onPC fun p => { p with holds := HoldCauses.empty, timer := .stopped })
    else (discardQueue s).onPC fun p => { p with holds := HoldCauses.empty, timer := .stopped })
  by_cases hcut : s.vc.state = .cutting
  · simp only [enterCondemned, hcut, if_true] at hslot hask ⊢
    rw [setStation_fromCutting _ _ (by simpa using hcut) (by decide) rfl]
    simp [hslot, hask]
    simp [dropPlan, RU.dropped, RU.reset, changeCeiling, discardQueue, order, Outputs.grewBy, latch]
  · simp only [enterCondemned, hcut, if_false] at hslot hask ⊢
    rw [setStation_plain _ _ (by simpa using hcut) (by simpa using ho) (by simpa using hcode) rfl]
    simp [hslot, hask]
    simp [dropPlan, RU.dropped, RU.reset, changeCeiling, discardQueue, Outputs.grewBy, latch]

/-! ## ESTOP becoming inactive -/

/-- The exit from ESTOP to a state, none of the others' records touched (R18). -/
theorem exit_goes (st : StationState) (s : State) (h : s.vc.state = .estop) (hst : st ≠ .estop)
    (hc : (linkCode st).isSome) :
    (setStation st s).onVC (fun v => { v with returnState := none }) = { s with
      vc := { s.vc with state := st, returnState := none }, lc := handed .state s.lc } := by
  rw [setStation_plain st s (by simp [h]) (by simp [h, isOpenState]) (by rw [h]; exact linkCode_ne hc hst) hc]
  rfl

/-- Settles O41. -/
theorem estopExit : Obligations.EstopExit := by
  intro s ht hraw a runs goes
  have hrun : runs = .next (estopInactive a) := by
    have h := exec_debounceExpiry .estop s ht
    rwa [show (s.iiu.line .estop).raw = false from hraw] at h
  have hexit : s.vc.state = .estop → runs = .next (exitEstop a) := fun h => by
    have ha : a.vc.state = .estop := h
    simp [hrun, estopInactive, ha]
  refine ⟨fun h => ?_, fun h hp => ⟨_, hexit h, ?_⟩, fun h hp hr => ?_, fun h hp hr => ?_, fun h hp hr hr' hb => ?_,
    fun st h hp hb hr hr1 hr2 hr3 hcode => ?_⟩
  · have ha : a.vc.state ≠ .estop := h
    simp [hrun, estopInactive, ha]
  · have ha : a.vc.state = .estop := h
    obtain ⟨hvc, hpc, hru, hfe, hcp, hout, -, -⟩ :=
      enterCondemned_records a (by simp [ha, isOpenState]) (by simp [ha])
    have e : exitEstop a = (enterCondemned a).onVC fun v => { v with returnState := none } := by
      simp [exitEstop, show a.vc.condPending = true from hp]
    rw [e]
    refine ⟨?_, rfl, ?_, ?_, ?_, ?_, ?_, ?_⟩
    · simp [hvc]
    · simp [hvc]
    · simp [hpc]
    · simp [hru, RU.dropped, RU.reset]
    · simp [hfe]
    · simp only [State.onVC_cp, hcp, a, debounced_frame]
    · simp [hout, a, h, Outputs.grewBy]
  · have e : exitEstop a = (setStation .condemned a).onVC fun v => { v with returnState := none } := by
      simp [exitEstop, show a.vc.condPending = false from hp, show a.vc.returnState = _ from hr]
    rw [hexit h, e, exit_goes .condemned a h (by decide) rfl]
    rfl
  · have e : exitEstop a = (setStation .unmeasured a).onVC fun v => { v with returnState := none } := by
      simp [exitEstop, show a.vc.condPending = false from hp, show a.vc.returnState = _ from hr]
    rw [hexit h, e, exit_goes .unmeasured a h (by decide) rfl]
    rfl
  · have e : exitEstop a = (estopToAborted a).onVC fun v => { v with returnState := none } := by
      simp [exitEstop, show a.vc.condPending = false from hp, show a.vc.returnState ≠ _ from hr,
        show a.vc.returnState ≠ _ from hr', show a.vc.cutBegun = true from hb]
    rw [hexit h, e, estopToAborted, exit_goes .aborted _ (by simpa [a] using h) (by decide) rfl]
    rfl
  · have e : exitEstop a = (setStation st a).onVC fun v => { v with returnState := none } := by
      simp [exitEstop, show a.vc.condPending = false from hp, show a.vc.returnState = _ from hr, hr1, hr2,
        show a.vc.cutBegun = false from hb]
    rw [hexit h, e, exit_goes st a h hr3 hcode]
    rfl

/-! ## RESET and the state after it -/

/-- The clamped settings' ranges that the rules name, and their steps (R193). -/
theorem clampSettings_ranges (g : Settings) :
    600000 ≤ (clampSettings g).condemn ∧ (clampSettings g).condemn ≤ 1300000 ∧ 1 ≤ (clampSettings g).slots ∧
    (clampSettings g).slots ≤ 8 ∧ (clampSettings g).announce % 50 = 0 ∧
    (clampSettings g).minRecut ≤ (clampSettings g).minCut ∧ (clampSettings g).minCut ≤ (clampSettings g).finish ∧
    (clampSettings g).tolAxle % 2 = 0 ∧ (clampSettings g).tolBogie % 2 = 0 ∧ (clampSettings g).tolCar % 2 = 0 := by
  simp only [clampSettings, clampTo, lowerOdd, Config.minDiameter, Config.maxDiameter]
  omega

/-- A block of the variant table (R67, R68, R200). -/
theorem loadVariants_getElem (m : Image) (good : Bool) (taping i : Nat) (h : i < 4) :
    (loadVariants m good taping)[i]? = some (loadVariant m good taping i) := by
  simp [loadVariants, h]

/-- Settles O60. -/
theorem resetStarts : Obligations.ResetStarts := by
  intro k p n s
  have hline : ∀ i : Input, (s.iiu.reset.line i).raw = (s.iiu.line i).raw ∧
      (s.iiu.reset.line i).level = decide (i = .estop) ∧
      ((s.iiu.reset.line i).timer = none ↔ (s.iiu.line i).raw = decide (i = .estop)) := by
    intro i
    cases i <;> simp [IIU.reset, IIU.line, InputLine.atReset]
  obtain ⟨h1, h2, h3, h4, h5, h6, h7, h8, h9, h10⟩ := clampSettings_ranges (readGeneral (imageAtReset n s.ss))
  refine ⟨_, rfl, rfl, rfl, rfl, rfl, rfl, rfl, rfl, rfl, rfl, rfl, rfl, rfl, rfl, rfl, rfl, rfl, rfl, rfl, rfl, rfl, rfl,
    rfl, rfl, rfl, fun hw cw => ?_, fun w hw => ?_, fun w hw cw => ?_, rfl, rfl, rfl, rfl, rfl, rfl, rfl, hline, rfl,
    rfl, rfl, h1, h2, h3, h4, h5, h6, h7, h8, h9, h10, rfl, rfl, rfl, fun i hi => ?_⟩
  · exact (by simp [imageAtReset, hw, cw] : imageAtReset n s.ss = s.ss.image)
  · exact (by simp [imageAtReset, hw, interruptedWrite] : imageAtReset n s.ss = imagePutAll w.before (w.bytes.take n))
  · exact (by simp [imageAtReset, hw, cw, interruptedWrite] :
      imageAtReset n s.ss = imagePutAll w.before (w.bytes.take n))
  · refine ⟨_, loadVariants_getElem _ _ _ i hi, rfl, rfl, ?_, fun j hj => ?_, ?_⟩
    · simp [loadVariant]
    · simp [loadVariant, hj, imageField, variantOffset]
      rfl
    · simp only [loadVariant, startVerdict, Bool.not_eq_true']
      rfl

/-- Settles O4. -/
theorem invariantsHoldAtReset : Obligations.InvariantsHoldAtReset := by
  have hframes : ∀ k, framesOfKind k State.reset.lc = [] := fun _ => rfl
  have hqueue : State.reset.lc.queue = [] := rfl
  have hpeers : State.reset.peers = [] := rfl
  have hclaims : State.reset.scu.claims = [] := rfl
  have hpasses : State.reset.pc.queue = [] := rfl
  refine ⟨by simp only [StatusInv]; decide, ⟨imageWf_reset, nofun, nofun⟩, ?_, ?_, ?_, ?_, ?_⟩
  · simp [TxQueueInv, TxQueueOk, hframes, hqueue]
  · simp [PeersInv, hpeers]
  · simp [ClaimsInv, hclaims]
  · simp [PassQueueInv, hpasses]
  · simp only [RangesInv]
    decide

/-! ## The announce timer -/

/-- The state that the listen period ends in, before ESTOP is looked at (R3). -/
def startEnded (s : State) : State :=
  if s.result.start.good then { s with vc := { s.vc with state := .idle }, lc := handed .state s.lc }
  else { s with
    vc := { s.vc with state := .invalid, settingsInvalid := true }, lc := handed .state s.lc
    cp := { s.cp with status := latchWord s.cp.status .settingsInvalid } }

/-- The end of the listen period, straight on into ESTOP where the level is active (R3, R192). -/
theorem endStart_eq (s : State) (h : s.vc.state = .start) :
    endStart s = if level s .estop then estopActive (startEnded s) else startEnded s := by
  have hended : (if s.result.start.good then setStation .idle s
      else setStation .invalid (latch .settingsInvalid (s.onVC fun v => { v with settingsInvalid := true }))) =
      startEnded s := by
    unfold startEnded
    split
    · exact setStation_plain .idle s (by simp [h]) (by simp [h, isOpenState]) (by simp [h, linkCode]) rfl
    · exact setStation_plain .invalid _ (by simp [h]) (by simp [h, isOpenState]) (by simp [h, linkCode]) rfl
  have hlevel : level (startEnded s) .estop = level s .estop := by
    unfold startEnded
    split <;> rfl
  simp only [endStart, hended, hlevel]

/-- ESTOP active in IDLE or INVALID with no run on (R17). -/
theorem estopActive_open (s : State) (h : s.vc.state = .idle ∨ s.vc.state = .invalid) (hrun : s.rtu.run = .none) :
    estopActive s = { s with
      vc := { s.vc with state := .estop, returnState := some s.vc.state }
      lc := handed .state s.lc
      cp := { s.cp with status := latchWord s.cp.status .estopSeen, unlock := .closed } } := by
  have hstop : ∀ t, t.rtu.run = .none → estopStops s.vc.state t = t := by
    intro t ht
    rcases h with h | h <;> simp [h, estopStops, endRun, ht]
  have henter : estopActive s = enterEstop s := by rcases h with h | h <;> simp [estopActive, h]
  have hopen : isOpenState s.vc.state = true := by rcases h with h | h <;> simp [h, isOpenState]
  have hcode : linkCode .estop ≠ linkCode s.vc.state := by rcases h with h | h <;> simp [h, linkCode]
  have hcut : s.vc.state ≠ .cutting := by rcases h with h | h <;> simp [h]
  rw [henter, enterEstop, hstop _ (by simpa using hrun), setStation_eq .estop _ (by simpa using hcut) (by decide)
    (by simpa using hcode) rfl]
  simp only [latch_eq, State.onVC, hopen, show isOpenState .estop = false from rfl, Bool.not_false, Bool.and_self,
    if_true]

/-- A frame handed to the LC touches the queue and the overflow position alone (R93 to R95). -/
theorem handed_frame (f : QFrame) (c : LC) : handed f c = { c with
    queue := (handed f c).queue, overflow := (handed f c).overflow, txOverflow := (handed f c).txOverflow } := by
  simp only [handed, lcHand, lcPlace, lcOverflow]
  (repeat' split) <;> rfl

/-- An announcement past START: a STATE, and with the fourth the own CEILING and INTENT (R91). -/
theorem announce_eq (s : State) (h : s.vc.state ≠ .start) :
    let n := s.lc.expiryCount % 4 + 1
    let lcN := handed .state { s.lc with expiryCount := n }
    let lcC := if s.fe.ceil.status = .none then lcN
      else handed (.ceiling s.fe.ceil.seq s.fe.ceil.status s.fe.ceil.value) lcN
    announce s = { s with
      lc := if n = 4 then s.ru.intent.elim lcC fun i => handed (.intent i.seq i.basis i.target) lcC else lcN } := by
  intro n lcN lcC
  have hn : lcN.expiryCount = n := by rw [show lcN = _ from handed_frame _ _]
  have hstate : queueFrame .state (s.onLC fun c => { c with expiryCount := c.expiryCount % 4 + 1 }) =
      { s with lc := lcN } := queueFrame_eq _ _ h
  have hceiling : (if s.fe.ceil.status = .none then { s with lc := lcN }
      else queueFrame (ceilingFrame { s with lc := lcN }) { s with lc := lcN }) = { s with lc := lcC } := by
    simp only [lcC]
    split
    · rfl
    · exact queueFrame_eq _ _ h
  have hrefresh : refresh { s with lc := lcN } =
      { s with lc := s.ru.intent.elim lcC fun i => handed (.intent i.seq i.basis i.target) lcC } := by
    simp only [refresh, hceiling]
    rcases s.ru.intent with _ | i
    · rfl
    · exact queueFrame_eq _ _ h
  simp only [announce, hstate, hn, hrefresh]
  split <;> rfl

/-- Settles O50. -/
theorem announceTimer : Obligations.AnnounceTimer := by
  intro s runs n lc lcN lcC lcI
  have hrun : s.lc.announce ≠ none → runs = .next (if s.vc.state = .start then listenExpiry { s with lc := lc }
      else announce { s with lc := lc }) := fun h => by
    have : s.lc.announce.isNone = false := by simpa [Option.isSome_iff_ne_none] using h
    simp [runs, exec, execAnnounceTimerExpiry, this, State.onLC, announcePeriod, lc, Config.ms]
  have hlisten : s.lc.announce ≠ none → s.vc.state = .start → s.lc.listenLeft = 1 →
      runs = .next (endStart { s with lc := { lc with listenLeft := 0 } }) := fun h hst hl => by
    simp [hrun h, hst, listenExpiry, hl, State.onLC, lc]
  refine ⟨fun h => ?_, fun h hst hl => ?_, fun h hst hl he hg => ?_, fun h hst hl he hg => ?_, fun h hst hl he hr => ?_,
    fun h hst hn => ?_, fun h hst hn => ?_⟩
  · simp [runs, exec, execAnnounceTimerExpiry, h]
  · have : s.lc.listenLeft - 1 ≠ 0 := by omega
    simp [hrun h, hst, listenExpiry, this, State.onLC, lc]
  · rw [hlisten h hst hl, endStart_eq _ (by exact hst), if_neg (by exact Bool.eq_false_iff.1 he)]
    simp [startEnded, hg]
  · rw [hlisten h hst hl, endStart_eq _ (by exact hst), if_neg (by exact Bool.eq_false_iff.1 he)]
    simp [startEnded, hg]
  · rw [hlisten h hst hl, endStart_eq _ (by exact hst), if_pos (by exact he)]
    refine ⟨_, rfl, ?_⟩
    by_cases hg : s.result.start.good = true
    · simp only [startEnded, hg, if_true]
      rw [estopActive_open _ (.inl rfl) (by exact hr)]
      exact ⟨rfl, rfl, flagSet_latchWord_same _ _, rfl⟩
    · simp only [startEnded, hg]
      rw [if_neg Bool.false_ne_true, estopActive_open _ (.inr rfl) (by exact hr)]
      exact ⟨rfl, rfl, flagSet_latchWord_same _ _, rfl⟩
  · have hN : ¬(lc.expiryCount % 4 + 1 = 4) := by simp only [lc]; omega
    rw [hrun h, if_neg hst, announce_eq { s with lc := lc } hst, if_neg hN]
  · have hC : lc.expiryCount % 4 + 1 = 4 := hn
    rw [hrun h, if_neg hst, announce_eq { s with lc := lc } hst, if_pos hC]

end Sys2Proof.Machine
end

