-- ==== Sys2Proof/Proofs/Replans.lean ====
section
/-! PROOFS. What an offer to the ceiling record, a re-plan and a build come to (R78, R123 to R127, R142): equations on
the whole state, used wherever a ceiling may fall. -/

namespace Sys2Proof.Machine

open Sys2Proof

/-! ## Offers -/

/-- Both values at or above Z. -/
theorem aboveLimit_iff (s : State) (v : LR Int) :
    aboveLimit s v = true ↔ ((conf s).condemn : Int) ≤ v.l ∧ ((conf s).condemn : Int) ≤ v.r := by
  simp [aboveLimit, LR.all]

/-- An offer to a NORMAL record that leaves the ceiling held as it is (R78). -/
theorem offerCeiling_same (offer held : LR Int) (s : State) (h1 : s.fe.ceil.status = .normal)
    (h2 : s.fe.ceil.value = some held) (hl : ((conf s).condemn : Int) ≤ held.l) (hr : ((conf s).condemn : Int) ≤ held.r)
    (hv : LR.zip min offer held = held) : offerCeiling offer s = (s, .same) := by
  have hz : aboveLimit s held = true := (aboveLimit_iff s held).2 ⟨hl, hr⟩
  simp [offerCeiling, h1, h2, takeCeiling, hv, hz]

/-- An offer to a NORMAL record that lowers its ceiling, at or above Z (R76, R78). -/
theorem offerCeiling_changed (offer held v : LR Int) (s : State) (h1 : s.fe.ceil.status = .normal)
    (h2 : s.fe.ceil.value = some held) (hv : LR.zip min offer held = v) (hl : ((conf s).condemn : Int) ≤ v.l)
    (hr : ((conf s).condemn : Int) ≤ v.r) (hne : v ≠ held) :
    offerCeiling offer s = (changeCeiling .normal (some v) s, .changed) := by
  have hz : aboveLimit s v = true := (aboveLimit_iff s v).2 ⟨hl, hr⟩
  simp [offerCeiling, h1, h2, takeCeiling, hv, hz, Ne.symm hne]

/-- An offer to a NORMAL record whose taken values are below Z (R13, R78). -/
theorem offerCeiling_condemned (offer held v : LR Int) (s : State) (h1 : s.fe.ceil.status = .normal)
    (h2 : s.fe.ceil.value = some held) (hv : LR.zip min offer held = v)
    (hz : ¬(((conf s).condemn : Int) ≤ v.l ∧ ((conf s).condemn : Int) ≤ v.r)) :
    offerCeiling offer s =
      ({ s with fe := { s.fe with ceil := { s.fe.ceil with condemning := some v } } }, .condemned) := by
  have hz' : aboveLimit s v = false := Bool.eq_false_iff.2 (mt (aboveLimit_iff s v).1 hz)
  simp [offerCeiling, h1, h2, takeCeiling, hv, hz', State.onFE]

/-- An offer to a record that is not NORMAL is ignored (R78). -/
theorem offerCeiling_ignored (offer : LR Int) (s : State)
    (h : s.fe.ceil.status ≠ .normal ∨ s.fe.ceil.value = none) : offerCeiling offer s = (s, .same) := by
  unfold offerCeiling
  split
  · rename_i h1 h2
    rcases h with h | h
    · exact absurd h1 h
    · simp [h] at h2
  · rfl

/-- The next sequence differs from the one before (R76, R92). -/
theorem nextSeq_ne (n : Nat) : nextSeq n ≠ n := by
  unfold nextSeq
  omega

/-! ## Plans taken -/

/-- The own ceilings the RU reads from a NORMAL record (R119). -/
theorem ownCeilings_normal (own : LR Int) (s : State) (h1 : s.fe.ceil.status = .normal)
    (h2 : s.fe.ceil.value = some own) : ownCeilings s = some own := by
  simp [ownCeilings, h1, h2]

/-- A plan formed is taken again (R123, R125, R127). -/
theorem takePlan_again (q p : Plan) (owed : Bool) (s : State) (hst : s.vc.state ≠ .start) (hq : s.ru.plan = some q) :
    takePlan false p (s.onRU fun r => { r with replanOwed := owed }) =
      (replanned q.target p owed s, decide (q.target ≠ p.target)) := by
  have hforms : ∀ d t, t.vc = s.vc → formIntent d t = { t with
      ru := { t.ru with
        intentSeq := nextSeq t.ru.intentSeq, intent := some ⟨nextSeq t.ru.intentSeq, t.fe.ceil.seq, d⟩ }
      lc := handed (.intent (nextSeq t.ru.intentSeq) t.fe.ceil.seq d) t.lc } :=
    fun d t ht => formIntent_eq d t (by rwa [ht])
  rcases hi : s.ru.intent with _ | i
  · by_cases hc : q.target = p.target <;>
      simp [takePlan, hq, hi, hc, hforms, replanned, planned, State.onRU, satInc]
  · by_cases hc : q.target = p.target <;> by_cases hm : i.basis = s.fe.ceil.seq <;>
      simp [takePlan, hq, hi, hc, hm, hforms, replanned, planned, State.onRU, satInc]

/-- A re-plan with no entry pending is computed afresh (R125). -/
theorem replan_fresh (q : Plan) (own : LR Int) (s : State) (hst : s.vc.state ≠ .start) (hq : s.ru.plan = some q)
    (ho : ownCeilings s = some own) (hp : anyPending (groupView s) = false) :
    replan s = (replanned q.target (computePlan (conf s) s.ss.straps.bogie own (groupView s)) false s,
      decide (q.target ≠ (computePlan (conf s) s.ss.straps.bogie own (groupView s)).target)) := by
  simp only [replan, hq, ho, hp, Bool.false_eq_true, if_false]
  exact takePlan_again q _ false s hst hq

/-- A re-plan with an entry pending is owed, the targets lowered to a fallen ceiling (R125). -/
theorem replan_pending (q : Plan) (own : LR Int) (s : State) (hst : s.vc.state ≠ .start) (hq : s.ru.plan = some q)
    (ho : ownCeilings s = some own) (hp : anyPending (groupView s) = true) :
    replan s = (replanned q.target { q with target := ⟨min q.target.l own.l, min q.target.r own.r⟩ } true s,
      decide (q.target ≠ ⟨min q.target.l own.l, min q.target.r own.r⟩)) := by
  simp only [replan, hq, ho, hp, if_true]
  exact takePlan_again q _ true s hst hq

/-- The first plan after a measurement (R119, R123). -/
theorem takePlan_first (p : Plan) (s : State) (hst : s.vc.state ≠ .start) :
    (takePlan true p (s.onRU fun r => { r with replanOwed := false })).1 = planned p false false true s := by
  simp only [takePlan, State.onRU_ru, Bool.not_true, Bool.false_and, Bool.true_or, if_true]
  rw [formIntent_eq _ _ (by simpa using hst)]
  simp [planned, State.onRU]

/-- A plan taken touches the RU and the transmit queue alone (R123). -/
@[simp] theorem replanned_frame (old : LR Int) (p : Plan) (owed : Bool) (s : State) :
    (replanned old p owed s).pending = s.pending ∧ (replanned old p owed s).vc = s.vc ∧
    (replanned old p owed s).rtu = s.rtu ∧ (replanned old p owed s).rcu = s.rcu ∧
    (replanned old p owed s).ptu = s.ptu ∧ (replanned old p owed s).fe = s.fe ∧
    (replanned old p owed s).peers = s.peers ∧ (replanned old p owed s).pc = s.pc ∧
    (replanned old p owed s).scu = s.scu ∧ (replanned old p owed s).iiu = s.iiu ∧
    (replanned old p owed s).cp = s.cp ∧ (replanned old p owed s).ss = s.ss ∧
    (replanned old p owed s).result = s.result ∧ (replanned old p owed s).out = s.out ∧
    (replanned old p owed s).ru.plan = some p := by
  simp [replanned, planned]

/-! ## Builds on uncertain surfaces -/

/-- No build is made with the surfaces uncertain (R142). -/
theorem buildResult_uncertain (inCutting : Bool) (s : State) (h : s.pc.uncertain = true) :
    buildResult inCutting s = .notMade := by
  unfold buildResult
  split
  · simp [h]
  · rfl

theorem build_uncertain (n : Nat) (s : State) (h : s.pc.uncertain = true) : build n s = s := by
  have happly : applyBuild s = s := by
    simp [applyBuild, buildResult_uncertain, h, storeOutside]
  have hraise : raiseOffer s = none := by
    unfold raiseOffer
    split
    · simp [h]
    · rfl
  cases n <;> simp [build, hraise, happly]

/-- Changed targets find nothing to build where no pass is queued and the surfaces are uncertain (R142). -/
theorem targetsChanged_uncertain (s : State) (h : s.pc.uncertain = true) (hq : s.pc.queue = []) :
    targetsChanged s = s := by
  have hactive : activePass s = none := by simp [activePass, hq]
  simp only [targetsChanged, build_uncertain _ s h, hactive, Option.isSome_none, Bool.false_eq_true, if_false, ite_self]
  split <;> rfl

end Sys2Proof.Machine
end

