-- ==== Sys2Proof/Proofs/Aborts.lean ====
section
/-! PROOFS. The abort of the ACTIVE pass: its record, its orders, its offers, the state it leads to; the home inputs and
the home timer (R12, R13, R128, R150 to R152, R172, R178). -/

namespace Sys2Proof.Machine

open Sys2Proof

/-! ## The offers of an abort -/

/-- The offers of an abort read of its two states the ceiling records, condemnation pending and the settings alone. -/
theorem AbortOffered.congr {p : Pass} {s s' t t' : State} (h : AbortOffered p s t) (hss : s'.ss = s.ss)
    (hfe : s'.fe = s.fe) (hc : s'.vc.condPending = s.vc.condPending) (htfe : t'.fe = t.fe)
    (htc : t'.vc.condPending = t.vc.condPending) : AbortOffered p s' t' := by
  have htaken : abortTaken p s' = abortTaken p s := by funext x; simp [abortTaken, conf, hss]
  have hcond : AbortCondemns p s' ↔ AbortCondemns p s := by simp [AbortCondemns, htaken, hfe, conf, hss]
  obtain ⟨h1, h2, h3, h4⟩ := h
  constructor
  · rwa [htfe, hfe]
  · rwa [htfe, hfe, hc, htc, hcond, htaken]
  · rwa [htfe, hfe, htc, hcond, htaken]
  · rwa [htfe, hfe, hc, htc]

/-- A condemnation is pending after the offers of an abort where one was, or where the offers find one (R13, R152). -/
theorem AbortOffered.condPending_iff {p : Pass} {s t : State} (h : AbortOffered p s t) :
    t.vc.condPending = true ↔ s.vc.condPending = true ∨ AbortCondemns p s := by
  by_cases hc : AbortCondemns p s
  · obtain ⟨held, -, hv, -⟩ := id hc
    simp [(h.condemned held hv hc).1, hc]
  · by_cases hn : s.fe.ceil.status ≠ .normal ∨ s.fe.ceil.value = none
    · simp [(h.ignored hn).1, hc]
    · push Not at hn
      obtain ⟨held, hv⟩ := Option.ne_none_iff_exists'.1 hn.2
      simp [(h.lowered held hn.1 hv hc).1, hc]

/-- The answer to a changed ceiling where no pass is queued and the surfaces are uncertain: a re-plan, and no build
(R79, R125, R142). -/
theorem ownCeilingChanged_uncertain (s : State) (h : s.pc.uncertain = true) (hq : s.pc.queue = [])
    (hr : effState s ≠ .reconciling) :
    ownCeilingChanged s = if planning s = true ∧ s.ru.plan.isSome then agree (replan s).1 else s := by
  have hfirst : firstPlan s = s := by
    unfold firstPlan
    split
    · rename_i he _
      exact absurd he hr
    · rfl
  have hand : handTargets (replan s) = (replan s).1 := by
    unfold handTargets
    split
    · exact targetsChanged_uncertain _ (by simpa using h) (by simpa using hq)
    · rfl
  by_cases hp : planning s = true <;> by_cases hs : s.ru.plan.isSome = true <;>
    simp [ownCeilingChanged, hp, hs, hand, hfirst]

theorem ownCeilingChanged_uncertain_frame (s : State) (h : s.pc.uncertain = true) (hq : s.pc.queue = [])
    (hr : effState s ≠ .reconciling) :
    (ownCeilingChanged s).vc = s.vc ∧ (ownCeilingChanged s).fe = s.fe ∧ (ownCeilingChanged s).pc = s.pc ∧
    (ownCeilingChanged s).scu = s.scu ∧ (ownCeilingChanged s).cp = s.cp ∧ (ownCeilingChanged s).out = s.out := by
  rw [ownCeilingChanged_uncertain s h hq hr]
  split <;> simp

/-- What the offers of an abort leave, up to the answer of the RU to a lowered ceiling (R13, R78, R152). -/
theorem afterAbortOffer_spec (p : Pass) (s : State) (hs : s.vc.state ≠ .start) (h : s.pc.uncertain = true)
    (hq : s.pc.queue = []) (hr : effState s ≠ .reconciling) :
    let t := afterAbortOffer (offerCeiling (abortOffer (conf s) p) s)
    AbortOffered p s t ∧ t.vc = { s.vc with condPending := t.vc.condPending } ∧ t.pc = s.pc ∧ t.cp = s.cp ∧
    t.out = s.out ∧ (t.fe.ceil.seq = s.fe.ceil.seq → t.ru = s.ru) ∧
    (t.fe.ceil.seq ≠ s.fe.ceil.seq → ∃ v,
      t.fe = { s.fe with ceil := ⟨.normal, some v, nextSeq s.fe.ceil.seq, true, s.fe.ceil.condemning⟩ } ∧
      t.ru = (ownCeilingChanged (changeCeiling .normal (some v) s)).ru) := by
  intro t
  by_cases hn : s.fe.ceil.status ≠ .normal ∨ s.fe.ceil.value = none
  · have ht : t = s := by simp only [t, offerCeiling_ignored _ s hn, afterAbortOffer]
    rw [ht]
    have hno : ∀ held, s.fe.ceil.status = .normal → s.fe.ceil.value = some held → False := fun held h1 h2 => by
      rcases hn with hn | hn
      · exact hn h1
      · simp [hn] at h2
    have hcond : ¬AbortCondemns p s := fun ⟨held, h1, h2, _⟩ => hno held h1 h2
    exact ⟨⟨rfl, fun held h1 h2 => (hno held h1 h2).elim, fun _ _ hc => absurd hc hcond, fun _ => ⟨rfl, rfl⟩⟩, rfl, rfl,
      rfl, rfl, fun _ => rfl, fun hne => absurd rfl hne⟩
  push Not at hn
  obtain ⟨h1, held, h2⟩ : s.fe.ceil.status = .normal ∧ ∃ held, s.fe.ceil.value = some held :=
    ⟨hn.1, Option.ne_none_iff_exists'.1 hn.2⟩
  have hv : LR.zip min (abortOffer (conf s) p) held = abortTaken p s held := rfl
  have hheld : ∀ x, s.fe.ceil.value = some x → x = held := fun x hx => by simpa [h2, eq_comm] using hx
  have hno : ¬(s.fe.ceil.status ≠ .normal ∨ s.fe.ceil.value = none) := by simp [h1, h2]
  by_cases hz : ((conf s).condemn : Int) ≤ (abortTaken p s held).l ∧ ((conf s).condemn : Int) ≤ (abortTaken p s held).r
  · have hcond : ¬AbortCondemns p s := fun ⟨x, _, hx, hzx⟩ => hzx (hheld x hx ▸ hz)
    by_cases hsame : abortTaken p s held = held
    · have ht : t = s := by
        simp only [t, offerCeiling_same _ held s h1 h2 (hsame ▸ hz.1) (hsame ▸ hz.2) (hv.trans hsame), afterAbortOffer]
      rw [ht]
      exact ⟨⟨rfl, fun x _ hx _ => ⟨rfl, (if_pos (by rw [hheld x hx]; exact hsame)).symm⟩,
        fun _ _ hc => absurd hc hcond, fun _ => ⟨rfl, rfl⟩⟩, rfl, rfl, rfl, rfl, fun _ => rfl, fun hne => absurd rfl hne⟩
    · have ht : t = ownCeilingChanged (changeCeiling .normal (some (abortTaken p s held)) s) := by
        simp only [t, offerCeiling_changed _ held _ s h1 h2 hv hz.1 hz.2 hsame, afterAbortOffer]
      have hc := changeCeiling_eq .normal (some (abortTaken p s held)) s hs
      have hreff : effState (changeCeiling .normal (some (abortTaken p s held)) s) ≠ .reconciling := by
        rw [hc]; exact hr
      obtain ⟨fvc, ffe, fpc, -, fcp, fout⟩ := ownCeilingChanged_uncertain_frame _ (by simpa using h) (by simpa using hq) hreff
      have hfe : t.fe = { s.fe with
          ceil := ⟨.normal, some (abortTaken p s held), nextSeq s.fe.ceil.seq, true, s.fe.ceil.condemning⟩ } := by
        rw [ht, ffe, hc]; simp
      have hvc : t.vc = s.vc := by rw [ht, fvc]; simp
      refine ⟨⟨by rw [hfe], fun x _ hx _ => ?_, fun _ _ hc => absurd hc hcond, fun hi => absurd hi hno⟩, by rw [hvc],
        by rw [ht, fpc]; simp, by rw [ht, fcp]; simp, by rw [ht, fout]; simp, fun hseq => ?_, fun _ => ⟨_, hfe, by rw [ht]⟩⟩
      · rw [hheld x hx]
        exact ⟨by rw [hvc], by rw [hfe]; exact (if_neg hsame).symm⟩
      · rw [hfe] at hseq
        exact absurd hseq (nextSeq_ne _)
  · have hcond : AbortCondemns p s := ⟨held, h1, h2, hz⟩
    have ht : t = { s with
        fe := { s.fe with ceil := { s.fe.ceil with condemning := some (abortTaken p s held) } }
        vc := { s.vc with condPending := true } } := by
      simp only [t, offerCeiling_condemned _ held _ s h1 h2 hv hz, afterAbortOffer]
      rfl
    rw [ht]
    exact ⟨⟨rfl, fun x _ hx hnc => absurd hcond hnc, fun x hx _ => ⟨rfl, by rw [hheld x hx]⟩, fun hi => absurd hi hno⟩, rfl,
      rfl, rfl, rfl, fun _ => rfl, fun hne => absurd rfl hne⟩

/-! ## The abort -/

/-- The state of an abort before its offers (R151, R172). -/
theorem abortBegun_eq (p : Pass) (why : AbortReason) (s : State) :
    abortRecord p why (abortOrders s) = { s with
      vc := { s.vc with homeTimeout := false }
      pc := { s.pc with
        queue := [], lastEnded := some { p with state := .aborted, reason := why }, timer := .stopped
        rebuildOwed := false, holds := HoldCauses.empty, queueFinish := none, uncertain := true }
      iiu := { s.iiu with latch := ⟨level s .homeL, level s .homeR⟩ }
      out := s.out.grewBy abortSequence [] } := by
  simp [abortRecord, abortOrders, latchesAtRetract, order, State.onOut, State.onIIU, State.onVC, State.onPC, abortSequence,
    Outputs.grewBy, level, IIU.line]

/-- The abort of a pass in CUTTING, or on the way from it into ESTOP or SILENCED, up to the state it leads to
(R151, R152, R168, R172). -/
structure AbortDone (p : Pass) (why : AbortReason) (s t : State) : Prop where
  vc : t.vc = { s.vc with homeTimeout := false, condPending := t.vc.condPending }
  pc : t.pc = { s.pc with
    queue := [], lastEnded := some { p with state := .aborted, reason := why }, timer := .stopped
    rebuildOwed := false, holds := HoldCauses.empty, queueFinish := none, uncertain := true }
  iiu : t.iiu = { s.iiu with latch := ⟨level s .homeL, level s .homeR⟩ }
  out : t.out = s.out.grewBy abortSequence []
  cp : t.cp = { s.cp with status := latchWord s.cp.status .passAborted }
  slot : t.scu.slot = .none ∧ t.scu.ask = false
  offered : AbortOffered p s t
  frame : KeepsBut [.vc, .fe, .lc, .ru, .pc, .scu, .iiu, .cp, .out] s t
  plan : t.fe.ceil.seq = s.fe.ceil.seq → t.ru = s.ru
  replan : t.fe.ceil.seq ≠ s.fe.ceil.seq → ∃ v,
    t.fe = { s.fe with ceil := ⟨.normal, some v, nextSeq s.fe.ceil.seq, true, s.fe.ceil.condemning⟩ } ∧
    t.ru = (ownCeilingChanged (changeCeiling .normal (some v) (abortRecord p why (abortOrders s)))).ru

theorem abortPass_done (p : Pass) (why : AbortReason) (s : State) (hs : s.vc.state ≠ .start)
    (hr : effState s ≠ .reconciling) : AbortDone p why s (abortPass p why s) := by
  have e := abortBegun_eq p why s
  have hr0 : effState (abortRecord p why (abortOrders s)) ≠ .reconciling := by rw [e]; exact hr
  obtain ⟨hoff, hvc, hpc, hcp, hout, hsame, hmoved⟩ :=
    afterAbortOffer_spec p (abortRecord p why (abortOrders s)) (by rw [e]; exact hs) (by rw [e]) (by rw [e]) hr0
  have ht : abortPass p why s = releaseClaim (latch .passAborted
      (afterAbortOffer (offerCeiling (abortOffer (conf (abortRecord p why (abortOrders s))) p)
        (abortRecord p why (abortOrders s))))) := by
    simp [abortPass, conf]
  refine ⟨?_, ?_, ?_, ?_, ?_, releaseClaim_freed _, ?_, ?_, ?_, ?_⟩
  · simp only [ht, releaseClaim_frame, latch_frame]
    rw [hvc, e]
  · simp only [ht, releaseClaim_frame, latch_frame, hpc]
    rw [e]
  · simp only [ht, releaseClaim_frame, latch_frame, afterAbortOffer_frame, offerCeiling_frame]
    rw [e]
  · simp only [ht, releaseClaim_frame, latch_frame, hout]
    rw [e]
  · simp only [ht, releaseClaim_frame, latch_eq, hcp]
    rw [e]
  · exact hoff.congr (by simp) (by simp) (by rw [e]) (by simp [ht]) (by simp [ht])
  · intro b hb
    cases b <;> simp_all [Block.same]
  · intro hseq
    simp only [ht, releaseClaim_frame, latch_frame] at hseq ⊢
    rw [hsame (by rw [hseq]; simp)]
    simp
  · intro hseq
    simp only [ht, releaseClaim_frame, latch_frame] at hseq ⊢
    simpa using hmoved (by simpa using hseq)

/-! ## The abort that leads to ABORTING -/

/-- The retract test in ABORTING with a latch clear, and in any other state (R178). -/
theorem retractTest_waits (s : State) (h : ¬(s.vc.state = .aborting ∧ s.iiu.latch.l = true ∧ s.iiu.latch.r = true)) :
    retractTest s = s := if_neg h

/-- The retract complete with no condemnation pending (R12, R178). -/
theorem retractTest_aborted (s : State) (h : s.vc.state = .aborting) (hl : s.iiu.latch.l = true)
    (hr : s.iiu.latch.r = true) (hc : s.vc.condPending = false) :
    retractTest s = { s with vc := { s.vc with state := .aborted, homeTimer := none }, lc := handed .state s.lc } := by
  have e : retractTest s = setStation .aborted (s.onVC fun v => { v with homeTimer := none }) := by
    simp [retractTest, h, hl, hr, hc]
  rw [e, setStation_plain _ _ (by simp [h]) (by simp [h, isOpenState]) (by simp [h, linkCode]) rfl]
  rfl

/-- The retract complete with a condemnation pending (R12, R13). -/
theorem retractTest_condemned (s : State) (h : s.vc.state = .aborting) (hl : s.iiu.latch.l = true)
    (hr : s.iiu.latch.r = true) (hc : s.vc.condPending = true) :
    retractTest s = enterCondemned (s.onVC fun v => { v with homeTimer := none }) := by
  simp [retractTest, h, hl, hr, hc]

/-- The state of an abort before its retract test: ABORTING, the plan dropped, the home timer started (R12, R128). -/
def abortingFrom (a : State) : State :=
  { a with
    vc := { a.vc with state := .aborting, sub := none, homeTimer := some Config.homeTime }
    lc := handed .state a.lc
    ru := a.ru.dropped
    pc := { a.pc with holds := HoldCauses.empty } }

theorem abortToAborting_eq (p : Pass) (why : AbortReason) (s : State) (h : s.vc.state = .cutting) :
    abortToAborting p why s = retractTest (abortingFrom (abortPass p why s)) := by
  have hst : (abortPass p why s).vc.state = .cutting := by
    rw [(abortPass_done p why s (by simp [h]) (by simp [effState, h])).vc]
    exact h
  simp only [abortToAborting]
  rw [setStation_fromCutting .aborting _ hst (by decide) rfl]
  rfl

/-- What every abort leaves, before and after its retract test (R2, R128, R151, R168, R172). -/
theorem passAborts_of_done {p : Pass} {why : AbortReason} {s a t : State} (d : AbortDone p why s a)
    (hframe : KeepsBut [.vc, .fe, .lc, .ru, .pc, .scu, .cp] (abortingFrom a) t)
    (hpc : t.pc.aborted p why) (hsub : t.vc.sub = none ∧ t.vc.homeTimeout = false)
    (hplan : t.ru.plan = none ∧ t.ru.intent = none) (hslot : t.scu.slot = .none ∧ t.scu.ask = false) :
    PassAborts p why s t := by
  have hiiu : t.iiu = a.iiu := hframe .iiu (by decide)
  have hout : t.out = a.out := hframe .out (by decide)
  refine ⟨fun b hb => ?_, hpc, hsub, hout.trans d.out, hplan, hslot, hiiu.trans d.iiu⟩
  have h1 := d.frame b
  have h2 := hframe b
  cases b <;> simp_all [Block.same, abortingFrom]

/-- An abort from CUTTING with a home input inactive (R12, R151). -/
theorem abortToAborting_away (p : Pass) (why : AbortReason) (s : State) (h : s.vc.state = .cutting)
    (hh : ¬(level s .homeL = true ∧ level s .homeR = true)) : AbortsTo p why s (abortToAborting p why s) := by
  have d := abortPass_done p why s (by simp [h]) (by simp [effState, h])
  have hwait : abortToAborting p why s = abortingFrom (abortPass p why s) := by
    rw [abortToAborting_eq p why s h]
    refine retractTest_waits _ fun ⟨_, hl, hr⟩ => hh ?_
    simpa [abortingFrom, d.iiu] using And.intro hl hr
  rw [hwait]
  refine ⟨passAborts_of_done d (fun b _ => by cases b <;> rfl) ?_ ⟨rfl, ?_⟩ ⟨rfl, rfl⟩ d.slot, ⟨rfl, rfl⟩, ?_, d.cp,
    d.offered.congr rfl rfl rfl rfl rfl⟩
  · simp only [abortingFrom, d.pc]
    exact ⟨rfl, rfl, rfl, rfl, rfl, rfl⟩
  · simp only [abortingFrom]
    rw [d.vc]
  · simp only [abortingFrom, d.pc]

/-- An abort from CUTTING with both home inputs active: the retract is complete at its order (R12, R13, R178). -/
theorem abortToAborting_home (p : Pass) (why : AbortReason) (s : State) (h : s.vc.state = .cutting)
    (hl : level s .homeL = true) (hr : level s .homeR = true) : AbortsHome p why s (abortToAborting p why s) := by
  have d := abortPass_done p why s (by simp [h]) (by simp [effState, h])
  rw [abortToAborting_eq p why s h]
  generalize abortPass p why s = a at d
  have hlatch : (abortingFrom a).iiu.latch.l = true ∧ (abortingFrom a).iiu.latch.r = true := by
    simp [abortingFrom, d.iiu, hl, hr]
  have hcond : (abortingFrom a).vc.condPending = true ↔ s.vc.condPending = true ∨ AbortCondemns p s :=
    d.offered.condPending_iff
  have htimeout : a.vc.homeTimeout = false := by rw [d.vc]
  have hpc : a.pc.aborted p why := by
    simp only [d.pc]
    exact ⟨rfl, rfl, rfl, rfl, rfl, rfl⟩
  by_cases hc : s.vc.condPending = true ∨ AbortCondemns p s
  · rw [retractTest_condemned _ rfl hlatch.1 hlatch.2 (hcond.2 hc)]
    obtain ⟨kvc, kpc, kru, kfe, kcp, kout, kslot, kask⟩ :=
      enterCondemned_records ((abortingFrom a).onVC fun v => { v with homeTimer := none }) rfl
        (show StationState.aborting ≠ .condemned by decide)
    generalize hk : enterCondemned ((abortingFrom a).onVC fun v => { v with homeTimer := none }) = k at *
    have hkeeps : KeepsBut [.vc, .fe, .lc, .ru, .pc, .scu, .cp] (abortingFrom a) k := by
      intro b hb
      have hout : k.out = (abortingFrom a).out := by rw [kout]; simp [abortingFrom, Outputs.grewBy]
      cases b <;> simp_all [Block.same, ← hk]
    obtain ⟨hq, hlast, htimer, howed, hholds, hunc⟩ := hpc
    refine ⟨passAborts_of_done d hkeeps ?_ ⟨?_, ?_⟩ ⟨?_, ?_⟩ ⟨kslot, kask⟩, ⟨?_, ?_⟩, fun h1 h2 => ?_, fun _ => ?_⟩
    · rw [kpc]
      exact ⟨rfl, hlast, rfl, howed, rfl, hunc⟩
    · rw [kvc]; rfl
    · rw [kvc]; exact htimeout
    · rw [kru]; rfl
    · rw [kru]; rfl
    · rw [kvc]; rfl
    · rw [kvc]
    · exact absurd hc (by simp [h1, h2])
    · refine ⟨by rw [kvc], by rw [kfe], by rw [kfe], by rw [kfe], ?_, fun held hv hz => ?_⟩
      · rw [kcp]
        simp [abortingFrom, d.cp]
      · obtain ⟨-, hceil⟩ := d.offered.condemned held hv hz
        rw [kfe]
        simp [abortingFrom, hceil]
  · have hcf : (abortingFrom a).vc.condPending = false := Bool.eq_false_iff.2 (mt hcond.1 hc)
    rw [retractTest_aborted _ rfl hlatch.1 hlatch.2 hcf]
    refine ⟨passAborts_of_done d (fun b hb => by cases b <;> simp_all [Block.same]) ?_ ⟨rfl, htimeout⟩ ⟨rfl, rfl⟩ d.slot,
      ⟨rfl, hcf⟩, fun _ _ => ⟨rfl, ?_, d.cp, d.offered.congr rfl rfl rfl rfl rfl⟩, fun h' => absurd h' hc⟩
    · obtain ⟨hq, hlast, htimer, howed, hholds, hunc⟩ := hpc
      exact ⟨hq, hlast, htimer, howed, rfl, hunc⟩
    · simp only [abortingFrom, d.pc]

/-- An abort from CUTTING, by the home inputs (R12, R13, R151, R178). -/
theorem abortToAborting_aborts (p : Pass) (why : AbortReason) (s : State) (h : s.vc.state = .cutting) :
    if level s .homeL = true ∧ level s .homeR = true then AbortsHome p why s (abortToAborting p why s)
    else AbortsTo p why s (abortToAborting p why s) := by
  split
  · rename_i hh
    exact abortToAborting_home p why s h hh.1 hh.2
  · rename_i hh
    exact abortToAborting_away p why s h hh

/-! ## SLIDE_FAULT, PASS_TIMER_EXPIRY and the home inputs -/

/-- A rising edge of a home input (R172, R178). -/
theorem exec_homeEdge (w : Wheel) (s : State) (home : Input) (hw : home = if w = .l then .homeL else .homeR)
    (h : (s.iiu.line home).timer ≠ none) (hraw : (s.iiu.line home).raw = true) :
    exec (.debounceExpiry home) s = .next (retractTest { debounced home s with
      iiu := { (debounced home s).iiu with latch := s.iiu.latch.put w true } }) := by
  rw [exec_debounceExpiry home s h, hraw]
  subst hw
  cases w <;> rfl

/-- Settles O43. -/
theorem abortAndRetract : Obligations.AbortAndRetract := by
  intro w s home x latched a b aborts
  have hedge : x.timer ≠ none → x.raw = true → exec (.debounceExpiry home) s = .next (retractTest b) :=
    exec_homeEdge w s home rfl
  refine ⟨fun p hp hst => ⟨⟨abortToAborting p (faultReason w) s, ?_, ?_⟩, fun k hk => ⟨abortToAborting p .passTimeout s, ?_, ?_⟩⟩,
    fun hp => ⟨?_, ?_⟩, fun ht hraw => ?_, fun ht hraw hn => ?_, fun ht hraw hst hl hr hc => ?_,
    fun ht hraw hst hl hr hc => ⟨_, (hedge ht hraw).trans (by rw [retractTest_condemned b hst hl hr hc]), ?_⟩,
    fun ht => ?_, fun ht => ?_⟩
  · simp [exec, execSlideFault, hp]
  · have := abortToAborting_aborts p (faultReason w) s hst
    cases w <;> exact this
  · simp [exec, execPassTimerExpiry, hp, hk]
  · exact abortToAborting_aborts p .passTimeout s hst
  · simp [exec, execSlideFault, hp, strayReturn, satInc, State.onPC]
  · simp [exec, execPassTimerExpiry, hp]
  · rw [exec_debounceExpiry home s ht, show (s.iiu.line home).raw = false from hraw]
    cases w <;> rfl
  · rw [hedge ht hraw, retractTest_waits b hn]
  · rw [hedge ht hraw, retractTest_aborted b hst hl hr hc]
    rfl
  · obtain ⟨kvc, -, -, kfe, -⟩ := enterCondemned_records (b.onVC fun v => { v with homeTimer := none })
      (by simp [show b.vc.state = .aborting from hst, isOpenState]) (by simp [show b.vc.state = .aborting from hst])
    exact ⟨by rw [kvc], by rw [kvc]; rfl, by rw [kfe]⟩
  · simp [exec, execHomeTimerExpiry, Option.isSome_iff_ne_none, ht, State.onVC]
  · simp [exec, execHomeTimerExpiry, ht]

end Sys2Proof.Machine
end

