-- ==== Sys2Proof/Proofs/WorkCutShort.lean ====
section
/-! PROOFS. Runs, sweeps and calibrations cut short from outside, and the loss of the clamp and of the guard
(R7, R30, R35, R37, R64, R174, R175). -/

namespace Sys2Proof.Machine

open Sys2Proof

/-! ## The end of a measurement or a calibration -/

/-- The RTU's fields that a result record reports with a reason: those handed over at the end of the run, or those that
stand (R35). -/
def reported (why : Reason) (u : RTU) : RtuResult :=
  match u.handed with
  | some r => { r with reason := why }
  | none => rtuSnapshot why u

@[simp] theorem reported_reason (why : Reason) (u : RTU) : (reported why u).reason = why := by
  unfold reported
  split <;> rfl

theorem writeResult_eq (why : Reason) (s : State) : writeResult why s = { s with
    result := { s.result with
      rtu := some (reported why s.rtu), rcu := some s.rcu.wheel
      ptu := ptuSnapshot (conf s) s.ptu, fe := some (feSnapshot s.fe) }
    cp := { s.cp with newResult := true }
    rtu := { s.rtu with handed := none } } := rfl

/-- A measurement ended in MEASURING for any reason but ESTOP and SILENCED (R7, R30). -/
theorem measurementFails_eq (why : Reason) (s : State) (he : why ≠ .estop) (hs : why ≠ .silenced)
    (h : s.vc.state = .measuring) : measurementFails why s =
    { writeResult why s with
      vc := { s.vc with state := .unmeasured }, lc := handed .state s.lc
      cp := { s.cp with status := latchWord s.cp.status .measureFailed, newResult := true } } := by
  have e : measurementFails why s = setStation .unmeasured (latch .measureFailed (writeResult why s)) := by
    unfold measurementFails
    split <;> simp_all
  rw [e, setStation_plain _ _ (by simp [h]) (by simp [h, isOpenState]) (by simp [h, linkCode]) rfl]
  rfl

theorem leaveRun_eq (why : Reason) (s : State) : leaveRun why s = { s with
    rtu := { s.rtu with
      handed := some (rtuSnapshot why s.rtu), run := .none, attempt := 0, driveTimer := none, markTimer := none }
    out := s.out.grewBy [.stop] [] } := by
  simp [leaveRun, order, State.onOut, State.onRTU, Outputs.grewBy]

theorem interruptTrace_eq (w : Wheel) (s : State) (h : openSweep s.ptu.phase = some w) : interruptTrace s = { s with
    ptu := { s.ptu with phase := .held, sweepTimer := none }, out := s.out.grewBy [.park w] [] } := by
  simp [interruptTrace, h, holdTrace, order, State.onOut, State.onPTU, Outputs.grewBy]

theorem interruptTrace_none (s : State) (h : openSweep s.ptu.phase = none) : interruptTrace s = s := by
  simp [interruptTrace, h]

theorem cutMeasurement_inRun (why : Reason) (s : State) (h : s.rtu.run = .measure) :
    cutMeasurement why s = measurementFails why (holdRcu (leaveRun why s)) := by
  simp [cutMeasurement, endRun, h]

theorem cutMeasurement_afterRun (why : Reason) (s : State) (h : s.rtu.run ≠ .measure) :
    cutMeasurement why s = measurementFails why (order .stop (interruptTrace s)) := if_neg h

/-- A measurement cut short in its run, but by ESTOP or silence (R7, R30). -/
theorem cutMeasurement_fails (why : Reason) (s : State) (he : why ≠ .estop) (hs : why ≠ .silenced)
    (h : s.vc.state = .measuring) (hrun : s.rtu.run = .measure) : MeasurementFails why s (cutMeasurement why s) := by
  rw [cutMeasurement_inRun why s hrun, measurementFails_eq why _ he hs (by simpa using h), writeResult_eq, leaveRun_eq]
  refine ⟨?_, rfl, ⟨rfl, rfl, rfl⟩, ⟨_, rfl, reported_reason _ _⟩, rfl, rfl, rfl⟩
  intro b hb
  cases b <;> simp_all [Block.same, holdRcu, State.onRCU]

theorem endCalibration_eq (why : Reason) (r : Response) (s : State) : endCalibration why r s = { s with
    vc := { s.vc with calRunning := false }
    ss := { s.ss with calRun := none }
    result := { s.result with rtu := some (reported why s.rtu) }
    cp := { s.cp with newResult := true }
    rtu := { s.rtu with handed := none }
    out := s.out.grewBy [] [r] } := by
  simp [endCalibration, respond, State.onOut, State.onVC, State.onSS, State.onResult, State.onCP, State.onRTU,
    Outputs.grewBy]
  rfl

/-- A calibration run left and answered (R30, R35, R37). -/
theorem endCalibration_ends (why : Reason) (r : Response) (s : State) :
    CalibrationEnds why r [.stop] s.cp.status s (endCalibration why r (leaveRun why s)) := by
  rw [endCalibration_eq, leaveRun_eq]
  refine ⟨?_, rfl, ⟨rfl, rfl, rfl⟩, rfl, ⟨_, rfl, reported_reason _ _⟩, rfl, by simp⟩
  intro b hb
  cases b <;> simp_all [Block.same]

/-- A flag latched after the end of a calibration. -/
theorem CalibrationEnds.latched {why : Reason} {r : Response} {orders : List Order} {word : BitVec 16} {s t : State}
    (h : CalibrationEnds why r orders word s t) (f : Flag) :
    CalibrationEnds why r orders (latchWord word f) s (latch f t) := by
  obtain ⟨hframe, hstation, hrun, hstore, hresult, hport, hout⟩ := h
  refine ⟨?_, by simpa using hstation, by simpa using hrun, by simpa using hstore, by simpa using hresult, ?_,
    by simpa using hout⟩
  · intro b hb
    have := hframe b hb
    cases b <;> simp_all [Block.same]
  · rw [latch_eq, hport]

/-- A calibration run that fails in any way but by ESTOP or silence (R30, R37). -/
theorem endRun_calibration_fails (why : Reason) (x : CalRun) (s : State) (he : why ≠ .estop) (hs : why ≠ .silenced)
    (hrun : s.rtu.run = .calibrate) (hx : s.ss.calRun = some x) :
    CalibrationEnds why (calibrationFailure x why.code ((s.rtu.slip.get x.wheel).map (·.total))) [.stop]
      (latchWord s.cp.status .measureFailed) s (endRun why s) := by
  have hcode : Wheel.code x.wheel = if x.wheel = .l then 0 else 1 := by cases x.wheel <;> rfl
  have hcal : (leaveRun why s).ss.calRun = some x := by simpa using hx
  have hslip : (leaveRun why s).rtu.slip = s.rtu.slip := rfl
  have e : endRun why s = latch .measureFailed
      (endCalibration why (calibrationFailure x why.code ((s.rtu.slip.get x.wheel).map (·.total))) (leaveRun why s)) := by
    simp only [endRun, hrun, calibrationFails, hcal, calData, calTotal, hslip, calibrationFailure, hcode]
    cases why <;> simp_all
  rw [e]
  exact (endCalibration_ends why _ s).latched _

/-! ## CLAMPED and GUARD_CLOSED -/

theorem exec_guardOpened (s : State) (p : Pass) (h : s.iiu.guardClosed.timer ≠ none)
    (hraw : s.iiu.guardClosed.raw = false) (hst : s.vc.state = .cutting) (hp : activePass s = some p) :
    exec (.debounceExpiry .guardClosed) s = .next (settle (addHold .guard_ (debounced .guardClosed s))) := by
  rw [exec_debounceExpiry .guardClosed s h]
  have hact : activePass (debounced .guardClosed s) = some p := hp
  simp [inputChanged, guardChanged, IIU.line, hraw, hst, hact]

/-- Settles O42. -/
theorem interlocksActOnThePass : Obligations.InterlocksActOnThePass := by
  intro s c g a b
  have hclamp : c.timer ≠ none → exec (.debounceExpiry .clamped) s = .next (clampedChanged c.raw a) :=
    exec_debounceExpiry .clamped s
  have hguard : g.timer ≠ none → exec (.debounceExpiry .guardClosed) s = .next (guardChanged g.raw b) :=
    exec_debounceExpiry .guardClosed s
  have ha : a.vc = s.vc ∧ activePass a = activePass s := ⟨rfl, rfl⟩
  have hb : b.vc = s.vc ∧ activePass b = activePass s := ⟨rfl, rfl⟩
  refine ⟨fun ht hraw hst p hp => ?_, fun ht hraw hst hrun => ?_, fun w ht hraw hst hrun hw => ?_,
    fun x ht hraw hst hrun hx => ?_, fun ht hst hor => ?_, fun ht hst hor => ?_, fun ht hraw hst p hp => ?_⟩
  · refine ⟨_, hclamp ht, ?_⟩
    have e : clampedChanged c.raw a = abortToAborting p .unclamped a := by simp [clampedChanged, hraw, ha, hst, hp]
    rw [e]
    exact abortToAborting_aborts p .unclamped a hst
  · refine ⟨_, hclamp ht, ?_⟩
    have e : clampedChanged c.raw a = cutMeasurement .unclamped a := by simp [clampedChanged, hraw, ha, hst]
    rw [e]
    exact cutMeasurement_fails .unclamped a (by decide) (by decide) hst hrun
  · have e : clampedChanged c.raw a = cutMeasurement .unclamped a := by simp [clampedChanged, hraw, ha, hst]
    refine ⟨_, reported .unclamped s.rtu, hclamp ht, ?_⟩
    rw [e, cutMeasurement_afterRun _ a hrun, measurementFails_eq .unclamped (order .stop (interruptTrace a)) (by decide)
      (by decide) (by simpa [a] using hst), writeResult_eq, interruptTrace_eq w a hw]
    refine ⟨rfl, rfl, rfl, rfl, rfl, reported_reason _ _, by simp [order, Outputs.grewBy, a], rfl, ?_⟩
    intro k hk
    cases k <;> simp_all [Block.same]
  · refine ⟨_, hclamp ht, ?_⟩
    have e : clampedChanged c.raw a = endRun .unclamped a := by simp [clampedChanged, hraw, ha, hst]
    rw [e]
    exact endRun_calibration_fails .unclamped x a (by decide) (by decide) hrun hx
  · refine ⟨_, hclamp ht, ?_⟩
    have e : clampedChanged c.raw a = settle a := by
      rcases hor with hr | hn
      · simp [clampedChanged, hr]
      · cases hr : c.raw <;> simp [clampedChanged, ha, hst, hn]
    rw [e]
    exact settle_settled a
  · refine ⟨_, hguard ht, ?_⟩
    have e : guardChanged g.raw b = settle b := by
      rcases hor with hr | hn
      · simp [guardChanged, hr]
      · simp [guardChanged, hb, hn]
    rw [e]
    exact settle_settled b
  · refine ⟨_, exec_guardOpened s p ht hraw hst hp, ?_⟩
    have e := addHold_eq .guard_ b
    have hact : activePass (debounced .guardClosed s) = some p := hp
    rw [show debounced .guardClosed s = b from rfl] at hact ⊢
    have h := settle_settled (addHold .guard_ b)
    rw [e] at h ⊢
    simpa [hact, HoldCauses.add, b] using h

end Sys2Proof.Machine
end

