-- ==== Sys2Proof/Proofs/Estop.lean ====
section
/-! PROOFS. ESTOP becoming active: the state on entry, and what is stopped by the state left (R17, R37, R176). -/

namespace Sys2Proof.Machine

open Sys2Proof

/-! ## What is left unchanged -/

theorem KeepsBut.trans {bs : List Block} {s t u : State} (h1 : KeepsBut bs s t) (h2 : KeepsBut bs t u) : KeepsBut bs s u := by
  intro b hb
  have e1 := h1 b hb
  have e2 := h2 b hb
  cases b <;> exact Eq.trans e2 e1

theorem KeepsBut.mono {bs cs : List Block} {s t : State} (h : KeepsBut bs s t) (hs : bs ⊆ cs) : KeepsBut cs s t :=
  fun b hb => h b fun hin => hb (hs hin)

theorem debounced_keeps (i : Input) (s : State) : KeepsBut [.iiu] s (debounced i s) := by
  intro b hb
  cases b <;> simp_all [Block.same]

/-! ## Claims and the STATE handed to the LC -/

/-- A STATE handed to the LC moves no CLAIM (R93 to R95). -/
theorem mem_handed_state (c : LC) (x : QEntry) (hx : x.frame.kindCode = 1) :
    x ∈ (handed .state c).queue ↔ x ∈ c.queue := by
  have hnew : x ≠ .new .state := by rintro rfl; simp [QEntry.new, QFrame.kindCode] at hx
  have hins : ∀ q, x ∈ queueInsert (.new .state) q ↔ x ∈ q := fun q => by
    simp [(queueInsert_perm _ q).mem_iff, hnew]
  have hrep : ∀ q, x ∈ queueReplace .state q ↔ x ∈ q := fun q => by
    simp only [queueReplace, List.mem_map]
    constructor
    · rintro ⟨e, he, rfl⟩
      split at hx
      · simp [QFrame.kindCode] at hx
      · rename_i hk
        simpa [hk] using he
    · exact fun h => ⟨x, h, if_neg (by rw [sameKind, hx]; simp [QFrame.kindCode])⟩
  have hdrop : ∀ q r, queueDrop q = some r → (x ∈ r ↔ x ∈ q) := fun q r h => by
    simp only [queueDrop, queueErase] at h
    split at h
    · obtain rfl := Option.some.inj h
      exact List.mem_eraseP_of_neg (by simp [hx])
    · split at h
      · obtain rfl := Option.some.inj h
        exact List.mem_eraseP_of_neg (by simp [hx])
      · simp at h
  unfold handed lcHand lcPlace
  split
  · rfl
  split
  · exact hrep _
  split
  · rfl
  split
  · exact hins _
  split
  · rename_i q hq
    exact (hins q).trans (hdrop _ q hq)
  · unfold lcOverflow
    (repeat' split) <;> rfl

/-- A CLAIM given up while it is on the line: the slot is NONE at once, the withdrawal waits at the LC (R96, R168). -/
theorem releaseClaim_onLine (s : State) (h : s.scu.slot = .armed) (hs : s.lc.silenced = false)
    (hex : ∃ x ∈ s.lc.queue, x.frame.kindCode = 1)
    (htx : ∀ x ∈ s.lc.queue, x.frame.kindCode = 1 → x.tx = true) : releaseClaim s = { s with
      scu := s.scu.freed
      lc := { s.lc with
        queue := s.lc.queue.map fun x => if x.frame.kindCode = 1 then { x with withdraw := some .givenUp } else x } } := by
  have hno : s.lc.queue.any (fun e => isClaimEntry e && !e.tx) = false := by
    simpa [isClaimEntry] using htx
  have hsome : s.lc.queue.any isClaimEntry = true := by simpa [isClaimEntry] using hex
  have hwaits : lcWithdraw .givenUp s.lc = ({ s.lc with
      queue := s.lc.queue.map fun x => if x.frame.kindCode = 1 then { x with withdraw := some .givenUp } else x }, .waits) := by
    rw [lcWithdraw, if_neg (by simp [hs]), if_neg (by rw [hno]; decide), if_pos hsome]
    simp [isClaimEntry]
  simp [releaseClaim, h, hwaits, State.onLC, State.onSCU, SCU.freed]

/-! ## The state on entry -/

/-- The state on entry to ESTOP, before the work of the state left is stopped (R17, R133, R153, R189). -/
def estopEntered (s : State) : State :=
  { s with
    vc := { s.vc with
      state := .estop, returnState := some s.vc.state, sub := if s.vc.state = .cutting then none else s.vc.sub }
    lc := handed .state s.lc
    ru := if s.vc.state = .cutting then { s.ru with
        violationTimer := none, violationLatched := false, peerWaitTimer := none, peerWaitLatched := false }
      else s.ru
    pc := if s.vc.state = .cutting then { s.pc with holds := HoldCauses.empty } else s.pc
    cp := { s.cp with
      status := latchWord s.cp.status .estopSeen
      unlock := if s.vc.state = .idle ∨ s.vc.state = .invalid then .closed else s.cp.unlock } }

/-- ESTOP becoming active in a state it is entered from (R17, R176). -/
theorem estopActive_enters (s : State) (h1 : s.vc.state ≠ .start) (h2 : s.vc.state ≠ .silenced)
    (h3 : s.vc.state ≠ .estop) : estopActive s = estopStops s.vc.state (estopEntered s) := by
  have henter : estopActive s = enterEstop s := by
    unfold estopActive
    split <;> simp_all
  have hset : setStation .estop (latch .estopSeen (s.onVC fun v => { v with returnState := some s.vc.state })) =
      estopEntered s := by
    by_cases hc : s.vc.state = .cutting
    · rw [setStation_fromCutting .estop _ (by simpa using hc) (by decide) rfl]
      simp [estopEntered, latch_eq, hc, State.onVC]
    · rw [setStation_eq .estop _ (by simpa using hc) (by decide) (by simpa using linkCode_ne rfl (Ne.symm h3)) rfl]
      cases hs : s.vc.state <;> simp_all [estopEntered, latch_eq, State.onVC, isOpenState]
  rw [henter, enterEstop, hset]

theorem estopEntered_keeps (s : State) : KeepsBut [.vc, .lc, .ru, .pc, .cp] s (estopEntered s) := by
  intro b hb
  cases b <;> simp_all [Block.same, estopEntered]

theorem estopEntered_keeps_outside (s : State) (h : s.vc.state ≠ .cutting) :
    KeepsBut [.vc, .lc, .cp] s (estopEntered s) := by
  intro b hb
  cases b <;> simp_all [Block.same, estopEntered]

@[simp] theorem activePass_estopEntered (s : State) : activePass (estopEntered s) = activePass s := by
  by_cases h : s.vc.state = .cutting <;> simp [activePass, estopEntered, h]

/-! ## The plan after an abort -/

/-- The RU after a re-plan and the agreement check reads of the state the RU itself, the own ceiling sequence, the peer
table, the settings, and whether the station is in READY or CUTTING (R123, R125, R130 to R132). -/
theorem agree_replanned_ru (old : LR Int) (p : Plan) (owed : Bool) {x y : State} (hru : x.ru = y.ru)
    (hseq : x.fe.ceil.seq = y.fe.ceil.seq) (hpeers : x.peers = y.peers) (hss : x.ss = y.ss)
    (heff : effState x = effState y) :
    (agree (replanned old p owed x)).ru = (agree (replanned old p owed y)).ru := by
  have hplanned : (replanned old p owed x).ru = (replanned old p owed y).ru := by
    simp only [replanned, planned, hru, hseq]
  have hview : groupView (replanned old p owed x) = groupView (replanned old p owed y) := by
    simp [groupView, hpeers, hss]
  have hcong : ∀ z, effState (replanned old p owed z) = effState z := fun z => by simp [effState]
  unfold agree
  simp only [hcong, heff, hview, hplanned, conf, replanned_frame, hss]
  split
  · simp [State.onRU, hplanned]
  · exact hplanned

/-- The RU's answer to a ceiling lowered by an abort, on a plan formed (R79, R125). -/
theorem ownCeilingChanged_abort (q : Plan) (v : LR Int) (b : State) (hst : b.vc.state ≠ .start) (hplan : b.ru.plan = some q)
    (hu : b.pc.uncertain = true) (hq : b.pc.queue = []) (heff : effState b = .cutting) :
    (ownCeilingChanged (changeCeiling .normal (some v) b)).ru =
      (agree (replanned q.target
        (if anyPending (groupView b) = true then { q with target := ⟨min q.target.l v.l, min q.target.r v.r⟩ }
         else computePlan (conf b) b.ss.straps.bogie v (groupView b))
        (anyPending (groupView b)) (changeCeiling .normal (some v) b))).ru := by
  have hc := changeCeiling_eq .normal (some v) b hst
  have heff' : effState (changeCeiling .normal (some v) b) = .cutting := by rw [hc]; exact heff
  have hview : groupView (changeCeiling .normal (some v) b) = groupView b := by rw [hc]; rfl
  have hown : ownCeilings (changeCeiling .normal (some v) b) = some v := by rw [hc]; simp [ownCeilings]
  have hplan' : (changeCeiling .normal (some v) b).ru.plan = some q := by rw [hc]; exact hplan
  have hst' : (changeCeiling .normal (some v) b).vc.state ≠ .start := by rw [hc]; exact hst
  rw [ownCeilingChanged_uncertain _ (by rw [hc]; exact hu) (by rw [hc]; exact hq) (by rw [heff']; decide),
    if_pos ⟨by simp [planning, heff', isPlanning], by simp [hplan]⟩]
  cases hp : anyPending (groupView b)
  · rw [replan_fresh q v _ hst' hplan' hown (by rw [hview]; exact hp), hview]
    simp [conf]
  · rw [replan_pending q v _ hst' hplan' hown (by rw [hview]; exact hp)]
    simp

/-! ## The work in progress -/

/-- A calibration run in IDLE ended by ESTOP (R17, R37, R189). -/
theorem endCalibration_atEstop (s : State) (h : s.vc.state = .idle) :
    CalibrationEnds .estop (.refused .calibrate .wrongState) [.stop] (latchWord s.cp.status .estopSeen)
      { s with
        vc := { s.vc with state := .estop, returnState := some s.vc.state }, lc := handed .state s.lc
        cp := { s.cp with unlock := .closed } }
      (endCalibration .estop (.refused .calibrate .wrongState) (leaveRun .estop (estopEntered s))) := by
  obtain ⟨hframe, hvc, hrun, hss, hresult, hport, hout⟩ :=
    endCalibration_ends .estop (.refused .calibrate .wrongState) (estopEntered s)
  refine ⟨fun b hb => ?_, ?_, hrun, hss, hresult, ?_, hout⟩
  · have := hframe b hb
    cases b <;> simp_all [Block.same, estopEntered]
  · rw [hvc]
    simp [estopEntered, h]
  · rw [hport]
    simp [estopEntered, h]

/-- A measurement cut short by ESTOP or by silence: the result record, PARK to an open sweep, STOP to the drive
(R17, R19, R30, R64). -/
theorem cutMeasurement_silently (why : Reason) (s : State) (hwhy : why = .estop ∨ why = .silenced) :
    let t := cutMeasurement why s
    (s.rtu.run ≠ .calibrate → t.rtu.run = .none) ∧ (∃ r, t.result.rtu = some r ∧ r.reason = why) ∧ t.cp = { s.cp with newResult := true } ∧
    t.out = s.out.grewBy
      ((if s.rtu.run = .measure then [] else (openSweep s.ptu.phase).toList.map Order.park) ++ [.stop]) [] ∧
    (s.rtu.run ≠ .measure → ∀ w, openSweep s.ptu.phase = some w →
      t.ptu = { s.ptu with phase := .held, sweepTimer := none }) ∧
    KeepsBut [.rtu, .rcu, .ptu, .cp, .result, .out] s t := by
  intro t
  have hfails : ∀ u, measurementFails why u = writeResult why u := fun u => by
    rcases hwhy with rfl | rfl <;> rfl
  by_cases hm : s.rtu.run = .measure
  · have ht : t = writeResult why (holdRcu (leaveRun why s)) := (cutMeasurement_inRun why s hm).trans (hfails _)
    rw [ht, writeResult_eq, leaveRun_eq]
    refine ⟨fun _ => rfl, ⟨_, rfl, reported_reason _ _⟩, rfl, by simp [hm, holdRcu], fun h => absurd hm h, fun b hb => ?_⟩
    cases b <;> simp_all [Block.same, holdRcu]
  · have hnone : s.rtu.run ≠ .calibrate → s.rtu.run = .none := fun hc => by cases h : s.rtu.run <;> simp_all
    have ht : t = writeResult why (order .stop (interruptTrace s)) := (cutMeasurement_afterRun why s hm).trans (hfails _)
    rw [ht, writeResult_eq]
    rcases hw : openSweep s.ptu.phase with _ | w
    · rw [interruptTrace_none s hw]
      refine ⟨by simpa using hnone, ⟨_, rfl, reported_reason _ _⟩, rfl, by simp [hm, order, Outputs.grewBy, State.onOut],
        fun _ w h => by simp at h, fun b hb => ?_⟩
      cases b <;> simp_all [Block.same]
    · rw [interruptTrace_eq w s hw]
      refine ⟨by simpa using hnone, ⟨_, rfl, reported_reason _ _⟩, rfl, by simp [hm, order, Outputs.grewBy, State.onOut],
        fun _ w h => rfl, fun b hb => ?_⟩
      cases b <;> simp_all [Block.same]

theorem releaseClaim_stopped_keeps (s : State) :
    KeepsBut [.lc, .pc, .scu, .out] s (releaseClaim (order .stop (discardQueue s))) := by
  intro b hb
  cases b <;> simp_all [Block.same]

/-- ESTOP with no pass ACTIVE in CUTTING: the queue discarded, the claim given up, the drive stopped (R17, R137,
R168). -/
theorem releaseClaim_atEstop (s : State) (h : s.vc.state = .cutting) :
    let e := estopEntered s
    let t := releaseClaim (order .stop (discardQueue e))
    t.pc = { s.pc with queue := [], queueFinish := s.pc.surface, holds := HoldCauses.empty } ∧
    t.scu.slot = .none ∧ t.scu.ask = false ∧ t.out = s.out.grewBy [.stop] [] ∧
    (s.scu.slot = .none → t.lc = handed .state s.lc ∧ t.scu = s.scu.freed) ∧
    (s.scu.slot = .armed → s.lc.silenced = false → (∃ x ∈ s.lc.queue, x.frame.kindCode = 1) →
      (∀ x ∈ s.lc.queue, x.frame.kindCode = 1 → x.tx = true) →
      t.scu = s.scu.freed ∧ t.lc = { handed .state s.lc with
        queue := (handed .state s.lc).queue.map fun x =>
          if x.frame.kindCode = 1 then { x with withdraw := some .givenUp } else x }) := by
  intro e t
  refine ⟨by simp [t, e, discardQueue, estopEntered, h, order], (releaseClaim_freed _).1, (releaseClaim_freed _).2,
    by simp [t, e, discardQueue, estopEntered, order, Outputs.grewBy], fun hn => ?_, fun ha hs hex htx => ?_⟩
  · rw [show t = _ from releaseClaim_none _ hn]
    exact ⟨rfl, rfl⟩
  · have hq : (handed .state s.lc).silenced = false := by rw [handed_frame]; exact hs
    rw [show t = _ from releaseClaim_onLine _ ha hq (hex.imp fun x hx => ⟨(mem_handed_state _ x hx.2).2 hx.1, hx.2⟩)
      (fun x hx hk => htx x ((mem_handed_state _ x hk).1 hx) hk)]
    exact ⟨rfl, rfl⟩

/-- The RU's record with the wait timers of CUTTING stopped (R133). -/
def RU.unwaiting (u : RU) : RU :=
  { u with violationTimer := none, violationLatched := false, peerWaitTimer := none, peerWaitLatched := false }

/-- The plan after an ESTOP that aborts a pass: kept, and re-planned on a lowered ceiling (R79, R125). -/
theorem abortPass_atEstop_ru (p : Pass) (s t : State) (h : s.vc.state = .cutting)
    (d : AbortDone p .estop (estopEntered s) t) :
    (t.fe.ceil.seq = s.fe.ceil.seq ∨ s.ru.plan = none → t.ru = s.ru.unwaiting) ∧
    ∀ q own, s.ru.plan = some q → t.fe.ceil.seq ≠ s.fe.ceil.seq → t.fe.ceil.value = some own →
      let pending := anyPending (groupView s)
      let p' := if pending then { q with target := ⟨min q.target.l own.l, min q.target.r own.r⟩ }
        else computePlan (conf s) s.ss.straps.bogie own (groupView s)
      t.ru = (agree (replanned q.target p' pending { s with fe := t.fe, ru := s.ru.unwaiting })).ru := by
  have heru : (estopEntered s).ru = s.ru.unwaiting := if_pos h
  have heff : effState s = .cutting := by simp [effState, h]
  have hbegun := abortBegun_eq p .estop (estopEntered s)
  generalize hb : abortRecord p .estop (abortOrders (estopEntered s)) = b at hbegun
  have hbru : b.ru = s.ru.unwaiting := by rw [hbegun]; exact heru
  have hbst : b.vc.state = .estop := by rw [hbegun]; rfl
  have hbeff : effState b = .cutting := by rw [hbegun]; simp [effState, estopEntered, h]
  have hbview : groupView b = groupView s := by rw [hbegun]; rfl
  have hbss : b.ss = s.ss := by rw [hbegun]; rfl
  have hbfe : b.fe = s.fe := by rw [hbegun]; rfl
  have hceff : ∀ v, effState (changeCeiling .normal (some v) b) = .cutting := fun v => by
    rw [changeCeiling_eq _ _ _ (by rw [hbst]; decide)]
    exact hbeff
  refine ⟨fun hor => ?_, fun q own hq hne hown => ?_⟩
  · by_cases hseq : t.fe.ceil.seq = s.fe.ceil.seq
    · rw [d.plan hseq]
      exact heru
    · obtain ⟨v, -, hru⟩ := d.replan hseq
      have hplan : b.ru.plan = none := by rw [hbru]; exact hor.resolve_left hseq
      rw [hru, hb, ownCeilingChanged_uncertain _ (by simp [hbegun]) (by simp [hbegun]) (by rw [hceff]; decide),
        if_neg (by simp [hplan])]
      simpa using hbru
  · obtain ⟨v, hfe, hru⟩ := d.replan hne
    obtain rfl : v = own := by
      rw [hfe] at hown
      simpa using hown
    have hbplan : b.ru.plan = some q := by rw [hbru]; exact hq
    rw [hru, hb, ownCeilingChanged_abort q v b (by rw [hbst]; decide) hbplan (by simp [hbegun]) (by simp [hbegun]) hbeff,
      hbview]
    simp only [conf, hbss]
    refine agree_replanned_ru _ _ _ (by simpa using hbru) ?_ (by simp [hbegun, estopEntered]) (by simpa using hbss) ?_
    · rw [changeCeiling_eq _ _ _ (by rw [hbst]; decide), hfe, hbfe]
      rfl
    · rw [hceff]
      exact heff.symm

/-- Settles O40. -/
theorem estopStopsTheWork : Obligations.EstopStopsTheWork := by
  intro s ht hraw a st status runs vc
  have hkeeps : KeepsBut [.vc, .lc, .ru, .pc, .iiu, .cp] s (estopEntered a) :=
    ((debounced_keeps .estop s).mono (by decide)).trans ((estopEntered_keeps a).mono (by decide))
  have hrun : runs = .next (estopActive a) := by
    have h := exec_debounceExpiry .estop s ht
    rwa [show (s.iiu.line .estop).raw = true from hraw] at h
  have henters : st ≠ .start → st ≠ .silenced → st ≠ .estop → runs = .next (estopStops st (estopEntered a)) :=
    fun h1 h2 h3 => by rw [hrun, estopActive_enters a h1 h2 h3]; rfl
  have hcut : st = .cutting → runs = .next (estopStops st (estopEntered a)) := fun h =>
    henters (by simp [h]) (by simp [h]) (by simp [h])
  refine ⟨fun h => ?_, fun h => ?_, fun h => ?_, fun h => ?_, fun h hn => ?_, fun c h hcal hc => ?_, fun p h hp => ?_,
    fun h hcal => ?_⟩
  · rw [hrun]
    rcases h with h | h <;> simp [estopActive, show a.vc.state = _ from h]
  · rw [hrun, show estopActive a = latch .estopSeen a by simp [estopActive, show a.vc.state = _ from h]]
    rfl
  · have hstate : st ≠ .start ∧ st ≠ .silenced ∧ st ≠ .estop ∧ st ≠ .cutting := by
      rcases h with h | h | h | h | h | h | h | h | h | ⟨h, -⟩ <;> simp [h]
    obtain ⟨h1, h2, h3, h4⟩ := hstate
    have h4' : s.vc.state ≠ .cutting := h4
    have hstop : estopStops st (estopEntered a) = estopEntered a := by
      rcases h with h | h | h | h | h | h | h | h | h | ⟨h, hr⟩ <;>
        simp [estopStops, endRun, show (estopEntered a).rtu.run = s.rtu.run from rfl, *]
    rw [henters h1 h2 h3, hstop]
    simp [estopEntered, a, vc, status, st, h4']
  · have h' : s.vc.state = .aborting := h
    rw [henters (by simp [h]) (by simp [h]) (by simp [h])]
    simp [estopStops, estopEntered, a, vc, status, State.onVC, st, h']
  · have h' : s.vc.state = .cutting := h
    have hstop : estopStops st (estopEntered a) = releaseClaim (order .stop (discardQueue (estopEntered a))) := by
      have hact : activePass (estopEntered a) = none := (activePass_estopEntered a).trans hn
      simp [h, estopStops, hact]
    obtain ⟨hpc, hslot, hask, hout, hnone, harmed⟩ := releaseClaim_atEstop a h
    refine ⟨_, (hcut h).trans (congrArg _ hstop), ?_, ?_, hpc, ?_, hslot, hask, ?_, hout, hnone, harmed, fun b hb => ?_⟩
    · simp [estopEntered, a, vc, st, h', discardQueue]
    · simp [estopEntered, a, status, h', discardQueue]
    · simp [estopEntered, a, h', discardQueue]
    · simp [estopEntered, a, discardQueue]
    · exact ((hkeeps.mono (by decide)).trans ((releaseClaim_stopped_keeps _).mono (by decide))) b hb
  · have hstop : estopStops st (estopEntered a) =
        endCalibration .estop (.refused .calibrate .wrongState) (leaveRun .estop (estopEntered a)) := by
      have h1 : (estopEntered a).rtu.run = .calibrate := hcal
      have h2 : (estopEntered a).ss.calRun = some c := hc
      simp [h, estopStops, endRun, h1, calibrationFails, h2]
    exact ⟨_, (henters (by simp [h]) (by simp [h]) (by simp [h])).trans (congrArg _ hstop), endCalibration_atEstop a h⟩
  · have h' : s.vc.state = .cutting := h
    have hstop : estopStops st (estopEntered a) = abortPass p .estop (estopEntered a) := by
      have hact : activePass (estopEntered a) = some p := (activePass_estopEntered a).trans hp
      simp [h, estopStops, hact]
    have d := abortPass_done p .estop (estopEntered a) (by simp [estopEntered]) (by simp [estopEntered, effState, a, h'])
    obtain ⟨hplan, hreplan⟩ := abortPass_atEstop_ru p a _ h d
    have hpc := d.pc
    refine ⟨_, (hcut h).trans (congrArg _ hstop), ?_, ?_, d.iiu, ?_, ?_, d.slot.2, ⟨hplan,
      fun q own h1 h2 h3 => (hreplan q own h1 h2 h3).trans (agree_replanned_ru _ _ _ rfl rfl rfl rfl rfl)⟩, d.out, d.slot.1, ?_,
      fun b hb => ?_⟩
    · rw [d.vc]
      simp [estopEntered, a, vc, st, h']
    · exact d.offered.congr rfl rfl rfl rfl rfl
    · rw [hpc]
      exact ⟨rfl, rfl, rfl, rfl, rfl, rfl⟩
    · rw [hpc]
    · rw [d.cp]
      simp [estopEntered, a, status, h']
    · exact ((hkeeps.mono (by decide)).trans (d.frame.mono (by decide))) b hb
  · have h' : s.vc.state = .measuring := h
    have hstop : estopStops st (estopEntered a) = cutMeasurement .estop (estopEntered a) := by simp [h, estopStops]
    obtain ⟨hnone, ⟨r, hr, hreason⟩, hcp, hout, -, hframe⟩ :=
      cutMeasurement_silently .estop (estopEntered a) (.inl rfl)
    refine ⟨_, r, (henters (by simp [h]) (by simp [h]) (by simp [h])).trans (congrArg _ hstop), ?_, hnone hcal, hr,
      hreason, ?_, hout, fun b hb => ?_⟩
    · rw [show _ = _ from hframe .vc (by decide)]
      simp [estopEntered, a, vc, st, h']
    · rw [hcp]
      simp [estopEntered, a, status, h']
    · have hentry : KeepsBut [.vc, .lc, .iiu, .cp] s (estopEntered a) := ((debounced_keeps .estop s).mono (by decide)).trans
        ((estopEntered_keeps_outside a (by simp [a, h'])).mono (by decide))
      exact ((hentry.mono (by decide)).trans (hframe.mono (by decide))) b hb

end Sys2Proof.Machine
end

