-- ==== Sys2Proof/Proofs/Silence.lean ====
section
/-! PROOFS. A frame with the own number: what silences the station, and what it stops (R19, R37, R64, R99). -/

namespace Sys2Proof.Machine

open Sys2Proof

/-! ## A silenced transmit queue -/

theorem handed_silenced (f : QFrame) (c : LC) (h : c.silenced = true) : handed f c = c := if_pos h

theorem changeCeiling_lc_silenced (st : CeilStatus) (v : Option (LR Int)) (s : State) (h : s.lc.silenced = true) :
    (changeCeiling st v s).lc = s.lc := by
  rw [changeCeiling, queueFrame_silenced _ _ (by simpa using h)]
  simp

theorem releaseClaim_lc_silenced (s : State) (h : s.lc.silenced = true) : (releaseClaim s).lc = s.lc := by
  simp only [releaseClaim]
  split
  · rw [queueFrame_silenced _ _ (by simpa using h)]
    simp
  · simp only [lcWithdraw, h, if_true]
    simp
  · rfl

theorem offerCeiling_lc_silenced (offer : LR Int) (s : State) (h : s.lc.silenced = true) :
    (offerCeiling offer s).1.lc = s.lc := by
  unfold offerCeiling takeCeiling
  (repeat' split) <;> simp [changeCeiling_lc_silenced, h]

/-- The abort of a pass in a silenced station queues no frame (R101). -/
theorem abortPass_lc_silenced (p : Pass) (why : AbortReason) (s : State) (hs : s.vc.state = .silenced)
    (h : s.lc.silenced = true) : (abortPass p why s).lc = s.lc := by
  have hafter : ∀ t r, t.vc.state = .silenced → (afterAbortOffer (t, r)).lc = t.lc := fun t r ht => by
    have hp : planning t = false := by simp [planning, effState, ht, isPlanning]
    cases r <;> simp [afterAbortOffer, ownCeilingChanged, hp]
  have hb := abortBegun_eq p why s
  generalize hu : abortRecord p why (abortOrders s) = u at hb
  have hlc : u.lc = s.lc := by rw [hb]
  have hvc : u.vc.state = .silenced := by rw [hb]; exact hs
  have hoffer := offerCeiling_lc_silenced (abortOffer (conf u) p) u (by rw [hlc]; exact h)
  have hstate : (offerCeiling (abortOffer (conf u) p) u).1.vc.state = .silenced := by simpa using hvc
  have e : (afterAbortOffer (offerCeiling (abortOffer (conf u) p) u)).lc = s.lc := by
    rw [← Prod.mk.eta (p := offerCeiling _ u), hafter _ _ hstate, hoffer, hlc]
  have hconf : conf u = conf s := by rw [hb]; rfl
  rw [abortPass, hu, ← hconf, releaseClaim_lc_silenced _ (by simp [latch_eq, e, h])]
  simpa [latch_eq] using e

/-! ## The state on entry -/

/-- The state on entry to SILENCED, before the work of the state left is stopped (R19, R99, R133, R189). -/
def silenceEntered (s : State) : State :=
  { s with
    vc := { s.vc with state := .silenced, sub := if s.vc.state = .cutting then none else s.vc.sub }
    lc := { s.lc with queue := [], overflow := none, onLine := none, announce := none, silenced := true }
    ru := if s.vc.state = .cutting then s.ru.unwaiting else s.ru
    pc := if s.vc.state = .cutting then { s.pc with holds := HoldCauses.empty } else s.pc
    cp := { s.cp with
      status := latchWord s.cp.status .duplicateId
      unlock := if s.vc.state = .idle ∨ s.vc.state = .invalid then .closed else s.cp.unlock } }

theorem silence_eq (s : State) :
    silence s = dropPlan (releaseClaim (silenceStops s.vc.state (silenceEntered s))) := by
  have hset : setStation .silenced ((latch .duplicateId s).onLC fun c =>
      { c with queue := [], overflow := none, onLine := none, announce := none, silenced := true }) = silenceEntered s := by
    cases h : s.vc.state <;>
      simp [setStation, h, leaveCutting, linkCode, isOpenState, silenceEntered, latch_eq, State.onVC, State.onLC,
        State.onRU, State.onPC, State.onCP, RU.unwaiting]
  simp only [silence, hset]

@[simp] theorem activePass_silenceEntered (s : State) : activePass (silenceEntered s) = activePass s := by
  by_cases h : s.vc.state = .cutting <;> simp [activePass, silenceEntered, h]

/-! ## The work in progress -/

/-- What the end of any work in a silenced station leaves: the station state, the LC, a flag that is set, the lines
(R19). -/
structure StopsSilently (s t : State) : Prop where
  station : t.vc.state = s.vc.state
  lc : t.lc = s.lc
  flag : ∀ f, flagSet s.cp.status f = true → flagSet t.cp.status f = true
  clamped : t.iiu.clamped = s.iiu.clamped

theorem StopsSilently.of_keeps {s t : State} (h : KeepsBut [.rtu, .rcu, .ptu, .cp, .result, .out] s t)
    (hcp : t.cp.status = s.cp.status) : StopsSilently s t := by
  have hvc : t.vc = s.vc := h .vc (by decide)
  have hlc : t.lc = s.lc := h .lc (by decide)
  have hiiu : t.iiu = s.iiu := h .iiu (by decide)
  exact ⟨by rw [hvc], hlc, fun f hf => by rwa [hcp], by rw [hiiu]⟩

theorem cutMeasurement_stopsSilently (s : State) : StopsSilently s (cutMeasurement .silenced s) := by
  obtain ⟨-, -, hcp, -, -, hkeeps⟩ := cutMeasurement_silently .silenced s (.inr rfl)
  exact .of_keeps hkeeps (by rw [hcp])

/-- A calibration run in IDLE ended by silence (R19, R37). -/
theorem endRun_silenced_calibrates (s : State) (c : CalRun) (hrun : s.rtu.run = .calibrate) (hc : s.ss.calRun = some c) :
    CalibrationEnds .silenced (.refused .calibrate .wrongState) [.stop] (latchWord s.cp.status .measureFailed) s
      (endRun .silenced s) := by
  have e : endRun .silenced s = latch .measureFailed
      (endCalibration .silenced (.refused .calibrate .wrongState) (leaveRun .silenced s)) := by
    simp [endRun, hrun, calibrationFails, hc]
  rw [e]
  exact (endCalibration_ends .silenced _ s).latched _

theorem endRun_stopsSilently (s : State) : StopsSilently s (endRun .silenced s) := by
  cases hrun : s.rtu.run with
  | none => simpa [endRun, hrun] using ⟨rfl, rfl, fun _ h => h, rfl⟩
  | measure =>
    have e : endRun .silenced s = cutMeasurement .silenced s := by simp [cutMeasurement, hrun]
    rw [e]
    exact cutMeasurement_stopsSilently s
  | calibrate =>
    rcases hc : s.ss.calRun with _ | c
    · have e : endRun .silenced s = leaveRun .silenced s := by simp [endRun, hrun, calibrationFails, hc]
      rw [e, leaveRun_eq]
      exact ⟨rfl, rfl, fun _ h => h, rfl⟩
    · have d := endRun_silenced_calibrates s c hrun hc
      have hlc : (endRun .silenced s).lc = s.lc := d.frame .lc (by decide)
      have hiiu : (endRun .silenced s).iiu = s.iiu := d.frame .iiu (by decide)
      exact ⟨by rw [d.station], hlc, fun f hf => by rw [d.port]; exact flagSet_latchWord_of_set _ _ _ hf, by rw [hiiu]⟩

theorem abortPass_stopsSilently (p : Pass) (why : AbortReason) (s : State) (hs : s.vc.state = .silenced)
    (hl : s.lc.silenced = true) : StopsSilently s (abortPass p why s) := by
  have d := abortPass_done p why s (by simp [hs]) (by simp [effState, hs])
  exact ⟨by rw [d.vc], abortPass_lc_silenced p why s hs hl,
    fun f hf => by rw [d.cp]; exact flagSet_latchWord_of_set _ _ _ hf, by rw [d.iiu]⟩

theorem silenceStops_stopsSilently (old : StationState) (s : State) (hs : s.vc.state = .silenced)
    (hl : s.lc.silenced = true) : StopsSilently s (silenceStops old s) := by
  unfold silenceStops
  split
  · exact cutMeasurement_stopsSilently s
  · exact endRun_stopsSilently s
  · split
    · exact abortPass_stopsSilently _ _ s hs hl
    · exact ⟨rfl, rfl, fun _ h => h, rfl⟩
  · exact ⟨rfl, rfl, fun _ h => h, rfl⟩

/-! ## Silence -/

theorem dropPlan_releaseClaim_keeps (s : State) : KeepsBut [.lc, .ru, .scu] s (dropPlan (releaseClaim s)) := by
  intro b hb
  cases b <;> simp_all [Block.same]

/-- The records of a silenced station, whatever the state left (R19, R99, R128, R168). -/
theorem silence_records (s : State) :
    let t := silence s
    t.vc.state = .silenced ∧ t.lc = (silenceEntered s).lc ∧ t.ru.plan = none ∧ t.ru.intent = none ∧ t.scu.slot = .none ∧
    t.scu.ask = false ∧ flagSet t.cp.status .duplicateId = true ∧ t.iiu.clamped = s.iiu.clamped := by
  intro t
  have hstops := silenceStops_stopsSilently s.vc.state (silenceEntered s) rfl rfl
  have ht : t = dropPlan (releaseClaim (silenceStops s.vc.state (silenceEntered s))) := silence_eq s
  generalize silenceStops s.vc.state (silenceEntered s) = u at hstops ht
  have hlc : (releaseClaim u).lc = u.lc := releaseClaim_lc_silenced u (by rw [hstops.lc]; rfl)
  obtain ⟨hslot, hask⟩ := releaseClaim_freed u
  refine ⟨?_, ?_, ?_, ?_, ?_, ?_, ?_, ?_⟩
  · simp [ht, hstops.station, silenceEntered]
  · simp [ht, hlc, hstops.lc]
  · simp [ht, dropPlan, RU.reset]
  · simp [ht, dropPlan, RU.reset]
  · simpa [ht] using hslot
  · simpa [ht] using hask
  · simpa [ht] using hstops.flag _ (flagSet_latchWord_same _ _)
  · simp [ht, hstops.clamped, silenceEntered]

/-- A good frame of the own number in a station not silenced (R99). -/
theorem receive_own (k : FrameKind) (f : LinkFrame) (deliver : State → State) (s : State) (hg : goodAs k f = true)
    (hf : f.station = ownStation s) : receive k f deliver s = if s.lc.silenced then s else silence s := by
  simp [receive, hg, hf]

/-- Settles O54. -/
theorem ownNumberSilences : Obligations.OwnNumberSilences := by
  intro f s hf c hc
  have hexec : exec c s = .next (if s.lc.silenced then s else silence s) := by
    rcases hc with ⟨rfl, hg⟩ | ⟨rfl, hg⟩ | ⟨rfl, hg⟩ | ⟨rfl, hg⟩ | ⟨rfl, hg⟩ <;>
      exact congrArg _ (receive_own _ f _ s hg hf)
  refine ⟨fun h => by rw [hexec, if_pos h], fun h => ⟨_, hexec.trans (congrArg _ (if_neg (by simp [h]))), ?_⟩⟩
  obtain ⟨hst, hlc, hplan, hintent, hslot, hask, hflag, hclamped⟩ := silence_records s
  have hk := dropPlan_releaseClaim_keeps (silenceStops s.vc.state (silenceEntered s))
  rw [← silence_eq] at hk
  have hpeers : (silence s).peers = s.peers := by simp
  generalize silence s = t at *
  have hvc : t.vc = _ := hk .vc (by decide)
  have hrtu : t.rtu = _ := hk .rtu (by decide)
  have hptu : t.ptu = _ := hk .ptu (by decide)
  have hfe : t.fe = _ := hk .fe (by decide)
  have hpc : t.pc = _ := hk .pc (by decide)
  have hiiu : t.iiu = _ := hk .iiu (by decide)
  have hcp : t.cp = _ := hk .cp (by decide)
  have hss : t.ss = _ := hk .ss (by decide)
  have hresult : t.result = _ := hk .result (by decide)
  have hout : t.out = _ := hk .out (by decide)
  refine ⟨hst, by rw [hlc]; rfl, by rw [hlc]; rfl, by rw [hlc]; rfl, by rw [hlc]; rfl, by rw [hlc]; rfl, hplan, hintent,
    hslot, hask, fun h1 h2 => ?_, hflag, hpeers, hclamped, fun h1 h2 => ?_, fun p h1 h2 => ?_, fun h1 h2 => ?_,
    fun w h1 h2 h3 => ?_, fun h1 h2 h3 => ?_⟩
  · rw [hpc]
    by_cases h : s.vc.state = .cutting
    · rcases ha : activePass (silenceEntered s) with _ | p
      · simp [silenceStops, h, ha, discardQueue]
      · rw [show silenceStops s.vc.state (silenceEntered s) = abortPass p .silenced (silenceEntered s) by
          simp only [silenceStops, h, ha], (abortPass_done p .silenced (silenceEntered s) (by simp [silenceEntered])
            (by simp [silenceEntered, effState])).pc]
    · have e : silenceStops s.vc.state (silenceEntered s) = discardQueue (silenceEntered s) := by
        unfold silenceStops
        split <;> simp_all
      rw [e]
      rfl
  · have e : silenceStops s.vc.state (silenceEntered s) = order .stop (discardQueue (silenceEntered s)) := by
      simp [silenceStops, h1, h2]
    rw [hout, e]
    simp [discardQueue, silenceEntered, order, Outputs.grewBy]
  · have e : silenceStops s.vc.state (silenceEntered s) = abortPass p .silenced (silenceEntered s) := by
      simp [silenceStops, h1, h2]
    have d := abortPass_done p .silenced (silenceEntered s) (by simp [silenceEntered]) (by simp [silenceEntered, effState])
    rw [e] at hpc hout hiiu hcp hfe hvc
    refine ⟨hout.trans d.out, ?_, ?_, d.offered.congr rfl rfl rfl hfe (by rw [hvc]), hiiu.trans d.iiu, ?_⟩
    · rw [hpc, d.pc]
      exact ⟨rfl, rfl, rfl, rfl, rfl, rfl⟩
    · rw [hpc, d.pc]
    · rw [hcp, d.cp]
      exact flagSet_latchWord_same _ _
  · have e : silenceStops s.vc.state (silenceEntered s) = cutMeasurement .silenced (silenceEntered s) := by
      simp [silenceStops, h1]
    obtain ⟨hnone, ⟨r, hr, hreason⟩, -, ho, -, -⟩ := cutMeasurement_silently .silenced (silenceEntered s) (.inr rfl)
    have hm : (silenceEntered s).rtu.run = .measure := h2
    rw [e] at hrtu hout hresult
    refine ⟨by rw [hrtu]; exact hnone (by simp [hm]), ?_, r, by rw [hresult]; exact hr, hreason⟩
    rw [hout, ho, if_pos hm]
    rfl
  · have e : silenceStops s.vc.state (silenceEntered s) = cutMeasurement .silenced (silenceEntered s) := by
      simp [silenceStops, h1]
    obtain ⟨-, ⟨r, hr, hreason⟩, hport, ho, hp, -⟩ := cutMeasurement_silently .silenced (silenceEntered s) (.inr rfl)
    have hm : (silenceEntered s).rtu.run ≠ .measure := h2
    have hw : openSweep (silenceEntered s).ptu.phase = some w := h3
    rw [e] at hptu hout hresult hcp
    refine ⟨hptu.trans (hp hm w hw), ?_, ?_, r, by rw [hresult]; exact hr, hreason⟩
    · rw [hout, ho, if_neg hm, hw]
      rfl
    · rw [hcp, hport]
      simp [silenceEntered, h1]
  · obtain ⟨x, hx⟩ := Option.ne_none_iff_exists'.1 h3
    have e : silenceStops s.vc.state (silenceEntered s) = endRun .silenced (silenceEntered s) := by
      simp [silenceStops, h1]
    have d := endRun_silenced_calibrates (silenceEntered s) x h2 hx
    obtain ⟨r, hr, hreason⟩ := d.result
    rw [e] at hvc hrtu hout hresult hcp hss
    refine ⟨by rw [hrtu]; exact d.run.1, by rw [hvc, d.station], hss.trans d.store, hout.trans d.outputs, ?_, r,
      by rw [hresult, hr], hreason⟩
    rw [hcp, d.port]
    exact flagSet_latchWord_same _ _

end Sys2Proof.Machine
end

