-- ==== Sys2Proof/Proofs/SweepEnds.lean ====
section
/-! PROOFS. The first plan after a measurement, and the end of a sweep: the record, its completeness, the fit
(R7, R13, R55, R61, R62, R65, R72 to R78, R119). -/

namespace Sys2Proof.Machine

open Sys2Proof

/-! ## The first plan -/

/-- A build taken outside CUTTING (R138, R141, R142). -/
theorem storeOutside_built (b : BuildResult) (s : State) (h : b ≠ .notMade) :
    storeOutside b s = { s with pc := PC.built b { s.pc with passesDone := 0 } } := by
  cases b <;> simp_all [storeOutside, PC.built, discardQueue, State.onPC]

theorem buildFrom_made (c : Settings) (fin cutting : Bool) (done : Nat) (surface target : LR Int) :
    buildFrom c fin cutting done surface target ≠ .notMade := by
  simp only [buildFrom]
  (repeat' split) <;> simp

/-- With an entry pending no first plan is formed (R119). -/
theorem firstPlan_waits (s : State) (h : anyPending (groupView s) = true) : firstPlan s = s := by
  unfold firstPlan
  split <;> simp [h]

/-- The first plan after a measurement: its intent, the measured diameters and the queue handed over, the station in
READY (R8, R119, R123, R124, R142). -/
theorem firstPlan_ready (own sf : LR Int) (s : State) (hst : s.vc.state = .reconciling) (h1 : s.fe.ceil.status = .normal)
    (h2 : s.fe.ceil.value = some own) (hsf : s.fe.fit.diameter = some sf) (hp : anyPending (groupView s) = false)
    (p : Plan) (hplan : p = computePlan (conf s) s.ss.straps.bogie own (groupView s))
    (x : State) (hx : x = planned p false false true s) :
    firstPlan s = agree { x with
      vc := { s.vc with state := .ready }
      lc := handed .state x.lc
      pc := PC.built (buildFrom (conf s) false false 0 sf p.target) { s.pc with
        surface := some sf, uncertain := false, finishDone := false, chosen := s.fe.fit.chosen, passesDone := 0 } } := by
  have hown := ownCeilings_normal own s h1 h2
  have heff : effState s = .reconciling := by simp [effState, hst]
  have htake := takePlan_first p s (by simp [hst])
  rw [← hx] at htake
  have hxv : x.vc = s.vc ∧ x.pc = s.pc ∧ x.ss = s.ss ∧ x.ru.plan = some p := by rw [hx]; exact ⟨rfl, rfl, rfl, rfl⟩
  obtain ⟨hxvc, hxpc, hxss, hxplan⟩ := hxv
  let y := x.onPC fun c =>
    { c with surface := some sf, uncertain := false, finishDone := false, chosen := s.fe.fit.chosen }
  have hbuild : buildResult false y = buildFrom (conf s) false false 0 sf p.target := by
    simp [buildResult, y, hxplan, conf, hxss, buildFrom]
  have hset : setEffState .ready (storeOutside (buildResult false y) y) = setStation .ready (storeOutside (buildResult false y) y) := by
    simp [setEffState, y, hxvc, hst]
  have e : firstPlan s = agree (setEffState .ready (storeOutside (buildResult false y) y)) := by
    simp only [firstPlan, heff, hown, hp, ← hplan, htake, hsf]
    rfl
  rw [e, hset, hbuild, setStation_plain .ready _ (by simp [y, hxvc, hst]) (by simp [y, hxvc, hst, isOpenState])
    (by simp [y, hxvc, hst, linkCode]) rfl, storeOutside_built _ _ (buildFrom_made _ _ _ _ _ _)]
  simp [y, hxvc, hxpc]

/-! ## The record of a sweep -/

/-- A point of the record present: it holds readings (R52, R62). -/
def Present (ps : List Point) (j : Nat) : Prop := ∃ pt, ps[j]? = some pt ∧ pt.count ≠ 0

theorem present_formed (ps : List Point) (j : Nat) : Present (ps.map Point.formed) j ↔ Present ps j := by
  simp [Present, Point.formed]

theorem present_iff_getD (ps : List Point) (j : Nat) : Present ps j ↔ (ps.getD j Point.absent).count ≠ 0 := by
  rw [Present, List.getD_eq_getElem?_getD]
  cases ps[j]? <;> simp [Point.absent]

/-- No absent point from 0 to F (R62). -/
theorem flangeGap_none_iff (flange : Nat) (ps : List Point) (h : flange < ps.length) :
    flangeGap flange ps = none ↔ ∀ j, j ≤ flange → Present ps j := by
  have hlt := List.findIdx_lt_length (xs := ps.take (flange + 1)) (p := fun p : Point => p.count == 0)
  have hgap : flangeGap flange ps = none ↔ ¬∃ x ∈ ps.take (flange + 1), (x.count == 0) = true := by
    rw [← hlt]
    simp only [flangeGap]
    split <;> simp_all
  rw [hgap]
  constructor
  · intro hno j hj
    have hlen : j < ps.length := by omega
    refine ⟨ps[j], List.getElem?_eq_getElem hlen, fun hc => hno ⟨ps[j], ?_, by simp [hc]⟩⟩
    exact List.mem_take_iff_getElem.2 ⟨j, by omega, rfl⟩
  · rintro hall ⟨x, hx, hc⟩
    obtain ⟨j, hj, rfl⟩ := List.mem_take_iff_getElem.1 hx
    obtain ⟨pt, hpt, hne⟩ := hall j (by omega)
    rw [List.getElem?_eq_getElem (by omega)] at hpt
    exact hne (Option.some.inj hpt ▸ by simpa using hc)

/-- A record complete: the taping point, the flange zone and all but 12 points present (R62). -/
def RecordComplete (taping flange : Nat) (ps : List Point) : Prop :=
  Present ps taping ∧ (∀ j, j ≤ flange → Present ps j) ∧ (ps.filter fun pt => pt.count == 0).length ≤ 12

theorem traceVerdict_complete_iff (taping flange : Nat) (ps : List Point) (h : flange < ps.length) :
    traceVerdict taping flange ps = .complete ↔ RecordComplete taping flange ps := by
  have htap := present_iff_getD ps taping
  have hgap := flangeGap_none_iff flange ps h
  unfold traceVerdict RecordComplete
  generalize (ps.getD taping Point.absent).count = k at htap ⊢
  by_cases h1 : k = 0
  · simp [h1, htap]
  · rcases hg : flangeGap flange ps with _ | i
    · have hall := hgap.1 hg
      by_cases h12 : 12 < absentCount ps
      · have hmany : ¬(ps.filter fun pt => pt.count == 0).length ≤ 12 := by simpa [absentCount] using h12
        simp [h1, h12, hmany]
      · have hfew : (ps.filter fun pt => pt.count == 0).length ≤ 12 := by simpa [absentCount] using h12
        simpa [h1, h12, htap, hfew] using hall
    · have hall : ¬∀ j, j ≤ flange → Present ps j := fun ha => by simp [hgap.2 ha] at hg
      simp [h1, hall]

/-- A point of the record formed: its mean, and in a complete record its height over the taping point (R61). -/
theorem formRecord_point (taping flange left : Nat) (p : PtuWheel) (j : Nat) (pt : Point) (hj : p.points[j]? = some pt) :
    ∃ f, (formRecord taping flange left p).points[j]? = some f ∧ f.count = pt.count ∧ f.sum = pt.sum ∧
      f.value = (if pt.count = 0 then none else some (pt.sum / (pt.count : Int))) ∧
      ∀ ref v, (formRecord taping flange left p).verdict = .complete → Present p.points taping →
        (p.points[taping]?.map fun q => q.sum / (q.count : Int)) = some ref → f.value = some v →
        f.height = some (v - ref) := by
  by_cases hv : traceVerdict taping flange (p.points.map Point.formed) = .complete
  · refine ⟨pt.formed.referred ((((p.points.map Point.formed).getD taping Point.absent).value).getD 0),
      by simp [formRecord, hv, hj], rfl, rfl, rfl, fun ref v _ hp href hval => ?_⟩
    obtain ⟨q, hq, hne⟩ := hp
    have hr : q.sum / (q.count : Int) = ref := by simpa [hq] using href
    have hval' : pt.formed.value = some v := hval
    simpa [Point.referred, hq, Point.formed, hne, hr] using hval'
  · exact ⟨pt.formed, by simp [formRecord, hv, hj], rfl, rfl, rfl, fun ref v hc => absurd hc hv⟩

/-! ## The fit -/

/-- The ceilings the fit's offer is taken against: those of a NORMAL record announced in the visit (R77). -/
def fitHeld (s : State) : Option (LR Int) :=
  if s.fe.ceil.status = .normal ∧ s.fe.ceil.announced = true then s.fe.ceil.value else none

/-- The ceilings the fit's offer comes to (R77). -/
def fitTaken (s : State) (c : LR Int) : LR Int := (fitHeld s).elim c fun h => ⟨min c.l h.l, min c.r h.r⟩

theorem offerFit_eq (c : LR Int) (s : State) : offerFit c s = takeCeiling (fitTaken s c) (!s.fe.ceil.announced) s := by
  unfold offerFit fitTaken fitHeld
  rcases hv : s.fe.ceil.value with _ | h <;> cases hst : s.fe.ceil.status <;> cases ha : s.fe.ceil.announced <;> rfl

/-- A fit's offer at or above Z: the record holds what the offer comes to, announced, on a new sequence unless it held
that already (R76, R77). -/
theorem offerFit_fits (c : LR Int) (s : State) (hs : s.vc.state ≠ .start) (hz : aboveLimit s (fitTaken s c) = true) :
    (offerFit c s).2 ≠ .condemned ∧ (offerFit c s).1.fe = { s.fe with
      ceil := { s.fe.ceil with
        status := .normal, value := some (fitTaken s c), announced := true
        seq := if fitHeld s = some (fitTaken s c) then s.fe.ceil.seq else nextSeq s.fe.ceil.seq } } := by
  rw [offerFit_eq, takeCeiling, if_pos hz]
  by_cases hheld : fitHeld s = some (fitTaken s c)
  · have hrec : s.fe.ceil.status = .normal ∧ s.fe.ceil.announced = true ∧ s.fe.ceil.value = some (fitTaken s c) := by
      by_cases hn : s.fe.ceil.status = .normal ∧ s.fe.ceil.announced = true <;> simp_all [fitHeld]
    obtain ⟨h1, h2, h3⟩ := hrec
    rw [if_neg (by simp [h1, h2, h3]), if_pos hheld, ← h1, ← h2, ← h3]
    exact ⟨by simp, rfl⟩
  · have hnew : (!s.fe.ceil.announced) = true ∨ s.fe.ceil.status ≠ .normal ∨ s.fe.ceil.value ≠ some (fitTaken s c) := by
      by_contra hall
      push Not at hall
      obtain ⟨h1, h2, h3⟩ := hall
      have ha : s.fe.ceil.announced = true := by simpa using h1
      exact hheld (by simp [fitHeld, ha, h2, h3])
    rw [if_pos hnew, if_neg hheld, changeCeiling_eq _ _ s hs]
    simp

/-- A fit's offer below Z (R13, R77). -/
theorem offerFit_condemns (c : LR Int) (s : State) (hz : aboveLimit s (fitTaken s c) = false) :
    offerFit c s = ({ s with fe := { s.fe with ceil := { s.fe.ceil with condemning := some (fitTaken s c) } } }, .condemned) := by
  rw [offerFit_eq, takeCeiling, if_neg (by simp [hz])]
  rfl

/-- The fit record holds the worn heights it was given (R65, R71). -/
theorem runFit_worn (worn : LR (List (Option Int))) (s : State) : (runFit worn s).fe.fit.worn = some worn := by
  have hceil : ∀ (st : CeilStatus) (v : Option (LR Int)) (x : State), (changeCeiling st v x).fe.fit = x.fe.fit :=
    fun st v x => by simp [changeCeiling]
  have hoffer : ∀ (c : LR Int) (x : State), (offerFit c x).1.fe.fit = x.fe.fit := fun c x => by
    rw [offerFit_eq, takeCeiling]
    (repeat' split) <;> simp [hceil]
  have hcond : ∀ x : State, (enterCondemned x).fe.fit = x.fe.fit := fun x => by
    simp only [enterCondemned]
    split <;> simp [hceil]
  have hend : ∀ r : State × OfferResult, (endFit r).fe.fit.worn = r.1.fe.fit.worn := fun ⟨x, r⟩ => by
    cases r <;> simp [endFit, hcond, setFitState]
  simp only [runFit]
  (repeat' split) <;> simp [hend, hoffer]

/-- The state in which a fit makes its offer (R71 to R75). -/
def fitOffering (worn : LR (List (Option Int))) (ρ : LR Int) (best : VariantFit) (c : LR Int) (s : State) : State :=
  { s with fe := { s.fe with fit := { s.fe.fit with
    worn := some worn, results := fitResults s ρ worn, chosen := some best.index, ceiling := some c } } }

theorem runFit_eq (worn : LR (List (Option Int))) (s : State) (di ρ : LR Int) (best : VariantFit)
    (hdi : s.fe.fit.diameter = some di) (hρ : s.fe.fit.runout = some ρ)
    (hbest : chooseVariant (fitResults s ρ worn) = some best) :
    runFit worn s = endFit (offerFit (fitCeilings di best) (fitOffering worn ρ best (fitCeilings di best) s)) := by
  have hbest' : chooseVariant (fitResults (s.onFE fun f => { f with fit := { f.fit with worn := some worn } }) ρ worn) =
      some best := hbest
  simp only [runFit, State.onFE_fe, hdi, hρ, hbest']
  rfl

/-- A fit's offer taken: the result record written, the station in RECONCILING, the first plan tried (R7, R77, R119). -/
theorem endFit_fits (c : LR Int) (y : State) (hst : y.vc.state = .measuring)
    (hz : aboveLimit y (fitTaken y c) = true) :
    ∃ v, endFit (offerFit c y) = firstPlan v ∧ v.vc = { y.vc with state := .reconciling } ∧
      v.fe = { y.fe with
        fit := { y.fe.fit with state := .fitted }
        ceil := { y.fe.ceil with
          status := .normal, value := some (fitTaken y c), announced := true
          seq := if fitHeld y = some (fitTaken y c) then y.fe.ceil.seq else nextSeq y.fe.ceil.seq } } ∧
      v.cp = { y.cp with newResult := true } ∧ v.ru = y.ru ∧ v.pc = y.pc ∧ v.out = y.out ∧ v.ss = y.ss ∧
      v.peers = y.peers ∧ ∃ r, v.result.rtu = some r ∧ r.reason = .none := by
  obtain ⟨hres, hfe⟩ := offerFit_fits c y (by simp [hst]) hz
  have hend : endFit (offerFit c y) =
      firstPlan (setStation .reconciling (writeResult .none (setFitState .fitted (offerFit c y).1))) := by
    cases hr : offerFit c y with
    | mk u r => cases r <;> simp_all [endFit]
  have hset := setStation_plain .reconciling (writeResult .none (setFitState .fitted (offerFit c y).1))
    (by simp [hst]) (by simp [hst, isOpenState]) (by simp [hst, linkCode]) rfl
  refine ⟨_, hend.trans (congrArg _ hset), by simp, ?_, by simp [writeResult_eq], by simp, by simp, by simp, by simp,
    by simp, _, rfl, reported_reason _ _⟩
  simp [setFitState, hfe]

/-- The agreement check touches the findings alone (R130, R131). -/
theorem agree_plan (s : State) : (agree s).ru.plan = s.ru.plan ∧ (agree s).ru.intent = s.ru.intent := by
  unfold agree
  split <;> exact ⟨rfl, rfl⟩

/-- A build taken touches the queue alone (R138). -/
theorem PC.built_keeps (b : BuildResult) (c : PC) :
    (PC.built b c).surface = c.surface ∧ (PC.built b c).uncertain = c.uncertain ∧
    (PC.built b c).finishDone = c.finishDone ∧ (PC.built b c).chosen = c.chosen := by
  cases b <;> exact ⟨rfl, rfl, rfl, rfl⟩

section Fit

variable (worn : LR (List (Option Int))) (s : State) (di ρ : LR Int) (best : VariantFit) (c taken : LR Int)
  (hst : s.vc.state = .measuring) (hdi : s.fe.fit.diameter = some di) (hρ : s.fe.fit.runout = some ρ)
  (hbest : chooseVariant (fitResults s ρ worn) = some best) (hc : c = fitCeilings di best)
  (htaken : taken = fitTaken s c)

include hst hdi hρ hbest hc htaken

/-- A fit at or above Z ends the measurement: its ceilings in the ceiling record, the station in RECONCILING or on a
first plan in READY (R7, R72 to R78, R119). -/
theorem runFit_fits (hz : ((conf s).condemn : Int) ≤ taken.l ∧ ((conf s).condemn : Int) ≤ taken.r) :
    let t := runFit worn s
    let waits := anyPending (groupView s) = true
    t.fe.fit.chosen = some best.index ∧ t.fe.fit.ceiling = some c ∧
    (∃ r, t.result.rtu = some r ∧ r.reason = .none) ∧ t.out = s.out ∧ t.fe.fit.state = .fitted ∧
    t.cp = { s.cp with newResult := true } ∧
    t.fe.ceil = { s.fe.ceil with
      status := .normal, value := some taken, announced := true
      seq := if fitHeld s = some taken then s.fe.ceil.seq else nextSeq s.fe.ceil.seq } ∧
    (waits → t.vc = { s.vc with state := .reconciling } ∧ t.ru = s.ru ∧ t.pc = s.pc) ∧
    (¬waits → t.vc = { s.vc with state := .ready } ∧
      t.ru.plan = some (computePlan (conf s) s.ss.straps.bogie taken (groupView s)) ∧ t.pc.surface = some di ∧
      t.pc.uncertain = false ∧ t.pc.finishDone = false ∧ t.pc.chosen = some best.index ∧
      t.ru.intent = some ⟨nextSeq s.ru.intentSeq, t.fe.ceil.seq,
        (computePlan (conf s) s.ss.straps.bogie taken (groupView s)).target⟩) := by
  intro t waits
  have ht : t = endFit (offerFit c (fitOffering worn ρ best c s)) := by
    rw [hc]
    exact runFit_eq worn s di ρ best hdi hρ hbest
  have htaken' : fitTaken (fitOffering worn ρ best c s) c = taken := htaken.symm
  obtain ⟨v, hend, vvc, vfe, vcp, vru, vpc, vout, vss, vpeers, vresult⟩ := endFit_fits c (fitOffering worn ρ best c s) hst
    ((aboveLimit_iff _ _).2 (by rw [htaken']; exact hz))
  rw [htaken'] at vfe
  rw [hend] at ht
  have vview : groupView v = groupView s := by
    simp only [groupView, vss, vpeers]
    rfl
  have vconf : conf v = conf s ∧ v.ss = s.ss := ⟨by simp only [conf, vss]; rfl, vss⟩
  have hgo : ¬waits → t = _ := fun hw => ht.trans (firstPlan_ready taken di v (by rw [vvc]) (by rw [vfe]) (by rw [vfe])
    (by rw [vfe]; exact hdi) (by rw [vview]; simpa [waits] using hw) _ rfl _ rfl)
  have tfe : t.fe = v.fe := by rw [ht, (firstPlan_frame v).2.2.2.2.1]
  have hstay : waits → t = v := fun hw => ht.trans (firstPlan_waits v (by rw [vview]; exact hw))
  have tcp : t.cp = v.cp := by
    by_cases hw : waits
    · rw [hstay hw]
    · rw [hgo hw]
      simp [planned]
  refine ⟨by rw [tfe, vfe]; rfl, by rw [tfe, vfe]; rfl, by simpa [ht] using vresult, by simpa [ht, fitOffering] using vout,
    by rw [tfe, vfe], tcp.trans vcp, by rw [tfe, vfe]; rfl, fun hw => ?_, fun hw => ?_⟩
  · rw [hstay hw]
    exact ⟨vvc, vru, vpc⟩
  · rw [tfe, hgo hw]
    simp only [agree_frame, agree_plan, PC.built_keeps]
    refine ⟨by rw [vvc]; rfl, ?_, trivial, trivial, trivial, by rw [vfe]; rfl, ?_⟩
    · rw [vconf.1, vconf.2, vview]; rfl
    · rw [vconf.1, vconf.2, vview]
      simp [planned, vru, fitOffering]

/-- A fit below Z ends the measurement in CONDEMNED (R13, R77). -/
theorem runFit_condemns (hz : ¬(((conf s).condemn : Int) ≤ taken.l ∧ ((conf s).condemn : Int) ≤ taken.r)) :
    let t := runFit worn s
    t.fe.fit.chosen = some best.index ∧ t.fe.fit.ceiling = some c ∧
    (∃ r, t.result.rtu = some r ∧ r.reason = .none) ∧ t.out = s.out ∧
    t.vc.state = .condemned ∧ t.fe.fit.state = .condemning ∧ t.fe.ceil.status = .condemned ∧ t.fe.ceil.value = none ∧
    t.fe.ceil.condemning = some taken ∧ t.fe.ceil.seq = nextSeq s.fe.ceil.seq ∧
    t.cp = { s.cp with status := latchWord s.cp.status .condemned, newResult := true } := by
  intro t
  have ht : t = endFit (offerFit c (fitOffering worn ρ best c s)) := by
    rw [hc]
    exact runFit_eq worn s di ρ best hdi hρ hbest
  have hyst : (fitOffering worn ρ best c s).vc.state = .measuring := hst
  have htaken' : fitTaken (fitOffering worn ρ best c s) c = taken := htaken.symm
  have hoffer := offerFit_condemns c (fitOffering worn ρ best c s)
    (Bool.eq_false_iff.2 (mt (aboveLimit_iff _ _).1 (by rw [htaken']; exact hz)))
  rw [htaken'] at hoffer
  generalize hy : fitOffering worn ρ best c s = y at ht hyst hoffer
  have hend : t = enterCondemned (writeResult .none (setFitState .condemning
      { y with fe := { y.fe with ceil := { y.fe.ceil with condemning := some taken } } })) := by rw [ht, hoffer]; rfl
  obtain ⟨kvc, kpc, kru, kfe, kcp, kout, -, -⟩ := enterCondemned_records (writeResult .none (setFitState .condemning
      { y with fe := { y.fe with ceil := { y.fe.ceil with condemning := some taken } } }))
    (by simp [hyst, isOpenState]) (by simp [hyst])
  rw [← hend] at kvc kpc kru kfe kcp kout
  have hresult : t.result.rtu = some (reported .none s.rtu) := by
    rw [hend, (enterCondemned_frame _).2.2.2.2.2.2.2, ← hy]
    rfl
  subst hy
  refine ⟨by rw [kfe]; rfl, by rw [kfe]; rfl, ⟨_, hresult, reported_reason _ _⟩, ?_, by rw [kvc], by rw [kfe]; rfl,
    by rw [kfe], by rw [kfe], by rw [kfe]; rfl, by rw [kfe]; rfl, by rw [kcp]; rfl⟩
  rw [kout]
  simp [hst, fitOffering, Outputs.grewBy]

end Fit

/-! ## The end of a sweep -/

/-- The end of the open sweep, by its record (R55, R61, R62, R65). -/
theorem endSweep_eq (w : Wheel) (s : State) (r : PtuWheel)
    (hr : r = formRecord (conf s).taping (conf s).flange (s.ptu.sweepTimer.getD 0) (s.ptu.wheel.get w))
    (u : PTU) (hu : u = { s.ptu with wheel := s.ptu.wheel.put w r, sweepTimer := none }) :
    endSweep w s =
      if r.verdict = .complete then
        if w = .l then { s with
          ptu := { u with phase := .sweepR, sweepTimer := some 60000000 }, out := s.out.grewBy [.sweep .r] [] }
        else runFit (u.wheel.map wornHeights) { s with ptu := { u with phase := .complete } }
      else measurementFails .traceIncomplete { s with ptu := { u with phase := .held, failing := some w } } := by
  simp only [endSweep, ← hr]
  by_cases hv : r.verdict = .complete
  · rw [if_pos hv, if_pos hv]
    cases w
    · simp [startSweep, order, State.onPTU, State.onOut, Outputs.grewBy, hu, Config.sweepTime, Config.sec]
    · simp [State.onPTU, hu]
  · rw [if_neg hv, if_neg hv]
    simp [State.onPTU, holdTrace, hu]

/-- Settles O49. -/
theorem sweepEndFormsTheRecord : Obligations.SweepEndFormsTheRecord := by
  intro w s runs p tap present complete
  refine ⟨fun h => ?_, fun o h hne => ?_, fun h hlen hflange => ?_⟩
  · simp only [runs, exec, execSweepEnd, h]
  · simp only [runs, exec, execSweepEnd, h, hne, if_false]
    rfl
  have hrun : runs = .next (endSweep w s) := by simp only [runs, exec, execSweepEnd, h, if_true]
  obtain ⟨r, hr⟩ : ∃ r, r = formRecord tap (conf s).flange (s.ptu.sweepTimer.getD 0) p := ⟨_, rfl⟩
  obtain ⟨u, hu⟩ : ∃ u : PTU, u = { s.ptu with wheel := s.ptu.wheel.put w r, sweepTimer := none } := ⟨_, rfl⟩
  have hend := endSweep_eq w s r hr u hu
  have hverdict : r.verdict = .complete ↔ complete := by
    have hiff := traceVerdict_complete_iff tap (conf s).flange (p.points.map Point.formed) (by simp [hlen]; omega)
    rw [hr]
    refine hiff.trans ?_
    simp only [RecordComplete, present_formed]
    have hcount : ((p.points.map Point.formed).filter fun pt => pt.count == 0).length =
        (p.points.filter fun pt => pt.count == 0).length := by
      simp [List.filter_map, Function.comp_def, Point.formed]
    rw [hcount]
    rfl
  have hwheel : (endSweep w s).ptu.wheel = s.ptu.wheel.put w r := by
    rw [hend]
    (repeat' split) <;> simp [hu]
  have hget : (endSweep w s).ptu.wheel.get w = r := by
    rw [hwheel]
    cases w <;> rfl
  have hleft : complete → w = .l → endSweep w s = _ := fun hc hw =>
    hend.trans ((if_pos (hverdict.2 hc)).trans (if_pos hw))
  have hright : complete → w = .r → endSweep w s = _ := fun hc hw =>
    hend.trans ((if_pos (hverdict.2 hc)).trans (if_neg (by simp [hw])))
  have hfails : ¬complete → endSweep w s = _ := fun hc => hend.trans (if_neg (mt hverdict.1 hc))
  refine ⟨_, hrun, fun j pt hj => ?_, ?_, fun hc hw => ?_, fun hc hw => ?_,
    fun di ρ worn best hc hw hst hdi hρ hworn hbest => ?_, fun hc hst => ?_⟩
  · obtain ⟨f, hf, hcount, hsum, hval, hheight⟩ :=
      formRecord_point tap (conf s).flange (s.ptu.sweepTimer.getD 0) p j pt hj
    rw [← hr] at hf hheight
    rw [hget]
    exact ⟨f, hf, hcount, hsum, hval, fun ref v hc => hheight ref v (hverdict.2 hc) hc.1⟩
  · rw [hget]
    exact hverdict
  · rw [hleft hc hw]
    exact ⟨rfl, rfl, rfl, fun b hb => by cases b <;> simp_all [Block.same]⟩
  · rw [hright hc hw, runFit_worn]
    refine ⟨by simp, by simp [hu], by simp [wornHeights, LR.map]⟩
  · rw [hright hc hw] at hworn ⊢
    rw [runFit_worn] at hworn
    obtain rfl := Option.some.inj hworn
    intro c held taken fits waits
    by_cases hz : fits
    · obtain ⟨h1, h2, h3, h4, h5, h6, h7, h8, h9⟩ := runFit_fits (u.wheel.map wornHeights)
        { s with ptu := { u with phase := .complete } } di ρ best c taken hst hdi hρ hbest rfl rfl hz
      exact ⟨h1, h2, h3, by rw [h6], h4, fun _ => ⟨h5, h6, h7, h8, h9⟩, fun hn => absurd hz hn⟩
    · obtain ⟨h1, h2, h3, h4, h5, h6, h7, h8, h9, h10, h11⟩ := runFit_condemns (u.wheel.map wornHeights)
        { s with ptu := { u with phase := .complete } } di ρ best c taken hst hdi hρ hbest rfl rfl hz
      exact ⟨h1, h2, h3, by rw [h11], h4, fun hf => absurd hf hz, fun _ => ⟨h5, h6, h7, h8, h9, h10, h11⟩⟩
  · rw [hfails hc, measurementFails_eq .traceIncomplete { s with ptu := { u with phase := .held, failing := some w } }
      (by decide) (by decide) hst, writeResult_eq]
    exact ⟨rfl, rfl, rfl, ⟨_, rfl, reported_reason _ _⟩, rfl, rfl⟩

end Sys2Proof.Machine
end

