-- ==== Sys2Proof/Proofs/SlideReturns.lean ====
section
/-! PROOFS. A slide's return and the completion of a pass (R11, R78, R141, R142, R146 to R149, R167, R168). -/

namespace Sys2Proof.Machine

open Sys2Proof

/-! ## What a completion leaves of its own record -/

/-- The record of the passes is kept: the last ended, the surfaces, the count of the visit, finish done, pass completed
(R137, R147). -/
structure PassKept (s t : State) : Prop where
  lastEnded : t.pc.lastEnded = s.pc.lastEnded
  surface : t.pc.surface = s.pc.surface
  passesVisit : t.pc.passesVisit = s.pc.passesVisit
  finishDone : t.pc.finishDone = s.pc.finishDone
  passCompleted : t.vc.passCompleted = s.vc.passCompleted

/-- Kept too: the ceiling and fit records, the plan and its intent, a build owed, a condemnation pending. -/
structure BuildKept (s t : State) : Prop extends PassKept s t where
  rebuildOwed : t.pc.rebuildOwed = s.pc.rebuildOwed
  condPending : t.vc.condPending = s.vc.condPending
  fe : t.fe = s.fe
  plan : t.ru.plan = s.ru.plan
  intent : t.ru.intent = s.ru.intent
  intentSeq : t.ru.intentSeq = s.ru.intentSeq

theorem PassKept.trans {s t u : State} (h : PassKept s t) (k : PassKept t u) : PassKept s u :=
  ⟨k.lastEnded.trans h.lastEnded, k.surface.trans h.surface, k.passesVisit.trans h.passesVisit,
    k.finishDone.trans h.finishDone, k.passCompleted.trans h.passCompleted⟩

theorem BuildKept.trans {s t u : State} (h : BuildKept s t) (k : BuildKept t u) : BuildKept s u :=
  ⟨h.toPassKept.trans k.toPassKept, k.rebuildOwed.trans h.rebuildOwed, k.condPending.trans h.condPending, k.fe.trans h.fe,
    k.plan.trans h.plan, k.intent.trans h.intent, k.intentSeq.trans h.intentSeq⟩

theorem BuildKept.of_eq {s t : State} (hvc : t.vc = s.vc) (hfe : t.fe = s.fe) (hru : t.ru = s.ru) (hpc : t.pc = s.pc) :
    BuildKept s t := by
  constructor
  · exact ⟨by rw [hpc], by rw [hpc], by rw [hpc], by rw [hpc], by rw [hvc]⟩
  all_goals simp [hvc, hfe, hru, hpc]

theorem BuildKept.refl (s : State) : BuildKept s s := .of_eq rfl rfl rfl rfl

theorem PassKept.of_eq {s t : State} (hvc : t.vc = s.vc) (hpc : t.pc = s.pc) : PassKept s t :=
  ⟨by rw [hpc], by rw [hpc], by rw [hpc], by rw [hpc], by rw [hvc]⟩

theorem queueFrame_kept (f : QFrame) (s : State) : BuildKept s (queueFrame f s) :=
  .of_eq (by simp) (by simp) (by simp) (by simp)

theorem order_kept (o : Order) (s : State) : BuildKept s (order o s) := .of_eq rfl rfl rfl rfl

theorem latch_kept (f : Flag) (s : State) : BuildKept s (latch f s) := .of_eq rfl rfl rfl rfl

theorem leaveCutting_kept (s : State) : BuildKept s (leaveCutting s) := ⟨⟨rfl, rfl, rfl, rfl, rfl⟩, rfl, rfl, rfl, rfl, rfl, rfl⟩

theorem BuildKept.ite {s t : State} (c : Prop) [Decidable c] (h : BuildKept s t) : BuildKept s (if c then t else s) := by
  split
  · exact h
  · exact .refl s

theorem setStation_kept (st : StationState) (s : State) : BuildKept s (setStation st s) := by
  let s1 := s.onVC fun v => { v with state := st }
  let s2 := if s.vc.state = .cutting ∧ st ≠ .cutting then leaveCutting s1 else s1
  let s3 := if isOpenState s.vc.state && !isOpenState st then s2.onCP (fun c => { c with unlock := .closed }) else s2
  have h1 : BuildKept s s1 := ⟨⟨rfl, rfl, rfl, rfl, rfl⟩, rfl, rfl, rfl, rfl, rfl, rfl⟩
  have h2 : BuildKept s1 s2 := .ite _ (leaveCutting_kept s1)
  have h3 : BuildKept s2 s3 := .ite _ (.of_eq rfl rfl rfl rfl)
  have h4 : BuildKept s3 (setStation st s) := .ite _ (queueFrame_kept .state s3)
  exact ((h1.trans h2).trans h3).trans h4

theorem releaseClaim_kept (s : State) : BuildKept s (releaseClaim s) := .of_eq (by simp) (by simp) (by simp) (by simp)

theorem slotHead_kept (s : State) : BuildKept s (slotHead s) := .of_eq (by simp) (by simp) (by simp) (by simp)

/-- A change of the queue, its finish, plan deep and passes done alone. -/
theorem queue_kept (s : State) (q : List Pass) (fin : Option (LR Int)) (deep : Option Nat) (done : Nat) :
    BuildKept s { s with pc := { s.pc with queue := q, queueFinish := fin, planDeep := deep, passesDone := done } } :=
  ⟨⟨rfl, rfl, rfl, rfl, rfl⟩, rfl, rfl, rfl, rfl, rfl, rfl⟩

theorem storeOutside_kept (b : BuildResult) (s : State) : BuildKept s (storeOutside b s) := by
  cases b with
  | notMade => exact .refl s
  | empty => exact queue_kept s _ _ _ _
  | deep n => exact queue_kept s _ _ _ _
  | made q f => exact queue_kept s _ _ _ _

theorem enterFinished_kept (s : State) : BuildKept s (enterFinished s) :=
  (((queue_kept s [] s.pc.surface s.pc.planDeep s.pc.passesDone).trans (order_kept .stop _)).trans
    (releaseClaim_kept _)).trans (setStation_kept .finished _)

theorem deepToReady_kept (s : State) : BuildKept s (deepToReady s) :=
  ((((order_kept .stop s).trans (releaseClaim_kept _)).trans (setStation_kept .ready _)).trans
    (latch_kept .recutRequired _)).trans (storeOutside_kept _ _)

theorem agree_kept (s : State) : BuildKept s (agree s) := by
  unfold agree
  split
  · exact ⟨⟨rfl, rfl, rfl, rfl, rfl⟩, rfl, rfl, rfl, rfl, rfl, rfl⟩
  · exact .refl s

/-- A build in CUTTING keeps what its completion recorded (R141, R142). -/
theorem applyBuild_kept (s : State) (h : s.vc.state = .cutting) : BuildKept s (applyBuild s) := by
  simp only [applyBuild, h, if_true]
  split
  · exact .refl s
  · exact (queue_kept s s.pc.queue s.pc.queueFinish none s.pc.passesDone).trans (enterFinished_kept _)
  · exact (queue_kept s _ _ _ s.pc.passesDone).trans (deepToReady_kept _)
  · exact (queue_kept s _ _ _ s.pc.passesDone).trans (slotHead_kept _)

theorem startPass_kept (p : Pass) (s : State) : BuildKept s (startPass p s) := by
  constructor
  · constructor <;> simp [startPass, setHead]
  all_goals simp [startPass, setHead]

theorem settle_kept (s : State) : BuildKept s (settle s) := by
  have hstart : BuildKept s (tryStart s) := by
    unfold tryStart
    (repeat' split)
    · exact startPass_kept _ s
    · exact .of_eq (by simp) (by simp) (by simp) (by simp)
    · exact .refl s
    · exact .refl s
  exact hstart.trans ⟨⟨rfl, rfl, rfl, rfl, rfl⟩, rfl, rfl, rfl, rfl, rfl, rfl⟩

theorem enterCondemned_kept (s : State) : PassKept s (enterCondemned s) := by
  let s1 := (discardQueue s).onPC fun p => { p with holds := HoldCauses.empty, timer := .stopped }
  let s2 := if s.vc.state = .cutting then order .stop s1 else s1
  let s3 := changeCeiling .condemned none (dropPlan (releaseClaim s2))
  let s4 := latch .condemned (s3.onVC fun v => { v with condPending := false })
  have h1 : PassKept s s1 := ⟨rfl, rfl, rfl, rfl, rfl⟩
  have h2 : PassKept s1 s2 := (BuildKept.ite _ (order_kept .stop s1)).toPassKept
  have h3 : PassKept s2 s3 := .of_eq (by simp [s3]) (by simp [s3])
  have h4 : PassKept s3 s4 := ⟨rfl, rfl, rfl, rfl, rfl⟩
  exact (((h1.trans h2).trans h3).trans h4).trans (setStation_kept .condemned s4).toPassKept

theorem condemnationFound_kept (s : State) : PassKept s (condemnationFound s) := by
  have hwait : PassKept s (s.onVC fun v => { v with condPending := true }) := ⟨rfl, rfl, rfl, rfl, rfl⟩
  have hsame : PassKept s s := .of_eq rfl rfl
  unfold condemnationFound
  cases s.vc.state <;> simp only [enterCondemned_kept, hwait, hsame]
  split
  · exact hwait
  · exact enterCondemned_kept s

/-- The builds of changed targets in CUTTING keep the record of the passes (R141 to R143). -/
theorem build_kept (n : Nat) (s : State) (h : s.vc.state = .cutting) : PassKept s (build n s) := by
  induction n generalizing s with
  | zero => exact (applyBuild_kept s h).toPassKept
  | succ n ih =>
    have hframe := fun o => offerCeiling_frame o s
    unfold build
    split
    · exact (applyBuild_kept s h).toPassKept
    · rename_i o _
      obtain ⟨-, hvc, -, -, -, -, -, hpc, -⟩ := hframe o
      have hoffer : PassKept s (offerCeiling o s).1 := .of_eq hvc hpc
      split <;> rename_i s1 he <;> rw [he] at hvc hoffer
      · exact hoffer.trans (condemnationFound_kept s1)
      · exact hoffer.trans (applyBuild_kept s1 (hvc ▸ h)).toPassKept
      · have hre : PassKept s1 (replan s1).1 := .of_eq (by simp) (by simp)
        have hst : (replan s1).1.vc.state = .cutting := by simpa using (hvc ▸ h : s1.vc.state = .cutting)
        exact (hoffer.trans hre).trans (ih _ hst)

theorem ownCeilingChanged_kept (s : State) (h : s.vc.state = .cutting) : PassKept s (ownCeilingChanged s) := by
  have heff : effState s = .cutting := by simp [effState, h]
  have hfirst : firstPlan s = s := by simp [firstPlan, heff]
  have htargets : ∀ t : State, t.vc.state = .cutting → PassKept t (targetsChanged t) := fun t ht => by
    have hefft : effState t = .cutting := by simp [effState, ht]
    simp only [targetsChanged, hefft, ht, if_true]
    split
    · exact ⟨rfl, rfl, rfl, rfl, rfl⟩
    · exact build_kept _ t ht
  have hhand : PassKept s (handTargets (replan s)) := by
    have hre : PassKept s (replan s).1 := .of_eq (by simp) (by simp)
    unfold handTargets
    split
    · exact hre.trans (htargets _ (by simpa using h))
    · exact hre
  unfold ownCeilingChanged
  (repeat' split)
  · exact hhand.trans (agree_kept _).toPassKept
  · rw [hfirst]
    exact .of_eq rfl rfl
  · exact .of_eq rfl rfl

theorem owedBuild_kept (s : State) : PassKept s (owedBuild s) := by
  have howed : PassKept s (s.onPC fun c => { c with rebuildOwed := false }) := ⟨rfl, rfl, rfl, rfl, rfl⟩
  unfold owedBuild
  split
  · simp only
    split
    · rename_i h
      exact (howed.trans (build_kept _ _ h)).trans (agree_kept _).toPassKept
    · exact howed
  · exact .of_eq rfl rfl

/-- A completion keeps what it recorded, whatever its offer and its builds come to (R147). -/
theorem completePass_kept (p : Pass) (s : State) (h : s.vc.state = .cutting) :
    PassKept (completeRecord p s) (completePass p s) := by
  have hafter : PassKept (completeRecord p s)
      (afterOffer (offerCeiling (completionOffer (conf s) p) (completeRecord p s))) := by
    have hframe := offerCeiling_frame (completionOffer (conf s) p) (completeRecord p s)
    obtain ⟨-, hvc, -, -, -, -, -, hpc, -⟩ := hframe
    have hoffer : PassKept (completeRecord p s) (offerCeiling (completionOffer (conf s) p) (completeRecord p s)).1 :=
      .of_eq hvc hpc
    generalize offerCeiling (completionOffer (conf s) p) (completeRecord p s) = r at *
    obtain ⟨u, r⟩ := r
    cases r with
    | same => exact hoffer
    | changed => exact hoffer.trans (ownCeilingChanged_kept u (by rw [hvc]; exact h))
    | condemned => exact hoffer.trans (condemnationFound_kept u)
  have howed := hafter.trans (owedBuild_kept _)
  unfold completePass
  simp only
  split
  · exact howed.trans (enterCondemned_kept _)
  · split
    · have hslot := howed.trans (slotHead_kept _).toPassKept
      split
      · exact hslot.trans (enterFinished_kept _).toPassKept
      · exact hslot.trans (settle_kept _).toPassKept
    · exact howed

/-! ## What follows a completion -/

/-- What follows the builds of a completion (R147 to R149). -/
def goesOn (s : State) : State :=
  if s.vc.condPending then enterCondemned s
  else if s.vc.state = .cutting then
    if (slotHead s).pc.queue.isEmpty then enterFinished (slotHead s) else settle (slotHead s)
  else s

theorem completePass_eq (p : Pass) (s : State) : completePass p s =
    goesOn (owedBuild (afterOffer (offerCeiling (completionOffer (conf s) p) (completeRecord p s)))) := rfl

theorem goesOn_settles (s : State) (hc : s.vc.condPending = false) (h : s.vc.state = .cutting) (hq : s.pc.queue ≠ []) :
    goesOn s = settle (slotHead s) := by
  simp [goesOn, hc, h, hq]

theorem goesOn_finishes (s : State) (hc : s.vc.condPending = false) (h : s.vc.state = .cutting) (hq : s.pc.queue = []) :
    goesOn s = enterFinished (slotHead s) := by
  simp [goesOn, hc, h, hq]

theorem goesOn_elsewhere (s : State) (hc : s.vc.condPending = false) (h : s.vc.state ≠ .cutting) : goesOn s = s := by
  simp [goesOn, hc, h]

theorem slotHead_rough (s : State) (q : Pass) (rest : List Pass) (hq : s.pc.queue = q :: rest) (hk : q.kind = .rough) :
    slotHead s = s := by
  simp [slotHead, headRough, hq, hk]

theorem slotHead_finish (s : State) (q : Pass) (rest : List Pass) (hq : s.pc.queue = q :: rest) (hk : q.kind = .finish) :
    slotHead s = releaseClaim s := by
  simp [slotHead, headRough, hq, hk]

theorem slotHead_empty (s : State) (hq : s.pc.queue = []) : slotHead s = releaseClaim s := by
  simp [slotHead, headRough, hq]

/-- A HELD claim given up: released on the link (R168). -/
theorem releaseClaim_held (s : State) (h : s.scu.slot = .held) (hs : s.vc.state ≠ .start) :
    releaseClaim s = claimReleased s := by
  by_cases hl : s.lc.silenced = true <;>
    simp [releaseClaim, h, claimReleased, removeOwnClaim, withoutClaim, queueFrame, handed, hs, hl, SCU.freed, State.onSCU,
      State.onLC]

/-- The end of the queue with no slot and no reservation (R142, R149). -/
theorem enterFinished_eq (s : State) (h : s.vc.state = .cutting) (hslot : s.scu.slot = .none) :
    enterFinished s = { s with
      vc := { s.vc with state := .finished, sub := none }
      lc := handed .state s.lc
      ru := s.ru.unwaiting
      pc := { s.pc with queue := [], queueFinish := s.pc.surface, holds := HoldCauses.empty }
      scu := s.scu.freed
      out := s.out.grewBy [.stop] [] } := by
  rw [enterFinished, releaseClaim_none _ (by simpa [discardQueue, order] using hslot),
    setStation_fromCutting _ _ (by simpa [discardQueue, order] using h) (by decide) rfl]
  simp [discardQueue, order, State.onOut, State.onPC, RU.unwaiting, Outputs.grewBy]

/-! ## A slide's return -/

theorem mem_owedSlides (p : Pass) (w : Wheel) : w ∈ owedSlides p ↔ (ordered p w && !p.slideDone.get w) = true := by
  cases w <;> simp [owedSlides, ordered]

theorem allDone_iff (p : Pass) : allDone p = true ↔ owedSlides p = [] := by
  have hboth : (∀ w, w ∉ owedSlides p) ↔
      (ordered p .l && !p.slideDone.l) = false ∧ (ordered p .r && !p.slideDone.r) = false := by
    simp only [mem_owedSlides, Bool.not_eq_true]
    exact ⟨fun h => ⟨h .l, h .r⟩, fun ⟨hl, hr⟩ w => by cases w <;> assumption⟩
  rw [List.eq_nil_iff_forall_not_mem, hboth, allDone]
  generalize ordered p .l = a, ordered p .r = b, p.slideDone.l = c, p.slideDone.r = d
  revert a b c d
  decide

/-- The PC's record of a completion (R137, R147). -/
def PC.completed (p : Pass) (c : PC) : PC :=
  { c with
    queue := c.queue.tail, lastEnded := some { p with state := .done }, timer := .stopped, surface := some p.expected
    passesDone := c.passesDone + 1, passesVisit := min 255 (c.passesVisit + 1)
    finishDone := c.finishDone || decide (p.kind = .finish) }

theorem completeRecord_eq (p : Pass) (s : State) : completeRecord p s =
    { s with vc := { s.vc with passCompleted := true }, pc := s.pc.completed p } := by
  have hk : (p.kind == .finish) = decide (p.kind = .finish) := by cases p.kind <;> rfl
  simp [completeRecord, PC.completed, State.onPC, State.onVC, satInc, hk]

theorem completionOffer_eq (c : Settings) (p : Pass) : completionOffer c p =
    if p.kind = .rough then ⟨p.expected.l - 2 * (c.minRecut : Int), p.expected.r - 2 * (c.minRecut : Int)⟩
    else p.expected := by
  cases h : p.kind <;> simp [completionOffer, h, LR.map]

/-- A completion whose offer lowers no ceiling (R147, R148). -/
theorem completePass_same (p : Pass) (held : LR Int) (s : State) (h1 : s.fe.ceil.status = .normal)
    (h2 : s.fe.ceil.value = some held) (hl : held.l ≤ (completionOffer (conf s) p).l)
    (hr : held.r ≤ (completionOffer (conf s) p).r) (hzl : ((conf s).condemn : Int) ≤ held.l)
    (hzr : ((conf s).condemn : Int) ≤ held.r) :
    completePass p s = goesOn (owedBuild (completeRecord p s)) := by
  have hmin : LR.zip min (completionOffer (conf s) p) held = held := by
    simp [LR.zip, min_eq_right hl, min_eq_right hr]
  rw [completePass_eq, offerCeiling_same _ held (completeRecord p s) h1 h2 hzl hzr hmin]
  rfl

theorem owedBuild_none (s : State) (h : s.pc.rebuildOwed = false) : owedBuild s = s := by simp [owedBuild, h]

/-! ## A build owed -/

/-- No wheel is raised before the FINISH pass (R143). -/
theorem raiseOffer_unfinished (s : State) (h : s.pc.finishDone = false) : raiseOffer s = none := by
  unfold raiseOffer
  split <;> simp [h]

theorem build_unfinished (n : Nat) (s : State) (h : s.pc.finishDone = false) : build n s = applyBuild s := by
  cases n <;> simp [build, raiseOffer_unfinished, h]

/-- A build owed after a ROUGH pass, on the targets held (R142, R147). -/
theorem owedBuild_applies (s : State) (h : s.pc.rebuildOwed = true) (hf : s.pc.finishDone = false)
    (hcut : s.vc.state = .cutting) :
    owedBuild s = agree (applyBuild { s with pc := { s.pc with rebuildOwed := false } }) := by
  have hb := build_unfinished buildFuel (s.onPC fun c => { c with rebuildOwed := false }) hf
  simp only [owedBuild, h, if_true, State.onPC_vc, hcut, hb]
  rfl

/-- The build of a station in CUTTING with surfaces and targets (R139 to R142). -/
theorem buildResult_eq (cutting : Bool) (s : State) (surface : LR Int) (plan : Plan) (h1 : s.pc.surface = some surface)
    (h2 : s.ru.plan = some plan) (h3 : s.pc.uncertain = false) :
    buildResult cutting s =
      buildFrom (conf s) s.pc.finishDone cutting s.pc.passesDone surface plan.target := by
  simp [buildResult, h1, h2, h3]

/-- A build replaces the queue, its finish and plan deep (R140, R141). -/
theorem PC.built_of_queue (b : BuildResult) (c : PC) (q : List Pass) (fin : Option (LR Int)) (deep : Option Nat)
    (h : b ≠ .notMade) : PC.built b { c with queue := q, queueFinish := fin, planDeep := deep } = PC.built b c := by
  cases b <;> simp_all [PC.built]

/-- The end of the queue on a HELD claim (R142, R149, R168). -/
theorem enterFinished_held (s : State) (h : s.vc.state = .cutting) (hslot : s.scu.slot = .held) :
    enterFinished s = { claimReleased s with
      vc := { s.vc with state := .finished, sub := none }
      lc := handed .state (claimReleased s).lc
      ru := s.ru.unwaiting
      pc := { s.pc with queue := [], queueFinish := s.pc.surface, holds := HoldCauses.empty }
      out := s.out.grewBy [.stop] [] } := by
  rw [enterFinished, releaseClaim_held (order .stop (discardQueue s)) hslot (by simp [discardQueue, h]),
    setStation_fromCutting _ (claimReleased (order .stop (discardQueue s))) h (by decide) rfl]
  simp [claimReleased, discardQueue, order, State.onOut, State.onPC, RU.unwaiting, Outputs.grewBy, ownStation]
  rfl

/-- A DEEP build on a HELD claim: back to READY with RECUT_REQUIRED, the build outside CUTTING made at once (R11,
R141). -/
theorem deepToReady_held (s : State) (surface : LR Int) (plan : Plan) (h : s.vc.state = .cutting)
    (hslot : s.scu.slot = .held) (h1 : s.pc.surface = some surface) (h2 : s.ru.plan = some plan)
    (h3 : s.pc.uncertain = false) :
    deepToReady s = { claimReleased s with
      vc := { s.vc with state := .ready, sub := none }
      lc := handed .state (claimReleased s).lc
      ru := s.ru.unwaiting
      pc := PC.built (buildFrom (conf s) s.pc.finishDone false 0 surface plan.target)
        { s.pc with holds := HoldCauses.empty, passesDone := 0 }
      cp := { s.cp with status := latchWord s.cp.status .recutRequired }
      out := s.out.grewBy [.stop] [] } := by
  have hset := setStation_fromCutting .ready (claimReleased (order .stop s)) h (by decide) rfl
  generalize hz : setStation .ready (claimReleased (order .stop s)) = z at hset
  have hb : ∀ t : State, t.pc = { s.pc with holds := HoldCauses.empty } → t.ru.plan = s.ru.plan → t.ss = s.ss →
      buildResult false t = buildFrom (conf s) s.pc.finishDone false 0 surface plan.target := fun t hpc hru hss => by
    rw [buildResult_eq false t surface plan (by rw [hpc]; exact h1) (by rw [hru]; exact h2) (by rw [hpc]; exact h3)]
    simp only [conf, hss, hpc]
    rfl
  rw [deepToReady, releaseClaim_held (order .stop s) hslot (by simp [h]), hz,
    hb (latch .recutRequired z) (by rw [hset]; rfl) (by rw [hset]; rfl) (by rw [hset]; rfl),
    storeOutside_built _ _ (buildFrom_made _ _ _ _ _ _), hset]
  simp [claimReleased, order, State.onOut, RU.unwaiting, Outputs.grewBy, latch_eq, ownStation]
  rfl

/-- A claim already given up is left so. -/
theorem releaseClaim_again (s : State) (h : s.scu.freed = s.scu) : releaseClaim s = s := by
  have hslot : s.scu.slot = .none := by rw [← h]; rfl
  rw [releaseClaim_none s hslot, h]

section Owed

variable (s o : State) (surface : LR Int) (plan : Plan) (b : BuildResult) (hcut : s.vc.state = .cutting)
  (hslot : s.scu.slot = .held) (hcond : s.vc.condPending = false) (howed : s.pc.rebuildOwed = true)
  (hfin : s.pc.finishDone = false) (h1 : s.pc.surface = some surface) (h2 : s.ru.plan = some plan)
  (h3 : s.pc.uncertain = false) (hb : b = buildFrom (conf s) false true s.pc.passesDone surface plan.target)
  (ho : o = { s with pc := { s.pc with rebuildOwed := false } })

include hcut hfin h1 h2 h3 hb ho in
theorem buildResult_owed : o.vc.state = .cutting ∧ buildResult true o = b := by
  have e := buildResult_eq true o surface plan (by rw [ho]; exact h1) (by rw [ho]; exact h2) (by rw [ho]; exact h3)
  rw [e, hb, ← hfin, ho]
  exact ⟨hcut, rfl⟩

include hcut hslot hcond howed hfin h1 h2 h3 hb ho

/-- A build owed that is made: the queue goes on, on the claim for a ROUGH head and with it released for a FINISH one
(R142, R147, R167). -/
theorem goesOn_made (qs : List Pass) (fin : LR Int) (h : Pass) (hm : b = .made qs fin) (hh : qs.head? = some h) :
    goesOn (owedBuild s) =
      settle (agree { (if h.kind = .rough then o else claimReleased o) with pc := PC.built b o.pc }) := by
  obtain ⟨hocut, hres⟩ := buildResult_owed s o surface plan b hcut hfin h1 h2 h3 hb ho
  obtain ⟨rest, hqs⟩ : ∃ rest, qs = h :: rest := by cases qs <;> simp_all
  obtain ⟨x, hx⟩ : ∃ x : State, x = { o with pc := PC.built b o.pc } := ⟨_, rfl⟩
  have hxq : x.pc.queue = h :: rest := by rw [hx, hm]; exact hqs
  have happly : applyBuild o = slotHead x := by
    simp only [applyBuild, hocut, if_true, hres, hx, hm, PC.built]
    rfl
  have hy : slotHead x = { (if h.kind = .rough then o else claimReleased o) with pc := PC.built b o.pc } := by
    cases hk : h.kind with
    | rough =>
      rw [slotHead_rough x h rest hxq hk, hx]
      rfl
    | finish =>
      rw [slotHead_finish x h rest hxq hk, releaseClaim_held x (by rw [hx, ho]; exact hslot) (by rw [hx]; simp [hocut]), hx]
      rfl
  generalize hz : slotHead x = y at *
  have hyk : BuildKept x (agree y) := hz ▸ (slotHead_kept x).trans (agree_kept _)
  have hyc : (agree y).vc.state = .cutting := by simp [← hz, hx, hocut]
  have hyq : (agree y).pc.queue = h :: rest := by simp [← hz, hxq]
  have hagain : slotHead (agree y) = agree y := by
    cases hk : h.kind with
    | rough => exact slotHead_rough _ h rest hyq hk
    | finish =>
      rw [slotHead_finish _ h rest hyq hk]
      refine releaseClaim_again _ ?_
      rw [show (agree y).scu = y.scu by simp, hy, hk]
      rfl
  have hcy : (agree y).vc.condPending = false := by rw [hyk.condPending, hx, ho]; exact hcond
  rw [owedBuild_applies s howed hfin hcut, ← ho, happly, goesOn_settles _ hcy hyc (by rw [hyq]; simp), hagain, hy]

/-- A build owed that is DEEP leads to READY (R11, R141). -/
theorem goesOn_deep (n : Nat) (hm : b = .deep n) :
    let t := goesOn (owedBuild s)
    t.vc.state = .ready ∧
    t.pc = PC.built (buildFrom (conf s) false false 0 surface plan.target)
      { o.pc with holds := HoldCauses.empty, passesDone := 0 } ∧
    t.out = s.out.grewBy [.stop] [] ∧ t.scu = (claimReleased s).scu ∧
    t.cp = { s.cp with status := latchWord s.cp.status .recutRequired } := by
  intro t
  obtain ⟨hocut, hres⟩ := buildResult_owed s o surface plan b hcut hfin h1 h2 h3 hb ho
  obtain ⟨x, hx⟩ : ∃ x : State, x = { o with pc := { o.pc with queue := [], queueFinish := none, planDeep := some n } } :=
    ⟨_, rfl⟩
  have happly : applyBuild o = deepToReady x := by
    simp only [applyBuild, hocut, if_true, hres, hm, hx]
    rfl
  have hdeep := deepToReady_held x surface plan (by rw [hx]; exact hocut) (by rw [hx, ho]; exact hslot)
    (by rw [hx, ho]; exact h1) (by rw [hx, ho]; exact h2) (by rw [hx, ho]; exact h3)
  have ht : t = goesOn (agree (deepToReady x)) := by
    simp only [t, owedBuild_applies s howed hfin hcut, ← ho, happly]
  generalize deepToReady x = z at *
  have zvc : z.vc = { s.vc with state := .ready, sub := none } := by rw [hdeep, hx, ho]
  have zpc : z.pc = PC.built (buildFrom (conf s) false false 0 surface plan.target)
      { o.pc with holds := HoldCauses.empty, passesDone := 0 } := by
    have hbuilt : buildFrom (conf x) x.pc.finishDone false 0 surface plan.target =
        buildFrom (conf s) false false 0 surface plan.target := by
      rw [show x.pc.finishDone = false by rw [hx, ho]; exact hfin, show conf x = conf s by rw [hx, ho]; rfl]
    rw [hdeep]
    simp only [hbuilt]
    rw [hx]
    exact PC.built_of_queue (buildFrom (conf s) false false 0 surface plan.target)
      { o.pc with holds := HoldCauses.empty, passesDone := 0 } [] none (some n) (buildFrom_made _ _ _ _ _ _)
  have zout : z.out = s.out.grewBy [.stop] [] := by rw [hdeep, hx, ho]
  have zscu : z.scu = (claimReleased s).scu := by rw [hdeep, hx, ho]; rfl
  have zcp : z.cp = { s.cp with status := latchWord s.cp.status .recutRequired } := by rw [hdeep, hx, ho]
  have hstate : (agree z).vc.state = .ready := by simp [zvc]
  rw [goesOn_elsewhere _ (by simp [zvc, hcond]) (by rw [hstate]; decide)] at ht
  rw [ht]
  simp [zvc, zpc, zout, zscu, zcp]

/-- A build owed that is empty ends the queue (R142, R149). -/
theorem goesOn_empty (hm : b = .empty) :
    let t := goesOn (owedBuild s)
    t.vc.state = .finished ∧ t.pc = PC.built b { o.pc with holds := HoldCauses.empty } ∧
    t.out = s.out.grewBy [.stop] [] ∧ t.scu = (claimReleased s).scu ∧ t.cp = s.cp := by
  intro t
  obtain ⟨hocut, hres⟩ := buildResult_owed s o surface plan b hcut hfin h1 h2 h3 hb ho
  obtain ⟨x, hx⟩ : ∃ x : State, x = { o with pc := { o.pc with planDeep := none } } := ⟨_, rfl⟩
  have happly : applyBuild o = enterFinished x := by
    simp only [applyBuild, hocut, if_true, hres, hm, hx]
    rfl
  have hfinished := enterFinished_held x (by rw [hx]; exact hocut) (by rw [hx, ho]; exact hslot)
  have ht : t = goesOn (agree (enterFinished x)) := by
    simp only [t, owedBuild_applies s howed hfin hcut, ← ho, happly]
  generalize enterFinished x = z at *
  have zvc : z.vc = { s.vc with state := .finished, sub := none } := by rw [hfinished, hx, ho]
  have zpc : z.pc = PC.built b { o.pc with holds := HoldCauses.empty } := by rw [hfinished, hx, hm]; rfl
  have zout : z.out = s.out.grewBy [.stop] [] := by rw [hfinished, hx, ho]
  have zscu : z.scu = (claimReleased s).scu := by rw [hfinished, hx, ho]; rfl
  have zcp : z.cp = s.cp := by rw [hfinished, hx, ho]; rfl
  have hstate : (agree z).vc.state = .finished := by simp [zvc]
  rw [goesOn_elsewhere _ (by simp [zvc, hcond]) (by rw [hstate]; decide)] at ht
  rw [ht]
  simp [zvc, zpc, zout, zscu, zcp]

end Owed

/-! ## An offer that lowers the ceiling -/

/-- A re-plan on a new ceiling sequence forms an intent (R123). -/
theorem replanned_forms (old : LR Int) (p : Plan) (owed : Bool) (s : State)
    (h : ∀ i, s.ru.intent = some i → i.basis ≠ s.fe.ceil.seq) :
    replanned old p owed s = planned p owed (decide (old ≠ p.target)) true s := by
  rcases hi : s.ru.intent with _ | i
  · simp [replanned, hi]
  · simp [replanned, hi, h i hi]

theorem activePass_queued (s : State) (h : ∀ x ∈ s.pc.queue, x.state = .queued) : activePass s = none := by
  rcases hq : s.pc.queue with _ | ⟨p, rest⟩
  · simp [activePass, hq]
  · have := h p (by simp [hq])
    simp [activePass, hq, this]

/-- The answer to a changed ceiling in CUTTING, on a plan formed (R79, R125). -/
theorem ownCeilingChanged_cutting (s : State) (h : s.vc.state = .cutting) (hp : s.ru.plan.isSome = true) :
    ownCeilingChanged s = agree (handTargets (replan s)) := by
  have heff : planning s = true := by simp [planning, effState, h, isPlanning]
  simp [ownCeilingChanged, heff, hp]

/-- A completion with the ceiling it lowers, announced on a new sequence (R76, R148). -/
def ceilingLowered (p : Pass) (taken : LR Int) (s : State) : State :=
  { s with
    vc := { s.vc with passCompleted := true }, pc := s.pc.completed p
    fe := { s.fe with ceil := ⟨.normal, some taken, nextSeq s.fe.ceil.seq, true, s.fe.ceil.condemning⟩ }
    lc := handed (.ceiling (nextSeq s.fe.ceil.seq) .normal (some taken)) s.lc }

theorem ceilingLowered_keeps (p : Pass) (taken : LR Int) (s : State) :
    KeepsBut [.vc, .fe, .lc, .pc] s (ceilingLowered p taken s) := by
  intro b hb
  cases b <;> simp_all [Block.same, ceilingLowered]

theorem planned_keeps (p : Plan) (owed counts forms : Bool) (s : State) :
    KeepsBut [.lc, .ru] s (planned p owed counts forms s) := by
  intro b hb
  cases b <;> simp_all [Block.same, planned]

/-- A completion whose offer lowers the ceiling, at or above Z (R76, R78, R79, R148). -/
theorem completePass_lowered (p : Pass) (held taken : LR Int) (s : State) (hcut : s.vc.state = .cutting)
    (hplan : s.ru.plan.isSome = true) (h1 : s.fe.ceil.status = .normal) (h2 : s.fe.ceil.value = some held)
    (ht : taken = LR.zip min (completionOffer (conf s) p) held) (hne : taken ≠ held)
    (hz : ((conf s).condemn : Int) ≤ taken.l ∧ ((conf s).condemn : Int) ≤ taken.r) :
    completePass p s = goesOn (owedBuild (agree (handTargets (replan (ceilingLowered p taken s))))) := by
  have hoffer := offerCeiling_changed (completionOffer (conf s) p) held taken (completeRecord p s) h1 h2 ht.symm hz.1 hz.2 hne
  have hchange : changeCeiling .normal (some taken) (completeRecord p s) = ceilingLowered p taken s := by
    rw [changeCeiling_eq _ _ _ (by simp [completeRecord, hcut]), completeRecord_eq]
    rfl
  rw [completePass_eq, hoffer, hchange, ← ownCeilingChanged_cutting (ceilingLowered p taken s) hcut hplan]
  rfl

/-- Changed targets handed on before the FINISH pass, with no pass ACTIVE (R126, R142). -/
theorem handTargets_kept (r : State × Bool) (h : r.1.vc.state = .cutting) (hf : r.1.pc.finishDone = false)
    (ha : activePass r.1 = none) : BuildKept r.1 (handTargets r) := by
  have heff : effState r.1 = .cutting := by simp [effState, h]
  have htargets : targetsChanged r.1 = applyBuild r.1 := by
    simp [targetsChanged, heff, h, ha, build_unfinished _ _ hf]
  unfold handTargets
  split
  · rw [htargets]
    exact applyBuild_kept _ h
  · exact .refl _

theorem goesOn_kept (s : State) (h : s.vc.condPending = false) : BuildKept s (goesOn s) := by
  simp only [goesOn, h, Bool.false_eq_true, if_false]
  (repeat' split)
  · exact (slotHead_kept s).trans (enterFinished_kept _)
  · exact (slotHead_kept s).trans (settle_kept _)
  · exact .refl s

/-- A completion whose offer is below Z (R13, R78, R148). -/
theorem completePass_condemns (p : Pass) (held : LR Int) (s : State) (hcut : s.vc.state = .cutting)
    (hq : ∀ x ∈ s.pc.queue.tail, x.state = .queued) (h1 : s.fe.ceil.status = .normal) (h2 : s.fe.ceil.value = some held)
    (hz : ¬(((conf s).condemn : Int) ≤ min (completionOffer (conf s) p).l held.l ∧
      ((conf s).condemn : Int) ≤ min (completionOffer (conf s) p).r held.r)) :
    let t := completePass p s
    t.vc.state = .condemned ∧ t.fe.ceil.status = .condemned ∧ t.pc.queue = [] ∧ t.ru.plan = none ∧
    t.out = s.out.grewBy [.stop] [] ∧ t.scu.slot = .none ∧
    t.cp = { s.cp with status := latchWord s.cp.status .condemned } := by
  intro t
  have hoffer := offerCeiling_condemned (completionOffer (conf s) p) held _ (completeRecord p s) h1 h2 rfl hz
  obtain ⟨u, hu⟩ : ∃ u, u = (offerCeiling (completionOffer (conf s) p) (completeRecord p s)).1 := ⟨_, rfl⟩
  have huq : u.pc.queue = s.pc.queue.tail := by rw [hu, hoffer]; rfl
  have hucut : u.vc.state = .cutting := by rw [hu, hoffer]; exact hcut
  have huout : u.out = s.out ∧ u.cp = s.cp := by rw [hu, hoffer]; exact ⟨rfl, rfl⟩
  have hpair : offerCeiling (completionOffer (conf s) p) (completeRecord p s) = (u, .condemned) := by rw [hu, hoffer]
  have hfound : afterOffer (offerCeiling (completionOffer (conf s) p) (completeRecord p s)) = enterCondemned u := by
    have hact : activePass u = none := activePass_queued u (by rw [huq]; exact hq)
    rw [hpair]
    simp [afterOffer, condemnationFound, hucut, hact]
  obtain ⟨kvc, kpc, kru, kfe, kcp, kout, kslot, -⟩ := enterCondemned_records u (by simp [hucut, isOpenState]) (by simp [hucut])
  generalize enterCondemned u = k at *
  have ht : t = k ∨ t = { k with pc := { k.pc with rebuildOwed := false } } := by
    have e : t = goesOn (owedBuild k) := by simp only [t, completePass_eq, hfound]
    by_cases ho : k.pc.rebuildOwed = true
    · have hob : owedBuild k = { k with pc := { k.pc with rebuildOwed := false } } := by
        simp [owedBuild, ho, kvc, State.onPC]
      exact .inr (by rw [e, hob, goesOn_elsewhere _ (by rw [kvc]) (by rw [kvc]; simp)])
    · exact .inl (by rw [e, owedBuild_none k (by simpa using ho), goesOn_elsewhere k (by rw [kvc]) (by rw [kvc]; simp)])
  have hout : k.out = s.out.grewBy [.stop] [] := by rw [kout, huout.1, if_pos hucut]
  rcases ht with ht | ht <;> rw [ht] <;>
    exact ⟨by rw [kvc], by rw [kfe], by rw [kpc], by rw [kru]; rfl, hout, kslot, by rw [kcp, huout.2]⟩

/-! ## The FINISH pass whose offer lowers the ceiling -/

/-- The agreement check touches the findings alone (R130 to R132). -/
theorem agree_findings (s : State) :
    ∃ v a, agree s = { s with ru := { s.ru with violation := v, awaited := a } } := by
  unfold agree
  split
  · exact ⟨_, _, rfl⟩
  · exact ⟨s.ru.violation, s.ru.awaited, rfl⟩

theorem agree_elsewhere (s : State) (h : effState s ≠ .ready) (h' : effState s ≠ .cutting) : agree s = s := by
  simp [agree, h, h']

/-- A target at or above its surface leaves nothing to cut (R139). -/
theorem totalDepth_above (fin : Bool) (mr : Nat) (surface target : Int) (h : surface ≤ target) :
    totalDepth fin mr surface target = 0 := by
  have h0 : ((surface - target) / 2).toNat = 0 := by omega
  simp [totalDepth, h0]

/-- Changed targets after the FINISH pass, none below its surface: nothing is built, or the queue ends (R126, R142). -/
theorem handTargets_finished (x : State) (changed : Bool) (surface : LR Int) (plan : Plan) (hcut : x.vc.state = .cutting)
    (hq : x.pc.queue = []) (h1 : x.pc.surface = some surface) (h2 : x.ru.plan = some plan)
    (h : changed = true → surface.l ≤ plan.target.l ∧ surface.r ≤ plan.target.r) :
    handTargets (x, changed) = x ∨
      handTargets (x, changed) = enterFinished { x with pc := { x.pc with planDeep := none } } := by
  cases changed with
  | false => exact .inl rfl
  | true =>
    obtain ⟨hl, hr⟩ := h rfl
    have heff : effState x = .cutting := by simp [effState, hcut]
    have hact : activePass x = none := by simp [activePass, hq]
    have hraise : raiseOffer x = none := by
      have hthin : ∀ a b : Int, a ≤ b → ¬(0 < (a - b) / 2) := fun a b hab => by omega
      unfold raiseOffer
      split
      · rename_i sf p held e1 e2 e3
        obtain rfl : sf = surface := Option.some.inj (e1.symm.trans h1)
        obtain rfl : p = plan := Option.some.inj (e2.symm.trans h2)
        simp [hthin _ _ hl, hthin _ _ hr]
      · rfl
    have happly : handTargets (x, true) = applyBuild x := by
      simp [handTargets, targetsChanged, heff, hcut, hact, buildFuel, build, hraise]
    rw [happly]
    by_cases hu : x.pc.uncertain = true
    · left
      simp [applyBuild, hcut, buildResult_uncertain, hu]
    · right
      have hres : buildResult true x = .empty := by
        rw [buildResult_eq true x surface plan h1 h2 (by simpa using hu)]
        simp [buildFrom, LR.zip, totalDepth_above _ _ _ _ hl, totalDepth_above _ _ _ _ hr]
      simp only [applyBuild, hcut, if_true, hres]
      rfl

/-- The end of the queue after the FINISH pass, whatever its changed targets come to (R142, R149). -/
theorem goesOn_finished (x : State) (changed : Bool) (surface : LR Int) (plan : Plan) (hcut : x.vc.state = .cutting)
    (hq : x.pc.queue = []) (h1 : x.pc.surface = some surface) (h2 : x.ru.plan = some plan)
    (h : changed = true → surface.l ≤ plan.target.l ∧ surface.r ≤ plan.target.r) (hslot : x.scu.slot = .none)
    (hc : x.vc.condPending = false) (ho : x.pc.rebuildOwed = false) :
    let t := goesOn (owedBuild (agree (handTargets (x, changed))))
    t.vc = { x.vc with state := .finished, sub := none } ∧ t.out = x.out.grewBy [.stop] [] ∧ t.fe = x.fe ∧
    t.pc = { x.pc with queueFinish := some surface, holds := HoldCauses.empty, planDeep := t.pc.planDeep } ∧
    t.ru.plan = x.ru.plan ∧ t.ru.replanOwed = x.ru.replanOwed ∧ t.ru.intentSeq = x.ru.intentSeq ∧
    t.ru.intent = x.ru.intent ∧ t.lc = handed .state x.lc ∧ t.scu = x.scu.freed ∧
    KeepsBut [.vc, .fe, .lc, .ru, .pc, .scu, .out] x t := by
  intro t
  rcases handTargets_finished x changed surface plan hcut hq h1 h2 h with hz | hz
  · obtain ⟨v, a, hy⟩ := agree_findings x
    have ht : t = enterFinished (slotHead { x with ru := { x.ru with violation := v, awaited := a } }) := by
      simp only [t, hz, hy]
      rw [owedBuild_none { x with ru := { x.ru with violation := v, awaited := a } } ho]
      exact goesOn_finishes _ hc hcut hq
    rw [slotHead_empty _ (by exact hq), releaseClaim_none _ (by exact hslot), enterFinished_eq _ (by exact hcut) rfl] at ht
    rw [ht]
    refine ⟨rfl, rfl, rfl, ?_, rfl, rfl, rfl, rfl, rfl, rfl, fun b hb => ?_⟩
    · simp [h1, hq]
    · cases b <;> simp_all [Block.same]
  · have hfin := enterFinished_eq { x with pc := { x.pc with planDeep := none } } hcut hslot
    have ht : t = enterFinished { x with pc := { x.pc with planDeep := none } } := by
      simp only [t, hz, hfin]
      rw [agree_elsewhere _ (by simp [effState]) (by simp [effState]), owedBuild_none _ (by exact ho),
        goesOn_elsewhere _ (by exact hc) (by simp)]
    rw [hfin] at ht
    rw [ht]
    refine ⟨rfl, rfl, rfl, ?_, rfl, rfl, rfl, rfl, rfl, rfl, fun b hb => ?_⟩
    · simp [h1, hq]
    · cases b <;> simp_all [Block.same]

/-! ## The obligation -/

/-- Settles O58. -/
theorem slideReturns : Obligations.SlideReturns := by
  intro w s runs stray
  refine ⟨fun h => ?_, fun p hp => ?_⟩
  · simp only [runs, exec, execSlideDone, h]
    rfl
  intro p1 done mr offer pc vc ends quiet
  have hrun : runs = .next (if w ∈ owedSlides p then (if owedSlides p1 = [] then completePass p1 s else setHead p1 s)
      else strayReturn s) := by
    simp only [runs, exec, execSlideDone, hp]
    by_cases hw : w ∈ owedSlides p
    · rw [if_pos hw, if_pos ((mem_owedSlides p w).1 hw)]
      by_cases hd : owedSlides p1 = []
      · rw [if_pos hd]
        exact congrArg _ (if_pos ((allDone_iff p1).2 hd))
      · rw [if_neg hd]
        exact congrArg _ (if_neg (mt (allDone_iff p1).1 hd))
    · rw [if_neg hw, if_neg (mt (mem_owedSlides p w).2 hw)]
  have hends : ends → runs = .next (completePass p1 s) := fun ⟨_, hw, hd⟩ => by rw [hrun, if_pos hw, if_pos hd]
  have hrec : completeRecord p1 s = { s with vc := vc, pc := pc } := completeRecord_eq p1 s
  have hoffer : completionOffer (conf s) p1 = offer := completionOffer_eq (conf s) p1
  have hquiet : quiet → completePass p1 s = goesOn { s with vc := vc, pc := pc } := by
    rintro ⟨ho, -, held, h1, h2, hl, hr, hzl, hzr⟩
    rw [completePass_same p1 held s h1 h2 (by rw [hoffer]; exact hl) (by rw [hoffer]; exact hr) hzl hzr, hrec,
      owedBuild_none _ (by exact ho)]
  have hne : ∀ held : LR Int, offer.l < held.l ∨ offer.r < held.r →
      (⟨min offer.l held.l, min offer.r held.r⟩ : LR Int) ≠ held := fun held hlow e => by
    have el : min offer.l held.l = held.l := congrArg LR.l e
    have er : min offer.r held.r = held.r := congrArg LR.r e
    omega
  refine ⟨fun hw => ?_, fun hw hd => ?_, fun he => ?_, fun he hqu htail hslot => ?_, fun q rest he hqu htail hk => ?_,
    fun q rest he hqu htail hk hslot => ?_,
    fun held plan he hk ho hf hu hc hplan h1 h2 hl hr hzl hzr hslot => ?_,
    fun held plan he hk ho hf hc hqueued hplan hbasis h1 h2 hlow => ?_,
    fun held plan he hk htail ho hc hslot hplan hbasis h1 h2 hlow => ?_,
    fun held he hqueued h1 h2 hlow => ?_⟩
  · rw [hrun, if_neg hw]
    rfl
  · rw [hrun, if_pos hw, if_neg hd]
    rfl
  · have hk := completePass_kept p1 s he.1
    rw [hrec] at hk
    refine ⟨_, hends he, hk.lastEnded, hk.surface, hk.passesVisit, hk.passCompleted, fun hf => ?_⟩
    rw [hk.finishDone]
    simp [pc, hf]
  · have ht := (hquiet hqu).trans (goesOn_finishes { s with vc := vc, pc := pc } hqu.2.1 he.1 htail)
    rw [slotHead_empty _ (by exact htail), releaseClaim_none _ (by exact hslot), enterFinished_eq _ (by exact he.1) rfl] at ht
    refine ⟨_, (hends he).trans (congrArg _ ht), rfl, rfl, rfl, ?_⟩
    simp [pc, htail]
  · have ht := (hquiet hqu).trans (goesOn_settles { s with vc := vc, pc := pc } hqu.2.1 he.1
      (fun e => List.cons_ne_nil q rest (htail.symm.trans e)))
    rw [slotHead_rough _ q rest (by exact htail) hk] at ht
    exact ⟨_, (hends he).trans (congrArg _ ht), settle_settled _⟩
  · have ht := (hquiet hqu).trans (goesOn_settles { s with vc := vc, pc := pc } hqu.2.1 he.1
      (fun e => List.cons_ne_nil q rest (htail.symm.trans e)))
    rw [slotHead_finish _ q rest (by exact htail) hk, releaseClaim_held _ (by exact hslot) (by simp [vc, he.1])] at ht
    exact ⟨_, (hends he).trans (congrArg _ ht), settle_settled _⟩
  · intro b after
    have hsame := completePass_same p1 held s h1 h2 (by rw [hoffer]; exact hl) (by rw [hoffer]; exact hr) hzl hzr
    rw [hrec] at hsame
    have hfin : pc.finishDone = false := by simp [pc, hf, hk]
    refine ⟨fun qs fin h hm hh => ?_, fun n hm => ?_, fun hm => ?_⟩
    · have ht := goesOn_made { s with vc := vc, pc := pc } { s with vc := vc, pc := after } p.expected plan b he.1 hslot hc ho
        hfin rfl hplan hu rfl rfl qs fin h hm hh
      have hstate : agree { (if h.kind = .rough then { s with vc := vc, pc := after } else
            claimReleased { s with vc := vc, pc := after }) with pc := PC.built b after } =
          agree { (if h.kind = .rough then s else claimReleased s) with vc := vc, pc := PC.built b after } := by
        split <;> rfl
      rw [hstate] at ht
      exact ⟨_, (hends he).trans (congrArg _ (hsame.trans ht)), settle_settled _⟩
    · exact ⟨_, (hends he).trans (congrArg _ hsame), goesOn_deep { s with vc := vc, pc := pc }
        { s with vc := vc, pc := after } p.expected plan b he.1 hslot hc ho hfin rfl hplan hu rfl rfl n hm⟩
    · exact ⟨_, (hends he).trans (congrArg _ hsame), goesOn_empty { s with vc := vc, pc := pc }
        { s with vc := vc, pc := after } p.expected plan b he.1 hslot hc ho hfin rfl hplan hu rfl rfl hm⟩
  · intro taken fits p' hfits hpend
    obtain ⟨x, hx⟩ : ∃ x, x = planned p' false (decide (plan.target ≠ p'.target)) true (ceilingLowered p1 taken s) := ⟨_, rfl⟩
    have ht : completePass p1 s = goesOn (owedBuild (agree (handTargets (x, decide (plan.target ≠ p'.target))))) := by
      rw [completePass_lowered p1 held taken s he.1 (by simp [hplan]) h1 h2 (by rw [hoffer]; rfl) (hne held hlow) hfits,
        replan_fresh plan taken (ceilingLowered p1 taken s) (by simp [ceilingLowered, he.1]) hplan rfl hpend,
        replanned_forms _ _ _ _ hbasis, hx]
      rfl
    have hxfin : x.pc.finishDone = false := by rw [hx]; simp [planned, ceilingLowered, PC.completed, hf, p1, hk]
    have hact : activePass x = none := activePass_queued x (by rw [hx]; exact hqueued)
    have hkept := (handTargets_kept (x, decide (plan.target ≠ p'.target)) (by rw [hx]; exact he.1) hxfin hact).trans
      (agree_kept _)
    rw [owedBuild_none _ (hkept.rebuildOwed.trans (by rw [hx]; exact ho))] at ht
    have hall := hkept.trans (goesOn_kept _ (hkept.condPending.trans (by rw [hx]; exact hc)))
    rw [← ht] at hall
    refine ⟨_, hends he, hall.fe.trans ?_, hall.plan.trans ?_, hall.intentSeq.trans ?_, hall.intent.trans ?_⟩ <;>
      rw [hx] <;> rfl
  · intro taken pending p' intent hzl hzr hor
    obtain ⟨x, hx⟩ : ∃ x, x = planned p' pending (decide (plan.target ≠ p'.target)) true (ceilingLowered p1 taken s) :=
      ⟨_, rfl⟩
    have hre : replan (ceilingLowered p1 taken s) = (x, decide (plan.target ≠ p'.target)) := by
      have hst : (ceilingLowered p1 taken s).vc.state ≠ .start := by simp [ceilingLowered, he.1]
      rcases Bool.eq_false_or_eq_true pending with hpend | hpend
      · rw [replan_pending plan taken _ hst hplan rfl hpend, replanned_forms _ _ _ _ hbasis, hx]
        simp only [p', hpend, if_true]
      · rw [replan_fresh plan taken _ hst hplan rfl hpend, replanned_forms _ _ _ _ hbasis, hx]
        simp only [p', hpend]
        rfl
    have ht : completePass p1 s = goesOn (owedBuild (agree (handTargets (x, decide (plan.target ≠ p'.target))))) := by
      rw [completePass_lowered p1 held taken s he.1 (by simp [hplan]) h1 h2 (by rw [hoffer]; rfl) (hne held hlow) ⟨hzl, hzr⟩,
        hre]
    have hchanged : decide (plan.target ≠ p'.target) = true → p.expected.l ≤ p'.target.l ∧ p.expected.r ≤ p'.target.r :=
      fun hd => hor.resolve_left fun e => by simp [e] at hd
    obtain ⟨kvc, kout, kfe, kpc, kplan, kowed, kseq, kintent, klc, kscu, kkeeps⟩ := goesOn_finished x
      (decide (plan.target ≠ p'.target)) p.expected p' (by rw [hx]; exact he.1) (by rw [hx]; exact htail) (by rw [hx]; rfl)
      (by rw [hx]; rfl) hchanged (by rw [hx]; exact hslot) (by rw [hx]; exact hc) (by rw [hx]; exact ho)
    rw [← ht] at kvc kout kfe kpc kplan kowed kseq kintent klc kscu kkeeps
    refine ⟨_, hends he, ?_, ?_, ?_, ?_, ?_, ?_, ?_, ?_, ?_, ?_, ?_⟩
    · rw [kvc, hx]; rfl
    · rw [kout, hx]; rfl
    · rw [kfe, hx]; rfl
    · rw [kpc, hx]; rfl
    · rw [kplan, hx]; rfl
    · rw [kowed, hx]; rfl
    · rw [kseq, hx]; rfl
    · rw [kintent, hx]; rfl
    · rw [klc, hx]; rfl
    · rw [kscu, hx]; rfl
    · rw [hx] at kkeeps
      exact (((ceilingLowered_keeps p1 taken s).mono (by decide)).trans ((planned_keeps _ _ _ _ _).mono (by decide))).trans
        kkeeps
  · have hz : ¬(((conf s).condemn : Int) ≤ min (completionOffer (conf s) p1).l held.l ∧
        ((conf s).condemn : Int) ≤ min (completionOffer (conf s) p1).r held.r) := by
      rw [hoffer]
      omega
    exact ⟨_, hends he, completePass_condemns p1 held s he.1 hqueued h1 h2 hz⟩

end Sys2Proof.Machine
end

