-- ==== Sys2Proof/Proofs/GroupViews.lean ====
section
/-! PROOFS. The group view and the reports of the Peer Table: classes, plans, agreement findings (R8, R113, R114, R119 to
R121, R123, R125 to R127, R130 to R132). -/

namespace Sys2Proof.Machine

open Sys2Proof

/-! ## Minima, targets, classes -/

/-- A running minimum over pairs of ceilings is at most each value it ranges over, and is attained (R120). -/
theorem foldl_least (m : Int) (l : List (LR Int)) :
    let x := l.foldl (fun a p => min a (min p.l p.r)) m
    x ≤ m ∧ (∀ y ∈ l, x ≤ y.l ∧ x ≤ y.r) ∧ (x = m ∨ ∃ y ∈ l, x = y.l ∨ x = y.r) := by
  induction l generalizing m with
  | nil => simp
  | cons p t ih =>
    obtain ⟨hm, hall, hatt⟩ := ih (min m (min p.l p.r))
    obtain ⟨hm1, hm2⟩ := le_min_iff.1 hm
    refine ⟨hm1, fun y hy => ?_, ?_⟩
    · rcases List.mem_cons.1 hy with rfl | hy
      · exact le_min_iff.1 hm2
      · exact hall y hy
    · rcases hatt with h | ⟨y, hy, h⟩
      · rcases min_choice m (min p.l p.r) with hc | hc
        · exact .inl (h.trans hc)
        · exact .inr ⟨p, .head _, (min_choice p.l p.r).imp (h.trans hc).trans (h.trans hc).trans⟩
      · exact .inr ⟨y, .tail _ hy, h⟩

theorem mem_memberCeilings (v : List ViewEntry) (p : ViewEntry → Bool) (y : LR Int) :
    y ∈ memberCeilings v p ↔ ∃ e ∈ v, e.cls = .member ∧ p e = true ∧ e.ceiling = some y := by
  simp only [memberCeilings, List.mem_filterMap]
  constructor
  · rintro ⟨e, he, hy⟩
    split at hy
    · rename_i h
      exact ⟨e, he, h.1, h.2, hy⟩
    · simp at hy
  · rintro ⟨e, he, h1, h2, hy⟩
    exact ⟨e, he, by simp [h1, h2, hy]⟩

/-- The least of the own ceilings and of those of the members that pass a test (R120). -/
theorem leastOf_members (own : LR Int) (v : List ViewEntry) (p : ViewEntry → Bool) (among : ViewEntry → Prop)
    (h : ∀ e, p e = true ↔ among e) :
    let x := leastOf own (memberCeilings v p)
    x ≤ own.l ∧ x ≤ own.r ∧
    (∀ e ∈ v, ∀ y, e.cls = .member → among e → e.ceiling = some y → x ≤ y.l ∧ x ≤ y.r) ∧
    (x = own.l ∨ x = own.r ∨ ∃ e ∈ v, ∃ y, e.cls = .member ∧ among e ∧ e.ceiling = some y ∧ (x = y.l ∨ x = y.r)) := by
  obtain ⟨hm, hall, hatt⟩ := foldl_least (min own.l own.r) (memberCeilings v p)
  refine ⟨hm.trans (min_le_left _ _), hm.trans (min_le_right _ _), fun e he y h1 h2 h3 => ?_, ?_⟩
  · exact hall y ((mem_memberCeilings v p y).2 ⟨e, he, h1, (h e).2 h2, h3⟩)
  · rcases hatt with hx | ⟨y, hy, hx⟩
    · rcases min_choice own.l own.r with hc | hc
      · exact .inl (hx.trans hc)
      · exact .inr (.inl (hx.trans hc))
    · obtain ⟨e, he, h1, h2, h3⟩ := (mem_memberCeilings v p y).1 hy
      exact .inr (.inr ⟨e, he, y, h1, (h e).1 h2, h3, hx⟩)

/-- The class of an own-car entry, by the rows of R113. -/
theorem currentCeiling_isSome (p : PeerState) (e : PeerEntry) (h : e.st = some p) :
    (currentCeiling e).isSome = true ↔ ∃ c, e.ceiling = some c ∧ (c.status = .normal ∨ c.status = .passive) ∧
      c.value.isSome ∧ ¬(p.annCeiling ≠ 0 ∧ seqNewer p.annCeiling c.seq = true) := by
  rcases hc : e.ceiling with _ | c
  · simp [currentCeiling, hc]
  · have hout : ceilingOutdated e = false ↔ ¬(p.annCeiling ≠ 0 ∧ seqNewer p.annCeiling c.seq = true) := by
      simp [ceilingOutdated, h, hc]
    by_cases hstat : c.status = .normal ∨ c.status = .passive
    · by_cases ho : ceilingOutdated e = false
      · have hn := hout.1 ho
        simp [currentCeiling, hc, hstat, ho]
        intro _
        simpa using hn
      · have hn := mt hout.2 ho
        simp only [currentCeiling, hc, hstat, ho]
        simp
        tauto
    · simp [currentCeiling, hc, hstat]

/-! ## The agreement findings -/

theorem isAbortStatus_iff (st : StationState) : isAbortStatus st = true ↔ st = .aborting ∨ st = .aborted := by
  cases st <;> simp [isAbortStatus]

/-- A member that is awaited (R131). -/
theorem isAwaited_iff (e : ViewEntry) : isAwaited e = true ↔ e.cls = .member ∧
    ¬(e.status = .aborting ∨ e.status = .aborted) ∧
    ∀ i c, e.intent = some i → e.stored = some c → seqOlder i.basis c.seq = true := by
  rw [← isAbortStatus_iff]
  rcases hi : e.intent with _ | i <;> rcases hs : e.stored with _ | c <;> simp [isAwaited, hi, hs, and_assoc]

theorem pairOut_iff (c : Settings) (b : Bool) (x y : Int) :
    pairOut c b x y = true ↔ (c.tolCar : Int) < |x - y| ∨ (b = true ∧ (c.tolBogie : Int) < |x - y|) := by
  simp [pairOut]

/-- A member whose intent lies out of tolerance (R130). -/
theorem memberOut_iff (c : Settings) (bogie : Fin 4) (own : LR Int) (e : ViewEntry) :
    memberOut c bogie own e = true ↔ ∃ i, e.cls = .member ∧ ¬(e.status = .aborting ∨ e.status = .aborted) ∧
      ¬isAwaited e = true ∧ e.intent = some i ∧ ∃ x y : Wheel,
        pairOut c (e.bogie == bogie) (own.get x) (i.target.get y) = true := by
  have hwheels : ∀ P : Wheel → Wheel → Prop, (∃ x y, P x y) ↔ P .l .l ∨ P .l .r ∨ P .r .l ∨ P .r .r := fun P => by
    constructor
    · rintro ⟨x, y, h⟩
      cases x <;> cases y <;> simp [h]
    · rintro (h | h | h | h) <;> exact ⟨_, _, h⟩
  simp only [hwheels, ← isAbortStatus_iff]
  by_cases hc : e.cls = .member ∧ isAbortStatus e.status = false ∧ isAwaited e = false
  · rcases hi : e.intent with _ | i
    · simp [memberOut, comparedIntent, hi]
    · simp [memberOut, comparedIntent, hc, hi, LR.get, or_assoc]
  · simp only [memberOut, comparedIntent, hc, if_false]
    simp
    tauto

/-! ## Views in station order -/

theorem viewEntry_state {car : Fin 16} {e : PeerEntry} {x : ViewEntry} (h : viewEntry car e = some x) :
    x.station = e.station ∧ x.stored = e.ceiling ∧ ∃ p, e.st = some p ∧ x.bogie = p.bogie ∧ x.status = p.status := by
  unfold viewEntry at h
  split at h
  · rename_i p hp
    split at h
    · obtain rfl := Option.some.inj h
      exact ⟨rfl, rfl, p, hp, rfl, rfl⟩
    · simp at h
  · simp at h

/-- The group view is in station order, one entry a station (R102, R114). -/
theorem groupView_sorted (s : State) (h : s.peers.Pairwise fun a b => a.station < b.station) :
    (groupView s).Pairwise fun a b => a.station < b.station := by
  refine List.Pairwise.filterMap _ (fun a b hab x hx y hy => ?_) h
  rw [(viewEntry_state hx).1, (viewEntry_state hy).1]
  exact hab

theorem eq_of_station {v : List ViewEntry} (h : v.Pairwise fun a b => a.station < b.station) {x y : ViewEntry}
    (hx : x ∈ v) (hy : y ∈ v) (hs : x.station = y.station) : x = y := by
  have hnodup : (v.map ViewEntry.station).Nodup := List.pairwise_map.2 (h.imp fun hab => ne_of_lt hab)
  exact List.inj_on_of_nodup_map hnodup hx hy hs

theorem peer_eq_of_station {t : List PeerEntry} (h : t.Pairwise fun a b => a.station < b.station) {x y : PeerEntry}
    (hx : x ∈ t) (hy : y ∈ t) (hs : x.station = y.station) : x = y := by
  have hnodup : (t.map PeerEntry.station).Nodup := List.pairwise_map.2 (h.imp fun hab => ne_of_lt hab)
  exact List.inj_on_of_nodup_map hnodup hx hy hs

/-- The entry taken for a station is the one that stands there, or a new one (R104). -/
theorem entryOf_eq {s : State} (h : s.peers.Pairwise fun a b => a.station < b.station) {e : PeerEntry}
    (he : e ∈ s.peers) : entryOf e.station s = e := by
  rcases hf : findPeer e.station s.peers with _ | e'
  · have := List.find?_eq_none.1 hf e he
    simp at this
  · have hmem : e' ∈ s.peers := List.mem_of_find?_eq_some hf
    have hst : e'.station = e.station := by simpa using List.find?_some hf
    simp [entryOf, hf, peer_eq_of_station h hmem he hst]

theorem entryOf_station (n : Fin 16) (s : State) : (entryOf n s).station = n := by
  rcases hf : findPeer n s.peers with _ | e
  · simp [entryOf, hf, PeerEntry.new]
  · simpa [entryOf, hf] using List.find?_some hf

/-- A view that changed in an input of the plan is reported (R114, R125). -/
theorem inputMoved_reported {v v' : List ViewEntry} (h : v.Pairwise fun a b => a.station < b.station)
    (hm : InputMoved v v') : v.map reportKey ≠ v'.map reportKey := by
  obtain ⟨x, hx, y, hy, hs, hmoved⟩ := hm
  intro heq
  have hkey : reportKey y ∈ v.map reportKey := by
    rw [heq]
    exact List.mem_map_of_mem hy
  obtain ⟨x', hx', hk⟩ := List.mem_map.1 hkey
  simp only [reportKey, ReportKey.mk.injEq] at hk
  obtain ⟨hstation, hname, hceil, -, -⟩ := hk
  obtain rfl := eq_of_station h hx' hx (hstation.trans hs.symm)
  rcases hmoved with hn | ⟨-, hc⟩
  · exact hn hname
  · exact hc hceil

/-- A view that changed in an input of the plan is one to re-plan on (R125). -/
theorem inputMoved_changes {v v' : List ViewEntry} (h : v.Pairwise fun a b => a.station < b.station)
    (hm : InputMoved v v') : inputsChanged v v' = true := by
  obtain ⟨x, hx, y, hy, hs, hmoved⟩ := hm
  rcases hmoved with hn | ⟨hmem, hc⟩
  · have hclass : classChanged v v' = true := by
      simp only [classChanged, List.any_eq_true]
      exact ⟨y, hy, x, hx, by simp [hs, hn]⟩
    simp [inputsChanged, hclass]
  · have hinputs : planInputs v ≠ planInputs v' := fun heq => by
      have hin : (y.station, y.bogie, y.ceiling) ∈ planInputs v := by
        rw [heq]
        exact List.mem_filterMap.2 ⟨y, hy, by simp [hmem]⟩
      obtain ⟨x', hx', hk⟩ := List.mem_filterMap.1 hin
      split at hk
      · simp only [Option.some.injEq, Prod.mk.injEq] at hk
        obtain ⟨hstation, -, hceil⟩ := hk
        obtain rfl := eq_of_station h hx' hx (hstation.trans hs.symm)
        exact hc hceil
      · simp at hk
    simp [inputsChanged, hinputs]

/-! ## A CEILING heard -/

section Ceiling

variable {f : LinkFrame} {c : StoredCeiling} {s a : State} (h : HearsCeiling f c s a)
include h

theorem HearsCeiling.delivers : exec (.ceilingReceived f) s = .next (ruReport false (groupView s) a) := by
  obtain ⟨hf, hg, hread, -, ha⟩ := h
  have hdeliver : deliverCeiling f.station c s = ruReport false (groupView s) a := by
    rw [ha]
    rfl
  simp only [exec, execCeilingReceived, receive, hg, hf, hread, if_false, hdeliver]
  simp

theorem HearsCeiling.keeps : a.vc = s.vc ∧ a.fe = s.fe ∧ a.ru = s.ru ∧ a.pc = s.pc ∧ a.scu = s.scu ∧ a.ss = s.ss ∧
    a.lc = s.lc ∧ a.cp = s.cp ∧ a.out = s.out := by
  obtain ⟨-, -, -, -, rfl⟩ := h
  exact ⟨rfl, rfl, rfl, rfl, rfl, rfl, rfl, rfl, rfl⟩

theorem HearsCeiling.sorted : s.peers.Pairwise (fun a b => a.station < b.station) ∧
    a.peers.Pairwise (fun a b => a.station < b.station) := by
  obtain ⟨-, -, -, hpeers, rfl⟩ := h
  exact ⟨hpeers.1, putPeer_sorted _ _ hpeers.1⟩

/-- A CEILING leaves the bogie and the status of every entry (R109). -/
theorem HearsCeiling.same_state {x y : ViewEntry} (hx : x ∈ groupView s) (hy : y ∈ groupView a)
    (hs : x.station = y.station) : x.bogie = y.bogie ∧ x.status = y.status := by
  obtain ⟨e, he, hex⟩ := List.mem_filterMap.1 hx
  obtain ⟨e', he', hey⟩ := List.mem_filterMap.1 hy
  have hsort := h.sorted.1
  obtain ⟨hxs, -, p, hp, hxb, hxst⟩ := viewEntry_state hex
  obtain ⟨hys, -, p', hp', hyb, hyst⟩ := viewEntry_state hey
  have hstation : e.station = e'.station := by rw [← hxs, hs, hys]
  have htaken : ∀ g : PeerEntry, (takeCeilingFrame c g).st = g.st ∧ (takeCeilingFrame c g).station = g.station := fun g => by
    simp only [takeCeilingFrame, touchPeer]
    (repeat' split) <;> exact ⟨rfl, rfl⟩
  have hst : e'.st = e.st := by
    obtain ⟨-, -, -, -, rfl⟩ := h
    rcases mem_putPeer _ _ _ he' with rfl | hin
    · have hn : e.station = f.station := by rw [hstation, (htaken _).2, entryOf_station]
      rw [(htaken _).1, ← hn, entryOf_eq hsort he]
    · rw [peer_eq_of_station hsort he hin hstation]
  obtain rfl : p' = p := by rw [hst, hp] at hp'; exact (Option.some.inj hp').symm
  exact ⟨hxb.trans hyb.symm, hxst.trans hyst.symm⟩

/-- Where a CEILING changes nothing that is reported, it changes nothing that the findings read (R114, R131). -/
theorem HearsCeiling.unreported (hk : (groupView s).map reportKey = (groupView a).map reportKey) :
    exec (.ceilingReceived f) s = .next a := by
  have hcheck : (groupView s).map checkKey = (groupView a).map checkKey := by
    have hlen : (groupView s).length = (groupView a).length := by simpa using congrArg List.length hk
    refine List.ext_getElem (by simpa using hlen) fun i h1 h2 => ?_
    simp only [List.length_map] at h1 h2
    have hkey := List.getElem_of_eq hk (i := i) (by simpa using h1)
    simp only [List.getElem_map, reportKey, ReportKey.mk.injEq] at hkey ⊢
    obtain ⟨hstation, hname, -⟩ := hkey
    obtain ⟨hb, hst⟩ := h.same_state (List.getElem_mem h1) (List.getElem_mem h2) hstation
    have hmember : (groupView s)[i].cls = .member ↔ (groupView a)[i].cls = .member := by
      cases h3 : (groupView s)[i].cls <;> cases h4 : (groupView a)[i].cls <;> simp_all [PeerClass.name]
    simp only [checkKey, hmember, hstation, hb, hst]
  rw [h.delivers]
  simp [ruReport, hk, hcheck]

/-- Where a CEILING changes what is reported, the RU plans, and the start conditions are taken afresh (R114, R119, R125,
R132). -/
theorem HearsCeiling.reported (hk : (groupView s).map reportKey ≠ (groupView a).map reportKey) :
    exec (.ceilingReceived f) s = .next (settle (agree (ruPlans (groupView s) a))) := by
  rw [h.delivers]
  simp [ruReport, hk]

/-- An input of the plan moved: the RU re-plans (R125). -/
theorem HearsCeiling.replans (hm : InputMoved (groupView s) (groupView a)) (hp : planning s = true)
    (hplan : s.ru.plan.isSome = true) :
    exec (.ceilingReceived f) s = .next (settle (agree (handTargets (replan a)))) := by
  obtain ⟨hvc, -, hru, -⟩ := h.keeps
  obtain ⟨q, hq⟩ := Option.isSome_iff_exists.1 hplan
  have hpa : planning a = true := by simpa [planning, effState, hvc] using hp
  rw [h.reported (inputMoved_reported (groupView_sorted s h.sorted.1) hm)]
  simp [ruPlans, hpa, hru, hq, inputMoved_changes (groupView_sorted s h.sorted.1) hm]

end Ceiling

/-- The findings of a checked state are those it has (R132). -/
theorem agree_idem (s : State) : agree (agree s) = agree s := by
  by_cases h : effState s = .ready ∨ effState s = .cutting
  · have h' : effState (agree s) = .ready ∨ effState (agree s) = .cutting := by simpa [effState] using h
    have hview : groupView (agree s) = groupView s := by simp [groupView]
    rw [agree, if_pos h', hview, (agree_plan s).1]
    simp only [agree, h, if_true]
    rfl
  · rw [agree_elsewhere s (fun e => h (.inl e)) (fun e => h (.inr e)), agree_elsewhere s (fun e => h (.inl e))
      (fun e => h (.inr e))]

/-! ## A STATE heard -/

/-- An entry put in the place of one that is seen the same changes nothing that is read of the view. -/
theorem map_view_putPeer {β : Type} (g : ViewEntry → β) (car : Fin 16) {e e' : PeerEntry} {x y : ViewEntry}
    {t : List PeerEntry} (h : t.Pairwise fun a b => a.station < b.station) (he : e ∈ t) (hs : e'.station = e.station)
    (hx : viewEntry car e = some x) (hy : viewEntry car e' = some y) (hg : g x = g y) :
    (t.filterMap (viewEntry car)).map g = ((putPeer e' t).filterMap (viewEntry car)).map g := by
  induction t with
  | nil => simp at he
  | cons z t ih =>
    obtain ⟨hz, ht⟩ := List.pairwise_cons.1 h
    unfold putPeer
    rcases List.mem_cons.1 he with rfl | hin
    · rw [if_neg (by simp [hs]), if_pos hs.symm]
      simp [hx, hy, hg]
    · rw [if_pos (by rw [hs]; exact hz e hin)]
      cases hv : viewEntry car z <;> simp [hv, ih ht hin]

section StateFrame

variable {f : LinkFrame} {p : PeerState} {s a : State} (h : HearsState f p s a)
include h

theorem HearsState.delivers : exec (.stateReceived f) s = .next (ruReport false (groupView s) a) := by
  obtain ⟨hf, hg, hread, -, hdigest, hrestart, hheld, ha⟩ := h
  have hdeliver : deliverState f.station p s = ruReport false (groupView s) a := by
    have hs1 : s.onPeers (putPeer (takeState p (entryOf f.station s))) = a := by rw [ha]; rfl
    have hmis : mismatchLatches p (entryOf f.station s) = false := by simp [mismatchLatches, hdigest]
    have hclaims : a.scu.claims.any (fun c => c.station == f.station) = p.slotHeld := by rw [ha]; exact hheld.symm
    have hclaim : (if p.slotHeld then appendHeldClaim f.station a else removePeerClaim f.station a) = a := by
      cases hh : p.slotHeld <;> simp [appendHeldClaim, removePeerClaim, hclaims, hh]
    simp only [deliverState, hs1, hmis, hrestart, Bool.false_eq_true, if_false, hclaim]
  simp only [exec, execStateReceived, receive, hg, hf, hread, if_false, hdeliver]
  simp

/-- The entry of the sender, before and after its STATE (R107). -/
theorem HearsState.entries {x y : ViewEntry} (hx : x ∈ groupView s) (hy : y ∈ groupView a) (hxs : x.station = f.station)
    (hys : y.station = f.station) : ∃ e ∈ s.peers, viewEntry s.ss.straps.car e = some x ∧
      viewEntry s.ss.straps.car (takeState p e) = some y ∧ (takeState p e).station = e.station ∧ x.stored = y.stored ∧
      a.peers = putPeer (takeState p e) s.peers := by
  obtain ⟨-, -, -, hpeers, -, hrestart, -, rfl⟩ := h
  obtain ⟨e, he, hex⟩ := List.mem_filterMap.1 hx
  obtain ⟨e', he', hey⟩ := List.mem_filterMap.1 hy
  obtain ⟨hstx, hstored, -⟩ := viewEntry_state hex
  obtain ⟨hsty, hstored', -⟩ := viewEntry_state hey
  have hn : e.station = f.station := hstx.symm.trans hxs
  have hentry : entryOf f.station s = e := by rw [← hn]; exact entryOf_eq hpeers.1 he
  rw [hentry] at hrestart he' ⊢
  have htouch : restartFound (touchPeer e) p.annCeiling = false := hrestart
  have htaken : (takeState p e).station = e.station ∧ (takeState p e).ceiling = e.ceiling := by
    simp only [takeState, htouch, Bool.false_eq_true, if_false]
    (repeat' split) <;> exact ⟨rfl, rfl⟩
  have hin : takeState p e ∈ putPeer (takeState p e) s.peers :=
    List.mem_of_find?_eq_some (findPeer_putPeer_same (takeState p e) s.peers)
  obtain rfl := peer_eq_of_station (putPeer_sorted _ _ hpeers.1) he' hin (by rw [← hsty, hys, htaken.1, hn])
  exact ⟨e, he, hex, hey, htaken.1, by rw [hstored, hstored', htaken.2], rfl⟩

/-- A STATE that changes of a member its status or its bogie alone plans nothing: the findings are kept current where
what they read has changed (R131, R132). -/
theorem HearsState.findings {x y : ViewEntry} (hx : x ∈ groupView s) (hy : y ∈ groupView a) (hxs : x.station = f.station)
    (hys : y.station = f.station) (hkey : x.cls = y.cls ∧ x.ceiling = y.ceiling ∧ x.intent = y.intent) :
    exec (.stateReceived f) s = .next (if checkKey x = checkKey y then a else settle (agree a)) := by
  obtain ⟨hcls, hceil, hintent⟩ := hkey
  obtain ⟨e, he, hex, hey, hs, hstored, hpeers⟩ := h.entries hx hy hxs hys
  have hsort : s.peers.Pairwise fun a b => a.station < b.station := by
    obtain ⟨-, -, -, hp, -⟩ := h
    exact hp.1
  have hview : groupView a = (putPeer (takeState p e) s.peers).filterMap (viewEntry s.ss.straps.car) := by
    have hss : a.ss = s.ss := by
      obtain ⟨-, -, -, -, -, -, -, rfl⟩ := h
      rfl
    rw [groupView, hpeers, hss]
  have hmap : ∀ {β : Type} (g : ViewEntry → β), g x = g y → (groupView s).map g = (groupView a).map g := fun g hg => by
    rw [hview]
    exact map_view_putPeer g _ hsort he hs hex hey hg
  have hreport : (groupView s).map reportKey = (groupView a).map reportKey :=
    hmap reportKey (by simp [reportKey, hxs, hys, hcls, hceil, hstored, hintent])
  rw [h.delivers]
  by_cases hc : checkKey x = checkKey y
  · simp [ruReport, hreport, hmap checkKey hc, hc]
  · have hne : (groupView s).map checkKey ≠ (groupView a).map checkKey := fun heq => by
      obtain ⟨x', hx', hkey⟩ := List.mem_map.1 (heq ▸ List.mem_map_of_mem hy : checkKey y ∈ (groupView s).map checkKey)
      by_cases hm : y.cls = .member
      · have hst : x'.station = y.station := by
          simp only [checkKey, hm, if_true] at hkey
          split at hkey
          · exact congrArg Prod.fst (Option.some.inj hkey)
          · simp at hkey
        obtain rfl := eq_of_station (groupView_sorted s hsort) hx' hx (by rw [hst, hys, hxs])
        exact hc hkey
      · exact hc (by simp [checkKey, hcls, hm])
    simp [ruReport, hreport, hne, hc]

end StateFrame

/-! ## The obligation -/

/-- Targets lowered or moved while a pass is ACTIVE: a build is owed (R126, R142). -/
theorem handTargets_active (x : State) (h : x.vc.state = .cutting) (ha : (activePass x).isSome = true) :
    handTargets (x, true) = { x with pc := { x.pc with rebuildOwed := true } } := by
  have heff : effState x = .cutting := by simp [effState, h]
  simp [handTargets, targetsChanged, heff, h, ha, State.onPC]

theorem even_min {x y : Int} (hx : x % 2 = 0) (hy : y % 2 = 0) : min x y % 2 = 0 := by
  rcases min_choice x y with h | h <;> rw [h] <;> assumption

/-- The minima, the terms, the cap and the targets (R120, R121). -/
theorem computePlan_spec (c : Settings) (b : Fin 4) (own : LR Int) (v : List ViewEntry) :
    let p := computePlan c b own v
    let least := fun (x : Int) (among : ViewEntry → Prop) =>
      x ≤ own.l ∧ x ≤ own.r ∧
      (∀ e ∈ v, ∀ y, e.cls = .member → among e → e.ceiling = some y → x ≤ y.l ∧ x ≤ y.r) ∧
      (x = own.l ∨ x = own.r ∨ ∃ e ∈ v, ∃ y, e.cls = .member ∧ among e ∧ e.ceiling = some y ∧ (x = y.l ∨ x = y.r))
    least p.minBogie (fun e => e.bogie = b) ∧ least p.minCar (fun _ => True) ∧ p.minBogie ≤ p.minAxle ∧
    p.minCar ≤ p.minBogie ∧
    (own.l % 2 = 0 → own.r % 2 = 0 → c.tolAxle % 2 = 0 → c.tolBogie % 2 = 0 → c.tolCar % 2 = 0 →
      (∀ e ∈ v, ∀ x, e.ceiling = some x → x.l % 2 = 0 ∧ x.r % 2 = 0) →
      p.cap % 2 = 0 ∧ p.target.l % 2 = 0 ∧ p.target.r % 2 = 0) := by
  intro p least
  have hbogie := leastOf_members own v (fun e => e.bogie == b) (fun e => e.bogie = b) (by simp)
  have hcar := leastOf_members own v (fun _ => true) (fun _ => True) (by simp)
  have heven : ∀ x among, least x among → own.l % 2 = 0 → own.r % 2 = 0 →
      (∀ e ∈ v, ∀ x, e.ceiling = some x → x.l % 2 = 0 ∧ x.r % 2 = 0) → x % 2 = 0 := by
    rintro x among ⟨-, -, -, hatt⟩ hl hr hall
    rcases hatt with rfl | rfl | ⟨e, he, y, -, -, hy, rfl | rfl⟩
    · exact hl
    · exact hr
    · exact (hall e he y hy).1
    · exact (hall e he y hy).2
  refine ⟨hbogie, hcar, le_min hbogie.1 hbogie.2.1, ?_, fun hl hr ha hb hc hall => ?_⟩
  · obtain ⟨-, -, -, hatt⟩ := hbogie
    obtain ⟨hcl, hcr, hcall, -⟩ := hcar
    rcases hatt with hx | hx | ⟨e, he, y, h1, -, h3, hx | hx⟩
    · exact hcl.trans (le_of_eq hx.symm)
    · exact hcr.trans (le_of_eq hx.symm)
    · exact (hcall e he y h1 trivial h3).1.trans (le_of_eq hx.symm)
    · exact (hcall e he y h1 trivial h3).2.trans (le_of_eq hx.symm)
  · have hadd : ∀ (x : Int) (t : Nat), x % 2 = 0 → t % 2 = 0 → (x + (t : Int)) % 2 = 0 := fun x t hx ht => by omega
    have hcap : p.cap % 2 = 0 := even_min (hadd _ _ (even_min hl hr) ha)
      (even_min (hadd _ _ (heven _ _ hbogie hl hr hall) hb) (hadd _ _ (heven _ _ hcar hl hr hall) hc))
    exact ⟨hcap, even_min hl hcap, even_min hr hcap⟩

/-- The class of an own-car entry, by the first row of R113 that applies. -/
theorem peerClass_spec (p : PeerState) (e : PeerEntry) (hst : e.st = some p) :
    let out := p.status = .idle ∨ p.status = .invalid ∨ p.status = .condemned ∨ p.status = .excluded
    let measures := p.status = .measuring ∨ p.status = .unmeasured
    let current := ∃ c, e.ceiling = some c ∧ (c.status = .normal ∨ c.status = .passive) ∧ c.value.isSome ∧
      ¬(p.annCeiling ≠ 0 ∧ seqNewer p.annCeiling c.seq = true)
    let c := peerClass p e
    let heard := ¬out ∧ ¬measures ∧ e.freshness = .fresh
    (out → c = .notMember) ∧ (¬out → measures → c = .pending .measuring) ∧
    (¬out → ¬measures → e.freshness = .stale → c = .pending .stale) ∧
    (¬out → ¬measures → e.freshness = .restarted → c = .pending .restarted) ∧
    (heard → p.digestMatch = false → c = .pending .digest) ∧
    (heard → p.digestMatch = true → ¬current → c = .pending .noCeiling) ∧
    (heard → p.digestMatch = true → current → c = .member) := by
  intro out measures current c heard
  have hout : isOutStatus p.status = true ↔ out := by cases h : p.status <;> simp [isOutStatus, out, h]
  have hmeasures : isMeasureStatus p.status = true ↔ measures := by
    cases h : p.status <;> simp [isMeasureStatus, measures, h]
  have hcurrent := currentCeiling_isSome p e hst
  have hnone : (currentCeiling e).isNone = true ↔ ¬current := by
    rw [← Option.not_isSome, Bool.not_eq_true', ← Bool.not_eq_true]
    exact not_congr hcurrent
  refine ⟨fun h => ?_, fun h1 h2 => ?_, fun h1 h2 h3 => ?_, fun h1 h2 h3 => ?_, fun ⟨h1, h2, h3⟩ h4 => ?_,
    fun ⟨h1, h2, h3⟩ h4 h5 => ?_, fun ⟨h1, h2, h3⟩ h4 h5 => ?_⟩
  · simp [c, peerClass, hout, h]
  · simp [c, peerClass, hout, hmeasures, h1, h2]
  · simp [c, peerClass, hout, hmeasures, h1, h2, h3]
  · simp [c, peerClass, hout, hmeasures, h1, h2, h3]
  · simp [c, peerClass, hout, hmeasures, h1, h2, h3, h4]
  · simp only [c, peerClass, hout, hmeasures, h1, h2, h3, h4, hnone, h5, if_false]
    simp
  · simp only [c, peerClass, hout, hmeasures, h1, h2, h3, h4, hnone, h5, if_false]
    simp

/-- The agreement findings in READY and in CUTTING (R130 to R132). -/
theorem agree_spec (s : State) (heff : effState s = .ready ∨ effState s = .cutting) : agree s = { s with ru := { s.ru with
    violation := (match s.ru.plan with
      | some p => (groupView s).any (memberOut (conf s) s.ss.straps.bogie p.target)
      | none => false)
    awaited := ((groupView s).filter isAwaited).map (·.station) } } := by
  rw [agree, if_pos heff]
  rfl

/-- Settles O21. -/
theorem targetsFromCeilings : Obligations.TargetsFromCeilings := by
  unfold Obligations.TargetsFromCeilings
  refine ⟨fun c b own v => ?_, peerClass_spec, fun s => ?_, fun f c s a own hh => ?_, fun f p s a x y hh => ?_⟩
  · obtain ⟨hb, hc, hba, hcb, heven⟩ := computePlan_spec c b own v
    exact ⟨rfl, hb, hc, hba, hcb, rfl, rfl, rfl, rfl, rfl, min_le_left _ _, min_le_left _ _, heven⟩
  · intro aborts awaited far heff
    have hspec := agree_spec s heff
    refine ⟨by rw [hspec], ?_, fun n => ?_, fun hpeers => ?_⟩
    · rw [hspec]
      rcases hp : s.ru.plan with _ | p
      · simp
      · simp only [List.any_eq_true, memberOut_iff, pairOut_iff, isAwaited_iff, beq_iff_eq, Option.some.injEq,
          exists_eq_left']
        rfl
    · rw [hspec]
      simp only [List.mem_map, List.mem_filter, isAwaited_iff]
      exact ⟨fun ⟨e, ⟨he, ha⟩, hn⟩ => ⟨e, he, hn, ha⟩, fun ⟨e, he, hn, ha⟩ => ⟨e, ⟨he, ha⟩, hn⟩⟩
    · rw [hspec]
      exact List.pairwise_map.2 ((groupView_sorted s hpeers.1).filter _)
  · intro runs v p told
    obtain ⟨hvc, hfe, hru, hpc, -, hss, -⟩ := hh.keeps
    have hconf : conf a = conf s := by simp [conf, hss]
    refine ⟨fun hk => hh.unreported (not_not.1 hk), fun hst hnone hk hp => ⟨_, hh.reported hk, ?_⟩,
      fun sf h1 h2 hst hnone hk hp hsf => ?_, fun q h1 h2 hq hmoved hst => ?_⟩
    · have heff : effState a = .reconciling := by simp [effState, hvc, hst]
      have hplans : ruPlans (groupView s) a = a := by
        simp [ruPlans, planning, heff, isPlanning, hru, hnone, firstPlan_waits a hp]
      rw [hplans, agree_elsewhere a (by rw [heff]; decide) (by rw [heff]; decide)]
      exact settle_settled a
    · have heff : effState a = .reconciling := by simp [effState, hvc, hst]
      have hplans : ruPlans (groupView s) a = firstPlan a := by simp [ruPlans, planning, heff, isPlanning, hru, hnone]
      intro b x
      have hfirst := firstPlan_ready own sf a (by rw [hvc]; exact hst) (by rw [hfe]; exact h1) (by rw [hfe]; exact h2)
        (by rw [hfe]; exact hsf) hp p (by rw [hconf, hss]) x rfl
      rw [hvc, hpc, hfe, hconf] at hfirst
      refine ⟨_, hh.reported hk, ?_⟩
      rw [hplans, hfirst, agree_idem]
      exact settle_settled _
    · intro lowered
      have hstart : a.vc.state ≠ .start := by rw [hvc]; rcases hst with h | h | h <;> simp [h]
      have hplanning : planning s = true := by rcases hst with h | h | h <;> simp [planning, effState, h, isPlanning]
      have hrun := hh.replans hmoved hplanning (by rw [hq]; rfl)
      have hqa : a.ru.plan = some q := by rw [hru]; exact hq
      have hown : ownCeilings a = some own := ownCeilings_normal own a (by rw [hfe]; exact h1) (by rw [hfe]; exact h2)
      have hpend := replan_pending q own a hstart hqa hown
      have hfresh := replan_fresh q own a hstart hqa hown
      rw [hconf, hss] at hfresh
      refine ⟨fun hp ht => ?_, fun hp ht => ?_, fun hp ht hcut hact => ?_, fun hp ht hcut hact => ?_⟩
      · rw [hpend hp, show decide (q.target ≠ lowered.target) = false by simp [ht]] at hrun
        exact ⟨_, hrun, settle_settled _⟩
      · rw [hfresh hp, show decide (q.target ≠ p.target) = false by simp [ht]] at hrun
        exact ⟨_, hrun, settle_settled _⟩
      · have hcuta : a.vc.state = .cutting := by rw [hvc]; exact hcut
        have hacta : (activePass a).isSome = true := by simpa [activePass, hpc] using hact
        rw [hfresh hp, show decide (q.target ≠ p.target) = true by simpa using Ne.symm ht,
          handTargets_active _ (by simpa using hcuta) (by simpa [activePass] using hacta)] at hrun
        intro x
        have hxpc : x.pc = s.pc := by simp [x, hpc]
        rw [← hxpc]
        exact ⟨_, hrun, settle_settled _⟩
      · have hcuta : a.vc.state = .cutting := by rw [hvc]; exact hcut
        have hacta : (activePass a).isSome = true := by simpa [activePass, hpc] using hact
        rw [hpend hp, show decide (q.target ≠ lowered.target) = true by simpa using Ne.symm ht,
          handTargets_active _ (by simpa using hcuta) (by simpa [activePass] using hacta)] at hrun
        intro x
        have hxpc : x.pc = s.pc := by simp [x, hpc]
        rw [← hxpc]
        exact ⟨_, hrun, settle_settled _⟩
  · intro aborts hx hy hxs hys hxm hym hceil hintent
    have hfound := hh.findings hx hy hxs hys ⟨hxm.trans hym.symm, hceil, hintent⟩
    have hkey : checkKey x = checkKey y ↔ x.bogie = y.bogie ∧ (aborts x ↔ aborts y) := by
      have hiff : isAbortStatus x.status = isAbortStatus y.status ↔ (aborts x ↔ aborts y) := by
        rw [Bool.eq_iff_iff, isAbortStatus_iff, isAbortStatus_iff]
      simp [checkKey, hxm, hym, hxs, hys, hiff]
    refine ⟨fun hab => ?_, fun hab hbogie => ?_⟩
    · rw [hfound, if_neg (fun e => by have := (hkey.1 e).2; tauto)]
      exact ⟨_, rfl, settle_settled _⟩
    · rw [hfound, if_pos (hkey.2 ⟨hbogie, hab⟩)]

end Sys2Proof.Machine
end

