-- ==== Sys2Proof/Proofs/PassQueues.lean ====
section
/-! PROOFS. The passes of a build: numbers, kinds, depths and expected diameters, and what they add up to (R139 to R141). -/

namespace Sys2Proof.Machine

open Sys2Proof

/-! ## The number of ROUGH passes and their depths -/

/-- The fewest passes of at most p_r that take a rough depth off (R140). -/
theorem roughCount_spec (c : Settings) (r : LR Nat) (h : 0 < c.rough) :
    max r.l r.r ≤ roughCount c r * c.rough ∧ roughCount c r * c.rough < max r.l r.r + c.rough := by
  have hdiv := Nat.div_add_mod (max r.l r.r + c.rough - 1) c.rough
  have hmod := Nat.mod_lt (max r.l r.r + c.rough - 1) h
  have hcount : c.rough * ((max r.l r.r + c.rough - 1) / c.rough) = roughCount c r * c.rough := Nat.mul_comm _ _
  rw [hcount] at hdiv
  generalize max r.l r.r = m at *
  omega

/-- Each ROUGH pass stays within p_r (R140). -/
theorem roughDepth_le (x n i p : Nat) (h : x ≤ n * p) : roughDepth x n i ≤ p := by
  have hdiv := Nat.div_add_mod x n
  unfold roughDepth
  rcases Nat.eq_zero_or_pos (x % n) with h0 | h0
  · have : x / n ≤ p := Nat.div_le_of_le_mul h
    simpa [h0] using this
  · have hlt : n * (x / n) < n * p := by omega
    have := Nat.lt_of_mul_lt_mul_left hlt
    split <;> omega

/-- A ROUGH pass takes something off where the rough depth is at least the number of passes (R140). -/
theorem roughDepth_pos (x n i : Nat) (hn : 0 < n) (h : n ≤ x) : 0 < roughDepth x n i := by
  have : 0 < x / n := Nat.div_pos h hn
  unfold roughDepth
  omega

/-! ## The passes of a build -/

theorem splitPasses_length (r fin : LR Nat) (n base left i : Nat) (before : LR Int) :
    (splitPasses r fin n base left i before).length = left + 1 := by
  induction left generalizing i before with
  | zero => rfl
  | succ left ih => simp [splitPasses, ih]

/-- Number, kind, state and depth of each pass (R140, R141). -/
theorem splitPasses_record (r fin : LR Nat) (n base left i : Nat) (before : LR Int) (j : Nat)
    (hj : j < (splitPasses r fin n base left i before).length) :
    let p := (splitPasses r fin n base left i before)[j]
    p.number = base + (i + j) + 1 ∧ p.kind = (if j < left then .rough else .finish) ∧ p.state = .queued ∧
    p.depth = if j < left then r.map fun x => roughDepth x n (i + j) else fin := by
  induction left generalizing i before j with
  | zero =>
    have hj0 : j = 0 := by simpa [splitPasses] using hj
    subst hj0
    simp [splitPasses, queuedPass]
  | succ left ih =>
    cases j with
    | zero => simp [splitPasses, queuedPass]
    | succ j =>
      have hlen : j < (splitPasses r fin n base left (i + 1)
          (queuedPass (base + i + 1) .rough (r.map fun x => roughDepth x n i) before).expected).length := by
        simpa [splitPasses] using hj
      have h := ih (i + 1) _ j hlen
      have hij : i + 1 + j = i + (j + 1) := by omega
      rw [hij] at h
      simpa [splitPasses] using h

theorem queuedPass_expected (number : Nat) (kind : PassKind) (depth : LR Nat) (before : LR Int) (w : Wheel) :
    (queuedPass number kind depth before).expected.get w = before.get w - 2 * (depth.get w : Int) := by
  cases w <;> rfl

/-- Each expected diameter is the one before it, the surface for the first, less twice the depth (R140). -/
theorem splitPasses_expected (r fin : LR Nat) (n base left i : Nat) (before : LR Int) (w : Wheel) (j : Nat)
    (hj : j < (splitPasses r fin n base left i before).length) :
    (splitPasses r fin n base left i before)[j].expected.get w =
      (if j = 0 then before.get w
        else (((splitPasses r fin n base left i before)[j - 1]?).map fun p => p.expected.get w).getD 0) -
      2 * ((splitPasses r fin n base left i before)[j].depth.get w : Int) := by
  induction left generalizing i before j with
  | zero =>
    have hj0 : j = 0 := by simpa [splitPasses] using hj
    subst hj0
    exact queuedPass_expected _ _ _ _ w
  | succ left ih =>
    cases j with
    | zero => exact queuedPass_expected _ _ _ _ w
    | succ j =>
      have hlen : j < (splitPasses r fin n base left (i + 1)
          (queuedPass (base + i + 1) .rough (r.map fun x => roughDepth x n i) before).expected).length := by
        simpa [splitPasses] using hj
      have h := ih (i + 1) _ j hlen
      simp only [splitPasses, List.getElem_cons_succ]
      rw [h]
      cases j with
      | zero => simp
      | succ j => simp

/-- The last expected diameter is the surface less twice all depths (R140). -/
theorem splitPasses_getLast (r fin : LR Nat) (n base left i : Nat) (before : LR Int) (w : Wheel) (p : Pass)
    (hp : (splitPasses r fin n base left i before).getLast? = some p) :
    p.expected.get w =
      before.get w - 2 * ((splitPasses r fin n base left i before).map fun p => (p.depth.get w : Int)).sum := by
  induction left generalizing i before with
  | zero =>
    obtain rfl : queuedPass (base + i + 1) .finish fin before = p := by simpa [splitPasses] using hp
    rw [queuedPass_expected]
    simp [splitPasses, queuedPass]
  | succ left ih =>
    have hne : splitPasses r fin n base left (i + 1)
        (queuedPass (base + i + 1) .rough (r.map fun x => roughDepth x n i) before).expected ≠ [] := by
      rw [← List.length_pos_iff_ne_nil, splitPasses_length]
      omega
    simp only [splitPasses, List.getLast?_cons_of_ne_nil hne] at hp
    have h := ih (i + 1) _ hp
    rw [h, queuedPass_expected]
    simp only [splitPasses, List.map_cons, List.sum_cons]
    have hd : (queuedPass (base + i + 1) .rough (r.map fun x => roughDepth x n i) before).depth =
      r.map fun x => roughDepth x n i := rfl
    rw [hd]
    ring

/-- The depths from one ROUGH pass on, with those before it, make the whole (R140). -/
theorem splitPasses_sum (r fin : LR Nat) (n base left i : Nat) (before : LR Int) (w : Wheel) (hn : 0 < n)
    (hi : i + left = n) :
    ((splitPasses r fin n base left i before).map fun p => p.depth.get w).sum + i * (r.get w / n) +
      min i (r.get w % n) = r.get w + fin.get w := by
  have hget : ∀ k, (r.map fun x => roughDepth x n k).get w = roughDepth (r.get w) n k := fun k => by cases w <;> rfl
  induction left generalizing i before with
  | zero =>
    have hdiv := Nat.div_add_mod (r.get w) n
    have hmod := Nat.mod_lt (r.get w) hn
    have hin : i = n := by omega
    subst hin
    simp only [splitPasses, queuedPass, List.map_cons, List.map_nil, List.sum_cons, List.sum_nil]
    rw [min_eq_right hmod.le]
    omega
  | succ left ih =>
    have h := ih (i + 1) (queuedPass (base + i + 1) .rough (r.map fun x => roughDepth x n i) before).expected (by omega)
    have hmin : min (i + 1) (r.get w % n) = min i (r.get w % n) + if i < r.get w % n then 1 else 0 := by
      split <;> omega
    rw [hmin, Nat.add_mul] at h
    simp only [splitPasses, List.map_cons, List.sum_cons]
    rw [show (queuedPass (base + i + 1) .rough (r.map fun x => roughDepth x n i) before).depth.get w =
      r.get w / n + if i < r.get w % n then 1 else 0 from hget i]
    omega

/-! ## A build -/

/-- The wheel by wheel records of a build (R139, R140). -/
theorem LR.get_zip {α β γ : Type} (f : α → β → γ) (a : LR α) (b : LR β) (w : Wheel) :
    (LR.zip f a b).get w = f (a.get w) (b.get w) := by cases w <;> rfl

theorem LR.get_map {α β : Type} (f : α → β) (a : LR α) (w : Wheel) : (a.map f).get w = f (a.get w) := by cases w <;> rfl

theorem LR.ext_get {α : Type} {a b : LR α} (h : ∀ w, a.get w = b.get w) : a = b := by
  have hl := h .l
  have hr := h .r
  cases a
  cases b
  simp_all [LR.get]

/-- The passes of a made build: kinds, numbers, depths and diameters, and their sums (R139 to R141). -/
theorem splitPasses_spec (c : Settings) (base : Nat) (sf : LR Int) (r fin : LR Nat) (hrough : 0 < c.rough) :
    let n := roughCount c r
    let q := splitPasses r fin n base n 0 sf
    q.length = n + 1 ∧ (∀ p ∈ q, p.state = .queued) ∧
    (∀ i (h : i < q.length), (q[i]).number = base + i + 1 ∧ (q[i]).kind = (if i < n then .rough else .finish)) ∧
    (∀ w : Wheel,
      (∀ i (h : i < q.length),
        (q[i]).depth.get w = (if i < n then roughDepth (r.get w) n i else fin.get w)) ∧
      (q.map fun p => p.depth.get w).sum = r.get w + fin.get w) ∧
    ∀ p ∈ q.dropLast, p.depth.l ≤ c.rough ∧ p.depth.r ≤ c.rough ∧ 0 < max p.depth.l p.depth.r := by
  intro n q
  obtain ⟨hle, hlt⟩ := roughCount_spec c r hrough
  have hlen : q.length = n + 1 := splitPasses_length r fin n base n 0 sf
  have hrec := splitPasses_record r fin n base n 0 sf
  have hdepth : ∀ i (h : i < q.length) (w : Wheel),
      (q[i]).depth.get w = (if i < n then roughDepth (r.get w) n i else fin.get w) := fun i h w => by
    obtain ⟨-, -, -, hd⟩ := hrec i h
    rw [hd, Nat.zero_add]
    split
    · rw [LR.get_map]
    · rfl
  refine ⟨hlen, fun p hp => ?_, fun i h => ?_, fun w => ⟨fun i h => hdepth i h w, ?_⟩, fun p hp => ?_⟩
  · obtain ⟨i, hi, rfl⟩ := List.getElem_of_mem hp
    exact (hrec i hi).2.2.1
  · obtain ⟨hnum, hkind, -, -⟩ := hrec i h
    exact ⟨by rw [hnum, Nat.zero_add], hkind⟩
  · rcases Nat.eq_zero_or_pos n with hn | hn
    · have hzero : max r.l r.r ≤ 0 := by simpa [n, hn] using (show max r.l r.r ≤ n * c.rough from hle)
      have hw : r.get w = 0 := by
        cases w
        · exact Nat.le_zero.1 ((le_max_left _ _).trans hzero)
        · exact Nat.le_zero.1 ((le_max_right _ _).trans hzero)
      simp [q, hn, splitPasses, queuedPass, hw]
    · have hsum := splitPasses_sum r fin n base n 0 sf w hn (by omega)
      simpa using hsum
  · obtain ⟨i, hi, rfl⟩ := List.getElem_of_mem hp
    have hin : i < n := by simpa [hlen] using hi
    have hn : 0 < n := by omega
    have hmost : n ≤ max r.l r.r := by
      have hpred : (n - 1) * c.rough + c.rough = n * c.rough := by
        rw [← Nat.succ_mul, Nat.succ_eq_add_one, Nat.sub_add_cancel hn]
      have hge : n - 1 ≤ (n - 1) * c.rough := Nat.le_mul_of_pos_right _ hrough
      have hlt' : n * c.rough < max r.l r.r + c.rough := hlt
      omega
    rw [List.getElem_dropLast]
    have hl := hdepth i (by omega) .l
    have hr := hdepth i (by omega) .r
    rw [if_pos hin] at hl hr
    have hwl : r.l ≤ n * c.rough := (le_max_left _ _).trans hle
    have hwr : r.r ≤ n * c.rough := (le_max_right _ _).trans hle
    refine ⟨hl.trans_le (roughDepth_le _ _ _ _ hwl), hr.trans_le (roughDepth_le _ _ _ _ hwr), ?_⟩
    rcases le_total r.l r.r with h | h
    · exact lt_max_of_lt_right ((roughDepth_pos r.r n i hn (by rwa [max_eq_right h] at hmost)).trans_eq hr.symm)
    · exact lt_max_of_lt_left ((roughDepth_pos r.l n i hn (by rwa [max_eq_left h] at hmost)).trans_eq hl.symm)

/-- A queue that is built adds up to its targets (R139 to R141). -/
theorem buildFrom_addsUp (c : Settings) (fd inCut : Bool) (done : Nat) (sf tg : LR Int) (hrough : 0 < c.rough) :
    let total := fun (w : Wheel) =>
      let h := ((sf.get w - tg.get w) / 2).toNat
      if fd then (if h = 0 then 0 else max h c.minRecut) else h
    let last := fun (w : Wheel) => min c.finish (total w)
    let rest := fun (w : Wheel) => total w - last w
    let most := max (rest .l) (rest .r)
    let b := buildFrom c fd inCut done sf tg
    (b = .empty ↔ total .l = 0 ∧ total .r = 0) ∧ b ≠ .notMade ∧
    (∀ n, b = .deep n → most ≤ n * c.rough ∧ n * c.rough < most + c.rough ∧ 8 < (if inCut then done else 0) + n + 1) ∧
    ∀ q fin, b = .made q fin →
      let n := q.length - 1
      q ≠ [] ∧ most ≤ n * c.rough ∧ n * c.rough < most + c.rough ∧ (∀ p ∈ q, p.state = .queued) ∧
      (∀ i (h : i < q.length), (q[i]).number = (if inCut then done else 0) + i + 1 ∧ (q[i]).number ≤ 8 ∧
        (q[i]).kind = (if i < n then .rough else .finish)) ∧
      (∀ w : Wheel,
        (∀ i (h : i < q.length),
          (q[i]).depth.get w = (if i < n then rest w / n + (if i < rest w % n then 1 else 0) else last w) ∧
          (q[i]).expected.get w =
            (if i = 0 then sf.get w else ((q[i - 1]?).map fun p => p.expected.get w).getD 0) - 2 * ((q[i]).depth.get w)) ∧
        (q.map fun p => p.depth.get w).sum = total w ∧
        fin.get w = sf.get w - 2 * ((q.map fun p => (p.depth.get w : Int)).sum)) ∧
      (∀ p, q.getLast? = some p → p.expected = fin) ∧
      ∀ p ∈ q.dropLast, p.depth.l ≤ c.rough ∧ p.depth.r ≤ c.rough ∧ 0 < max p.depth.l p.depth.r := by
  intro total last rest most b
  obtain ⟨T, hT⟩ : ∃ T, T = LR.zip (totalDepth fd c.minRecut) sf tg := ⟨_, rfl⟩
  obtain ⟨F, hF⟩ : ∃ F, F = T.map (min c.finish) := ⟨_, rfl⟩
  obtain ⟨R, hR⟩ : ∃ R : LR Nat, R = LR.zip (· - ·) T F := ⟨_, rfl⟩
  obtain ⟨base, hbase⟩ : ∃ base, base = if inCut then done else 0 := ⟨_, rfl⟩
  have hb : b = if T.l = 0 ∧ T.r = 0 then .empty else if 8 < base + roughCount c R + 1 then .deep (roughCount c R)
      else .made (splitPasses R F (roughCount c R) base (roughCount c R) 0 sf)
        (LR.zip (fun x (d : Nat) => x - 2 * (d : Int)) sf T) := by
    rw [hR, hF, hT, hbase]
    rfl
  have htotal : ∀ w, total w = T.get w := fun w => by rw [hT]; cases w <;> rfl
  have hlast : ∀ w, last w = F.get w := fun w => by rw [hF, hT]; cases w <;> rfl
  have hrest : ∀ w, rest w = R.get w := fun w => by rw [hR, hF, hT]; cases w <;> rfl
  have hmost : most = max R.l R.r := by simp only [most, hrest]; rfl
  obtain ⟨hle, hlt⟩ := roughCount_spec c R hrough
  obtain ⟨hlen, hqueued, hrec, hwheel, hpasses⟩ := splitPasses_spec c base sf R F hrough
  have hexpected := fun w => splitPasses_expected R F (roughCount c R) base (roughCount c R) 0 sf w
  have hend := fun w p => splitPasses_getLast R F (roughCount c R) base (roughCount c R) 0 sf w p
  have hparts : ∀ w, R.get w + F.get w = T.get w := fun w => by
    rw [← hlast, ← hrest, ← htotal]
    exact Nat.sub_add_cancel (min_le_right _ _)
  rw [hmost, ← hbase]
  generalize hq : splitPasses R F (roughCount c R) base (roughCount c R) 0 sf = q at *
  generalize roughCount c R = n at *
  have hfin : ∀ w, (LR.zip (fun x (d : Nat) => x - 2 * (d : Int)) sf T).get w =
      sf.get w - 2 * (q.map fun p => (p.depth.get w : Int)).sum := fun w => by
    have hsum : (q.map fun p => (p.depth.get w : Int)).sum = (T.get w : Int) := by
      rw [← hparts w, ← (hwheel w).2, Nat.cast_list_sum, List.map_map]
      rfl
    rw [LR.get_zip, hsum]
  refine ⟨?_, buildFrom_made _ _ _ _ _ _, fun k hk => ?_, fun qs fin hm => ?_⟩
  · rw [hb, htotal, htotal]
    by_cases hz : T.l = 0 ∧ T.r = 0
    · simp [LR.get, hz]
    · rw [if_neg hz]
      split <;> simpa [LR.get] using hz
  · rw [hb] at hk
    split at hk
    · simp at hk
    · split at hk
      · rename_i h8
        obtain rfl : n = k := by simpa using hk
        exact ⟨hle, hlt, h8⟩
      · simp at hk
  · rw [hb] at hm
    split at hm
    · simp at hm
    · split at hm
      · simp at hm
      · rename_i h8
        obtain ⟨rfl, rfl⟩ : q = qs ∧ LR.zip (fun x (d : Nat) => x - 2 * (d : Int)) sf T = fin := by simpa using hm
        have hn : q.length - 1 = n := by omega
        rw [hn]
        refine ⟨fun e => by simp [e] at hlen, hle, hlt, hqueued, fun i hi => ?_, fun w => ⟨fun i hi => ?_, ?_, hfin w⟩,
          fun p hp => LR.ext_get fun w => ?_, hpasses⟩
        · obtain ⟨hnumber, hkind⟩ := hrec i hi
          exact ⟨hnumber, by omega, hkind⟩
        · rw [hrest, hlast]
          exact ⟨(hwheel w).1 i hi, hexpected w i hi⟩
        · rw [htotal, (hwheel w).2, hparts]
        · rw [hend w p hp, hfin]

end Sys2Proof.Machine
end

