-- ==== Sys2Proof/Proofs/ChangedTargets.lean ====
section
/-! PROOFS. What changed targets build: the raises of a thin recut, and the build by the state (R11, R126, R141 to
R143). -/

namespace Sys2Proof.Machine

open Sys2Proof

/-! ## The raises of a thin recut -/

/-- A wheel whose recut would be thinner than m_r (R143). -/
def Thin (mr : Nat) (sf tg : LR Int) (w : Wheel) : Prop :=
  0 < (sf.get w - tg.get w) / 2 ∧ (sf.get w - tg.get w) / 2 < (mr : Int)

/-- The ceiling a raise leaves on a wheel with surface `x`, target `f` and ceiling `h` (R143). -/
def thinTo (mr : Nat) (x f h : Int) : Int := if 0 < (x - f) / 2 ∧ (x - f) / 2 < (mr : Int) then x - 2 * (mr : Int) else h

/-- The ceilings a raise leaves (R143). -/
def raisedTo (mr : Nat) (sf tg own : LR Int) : LR Int := ⟨thinTo mr sf.l tg.l own.l, thinTo mr sf.r tg.r own.r⟩

theorem raisedTo_get (mr : Nat) (sf tg own : LR Int) (w : Wheel) :
    (raisedTo mr sf tg own).get w = thinTo mr (sf.get w) (tg.get w) (own.get w) := by cases w <;> rfl

theorem raisedTo_thin {mr : Nat} {sf tg : LR Int} {w : Wheel} (own : LR Int) (h : Thin mr sf tg w) :
    (raisedTo mr sf tg own).get w = sf.get w - 2 * (mr : Int) := by
  rw [raisedTo_get]
  exact if_pos h

theorem raisedTo_thick {mr : Nat} {sf tg : LR Int} {w : Wheel} (own : LR Int) (h : ¬Thin mr sf tg w) :
    (raisedTo mr sf tg own).get w = own.get w := by
  rw [raisedTo_get]
  exact if_neg h

/-- A raise lowers the ceiling of a thin wheel, the target being at most the ceiling (R143). -/
theorem raisedTo_lt {mr : Nat} {sf tg own : LR Int} {w : Wheel} (h : Thin mr sf tg w) (ht : tg.get w ≤ own.get w) :
    (raisedTo mr sf tg own).get w < own.get w := by
  rw [raisedTo_thin own h]
  obtain ⟨h1, h2⟩ := h
  omega

theorem raisedTo_le {mr : Nat} {sf tg own : LR Int} (ht : ∀ w, tg.get w ≤ own.get w) (w : Wheel) :
    (raisedTo mr sf tg own).get w ≤ own.get w := by
  by_cases h : Thin mr sf tg w
  · exact (raisedTo_lt h (ht w)).le
  · rw [raisedTo_thick own h]

/-- A target at most the raised ceiling leaves no thin recut (R143). -/
theorem not_thin_of_le {mr : Nat} {sf tg : LR Int} {w : Wheel} (h : tg.get w ≤ sf.get w - 2 * (mr : Int)) :
    ¬Thin mr sf tg w := by
  rintro ⟨-, h2⟩
  omega

/-- The targets of a plan are at most the own ceilings (R121). -/
theorem computePlan_target_le (c : Settings) (b : Fin 4) (own : LR Int) (v : List ViewEntry) (w : Wheel) :
    (computePlan c b own v).target.get w ≤ own.get w := by
  cases w
  · exact min_le_left _ _
  · exact min_le_left _ _

/-- A station that plans on its own ceilings with no entry pending, its surfaces certain (R119, R125, R142). -/
structure OnTargets (own sf : LR Int) (p : Plan) (x : State) : Prop where
  surface : x.pc.surface = some sf
  certain : x.pc.uncertain = false
  plan : x.ru.plan = some p
  status : x.fe.ceil.status = .normal
  ceiling : x.fe.ceil.value = some own
  heard : anyPending (groupView x) = false
  computed : p = computePlan (conf x) x.ss.straps.bogie own (groupView x)
  started : x.vc.state ≠ .start

theorem OnTargets.target_le {own sf : LR Int} {p : Plan} {x : State} (h : OnTargets own sf p x) (w : Wheel) :
    p.target.get w ≤ own.get w := by
  rw [h.computed]
  exact computePlan_target_le _ _ _ _ w

/-- A raise is offered after the FINISH pass for a thin wheel alone (R143). -/
theorem OnTargets.raiseOffer_none {own sf : LR Int} {p : Plan} {x : State} (h : OnTargets own sf p x)
    (ht : ∀ w, ¬(x.pc.finishDone = true ∧ Thin (conf x).minRecut sf p.target w)) : raiseOffer x = none := by
  by_cases hf : x.pc.finishDone = true
  · have hl : ¬Thin (conf x).minRecut sf p.target .l := fun e => ht .l ⟨hf, e⟩
    have hr : ¬Thin (conf x).minRecut sf p.target .r := fun e => ht .r ⟨hf, e⟩
    simp only [Thin, LR.get, not_and, not_lt] at hl hr
    simp only [raiseOffer, h.surface, h.plan, h.ceiling]
    simp
    tauto
  · exact raiseOffer_unfinished x (by simpa using hf)

theorem OnTargets.raiseOffer_some {own sf : LR Int} {p : Plan} {x : State} (h : OnTargets own sf p x)
    (hf : x.pc.finishDone = true) {w : Wheel} (ht : Thin (conf x).minRecut sf p.target w) :
    raiseOffer x = some (raisedTo (conf x).minRecut sf p.target own) := by
  simp only [raiseOffer, h.surface, h.plan, h.ceiling, hf, h.certain, raisedTo, thinTo]
  cases w <;> simp [Thin, LR.get] at ht <;> simp [ht]

/-- The ceilings lowered by a raise, announced on a new sequence (R76, R143). -/
def lowered (own : LR Int) (x : State) : State :=
  { x with
    fe := { x.fe with ceil := ⟨.normal, some own, nextSeq x.fe.ceil.seq, true, x.fe.ceil.condemning⟩ }
    lc := handed (.ceiling (nextSeq x.fe.ceil.seq) .normal (some own)) x.lc }

/-- The intent is on the plan and on the ceiling sequence (R123). -/
def IntentOn (p : Plan) (x : State) : Prop := ∃ i, x.ru.intent = some i ∧ i.basis = x.fe.ceil.seq ∧ i.target = p.target

/-- A raise: the ceilings lowered, and a re-plan on them (R125, R143). -/
def afterRaise (own : LR Int) (p p' : Plan) (x : State) : State := replanned p.target p' false (lowered own x)

theorem afterRaise_frame (own : LR Int) (p p' : Plan) (x : State) :
    (afterRaise own p p' x).vc = x.vc ∧ (afterRaise own p p' x).pc = x.pc ∧ (afterRaise own p p' x).cp = x.cp ∧
    (afterRaise own p p' x).ss = x.ss ∧ (afterRaise own p p' x).peers = x.peers ∧
    (afterRaise own p p' x).fe.ceil.seq = nextSeq x.fe.ceil.seq := by
  simp [afterRaise, lowered]

theorem afterRaise_intent (own : LR Int) (p p' : Plan) (x : State) (h : IntentOn p x) : IntentOn p' (afterRaise own p p' x) := by
  obtain ⟨i, hi, hbasis, -⟩ := h
  rw [afterRaise, replanned_forms _ _ _ _ (fun j hj => ?_)]
  · exact ⟨_, rfl, rfl, rfl⟩
  · obtain rfl : i = j := Option.some.inj (hi.symm.trans hj)
    rw [hbasis]
    exact (nextSeq_ne _).symm

section Raises

variable {own sf : LR Int} {p p' : Plan} {x : State} (h : OnTargets own sf p x)
include h

theorem OnTargets.raised {own' : LR Int} (hp : p' = computePlan (conf x) x.ss.straps.bogie own' (groupView x)) :
    OnTargets own' sf p' (afterRaise own' p p' x) := by
  obtain ⟨hvc, hpc, -, hss, hpeers, -⟩ := afterRaise_frame own' p p' x
  have hview : groupView (afterRaise own' p p' x) = groupView x := by simp only [groupView, hss, hpeers]
  constructor
  · rw [hpc]; exact h.surface
  · rw [hpc]; exact h.certain
  · simp [afterRaise]
  · simp [afterRaise, lowered]
  · simp [afterRaise, lowered]
  · rw [hview]; exact h.heard
  · simp only [hview, conf, hss]; exact hp
  · rw [hvc]; exact h.started

/-- A raise at or above Z re-plans, and the build goes on from it (R78, R125, R143). -/
theorem OnTargets.build_raises (hf : x.pc.finishDone = true) {w : Wheel} (ht : Thin (conf x).minRecut sf p.target w)
    (hz : ∀ w, ((conf x).condemn : Int) ≤ own.get w)
    (hraise : ∀ w, ((conf x).condemn : Int) ≤ sf.get w - 2 * ((conf x).minRecut : Int)) {own' : LR Int}
    (hown : own' = raisedTo (conf x).minRecut sf p.target own)
    (hp : p' = computePlan (conf x) x.ss.straps.bogie own' (groupView x)) (n : Nat) :
    build (n + 1) x = build n (afterRaise own' p p' x) := by
  have hmin : LR.zip min own' own = own' := LR.ext_get fun w => by
    rw [LR.get_zip, hown]
    exact min_eq_left (raisedTo_le h.target_le w)
  have hlimit : ∀ w, ((conf x).condemn : Int) ≤ own'.get w := fun w => by
    rw [hown]
    by_cases hw : Thin (conf x).minRecut sf p.target w
    · rw [raisedTo_thin own hw]; exact hraise w
    · rw [raisedTo_thick own hw]; exact hz w
  have hne : own' ≠ own := fun e => by
    have hlt := raisedTo_lt ht (h.target_le w)
    rw [← hown, e] at hlt
    exact lt_irrefl _ hlt
  have hoffer := offerCeiling_changed own' own own' x h.status h.ceiling hmin (hlimit .l) (hlimit .r) hne
  have hchange : changeCeiling .normal (some own') x = lowered own' x := by
    rw [changeCeiling_eq _ _ _ h.started]
    rfl
  have hre := replan_fresh p own' (lowered own' x) h.started h.plan (ownCeilings_normal own' _ rfl rfl) h.heard
  have hplan : computePlan (conf (lowered own' x)) (lowered own' x).ss.straps.bogie own' (groupView (lowered own' x)) = p' :=
    hp.symm
  rw [hplan] at hre
  simp only [build, h.raiseOffer_some hf ht, ← hown, hoffer, hchange, hre]
  rfl

/-- A raise below Z finds a condemnation (R13, R78, R143). -/
theorem OnTargets.build_condemns (hf : x.pc.finishDone = true) {w : Wheel} (ht : Thin (conf x).minRecut sf p.target w)
    (hz : sf.get w - 2 * ((conf x).minRecut : Int) < ((conf x).condemn : Int)) (n : Nat) :
    ∃ v, build (n + 1) x = condemnationFound { x with fe := { x.fe with ceil := { x.fe.ceil with condemning := v } } } := by
  have hmin : LR.zip min (raisedTo (conf x).minRecut sf p.target own) own = raisedTo (conf x).minRecut sf p.target own :=
    LR.ext_get fun w => by
      rw [LR.get_zip]
      exact min_eq_left (raisedTo_le h.target_le w)
  have hoffer := offerCeiling_condemned (raisedTo (conf x).minRecut sf p.target own) own _ x h.status h.ceiling hmin (by
    have hw := raisedTo_thin own ht
    cases w <;> simp only [LR.get] at hw hz <;> omega)
  refine ⟨some (raisedTo (conf x).minRecut sf p.target own), ?_⟩
  simp only [build, h.raiseOffer_some hf ht, hoffer]

/-- The build on targets that leave no thin recut (R143). -/
theorem OnTargets.build_applies (ht : ∀ w, ¬(x.pc.finishDone = true ∧ Thin (conf x).minRecut sf p.target w)) (n : Nat) :
    build n x = applyBuild x := by
  cases n <;> simp only [build, h.raiseOffer_none ht]

end Raises

/-- A build after a thin recut was found: each wheel raised at most once, the plan and its intent on the raised ceilings
(R125, R143). -/
theorem OnTargets.build_raised {own sf : LR Int} {p : Plan} {x : State} (h : OnTargets own sf p x) (hi : IntentOn p x)
    (hf : x.pc.finishDone = true) {w : Wheel} (ht : Thin (conf x).minRecut sf p.target w)
    (hz : ∀ w, ((conf x).condemn : Int) ≤ own.get w)
    (hraise : ∀ w, ((conf x).condemn : Int) ≤ sf.get w - 2 * ((conf x).minRecut : Int)) :
    ∃ y own' p', build buildFuel x = applyBuild y ∧ OnTargets own' sf p' y ∧ IntentOn p' y ∧
      p' = computePlan (conf x) x.ss.straps.bogie own' (groupView x) ∧
      (∀ w, own'.get w ≤ own.get w) ∧ (∀ w, Thin (conf x).minRecut sf p.target w →
        own'.get w = sf.get w - 2 * ((conf x).minRecut : Int)) ∧
      (∀ w, ¬Thin (conf x).minRecut sf p'.target w) ∧ y.fe.ceil.seq ≠ x.fe.ceil.seq ∧
      y.vc = x.vc ∧ y.pc = x.pc ∧ y.cp = x.cp ∧ y.ss = x.ss := by
  obtain ⟨mr, hmr⟩ : ∃ mr, mr = (conf x).minRecut := ⟨_, rfl⟩
  obtain ⟨own1, hown1⟩ : ∃ own1, own1 = raisedTo mr sf p.target own := ⟨_, rfl⟩
  obtain ⟨p1, hp1⟩ : ∃ p1, p1 = computePlan (conf x) x.ss.straps.bogie own1 (groupView x) := ⟨_, rfl⟩
  obtain ⟨x1, hx1⟩ : ∃ x1, x1 = afterRaise own1 p p1 x := ⟨_, rfl⟩
  have hbuild1 := h.build_raises hf ht hz hraise (by rw [← hmr]; exact hown1) hp1 2
  have h1 : OnTargets own1 sf p1 x1 := hx1 ▸ h.raised hp1
  have hi1 : IntentOn p1 x1 := hx1 ▸ afterRaise_intent own1 p p1 x hi
  obtain ⟨hvc1, hpc1, hcp1, hss1, hpeers1, hseq1⟩ := afterRaise_frame own1 p p1 x
  rw [← hx1] at hvc1 hpc1 hcp1 hss1 hpeers1 hseq1 hbuild1
  have hconf1 : conf x1 = conf x := by simp only [conf, hss1]
  rw [← hmr] at ht hraise ⊢
  have hle1 : ∀ w, own1.get w ≤ own.get w := fun w => hown1 ▸ raisedTo_le h.target_le w
  have hthin1 : ∀ w, Thin mr sf p.target w → own1.get w = sf.get w - 2 * (mr : Int) := fun w hw =>
    hown1 ▸ raisedTo_thin own hw
  by_cases hagain : ∃ v, Thin mr sf p1.target v
  · obtain ⟨v, hv⟩ := hagain
    have hother : v ≠ w := by
      rintro rfl
      exact not_thin_of_le ((h1.target_le v).trans_eq (hthin1 v ht)) hv
    obtain ⟨own2, hown2⟩ : ∃ own2, own2 = raisedTo mr sf p1.target own1 := ⟨_, rfl⟩
    obtain ⟨p2, hp2⟩ : ∃ p2, p2 = computePlan (conf x) x.ss.straps.bogie own2 (groupView x) := ⟨_, rfl⟩
    have hp2' : p2 = computePlan (conf x1) x1.ss.straps.bogie own2 (groupView x1) := by
      simpa only [conf, groupView, hss1, hpeers1] using hp2
    have hz1 : ∀ w, ((conf x).condemn : Int) ≤ own1.get w := fun w => by
      by_cases hw : Thin mr sf p.target w
      · rw [hthin1 w hw]; exact hraise w
      · rw [hown1, raisedTo_thick own hw]; exact hz w
    have hbuild2 := h1.build_raises (by rw [hpc1]; exact hf) (by rw [hconf1, ← hmr]; exact hv)
      (by rw [hconf1]; exact hz1) (by rw [hconf1, ← hmr]; exact hraise) (by rw [hconf1, ← hmr]; exact hown2) hp2' 1
    have h2 := h1.raised hp2'
    obtain ⟨hvc2, hpc2, hcp2, hss2, -, hseq2⟩ := afterRaise_frame own2 p1 p2 x1
    have hkept : own2.get w = own1.get w := by
      rw [hown2]
      exact raisedTo_thick own1 (not_thin_of_le ((h1.target_le w).trans_eq (hthin1 w ht)))
    have hnow : ∀ u, own2.get u = sf.get u - 2 * (mr : Int) := fun u => by
      by_cases hu : u = w
      · rw [hu, hkept, hthin1 w ht]
      · obtain rfl : u = v := by cases u <;> cases v <;> cases w <;> simp_all
        rw [hown2]
        exact raisedTo_thin own1 hv
    have hnone : ∀ u, ¬Thin mr sf p2.target u := fun u => not_thin_of_le ((h2.target_le u).trans_eq (hnow u))
    have happly := h2.build_applies (fun u hu => hnone u (by
      have hc : conf (afterRaise own2 p1 p2 x1) = conf x := by simp only [conf, hss2, hss1]
      rw [hmr, ← hc]
      exact hu.2)) 1
    refine ⟨_, own2, p2, hbuild1.trans (hbuild2.trans happly), h2, afterRaise_intent own2 p1 p2 x1 hi1, hp2,
      fun u => ?_, fun u _ => hnow u, hnone, ?_, hvc2.trans hvc1, hpc2.trans hpc1, hcp2.trans hcp1, hss2.trans hss1⟩
    · exact (hown2 ▸ raisedTo_le h1.target_le u).trans (hle1 u)
    · rw [hseq2, hseq1]
      simp only [nextSeq]
      omega
  · have hnone : ∀ u, ¬Thin mr sf p1.target u := fun u hu => hagain ⟨u, hu⟩
    have happly := h1.build_applies (fun u hu => hnone u (by rw [hmr, ← hconf1]; exact hu.2)) 2
    refine ⟨x1, own1, p1, hbuild1.trans happly, h1, hi1, hp1, hle1, hthin1, hnone, ?_, hvc1, hpc1, hcp1, hss1⟩
    rw [hseq1]
    exact nextSeq_ne _

/-! ## The build, by the state -/

/-- The numbering of a build outside CUTTING starts at 1 (R138). -/
theorem buildFrom_outside (c : Settings) (fd : Bool) (done : Nat) (sf tg : LR Int) :
    buildFrom c fd false done sf tg = buildFrom c fd false 0 sf tg := rfl

/-- A DEEP build with no slot and no reservation: back to READY with RECUT_REQUIRED, the build outside CUTTING made at
once (R11, R141). -/
theorem deepToReady_eq (s : State) (surface : LR Int) (plan : Plan) (h : s.vc.state = .cutting)
    (hslot : s.scu.slot = .none) (h1 : s.pc.surface = some surface) (h2 : s.ru.plan = some plan)
    (h3 : s.pc.uncertain = false) :
    deepToReady s = { s with
      vc := { s.vc with state := .ready, sub := none }
      lc := handed .state s.lc
      ru := s.ru.unwaiting
      pc := PC.built (buildFrom (conf s) s.pc.finishDone false 0 surface plan.target)
        { s.pc with holds := HoldCauses.empty, passesDone := 0 }
      cp := { s.cp with status := latchWord s.cp.status .recutRequired }
      scu := s.scu.freed
      out := s.out.grewBy [.stop] [] } := by
  have hset := setStation_fromCutting .ready { order .stop s with scu := s.scu.freed } h (by decide) rfl
  have hfreed : releaseClaim (order .stop s) = { order .stop s with scu := s.scu.freed } :=
    releaseClaim_none (order .stop s) hslot
  rw [deepToReady, hfreed]
  generalize setStation .ready { order .stop s with scu := s.scu.freed } = z at hset
  have hb : buildResult false (latch .recutRequired z) = buildFrom (conf s) s.pc.finishDone false 0 surface plan.target := by
    rw [buildResult_eq false (latch .recutRequired z) surface plan (by rw [hset]; exact h1) (by rw [hset]; exact h2)
      (by rw [hset]; exact h3), hset]
    rfl
  rw [hb, storeOutside_built _ _ (buildFrom_made _ _ _ _ _ _), hset]
  simp [order, State.onOut, RU.unwaiting, Outputs.grewBy, latch_eq]

section Applies

variable {own sf : LR Int} {p : Plan} {x : State} (h : OnTargets own sf p x) {b : BuildResult}
include h

theorem OnTargets.buildResult_outside (hb : b = buildFrom (conf x) x.pc.finishDone false 0 sf p.target) :
    buildResult false x = b := by
  rw [buildResult_eq false x sf p h.surface h.plan h.certain, hb]
  exact buildFrom_outside _ _ _ _ _

theorem OnTargets.buildResult_cutting (hb : b = buildFrom (conf x) x.pc.finishDone true x.pc.passesDone sf p.target) :
    buildResult true x = b := by
  rw [buildResult_eq true x sf p h.surface h.plan h.certain, hb]

/-- A build in READY with something to cut: the queue anew (R126, R142). -/
theorem OnTargets.applyBuild_ready (hb : b = buildFrom (conf x) x.pc.finishDone false 0 sf p.target)
    (hst : x.vc.state = .ready) (hne : b ≠ .empty) :
    applyBuild x = { x with pc := PC.built b { x.pc with passesDone := 0 } } := by
  have hmade : b ≠ .notMade := hb ▸ buildFrom_made _ _ _ _ _ _
  have heff : effState x = .ready := by simp [effState, hst]
  simp [applyBuild, hst, heff, h.buildResult_outside hb, storeOutside_built _ _ hmade, hne]

/-- An empty build in READY, after a recut: back to FINISHED (R142). -/
theorem OnTargets.applyBuild_withdrawn (hb : b = buildFrom (conf x) x.pc.finishDone false 0 sf p.target)
    (hst : x.vc.state = .ready) (he : b = .empty) :
    applyBuild x = { x with
      vc := { x.vc with state := .finished }
      lc := handed .state x.lc
      pc := PC.built b { x.pc with passesDone := 0 } } := by
  have hmade : b ≠ .notMade := hb ▸ buildFrom_made _ _ _ _ _ _
  have heff : effState x = .ready := by simp [effState, hst]
  have hset : ∀ c : PC, setEffState .finished { x with pc := c } =
      { x with vc := { x.vc with state := .finished }, lc := handed .state x.lc, pc := c } := fun c => by
    rw [setEffState, if_neg (by simp [hst]), setStation_plain .finished _ (by simp [hst]) (by simp [hst, isOpenState])
      (by simp [hst, linkCode]) rfl]
  have hstore := storeOutside_built b x hmade
  simp only [applyBuild, h.buildResult_outside hb, hstore, heff, hst, ← hset]
  simp [he]

/-- A build in FINISHED with something to cut: a recut (R11, R142). -/
theorem OnTargets.applyBuild_recut (hb : b = buildFrom (conf x) x.pc.finishDone false 0 sf p.target)
    (hst : x.vc.state = .finished) (hne : b ≠ .empty) :
    applyBuild x = { x with
      vc := { x.vc with state := .ready }
      lc := handed .state x.lc
      pc := PC.built b { x.pc with passesDone := 0 }
      cp := { x.cp with status := latchWord x.cp.status .recutRequired } } := by
  have hmade : b ≠ .notMade := hb ▸ buildFrom_made _ _ _ _ _ _
  have heff : effState x = .finished := by simp [effState, hst]
  have hset : ∀ c : PC, setEffState .ready { x with pc := c } =
      { x with vc := { x.vc with state := .ready }, lc := handed .state x.lc, pc := c } := fun c => by
    rw [setEffState, if_neg (by simp [hst]), setStation_plain .ready _ (by simp [hst]) (by simp [hst, isOpenState])
      (by simp [hst, linkCode]) rfl]
  have hstore := storeOutside_built b x hmade
  simp only [applyBuild, h.buildResult_outside hb, hstore, heff, hst]
  simp [hmade, hne, hset, latch_eq]

/-- A build in CUTTING: the queue anew, the claim kept or released by the kind of its head (R142, R167). -/
theorem OnTargets.applyBuild_cutting (hb : b = buildFrom (conf x) x.pc.finishDone true x.pc.passesDone sf p.target)
    (hst : x.vc.state = .cutting) {qs : List Pass} {fin : LR Int} (hm : b = .made qs fin) :
    applyBuild x = slotHead { x with pc := PC.built b x.pc } := by
  simp only [applyBuild, hst, if_true, h.buildResult_cutting hb, hm]
  rfl

/-- An empty build in CUTTING: the end of the queue (R142). -/
theorem OnTargets.applyBuild_ends (hb : b = buildFrom (conf x) x.pc.finishDone true x.pc.passesDone sf p.target)
    (hst : x.vc.state = .cutting) (hslot : x.scu.slot = .none) (he : b = .empty) :
    applyBuild x = { x with
      vc := { x.vc with state := .finished, sub := none }
      lc := handed .state x.lc
      ru := x.ru.unwaiting
      pc := PC.built b { x.pc with holds := HoldCauses.empty }
      scu := x.scu.freed
      out := x.out.grewBy [.stop] [] } := by
  simp only [applyBuild, hst, if_true, h.buildResult_cutting hb, he]
  exact enterFinished_eq { x with pc := { x.pc with planDeep := none } } hst hslot

/-- A DEEP build in CUTTING: back to READY with RECUT_REQUIRED (R11, R141). -/
theorem OnTargets.applyBuild_deep (hb : b = buildFrom (conf x) x.pc.finishDone true x.pc.passesDone sf p.target)
    (hst : x.vc.state = .cutting) (hslot : x.scu.slot = .none) {n : Nat} (hm : b = .deep n) :
    applyBuild x = { x with
      vc := { x.vc with state := .ready, sub := none }
      lc := handed .state x.lc
      ru := x.ru.unwaiting
      pc := PC.built (buildFrom (conf x) x.pc.finishDone false 0 sf p.target)
        { x.pc with holds := HoldCauses.empty, passesDone := 0 }
      cp := { x.cp with status := latchWord x.cp.status .recutRequired }
      scu := x.scu.freed
      out := x.out.grewBy [.stop] [] } := by
  simp only [applyBuild, hst, if_true, h.buildResult_cutting hb, hm]
  rw [deepToReady_eq _ sf p (by exact hst) (by exact hslot) (by exact h.surface) (by exact h.plan) (by exact h.certain)]
  have hbuilt := PC.built_of_queue (buildFrom (conf x) x.pc.finishDone false 0 sf p.target)
    { x.pc with holds := HoldCauses.empty, passesDone := 0 } [] none (some n) (buildFrom_made _ _ _ _ _ _)
  rw [← hbuilt]
  rfl

end Applies

/-- A wheel has nothing to cut where its target is less than a depth below its surface (R139). -/
theorem totalDepth_eq_zero_iff (fd : Bool) (mr : Nat) (sf tg : Int) : totalDepth fd mr sf tg = 0 ↔ (sf - tg) / 2 ≤ 0 := by
  rw [← Int.toNat_eq_zero]
  simp only [totalDepth]
  split
  · split <;> omega
  · rfl

/-- An empty build: no wheel has a depth to cut (R139, R142). -/
theorem buildFrom_empty_iff (c : Settings) (fd inCut : Bool) (done : Nat) (sf tg : LR Int) :
    buildFrom c fd inCut done sf tg = .empty ↔ ∀ w, (sf.get w - tg.get w) / 2 ≤ 0 := by
  have hwheels : (∀ w, (sf.get w - tg.get w) / 2 ≤ 0) ↔
      (LR.zip (totalDepth fd c.minRecut) sf tg).l = 0 ∧ (LR.zip (totalDepth fd c.minRecut) sf tg).r = 0 := by
    simp only [LR.zip, totalDepth_eq_zero_iff]
    exact ⟨fun h => ⟨h .l, h .r⟩, fun ⟨hl, hr⟩ w => by cases w <;> assumption⟩
  rw [hwheels, buildFrom]
  by_cases hz : (LR.zip (totalDepth fd c.minRecut) sf tg).l = 0 ∧ (LR.zip (totalDepth fd c.minRecut) sf tg).r = 0
  · simp only [hz]
    simp
  · rw [if_neg hz]
    have hmade : ∀ (P : Prop) [Decidable P] (n : Nat) (q : List Pass) (f : LR Int),
        (if P then BuildResult.deep n else .made q f) ≠ .empty := fun P _ n q f => by split <;> simp
    exact iff_of_false (hmade _ _ _ _) hz

/-- A reservation neither HELD nor ARMED given up: nothing goes on the link (R168). -/
theorem releaseClaim_unclaimed (s : State) (h : s.scu.slot ≠ .held) (ha : s.scu.slot ≠ .armed) :
    releaseClaim s = { s with scu := s.scu.freed } := by
  cases hs : s.scu.slot <;> simp_all [releaseClaim, State.onSCU, SCU.freed]

/-- The claim after a build in CUTTING: kept for a ROUGH head, given up for a FINISH one (R158, R167, R168). -/
theorem slotHead_kind (x : State) (h : Pass) (rest : List Pass) (hq : x.pc.queue = h :: rest) (hst : x.vc.state ≠ .start)
    (ha : h.kind = .rough ∨ x.scu.slot ≠ .armed) :
    slotHead x = if h.kind = .rough then x else if x.scu.slot = .held then claimReleased x else
      { x with scu := x.scu.freed } := by
  cases hk : h.kind with
  | rough => exact slotHead_rough x h rest hq hk
  | finish =>
    have hslot : x.scu.slot ≠ .armed := ha.resolve_left (by simp [hk])
    rw [slotHead_finish x h rest hq hk, if_neg (by simp)]
    split
    · rename_i hheld
      exact releaseClaim_held x hheld hst
    · rename_i hheld
      exact releaseClaim_unclaimed x hheld hslot

/-! ## Changed targets handed on -/

/-- The states in which changed targets are built on: READY, CUTTING with no pass ACTIVE, FINISHED with a target below its
surface (R126, R142). -/
theorem handTargets_builds {own sf : LR Int} {p : Plan} {x : State} (h : OnTargets own sf p x)
    (hst : x.vc.state = .ready ∨ (x.vc.state = .cutting ∧ activePass x = none) ∨
      (x.vc.state = .finished ∧ ∃ w, p.target.get w < sf.get w)) :
    handTargets (x, true) = build buildFuel x := by
  rcases hst with hst | ⟨hst, hact⟩ | ⟨hst, w, hw⟩
  · simp [handTargets, targetsChanged, effState, hst]
  · simp [handTargets, targetsChanged, effState, hst, hact]
  · have hbelow : targetBelowSurface x = true := by
      simp only [targetBelowSurface, h.surface, h.plan]
      cases w <;> simp only [LR.get] at hw <;> simp [hw]
    simp [handTargets, targetsChanged, effState, hst, hbelow]

/-- In FINISHED with no target below its surface nothing is built (R126). -/
theorem handTargets_stands {own sf : LR Int} {p : Plan} {x : State} (h : OnTargets own sf p x)
    (hst : x.vc.state = .finished) (hw : ∀ w, sf.get w ≤ p.target.get w) : handTargets (x, true) = x := by
  have hl := hw .l
  have hr := hw .r
  simp only [LR.get] at hl hr
  have hbelow : targetBelowSurface x = false := by
    simp [targetBelowSurface, h.surface, h.plan, hl, hr]
  simp [handTargets, targetsChanged, effState, hst, hbelow]

/-- Outside CUTTING settling starts nothing (R10, R144). -/
theorem settle_stands (s : State) (h : s.vc.state ≠ .cutting) :
    (settle s).vc = { s.vc with sub := none } ∧ (settle s).pc = s.pc ∧ (settle s).out = s.out ∧ (settle s).scu = s.scu ∧
    (settle s).lc = s.lc := by
  have htry : tryStart s = s := by
    unfold tryStart
    split
    · simp [h]
    · rfl
  have hsub : cutSub s = none := by simp [cutSub, h]
  simp only [settle, htry, hsub]
  exact ⟨rfl, rfl, rfl, rfl, rfl⟩

theorem setEffState_kept (st : StationState) (s : State) : BuildKept s (setEffState st s) := by
  unfold setEffState
  split
  · exact ⟨⟨rfl, rfl, rfl, rfl, rfl⟩, rfl, rfl, rfl, rfl, rfl, rfl⟩
  · exact setStation_kept st s

/-- A build keeps the record of the passes, the ceilings, the plan and its intent in every state (R141, R142). -/
theorem applyBuild_keeps (s : State) : BuildKept s (applyBuild s) := by
  by_cases h : s.vc.state = .cutting
  · exact applyBuild_kept s h
  · have hstore := storeOutside_kept (buildResult false s) s
    simp only [applyBuild, h, if_false]
    (repeat' split)
    · exact (hstore.trans (setEffState_kept .ready _)).trans (latch_kept _ _)
    · exact hstore.trans (setEffState_kept .finished _)
    · exact hstore

/-- Settling changes of the queue the state of its head alone (R144). -/
theorem settle_queue (s : State) :
    (settle s).vc.state = s.vc.state ∧ (settle s).pc.queue.tail = s.pc.queue.tail ∧
    (settle s).pc.queueFinish = s.pc.queueFinish := by
  have htry : (tryStart s).vc.state = s.vc.state ∧ (tryStart s).pc.queue.tail = s.pc.queue.tail ∧
      (tryStart s).pc.queueFinish = s.pc.queueFinish := by
    unfold tryStart
    (repeat' split) <;> simp [startPass, setHead]
  exact htry

section Changed

variable {f : LinkFrame} {c : StoredCeiling} {s a : State} {own sf : LR Int} {q p : Plan} {x : State}
  (hh : HearsCeiling f c s a) (h1 : s.fe.ceil.status = .normal) (h2 : s.fe.ceil.value = some own)
  (hq : s.ru.plan = some q) (hpend : anyPending (groupView a) = false) (hsf : s.pc.surface = some sf)
  (hcertain : s.pc.uncertain = false) (hp : p = computePlan (conf s) s.ss.straps.bogie own (groupView a))
  (hne : p.target ≠ q.target) (hx : x = replanned q.target p false a)

include hh hx in
theorem HearsCeiling.replanned_keeps : x.vc = s.vc ∧ x.pc = s.pc ∧ x.fe = s.fe ∧ x.cp = s.cp ∧ x.scu = s.scu ∧
    x.ss = s.ss ∧ x.out = s.out ∧ groupView x = groupView a := by
  obtain ⟨hvc, hfe, -, hpc, hscu, hss, -, hcp, hout⟩ := hh.keeps
  refine ⟨?_, ?_, ?_, ?_, ?_, ?_, ?_, ?_⟩ <;> rw [hx] <;> simp [hvc, hfe, hpc, hscu, hss, hcp, hout, groupView]

include hh h1 h2 hpend hsf hcertain hp hx in
theorem HearsCeiling.onTargets (hst : s.vc.state ≠ .start) : OnTargets own sf p x := by
  obtain ⟨hvc, hpc, hfe, -, -, hss, -, hview⟩ := hh.replanned_keeps hx
  constructor
  · rw [hpc]; exact hsf
  · rw [hpc]; exact hcertain
  · simp [hx]
  · rw [hfe]; exact h1
  · rw [hfe]; exact h2
  · rw [hview]; exact hpend
  · simp only [hview, conf, hss]; exact hp
  · rw [hvc]; exact hst

include hne hx in
theorem intentOn_replanned : IntentOn p x := by
  have hchanged : decide (q.target ≠ p.target) = true := by simpa using hne.symm
  rw [hx]
  simp only [IntentOn, replanned, hchanged, Bool.true_or, planned, if_true]
  exact ⟨_, rfl, rfl, rfl⟩

include hh h1 h2 hq hpend hp hne hx in
/-- A CEILING that moves the targets hands them on (R124, R125). -/
theorem HearsCeiling.hands (hmoved : InputMoved (groupView s) (groupView a)) (hplanning : planning s = true) :
    exec (.ceilingReceived f) s = .next (settle (agree (handTargets (x, true)))) := by
  obtain ⟨hvc, hfe, hru, -, -, hss, -⟩ := hh.keeps
  have hstart : a.vc.state ≠ .start := fun e => by
    rw [hvc] at e
    simp [planning, effState, e, isPlanning] at hplanning
  have hfresh := replan_fresh q own a hstart (by rw [hru]; exact hq)
    (ownCeilings_normal own a (by rw [hfe]; exact h1) (by rw [hfe]; exact h2)) hpend
  have hplan : computePlan (conf a) a.ss.straps.bogie own (groupView a) = p := by simp only [conf, hss]; exact hp.symm
  rw [hplan, ← hx] at hfresh
  rw [hh.replans hmoved hplanning (by rw [hq]; rfl), hfresh]
  simp [hne.symm]

end Changed

/-! ## A thin recut -/

/-- The states in which changed targets build a recut (R126, R142, R143). -/
def Recuts (x : State) : Prop :=
  x.vc.state = .finished ∨ x.vc.state = .ready ∨ (x.vc.state = .cutting ∧ activePass x = none)

section ThinRecut

variable {own sf : LR Int} {p : Plan} {x : State} {w : Wheel} (h : OnTargets own sf p x) (hr : Recuts x)
  (hf : x.pc.finishDone = true) (ht : Thin (conf x).minRecut sf p.target w)
include h hr

/-- Where no recut is thin the changed targets are built on at once (R126, R142). -/
theorem OnTargets.handTargets_applies (hbelow : x.vc.state = .finished → ∃ w, p.target.get w < sf.get w)
    (ht : ∀ w, ¬(x.pc.finishDone = true ∧ Thin (conf x).minRecut sf p.target w)) :
    handTargets (x, true) = applyBuild x := by
  rw [← h.build_applies ht buildFuel]
  refine handTargets_builds h ?_
  rcases hr with hst | hst | hst
  · exact .inr (.inr ⟨hst, hbelow hst⟩)
  · exact .inl hst
  · exact .inr (.inl hst)

include ht in
theorem OnTargets.handTargets_thin : handTargets (x, true) = build buildFuel x := by
  have hbelow : p.target.get w < sf.get w := by
    obtain ⟨hpos, -⟩ := ht
    omega
  refine handTargets_builds h ?_
  rcases hr with hst | hst | hst
  · exact .inr (.inr ⟨hst, w, hbelow⟩)
  · exact .inl hst
  · exact .inr (.inl hst)

include hf ht

/-- A thin recut whose raise is below Z: the station condemned (R13, R143). -/
theorem OnTargets.recut_condemns (hz : sf.get w - 2 * ((conf x).minRecut : Int) < ((conf x).condemn : Int)) :
    let t := settle (agree (handTargets (x, true)))
    t.vc.state = .condemned ∧ t.fe.ceil.status = .condemned ∧ flagSet t.cp.status .condemned = true := by
  obtain ⟨v, hv⟩ := h.build_condemns hf ht hz 2
  obtain ⟨z, hzdef⟩ : ∃ z, z = { x with fe := { x.fe with ceil := { x.fe.ceil with condemning := v } } } := ⟨_, rfl⟩
  have zst : z.vc.state = x.vc.state ∧ activePass z = activePass x := by rw [hzdef]; exact ⟨rfl, rfl⟩
  have hfound : condemnationFound z = enterCondemned z := by
    rcases hr with hst | hst | ⟨hst, ha⟩
    · simp [condemnationFound, zst, hst]
    · simp [condemnationFound, zst, hst]
    · simp [condemnationFound, zst, hst, ha]
  have hcold : isOpenState z.vc.state = false ∧ z.vc.state ≠ .condemned := by
    rcases hr with hst | hst | ⟨hst, -⟩ <;> simp [zst, hst, isOpenState]
  obtain ⟨kvc, -, -, kfe, kcp, -⟩ := enterCondemned_records z hcold.1 hcold.2
  rw [← hzdef, hfound] at hv
  intro t
  have hstate : t.vc.state = (enterCondemned z).vc.state := by
    simp only [t, h.handTargets_thin hr ht, buildFuel, hv, (settle_queue _).1, agree_frame]
  have hrest : t.fe = (enterCondemned z).fe ∧ t.cp = (enterCondemned z).cp := by
    simp [t, h.handTargets_thin hr ht, buildFuel, hv]
  exact ⟨by rw [hstate, kvc], by rw [hrest.1, kfe], by rw [hrest.2, kcp]; exact flagSet_latchWord_same _ _⟩

/-- A thin recut raised: the plan and its intent on the lowered ceilings, the build on targets that leave no thin recut
(R125, R143). -/
theorem OnTargets.recut_raised (hi : IntentOn p x) (hz : ∀ w, ((conf x).condemn : Int) ≤ own.get w)
    (hraise : ∀ w, ((conf x).condemn : Int) ≤ sf.get w - 2 * ((conf x).minRecut : Int)) :
    let t := settle (agree (handTargets (x, true)))
    ∃ own' p' i, t.fe.ceil.status = .normal ∧ t.fe.ceil.value = some own' ∧ t.fe.ceil.seq ≠ x.fe.ceil.seq ∧
      (∀ w, Thin (conf x).minRecut sf p.target w → own'.get w = sf.get w - 2 * ((conf x).minRecut : Int)) ∧
      (∀ w, own'.get w ≤ own.get w) ∧ t.ru.plan = some p' ∧
      p' = computePlan (conf x) x.ss.straps.bogie own' (groupView x) ∧
      t.ru.intent = some i ∧ i.basis = t.fe.ceil.seq ∧ i.target = p'.target ∧
      (x.vc.state ≠ .cutting → t.vc.state = .ready ∧
        t.pc = PC.built (buildFrom (conf x) true false 0 sf p'.target) { x.pc with passesDone := 0 } ∧
        t.cp = if x.vc.state = .finished then { x.cp with status := latchWord x.cp.status .recutRequired } else x.cp) ∧
      (∀ qs fin, x.vc.state = .cutting → buildFrom (conf x) true true x.pc.passesDone sf p'.target = .made qs fin →
        t.vc.state = .cutting ∧ t.pc.queue.tail = qs.tail ∧ t.pc.queueFinish = some fin ∧ t.cp = x.cp) ∧
      ∀ w, ¬Thin (conf x).minRecut sf p'.target w := by
  obtain ⟨y, own', p', hbuild, hy, ⟨i, hinte, hbasis, htarget⟩, hp', hle, hthin, hnone, hseq, yvc, ypc, ycp, yss⟩ :=
    h.build_raised hi hf ht hz hraise
  have yconf : conf y = conf x := by simp only [conf, yss]
  have hkept := ((applyBuild_keeps y).trans (agree_kept _)).trans (settle_kept _)
  have hb : ∀ inC done, buildFrom (conf y) y.pc.finishDone inC done sf p'.target =
      buildFrom (conf x) true inC done sf p'.target := fun _ _ => by rw [yconf, ypc, hf]
  have hnonempty : buildFrom (conf x) true false 0 sf p'.target ≠ .empty := fun e => by
    have hempty := (buildFrom_empty_iff _ _ _ _ _ _).1 e w
    have hlow := hy.target_le w
    rw [hthin w ht] at hlow
    obtain ⟨hpos, hfew⟩ := ht
    omega
  rw [h.handTargets_thin hr ht, hbuild]
  refine ⟨own', p', i, by rw [hkept.fe]; exact hy.status, by rw [hkept.fe]; exact hy.ceiling, by rw [hkept.fe]; exact hseq,
    hthin, hle, by rw [hkept.plan]; exact hy.plan, hp', by rw [hkept.intent]; exact hinte, by rw [hkept.fe]; exact hbasis,
    htarget, fun hncut => ?_, fun qs fin hst hm => ?_, hnone⟩
  · have hst : x.vc.state = .finished ∨ x.vc.state = .ready := hr.imp_right fun e => e.resolve_right fun e => hncut e.1
    rcases hst with hst | hst
    · have happly := hy.applyBuild_recut (hb false 0).symm (by rw [yvc]; exact hst) hnonempty
      obtain ⟨tvc, tpc, -⟩ := settle_stands (agree (applyBuild y)) (by simp [happly])
      rw [tvc, tpc]
      simp [happly, ypc, ycp, hst]
    · have happly := hy.applyBuild_ready (hb false 0).symm (by rw [yvc]; exact hst) hnonempty
      obtain ⟨tvc, tpc, -⟩ := settle_stands (agree (applyBuild y)) (by simp [happly, yvc, hst])
      rw [tvc, tpc]
      simp [happly, yvc, ypc, ycp, hst]
  · have happly := hy.applyBuild_cutting (hb true _).symm (by rw [yvc]; exact hst) (by rw [ypc]; exact hm)
    obtain ⟨tvc, ttail, tfin⟩ := settle_queue (agree (applyBuild y))
    rw [tvc, ttail, tfin]
    simp [happly, yvc, ypc, ycp, hst, hm, PC.built]

end ThinRecut

/-- Settles O22. -/
theorem builtQueueAddsUp : Obligations.BuiltQueueAddsUp := by
  unfold Obligations.BuiltQueueAddsUp
  refine ⟨buildFrom_addsUp, fun f c s a own sf q hh h1 h2 hq hmoved hpend hsf hcertain => ?_⟩
  intro runs p x inReady inCut half thin left hne
  have hx : x = replanned q.target p false a := rfl
  clear_value x
  have hp : p = computePlan (conf s) s.ss.straps.bogie own (groupView a) := rfl
  clear_value p
  obtain ⟨xvc, xpc, xfe, xcp, xscu, xss, xout, xview⟩ := hh.replanned_keeps hx
  have xconf : conf x = conf s := by simp only [conf, xss]
  have hintent : IntentOn p x := intentOn_replanned hne hx
  have hplans : Recuts s → s.vc.state = .ready ∨ s.vc.state = .cutting ∨ s.vc.state = .finished := by
    rintro (h | h | ⟨h, -⟩) <;> simp [h]
  have hrun : s.vc.state = .ready ∨ s.vc.state = .cutting ∨ s.vc.state = .finished →
      runs = .next (settle (agree (handTargets (x, true)))) := fun h =>
    hh.hands h1 h2 hq hpend hp hne hx hmoved (by rcases h with h | h | h <;> simp [planning, effState, h, isPlanning])
  have htargets : s.vc.state = .ready ∨ s.vc.state = .cutting ∨ s.vc.state = .finished → OnTargets own sf p x := fun h =>
    hh.onTargets h1 h2 hpend hsf hcertain hp hx (by rcases h with h | h | h <;> simp [h])
  have hrecuts : Recuts s → Recuts x := fun h => by simpa [Recuts, activePass, xvc, xpc] using h
  have hready : inReady = buildFrom (conf x) x.pc.finishDone false 0 sf p.target := by rw [xconf, xpc]
  have hcut : inCut = buildFrom (conf x) x.pc.finishDone true x.pc.passesDone sf p.target := by rw [xconf, xpc]
  have hthick : (∀ w, ¬thin w) → ∀ w, ¬(x.pc.finishDone = true ∧ Thin (conf x).minRecut sf p.target w) := fun h => by
    rw [xconf, xpc]
    exact h
  clear_value inReady inCut
  refine ⟨fun hst ht hb => ?_, fun hst hb => ?_, fun qs fin h hst ha ht hm hhead => ?_, fun hst ha hb hslot => ?_,
    fun n hst ha ht hm hslot => ?_, fun hst hw => ?_, fun hst ⟨w, hw⟩ ht => ?_, ?_⟩
  · have hts := htargets (.inl hst)
    have hstx : x.vc.state = .ready := by rw [xvc]; exact hst
    have happly := hts.applyBuild_ready hready hstx hb
    rw [← hts.handTargets_applies (hrecuts (.inr (.inl hst))) (by simp [hstx]) (hthick ht), xpc] at happly
    exact ⟨_, (hrun (.inl hst)).trans (by rw [happly]), settle_settled _⟩
  · have hts := htargets (.inl hst)
    have hstx : x.vc.state = .ready := by rw [xvc]; exact hst
    have hnone : ∀ w, ¬thin w := fun w ⟨_, hpos, _⟩ =>
      absurd ((buildFrom_empty_iff _ _ _ _ _ _).1 (hready.symm.trans hb) w) (not_le.2 hpos)
    have happly := hts.applyBuild_withdrawn hready hstx hb
    rw [← hts.handTargets_applies (hrecuts (.inr (.inl hst))) (by simp [hstx]) (hthick hnone), xpc, xvc] at happly
    refine ⟨_, (hrun (.inl hst)).trans ?_, settle_settled _⟩
    rw [happly, agree_elsewhere _ (by simp [effState]) (by simp [effState])]
  · have hts := htargets (.inr (.inl hst))
    have hstx : x.vc.state = .cutting := by rw [xvc]; exact hst
    obtain ⟨rest, hqs⟩ : ∃ rest, qs = h :: rest := by cases qs <;> simp_all
    intro y hkind
    have happly := hts.applyBuild_cutting hcut hstx hm
    rw [← hts.handTargets_applies (hrecuts (.inr (.inr ⟨hst, ha⟩))) (by simp [hstx]) (hthick ht),
      slotHead_kind _ h rest (by simp [hm, PC.built, hqs]) (by simp [hstx]) (by rw [← xscu] at hkind; exact hkind)] at happly
    have hy : { y with pc := PC.built inCut s.pc } = handTargets (x, true) := by
      rw [happly, ← xpc]
      simp only [y, ← xscu]
      (repeat' split) <;> rfl
    exact ⟨_, (hrun (.inr (.inl hst))).trans (by rw [hy]), settle_settled _⟩
  · have hts := htargets (.inr (.inl hst))
    have hstx : x.vc.state = .cutting := by rw [xvc]; exact hst
    have hnone : ∀ w, ¬thin w := fun w ⟨_, hpos, _⟩ =>
      absurd ((buildFrom_empty_iff _ _ _ _ _ _).1 (hcut.symm.trans hb) w) (not_le.2 hpos)
    have happly := hts.applyBuild_ends hcut hstx (by rw [xscu]; exact hslot) hb
    rw [← hts.handTargets_applies (hrecuts (.inr (.inr ⟨hst, ha⟩))) (by simp [hstx]) (hthick hnone)] at happly
    refine ⟨_, hrun (.inr (.inl hst)), ?_⟩
    obtain ⟨tvc, tpc, tout, tscu, tlc⟩ := settle_stands (agree (handTargets (x, true))) (by simp [happly])
    rw [tvc, tpc, tout, tscu, tlc]
    simp [happly, xvc, xpc, xout, xscu, xcp, left]
  · have hts := htargets (.inr (.inl hst))
    have hstx : x.vc.state = .cutting := by rw [xvc]; exact hst
    have happly := hts.applyBuild_deep hcut hstx (by rw [xscu]; exact hslot) hm
    rw [← hts.handTargets_applies (hrecuts (.inr (.inr ⟨hst, ha⟩))) (by simp [hstx]) (hthick ht), ← hready] at happly
    refine ⟨_, hrun (.inr (.inl hst)), ?_⟩
    obtain ⟨tvc, tpc, tout, tscu, tlc⟩ := settle_stands (agree (handTargets (x, true))) (by simp [happly])
    rw [tvc, tpc, tout, tscu, tlc]
    simp [happly, xvc, xpc, xout, xscu, xcp, left]
  · have hts := htargets (.inr (.inr hst))
    have hstx : x.vc.state = .finished := by rw [xvc]; exact hst
    have hstands := settle_stands (agree x) (by simp [hstx])
    obtain ⟨tvc, tpc, -, -, tlc⟩ := hstands
    refine ⟨_, hrun (.inr (.inr hst)), ?_⟩
    rw [handTargets_stands hts hstx hw, tvc, tpc, tlc]
    simp [hstx, xpc, xcp]
  · have hts := htargets (.inr (.inr hst))
    have hstx : x.vc.state = .finished := by rw [xvc]; exact hst
    have hbelow : p.target.get w < sf.get w := by omega
    have hne : inReady ≠ .empty := fun e => by
      have := (buildFrom_empty_iff _ _ _ _ _ _).1 (hready.symm.trans e) w
      omega
    have happly := hts.applyBuild_recut hready hstx hne
    rw [← hts.handTargets_applies (hrecuts (.inl hst)) (fun _ => ⟨w, hbelow⟩) (hthick ht), xpc, xvc, xcp] at happly
    exact ⟨_, (hrun (.inr (.inr hst))).trans (by rw [happly]), settle_settled _⟩
  · intro recuts
    refine ⟨fun w hr hw _ _ hz => ?_, fun w hr hw hl hr' hz => ?_⟩
    · exact ⟨_, hrun (hplans hr), (htargets (hplans hr)).recut_condemns (hrecuts hr) (by rw [xpc]; exact hw.1)
        (by rw [xconf]; exact hw.2) (by rw [xconf]; exact hz)⟩
    · obtain ⟨own', p', i, hraised⟩ := (htargets (hplans hr)).recut_raised (hrecuts hr) (by rw [xpc]; exact hw.1)
        (by rw [xconf]; exact hw.2) hintent (by rw [xconf]; exact fun v => by cases v; exacts [hl, hr'])
        (by rw [xconf]; exact hz)
      rw [xconf, xfe, xss, xview, xvc, xpc, xcp] at hraised
      obtain ⟨hstatus, hvalue, hseq, hthin, hle, hplan, hp', hint, hbasis, htarget, hout, hin, hnone⟩ := hraised
      refine ⟨_, own', p', i, hrun (hplans hr), hstatus, hvalue, hseq, fun v hv => hthin v hv.2, hle, hplan, hp', hint, hbasis,
        htarget, hout, hin, fun v => ?_⟩
      have hv := hnone v
      simp only [Thin] at hv
      omega

end Sys2Proof.Machine
end

/-! PROOFS. One microsecond on an empty queue: what each timer and each age does in it, and which expiries it makes due
(R20; log entries 1 and 28). -/

namespace Sys2Proof.Machine

open Sys2Proof

/-! ## What one microsecond makes due -/

theorem mem_dueCommand (b : Bool) (c x : Instr) : x ∈ dueCommand b c ↔ b = true ∧ x = c := by
  cases b <;> simp [dueCommand]

theorem due_iff (t : Option Nat) : due t = true ↔ t = some 1 := by simp [due]

theorem reaches_iff (limit : Nat) (t : Option Nat) : reaches limit t = true ↔ t = some (limit - 1) := by simp [reaches]

theorem gapDue_iff (c : CP) : gapDue c = true ↔ c.rxBuffer ≠ [] ∧ c.rxGap = 20000 := by
  simp only [gapDue, Bool.and_eq_true, decide_eq_true_eq, Bool.not_eq_true', List.isEmpty_eq_false_iff]
  rfl

theorem unlockDue_iff (u : UnlockState) : unlockDue u = true ↔ ∃ a, u = .opened a 1 := by
  cases u <;> simp [unlockDue]

theorem passDue_iff (t : PassTimer) : passDue t = true ↔ ∃ n, n ≤ 1 ∧ t = .running n := by
  cases t with
  | running n => simp [passDue]
  | stopped | paused n => simp [passDue]

theorem mem_inputs (i : Input) : i ∈ inputs := by cases i <;> decide

theorem mem_staleDue (s : State) (c : Instr) : c ∈ staleDue s ↔
    ∃ e ∈ s.peers, .peerAgeExpiry e.station = c ∧ e.freshness ≠ .stale ∧
      e.age + 1 = (3 * (conf s).announce + 1) * 1000 := by
  simp only [staleDue, List.mem_map, List.mem_filter, Bool.and_eq_true, decide_eq_true_eq]
  exact ⟨fun ⟨e, ⟨hm, hf, ha⟩, hc⟩ => ⟨e, hm, hc, hf, ha⟩, fun ⟨e, hm, hc, hf, ha⟩ => ⟨e, ⟨hm, hf, ha⟩, hc⟩⟩

theorem violationLimit_eq (s : State) : violationLimit s = 40 * (conf s).announce * 1000 :=
  (Nat.mul_assoc 40 (conf s).announce 1000).symm

/-- The commands that one microsecond queues are those that it makes due (log entries 1 and 28). -/
theorem mem_dueCommands (s : State) (c : Instr) : c ∈ dueCommands s ↔ ExpiryDue s c := by
  have hwatch : watchdogDue s = true ↔ s.cp.watchdog = .running ((conf s).watch * 1000) := beq_iff_eq
  simp only [dueCommands, List.mem_append, mem_dueCommand, due_iff, reaches_iff, gapDue_iff, unlockDue_iff, passDue_iff,
    List.mem_map, List.mem_filter, mem_inputs, true_and, mem_staleDue, hwatch, violationLimit_eq]
  cases c <;> simp [ExpiryDue, Config.peerWaitTime, Config.sec, and_comm]

/-! ## What one microsecond moves -/

/-- The counter of R20 goes on by 1 modulo 2^32. -/
theorem tick_counter (s : State) : (tick s).rtu.counter.toNat = (s.rtu.counter.toNat + 1) % 4294967296 :=
  BitVec.toNat_add _ _

/-- A debounce timer one microsecond later, input by input (R171). -/
theorem IIU.tick_line (u : IIU) (i : Input) : u.tick.line i = (u.line i).tick := by cases i <;> rfl

theorem tickGap_eq (c : CP) : c.tickGap = if c.rxBuffer = [] then c.rxGap else c.rxGap + 1 := by
  simp only [CP.tickGap, List.isEmpty_iff]

/-- Settles O2: what one microsecond moves and what it makes due, timer by timer. -/
theorem emptyQueueCountsOneMicrosecond : Obligations.EmptyQueueCountsOneMicrosecond := by
  intro s hs
  have hstep : step s = .next (tick s) := by simp only [step, hs]
  refine ⟨tick s, hstep, tick_counter s, fun c => ?_, rfl, rfl, rfl, rfl, rfl, ?_, rfl, rfl, fun n hn => ?_,
    fun n hn => ?_, fun hn => ?_, fun i => IIU.tick_line s.iiu i, rfl, rfl, fun a n hn => ?_, fun hn => ?_,
    fun n hn => ?_, fun hn => ?_,
    tickGap_eq s.cp, ?_⟩
  · simp only [tick, hs, List.nil_append, mem_dueCommands]
  · rw [← violationLimit_eq]
    rfl
  · simp only [tick, advance, hn, PassTimer.tick]
  · simp only [tick, advance, hn, PassTimer.tick]
  · simp only [tick, advance, hn, PassTimer.tick]
  · simp only [tick, advance, hn, UnlockState.tick]
  · simp only [tick, advance, hn, UnlockState.tick]
  · simp only [tick, advance, hn, Watchdog.tick]
  · cases hw : s.cp.watchdog with
    | running n => exact absurd hw (hn n)
    | unarmed | expired => simp only [tick, advance, hw, Watchdog.tick]
  · intro b hb
    cases b <;> simp_all [Block.same, tick, advance]

end Sys2Proof.Machine

/-! PROOFS. How an attempt and a run end, said once for every way they end, and the timers of a measurement
(R23, R24, R26, R30, R35, R37, R63). -/

namespace Sys2Proof.Machine

open Sys2Proof

/-! ## The end of an attempt -/

/-- What a change of the run's own records leaves alone. -/
theorem keepsBut_run (s : State) (u : RTU) (v : RCU) : KeepsBut [.rtu, .rcu] s { s with rtu := u, rcu := v } := by
  intro b hb
  cases b <;> simp_all [Block.same]

theorem keepsBut_rtu (s : State) (u : RTU) : KeepsBut [.rtu] s { s with rtu := u } := by
  intro b hb
  cases b <;> simp_all [Block.same]

/-- The third attempt's end is the run's (R30). -/
theorem endAttempt_last (why : Reason) (s : State) (h : 3 ≤ s.rtu.attempt) : endAttempt why s = endRun why s :=
  if_neg fun hand => absurd hand.2 (by omega)

/-- An attempt that another one follows, from a state that differs in what the next attempt clears alone (R23, R30). -/
theorem endAttempt_again (why : Reason) (s a : State) (hwhy : why.retries = true) (hn : s.rtu.attempt < 3)
    (hsame : a.rtu.attempt = s.rtu.attempt) (hnext : nextAttempt a = nextAttempt s) :
    endAttempt why a = nextAttempt s :=
  (endAttempt_retry why a hwhy (hsame ▸ hn)).trans hnext

/-- A measurement run's end, in every record that it writes (R30, R35, R50). -/
theorem endRun_measure (why : Reason) (s : State) (he : why ≠ .estop) (hs : why ≠ .silenced)
    (hst : s.vc.state = .measuring) (hrun : s.rtu.run = .measure) :
    MeasurementFails why s (endRun why s) ∧ (endRun why s).rcu = (holdRcu s).rcu ∧
    (endRun why s).result.rtu = some (rtuSnapshot why s.rtu) := by
  have hcut : endRun why s = cutMeasurement why s := (if_pos hrun).symm
  refine ⟨hcut ▸ cutMeasurement_fails why s he hs hst hrun, ?_, ?_⟩
  · rw [hcut, cutMeasurement_inRun why s hrun, (measurementFails_frame why _).2.1, leaveRun_eq]
    rfl
  · rw [hcut, cutMeasurement_inRun why s hrun, measurementFails_eq why _ he hs (by simpa using hst), leaveRun_eq]
    rfl

/-- The records of a measurement that fails, from a state that differs in the run's own records alone. -/
theorem MeasurementFails.of_run {why : Reason} {s a t : State} (h : MeasurementFails why a t)
    (ha : KeepsBut [.rtu, .rcu] s a) : MeasurementFails why s t := by
  obtain ⟨hframe, hstation, hrun, hresult, hflag, hframes, hout⟩ := h
  have hvc : a.vc = s.vc := ha .vc (by simp)
  have hcp : a.cp = s.cp := ha .cp (by simp)
  have hlc : a.lc = s.lc := ha .lc (by simp)
  have hso : a.out = s.out := ha .out (by simp)
  exact ⟨(ha.mono (by simp)).trans hframe, hvc ▸ hstation, hrun, hresult, hcp ▸ hflag, hlc ▸ hframes, hso ▸ hout⟩

/-- A measurement run's end that another attempt does not follow (R30). -/
theorem endAttempt_measure (why : Reason) (s a : State) (hwhy : why.retries = true) (ha : KeepsBut [.rtu, .rcu] s a)
    (hlast : 3 ≤ a.rtu.attempt) (hst : s.vc.state = .measuring) (hrun : a.rtu.run = .measure) :
    MeasurementFails why s (endAttempt why a) ∧ (endAttempt why a).rcu = (holdRcu a).rcu ∧
    (endAttempt why a).result.rtu = some (rtuSnapshot why a.rtu) := by
  have hvc : a.vc = s.vc := ha .vc (by simp)
  obtain ⟨hfails, hrcu, hresult⟩ := endRun_measure why a (by rintro rfl; cases hwhy) (by rintro rfl; cases hwhy)
    (by rw [hvc]; exact hst) hrun
  rw [endAttempt_last why a hlast]
  exact ⟨hfails.of_run ha, hrcu, hresult⟩

/-- The records of a calibration that ends, from a state that differs in the run's own record alone. -/
theorem CalibrationEnds.of_run {why : Reason} {r : Response} {orders : List Order} {word : BitVec 16} {s a t : State}
    (h : CalibrationEnds why r orders word a t) (ha : KeepsBut [.rtu] s a) : CalibrationEnds why r orders word s t := by
  obtain ⟨hframe, hstation, hrun, hstore, hresult, hport, hout⟩ := h
  have hvc : a.vc = s.vc := ha .vc (by simp)
  have hss : a.ss = s.ss := ha .ss (by simp)
  have hcp : a.cp = s.cp := ha .cp (by simp)
  have hso : a.out = s.out := ha .out (by simp)
  have hres : a.result = s.result := ha .result (by simp)
  exact ⟨(ha.mono (by simp)).trans hframe, hvc ▸ hstation, hrun, hss ▸ hstore, hres ▸ hresult, hcp ▸ hport, hso ▸ hout⟩

/-- A calibration run's end that another attempt does not follow (R30, R37). -/
theorem endAttempt_calibrate (why : Reason) (x : CalRun) (total : Option Nat) (s a : State) (hwhy : why.retries = true)
    (ha : KeepsBut [.rtu] s a) (hlast : 3 ≤ a.rtu.attempt) (hrun : a.rtu.run = .calibrate) (hx : s.ss.calRun = some x)
    (htotal : (a.rtu.slip.get x.wheel).map (·.total) = total) :
    CalibrationEnds why (calibrationFailure x why.code total) [.stop] (latchWord s.cp.status .measureFailed) s
      (endAttempt why a) ∧ (endAttempt why a).result.rtu = some (rtuSnapshot why a.rtu) := by
  have hss : a.ss = s.ss := ha .ss (by simp)
  have hcp : a.cp = s.cp := ha .cp (by simp)
  have he : why ≠ .estop := by rintro rfl; cases hwhy
  have hs : why ≠ .silenced := by rintro rfl; cases hwhy
  have hends := endRun_calibration_fails why x a he hs hrun (hss ▸ hx)
  rw [htotal, hcp] at hends
  rw [endAttempt_last why a hlast]
  refine ⟨hends.of_run ha, ?_⟩
  have hcal : (leaveRun why a).ss.calRun = some x := by simpa [hss] using hx
  have hend : endRun why a = latch .measureFailed
      (endCalibration why (.ok .calibrate (calData x why (calTotal (leaveRun why a) x.wheel) none))
        (leaveRun why a)) := by
    simp only [endRun, hrun, calibrationFails, hcal]
  rw [hend, latch_eq, endCalibration_eq, leaveRun_eq]
  rfl

/-! ## The timers -/

/-- Settles O47: each expiry is the end of an attempt, of a run or of a sweep. -/
theorem measurementTimeouts : Obligations.MeasurementTimeouts := by
  intro s
  have hmark : s.rtu.markTimer ≠ none → exec .markTimerExpiry s = .next (endAttempt .markLost s) := fun h => by
    simp [exec, execMarkTimerExpiry, Option.isSome_iff_ne_none.2 h]
  have hdrive : s.rtu.driveTimer ≠ none → exec .driveTimerExpiry s = .next (endRun .driveTimeout s) := fun h => by
    simp [exec, execDriveTimerExpiry, Option.isSome_iff_ne_none.2 h]
  refine ⟨fun h => ?_, fun h => ?_, fun h => ?_, fun h hn => ?_, fun h hn hst hrun => ?_, fun h hst hrun => ?_,
    fun c h hrun hc => ?_, fun c h hn hrun hc => ?_, fun w h hst => ?_⟩
  · simp [exec, execMarkTimerExpiry, h]
  · simp [exec, execDriveTimerExpiry, h]
  · simp only [exec, execSweepTimerExpiry, h]
  · rw [hmark h, endAttempt_retry _ _ rfl hn]
  · obtain ⟨hfails, hrcu, -⟩ := endAttempt_measure .markLost s s rfl (keepsBut_run s _ _) hn hst hrun
    exact ⟨_, hmark h, hfails, by rw [hrcu]; rfl⟩
  · obtain ⟨hfails, hrcu, -⟩ := endRun_measure .driveTimeout s (by decide) (by decide) hst hrun
    exact ⟨_, hdrive h, hfails, by rw [hrcu]; rfl⟩
  · exact ⟨_, hdrive h, endRun_calibration_fails .driveTimeout c s (by decide) (by decide) hrun hc⟩
  · exact ⟨_, hmark h, (endAttempt_calibrate .markLost c _ s s rfl (keepsBut_rtu s _) hn hrun hc rfl).1⟩
  · have hexec : exec .sweepTimerExpiry s = .next (measurementFails .traceTimeout
        ((holdTrace (order (.park w) s)).onPTU fun u => { u with failing := some w })) := by
      simp only [exec, execSweepTimerExpiry, h]
    refine ⟨_, reported .traceTimeout s.rtu, hexec, ?_⟩
    rw [measurementFails_eq .traceTimeout _ (by decide) (by decide) (by simpa using hst), writeResult_eq]
    refine ⟨rfl, rfl, by simp [order, Outputs.grewBy], rfl, reported_reason _ _, rfl, ?_⟩
    intro b hb
    cases b <;> simp_all [Block.same]

end Sys2Proof.Machine

/-! PROOFS. The encoder and the samples that its bin indices take, and the debounced inputs with the drive
(R24, R25, R28, R33, R34, R41, R46, R171). -/

namespace Sys2Proof.Machine

open Sys2Proof

/-! ## Bin indices and samples -/

theorem LR.get_put_same {α : Type} (p : LR α) (w : Wheel) (v : α) : (p.put w v).get w = v := by cases w <;> rfl

/-- A wheel has a bin index in a measurement run, with a previous count that is not 0 (R33). -/
theorem RTU.indexOf_eq_some (w : Wheel) (u : RTU) (k : Nat) : u.indexOf w = some k ↔
    u.run = .measure ∧ ∃ n, u.prevCount.get w = some n ∧ n ≠ 0 ∧ k = u.count.get w * 256 / n := by
  rcases hprev : u.prevCount.get w with _ | n <;> cases hrun : u.run <;> simp [RTU.indexOf, hprev, hrun, eq_comm]

theorem RTU.indexOf_eq_none (w : Wheel) (u : RTU) : u.indexOf w = none ↔
    u.run ≠ .measure ∨ u.prevCount.get w = none ∨ u.prevCount.get w = some 0 := by
  rcases hprev : u.prevCount.get w with _ | n <;> cases hrun : u.run <;> simp [RTU.indexOf, hprev, hrun]

theorem hasBin_iff (w : Wheel) (s : State) : hasBin w s = true ↔ (s.rtu.indexOf w).isSome = true := by
  rcases hprev : s.rtu.prevCount.get w with _ | n <;> cases hrun : s.rtu.run <;>
    simp [RTU.indexOf, hasBin, hprev, hrun]

/-- Without a bin index nothing is supplied (R33). -/
theorem supply_none (w : Wheel) (probe : Int) (s : State) (h : s.rtu.indexOf w = none) : supply w probe s = s := by
  have hbin : hasBin w s = false := by simp [← Bool.not_eq_true, hasBin_iff, h]
  simp [supply, hbin]

theorem computeBin_some (w : Wheel) (s : State) (k : Nat) (h : s.rtu.indexOf w = some k) :
    computeBin w s = { s with rtu := s.rtu.indexed w } := by
  obtain ⟨hrun, n, hn, hpos, rfl⟩ := (RTU.indexOf_eq_some w s.rtu k).1 h
  simp [computeBin, hrun, hn, hpos, binOf, RTU.indexed, h, State.onRTU]

/-- The RCU with a wheel's new index sampled (R41). -/
def sampledAt (w : Wheel) (i : Nat) (probe : Int) (s : State) : RcuWheel :=
  takeSample (conf s).jump i probe { s.rcu.wheel.get w with lastIndex := some i }

/-- A bin index supplied: the sample that a new one takes, and the attempt's end at the 17th lift-off (R41, R46). -/
theorem supply_some (w : Wheel) (probe : Int) (s : State) (k : Nat) (h : s.rtu.indexOf w = some k) :
    supply w probe s =
      let r := s.rcu.wheel.get w
      let r1 := sampledAt w (min 255 k) probe s
      let wheels := s.rcu.wheel.put w r1
      if s.rcu.phase = .filling ∧ r.lastIndex ≠ some (min 255 k) then
        if r.liftRev < r1.liftRev ∧ 17 ≤ r1.liftRev then
          endAttempt .probeLiftoff { s with rtu := s.rtu.indexed w, rcu := ⟨.held, wheels⟩ }
        else { s with rtu := s.rtu.indexed w, rcu := ⟨.filling, wheels⟩ }
      else { s with rtu := s.rtu.indexed w } := by
  have hindexed : (s.rtu.indexed w).binIndex.get w = some (min 255 k) := by simp [RTU.indexed, h, LR.get_put_same]
  have hbin : hasBin w s = true := (hasBin_iff w s).2 (by simp [h])
  simp only [supply, hbin, if_true, computeBin_some w s k h, supplyBin, hindexed]
  by_cases hnew : s.rcu.phase = .filling ∧ (s.rcu.wheel.get w).lastIndex ≠ some (min 255 k)
  · rw [if_pos hnew, if_pos hnew, ← hnew.1]
    rfl
  · rw [if_neg hnew, if_neg hnew]

/-! ## ENCODER_PULSE -/

/-- The counts that a pulse advances outside a mark pulse (R25). -/
theorem countPulse_outside (w : Wheel) (u : RTU) (h : u.pulseOn = false) :
    countPulse w u = { u with count := u.count.put w ((u.count.get w + 1) % 4294967296) } := by
  simp [countPulse, pulseInc, h]

/-- The counts that a pulse advances within a mark pulse (R25). -/
theorem countPulse_within (w : Wheel) (u : RTU) (h : u.pulseOn = true) : countPulse w u = { u with
    count := u.count.put w ((u.count.get w + 1) % 4294967296)
    pulseCount := u.pulseCount.put w ((u.pulseCount.get w + 1) % 4294967296)
    pulseWidth := if w = .l then u.pulseWidth + 1 else u.pulseWidth } := by
  simp [countPulse, pulseInc, h]

/-- A pulse counted within a mark pulse: the 65th L pulse is a fault (R25). -/
theorem encoderPulse_within (w : Wheel) (probe : Int) (s : State) (h : s.rtu.pulseOn = true) : encoderPulse w probe s =
    if w = .l ∧ 64 ≤ s.rtu.pulseWidth then
      endAttempt .markFault { s with rtu := { countPulse w s.rtu with pulseOn := false } }
    else { s with rtu := countPulse w s.rtu } := by
  have hon : (countPulse w s.rtu).pulseOn = true := h
  have hwidth : (w = .l ∧ markFaultWidth ≤ (countPulse w s.rtu).pulseWidth) ↔ (w = .l ∧ 64 ≤ s.rtu.pulseWidth) := by
    rw [countPulse_within w s.rtu h]
    refine and_congr_right fun hw => ?_
    simp only [hw, if_true, markFaultWidth]
    omega
  simp only [encoderPulse, State.onRTU_rtu, hon, if_true, hwidth]
  rfl

theorem encoderPulse_outside (w : Wheel) (probe : Int) (s : State) (h : s.rtu.pulseOn = false) :
    encoderPulse w probe s = supply w probe { s with rtu := countPulse w s.rtu } := by
  have hoff : (countPulse w s.rtu).pulseOn = false := h
  simp only [encoderPulse, State.onRTU_rtu, hoff, Bool.false_eq_true, if_false]
  rfl

/-- Settles O44: within a mark pulse by its width, outside one by the bin index that the count gives. -/
theorem encoderPulseCounts : Obligations.EncoderPulseCounts := by
  intro w probe s runs allowed k counted inPulse
  have hruns : allowed → runs = .next (encoderPulse w probe s) := fun h => by
    simp only [runs, exec, execEncoderPulse, (counting_iff s).2 h, if_true]
  have hwithin : s.rtu.pulseOn = true → countPulse w s.rtu = inPulse := countPulse_within w s.rtu
  have hfault : allowed → s.rtu.pulseOn = true → w = .l → 64 ≤ s.rtu.pulseWidth →
      runs = .next (endAttempt .markFault { s with rtu := { inPulse with pulseOn := false } }) :=
      fun h hon hw hwidth => by
      rw [hruns h, encoderPulse_within w probe s hon, if_pos ⟨hw, hwidth⟩, hwithin hon]
  have houtside : allowed → s.rtu.pulseOn = false → runs = .next (supply w probe { s with rtu := counted }) :=
    fun h hoff => by rw [hruns h, encoderPulse_outside w probe s hoff, countPulse_outside w s.rtu hoff]
  refine ⟨fun h => ?_, fun h hon hw => ?_, fun h hon hw hwidth hn => ?_, fun h hon hw hwidth hn => ⟨fun hrun hst => ?_,
    fun c hrun hc => ?_⟩, fun h hoff hno => ?_, fun n h hoff hrun hn hpos => ?_⟩
  · simp only [runs, exec, execEncoderPulse, Bool.eq_false_iff.2 (mt (counting_iff s).1 h), Bool.false_eq_true,
      if_false]
  · rw [hruns h, encoderPulse_within w probe s hon, if_neg, hwithin hon]
    rintro ⟨rfl, hwidth⟩
    rcases hw with hw | hw
    · cases hw
    · omega
  · exact (hfault h hon hw hwidth).trans
      (congrArg _ (endAttempt_again .markFault { s with rtu := inPulse } _ rfl hn rfl rfl))
  · obtain ⟨hfails, hrcu, -⟩ := endAttempt_measure .markFault s _ rfl
      (keepsBut_run s { inPulse with pulseOn := false } s.rcu) hn hst hrun
    exact ⟨_, hfault h hon hw hwidth, hfails, by rw [hrcu]; rfl⟩
  · have hends := endAttempt_calibrate .markFault c _ s _ rfl
      (keepsBut_rtu s { inPulse with pulseOn := false }) hn hrun hc rfl
    exact ⟨_, hfault h hon hw hwidth, hends.1⟩
  · have hnone : counted.indexOf w = none := (RTU.indexOf_eq_none w counted).2 hno
    exact (houtside h hoff).trans (congrArg _ (supply_none w probe _ hnone))
  · intro i rtu r r1
    have hindex : counted.indexOf w = some (k * 256 / n) := by
      refine (RTU.indexOf_eq_some w counted _).2 ⟨hrun, n, hn, by omega, ?_⟩
      simp only [counted, LR.get_put_same]
    have hindexed : counted.indexed w = rtu := by
      simp only [RTU.indexed, hindex]
      rfl
    have hsupply := (houtside h hoff).trans (congrArg _ (supply_some w probe { s with rtu := counted } _ hindex))
    rw [hindexed] at hsupply
    have hnew : s.rcu.phase = .filling → r.lastIndex ≠ some i → runs = .next
        (if r.liftRev < r1.liftRev ∧ 17 ≤ r1.liftRev then
          endAttempt .probeLiftoff { s with rtu := rtu, rcu := ⟨.held, s.rcu.wheel.put w r1⟩ }
         else { s with rtu := rtu, rcu := ⟨.filling, s.rcu.wheel.put w r1⟩ }) :=
      fun hfill hlast => hsupply.trans (congrArg _ (if_pos ⟨hfill, hlast⟩))
    have hlimit : s.rcu.phase = .filling → r.lastIndex ≠ some i → r.liftRev < r1.liftRev → 17 ≤ r1.liftRev → runs =
        .next (endAttempt .probeLiftoff { s with rtu := rtu, rcu := ⟨.held, s.rcu.wheel.put w r1⟩ }) :=
      fun hfill hlast hmore hmany => (hnew hfill hlast).trans (congrArg _ (if_pos ⟨hmore, hmany⟩))
    refine ⟨fun hold => ?_, fun hfill hlast hfew => ?_, fun hfill hlast hmore hmany hn3 => ?_,
      fun hfill hlast hmore hmany hn3 hst => ?_⟩
    · refine hsupply.trans (congrArg _ (if_neg ?_))
      rintro ⟨hfill, hlast⟩
      exact hold.elim (absurd hfill) (absurd · hlast)
    · rw [hnew hfill hlast, if_neg (by omega), ← hfill]
    · rw [hlimit hfill hlast hmore hmany]
      refine congrArg _ (endAttempt_again .probeLiftoff { s with rtu := rtu } _ rfl hn3 rfl ?_)
      simp only [nextAttempt, rtu, counted, hrun, if_true]
      rfl
    · obtain ⟨hfails, hrcu, -⟩ := endAttempt_measure .probeLiftoff s _ rfl
        (keepsBut_run s rtu ⟨.held, s.rcu.wheel.put w r1⟩) hn3 hst hrun
      exact ⟨_, hlimit hfill hlast hmore hmany, hfails, by rw [hrcu]; rfl⟩

end Sys2Proof.Machine

/-! PROOFS. The debounced inputs, and DRIVE_AT_SPEED in a run (R24, R28, R171, R177). -/

namespace Sys2Proof.Machine

open Sys2Proof

/-! ## What the inputs leave of the lines -/

theorem IIU.line_setLine_same (u : IIU) (i : Input) (x : InputLine) : (u.setLine i x).line i = x := by cases i <;> rfl

theorem IIU.line_setLine_other (u : IIU) {i j : Input} (x : InputLine) (h : j ≠ i) :
    (u.setLine i x).line j = u.line j := by
  cases i <;> cases j <;> simp_all [IIU.setLine, IIU.line]

/-- An abort sets the home latches and no line (R151, R172). -/
theorem abortPass_line (p : Pass) (why : AbortReason) (s : State) (i : Input) :
    (abortPass p why s).iiu.line i = s.iiu.line i := by
  cases i <;> simp [abortPass, abortOrders, latchesAtRetract, IIU.line]

theorem abortToAborting_line (p : Pass) (why : AbortReason) (s : State) (i : Input) :
    (abortToAborting p why s).iiu.line i = s.iiu.line i := by
  simp [abortToAborting, abortPass_line]

theorem estopActive_line (s : State) (i : Input) : (estopActive s).iiu.line i = s.iiu.line i := by
  have hstops : ∀ old x, (estopStops old x).iiu.line i = x.iiu.line i := fun old x => by
    simp only [estopStops]
    (repeat' split) <;> simp [abortPass_line]
  simp only [estopActive]
  split <;> simp [enterEstop, hstops]

/-- A debounced change acts on no input line (R173 to R178). -/
theorem inputChanged_line (i : Input) (v : Bool) (s : State) (j : Input) :
    (inputChanged i v s).iiu.line j = s.iiu.line j := by
  have hhome : ∀ w, (homeEdge w s).iiu.line j = s.iiu.line j := fun w => by
    cases j <;> simp [homeEdge, IIU.line]
  cases i with
  | clamped =>
    simp only [inputChanged, clampedChanged]
    (repeat' split) <;> simp [abortToAborting_line]
  | guardClosed => simp [inputChanged]
  | estop => cases v <;> simp [inputChanged, estopActive_line]
  | driveAtSpeed => cases v <;> simp [inputChanged]
  | homeL | homeR => cases v <;> simp [inputChanged, hhome]

/-! ## DRIVE_AT_SPEED -/

/-- A restart's effects (R28, R40). -/
theorem restartWindows_eq (s : State) : restartWindows s = { s with
    rtu := { s.rtu with
      restarts := s.rtu.restarts + 1, window := .both [], prevCount := .both none, prevPeriod := none
      binIndex := .both none }
    rcu := if s.rtu.run = .measure then ⟨.filling, .both (rcuWindow (conf s).jump)⟩ else s.rcu } := by
  by_cases h : s.rtu.run = .measure <;> simp [restartWindows, windowStart, h, State.onRTU, State.onRCU, conf]

/-- The next attempt's start clears whatever a restart changed (R23, R28). -/
theorem nextAttempt_restartWindows (s : State) : nextAttempt (restartWindows s) = nextAttempt s := by
  by_cases h : s.rtu.run = .measure <;> simp only [nextAttempt, restartWindows_eq, h, if_true, if_false] <;> rfl

/-- The state that the loss of DRIVE_AT_SPEED in a run restarts in (R24, R28; log entry 10). -/
def driveLostIn (s : State) : State := restartWindows { s with rtu := { s.rtu with
  markTimer := none, driveTimer := some 20000000, pulseOn := false, firstMark := false } }

theorem driveLostIn_eq (s : State) : driveLostIn s = { s with
    rtu := { s.rtu with
      driveTimer := some 20000000, markTimer := none, pulseOn := false, restarts := s.rtu.restarts + 1
      window := .both [], prevCount := .both none, prevPeriod := none, binIndex := .both none, firstMark := false }
    rcu := if s.rtu.run = .measure then ⟨.filling, .both (rcuWindow (conf s).jump)⟩ else s.rcu } := by
  rw [driveLostIn, restartWindows_eq]
  rfl

theorem driveLost_eq (s : State) (h : s.rtu.run ≠ .none) : driveLost s =
    if 3 ≤ s.rtu.restarts then endAttempt .slip (driveLostIn s) else driveLostIn s := by
  have hlimit : restartLimit ≤ (driveLostIn s).rtu.restarts ↔ 3 ≤ s.rtu.restarts := by
    simp only [driveLostIn_eq, restartLimit]
    omega
  simp only [driveLost, if_pos h, ← hlimit]
  rfl

/-- Settles O39: the lines by the timer, DRIVE_AT_SPEED by the run, its restarts and its attempt. -/
theorem inputsAreDebounced : Obligations.InputsAreDebounced := by
  intro i v s x drive a
  have hdrive : drive.timer ≠ none → exec (.debounceExpiry .driveAtSpeed) s =
      .next (inputChanged .driveAtSpeed drive.raw a) := exec_debounceExpiry .driveAtSpeed s
  have hup : drive.timer ≠ none → drive.raw = true → exec (.debounceExpiry .driveAtSpeed) s =
      .next (driveAtSpeed a) := fun ht hraw => (hdrive ht).trans (by rw [hraw]; rfl)
  have hdown : drive.timer ≠ none → drive.raw = false → exec (.debounceExpiry .driveAtSpeed) s =
      .next (driveLost a) := fun ht hraw => (hdrive ht).trans (by rw [hraw]; rfl)
  have hlost : s.rtu.run ≠ .none → driveLost a =
      if 3 ≤ s.rtu.restarts then endAttempt .slip (driveLostIn a) else driveLostIn a := driveLost_eq a
  have hlast : drive.timer ≠ none → drive.raw = false → s.rtu.run ≠ .none → 3 ≤ s.rtu.restarts →
      exec (.debounceExpiry .driveAtSpeed) s = .next (endAttempt .slip (driveLostIn a)) := fun ht hraw hrun hr => by
    rw [hdown ht hraw, hlost hrun, if_pos hr]
  have hkeeps : KeepsBut [.rtu, .rcu] a (driveLostIn a) := by
    rw [driveLostIn_eq]
    exact keepsBut_run a _ _
  have hattempt : (driveLostIn a).rtu.attempt = s.rtu.attempt := by rw [driveLostIn_eq]; rfl
  have hrun' : (driveLostIn a).rtu.run = s.rtu.run := by rw [driveLostIn_eq]; rfl
  refine ⟨?_, fun ht => ?_, fun ht => ⟨_, exec_debounceExpiry i s ht, ?_, fun j hj => ?_⟩, fun ht hrun => ?_,
    fun ht hrun hraw => ?_, fun ht hrun hraw hr => ?_, fun ht hrun hraw hr hn => ?_,
    fun ht hrun hst hraw hr hn => ?_, fun c ht hrun hc hraw hr hn => ?_⟩
  · rfl
  · simp only [exec, execDebounceExpiry, x] at ht ⊢
    simp [ht]
  · rw [inputChanged_line]
    exact IIU.line_setLine_same _ _ _
  · rw [inputChanged_line]
    exact IIU.line_setLine_other _ _ hj
  · refine (hdrive ht).trans (congrArg _ ?_)
    cases hraw : drive.raw <;> simp [inputChanged, driveAtSpeed, driveLost, a, hrun]
  · rw [hup ht hraw, driveAtSpeed, if_pos (by exact hrun)]
    rfl
  · rw [hdown ht hraw, hlost hrun, if_neg (by omega), driveLostIn_eq]
    rfl
  · rw [hlast ht hraw hrun hr]
    exact congrArg _ (endAttempt_again .slip { a with rtu := { s.rtu with
      driveTimer := some 20000000, markTimer := none } } _ rfl hn hattempt (nextAttempt_restartWindows _))
  · obtain ⟨hfails, hrcu, hresult⟩ := endAttempt_measure .slip a (driveLostIn a) rfl hkeeps (by rw [hattempt]; exact hn)
      hst (by rw [hrun']; exact hrun)
    refine ⟨_, _, hlast ht hraw (by simp [hrun]) hr, hfails, ?_, hresult, ?_, ?_⟩
    · rw [hrcu, driveLostIn_eq, if_pos (by exact hrun)]
      rfl
    · rw [driveLostIn_eq]
      rfl
    · rw [driveLostIn_eq]
      rfl
  · have hcal : KeepsBut [.rtu] a (driveLostIn a) := by
      rw [driveLostIn_eq, if_neg (by simp [a, hrun])]
      exact keepsBut_rtu a _
    have hends := endAttempt_calibrate .slip c ((s.rtu.slip.get c.wheel).map (·.total)) a (driveLostIn a) rfl hcal
      (by rw [hattempt]; exact hn) (by rw [hrun']; exact hrun) hc (by rw [driveLostIn_eq]; rfl)
    exact ⟨_, hlast ht hraw (by simp [hrun]) hr, hends.1⟩

end Sys2Proof.Machine

/-! PROOFS. The end of a readback: the answer, the command that waited, the end of a calibration
(R37, R181, R190, R191). -/

namespace Sys2Proof.Machine

open Sys2Proof

theorem afterReadback_nil (m : Image) (w : StoreWrite) : afterReadback m w [] = m := rfl

/-- The end of a WRITE_SETTINGS's readback, the command that waited still to be taken (R181, R190). -/
theorem hostWriteEnd_some (m : List (Nat × Byte)) (s : State) (w : StoreWrite) (h : s.ss.hostWrite = some w) :
    hostWriteEnd m s = takeWaiting { s with
      ss := { s.ss with image := afterReadback s.ss.image w m, hostWrite := none }
      out := s.out.grewBy []
        [if afterReadback s.ss.image w m = s.ss.image then .ok .writeSettings []
          else .refused .writeSettings .storeFault] } := by
  simp only [hostWriteEnd, h, readbackFails, decide_eq_true_eq]
  by_cases hread : afterReadback s.ss.image w m = s.ss.image
  · rw [if_neg (not_not_intro hread), if_pos hread]
    simp only [accept, respond, State.onOut, State.onSS, Outputs.grewBy, List.append_nil]
  · rw [if_pos hread, if_neg hread]
    simp only [refuse, respond, State.onOut, State.onSS, Outputs.grewBy, List.append_nil]

/-- A host command at a port that takes no WRITE_SETTINGS is taken at once (R181). -/
theorem exec_instr_taken (k : HostCmd) (p : List Byte) (s : State) (h : s.ss.hostWrite = none) :
    exec (k.instr p) s = .next (takeCommand k p s) := by
  have hsubmit : cpSubmit k p s = takeCommand k p s := by
    simp only [cpSubmit, h, Option.isSome_none, Bool.false_eq_true, if_false]
  rw [← hsubmit]
  cases k <;> rfl

/-- The end of a calibration write's readback (R37, R191). -/
theorem calWriteEnd_some (m : List (Nat × Byte)) (s : State) (w : StoreWrite) (c : CalRun) (h : s.ss.calWrite = some w)
    (hc : s.ss.calRun = some c) : calWriteEnd m s = endCalibration .none
      (if afterReadback s.ss.image w m = s.ss.image then
        .ok .calibrate (calData c .none (calTotal s c.wheel) (some ((conf s).dm.get c.wheel)))
       else .refused .calibrate .storeFault)
      { s with ss := { s.ss with image := afterReadback s.ss.image w m, calWrite := none } } := by
  simp only [calWriteEnd, h, hc, readbackFails, decide_eq_true_eq]
  by_cases hread : afterReadback s.ss.image w m = s.ss.image
  · rw [if_neg (not_not_intro hread), if_pos hread]
    rfl
  · rw [if_pos hread, if_neg hread]
    rfl

/-- Settles O34: the answer by what the readback found, then the waiting command or the end of the calibration. -/
theorem readbackAnswers : Obligations.ReadbackAnswers := by
  intro m s
  refine ⟨fun w hw => ?_, fun hno => ?_, fun w c hw hc => ?_⟩
  · intro after t
    have hend : exec (.settingsWriteDone m) s = .next (takeWaiting { t with cp := s.cp }) :=
      congrArg _ (hostWriteEnd_some m s w hw)
    refine ⟨fun hm => ?_, fun hwait => ?_, fun k p hwait => ?_⟩
    · subst hm
      exact afterReadback_nil _ _
    · rw [hend]
      simp only [takeWaiting, hwait, t]
      simp [← hwait]
    · rw [hend, exec_instr_taken k p t rfl]
      simp only [takeWaiting, hwait]
      rfl
  · simp only [exec, execSettingsWriteDone, hostWriteEnd, hno]
  · intro after
    have hcode : Wheel.code c.wheel = if c.wheel = .l then 0 else 1 := by cases c.wheel <;> rfl
    have hend : exec (.calibrationWriteDone m) s = .next (calWriteEnd m s) := rfl
    rw [calWriteEnd_some m s w c hw hc, endCalibration_eq] at hend
    refine ⟨_, reported .none s.rtu, hend, ?_⟩
    refine ⟨fun b hb => ?_, rfl, rfl, rfl, rfl, rfl, reported_reason _ _, ?_⟩
    · cases b <;> simp_all [Block.same]
    · simp only [after, calData, calTotal, hcode]
      rfl

end Sys2Proof.Machine

/-! PROOFS. The marks: noise, the first valid mark, a steady and an unsteady revolution
(R25 to R28, R33, R34, R41, R47). -/

namespace Sys2Proof.Machine

open Sys2Proof

/-! ## Both wheels' indices supplied -/

theorem LR.get_put_other {α : Type} (p : LR α) {w x : Wheel} (v : α) (h : x ≠ w) : (p.put w v).get x = p.get x := by
  cases w <;> cases x <;> simp_all [LR.put, LR.get]

/-- A sample touches its own wheel's record alone (R38). -/
theorem RCU.sampled_get_other (jump : Nat) {w x : Wheel} (i : Option Nat) (probe : Int) (u : RCU) (h : x ≠ w) :
    (u.sampled jump w i probe).wheel.get x = u.wheel.get x := by
  unfold RCU.sampled
  split
  · dsimp only
    split
    · exact LR.get_put_other _ _ h
    · rfl
  · rfl

/-- An index brought up to date touches no count that an index is made of (R33). -/
theorem RTU.indexOf_indexed (w x : Wheel) (u : RTU) : (u.indexed x).indexOf w = u.indexOf w := by
  unfold RTU.indexed
  split <;> rfl

/-- An index supplied that finds no 17th lift-off (R33, R34, R41, R46). -/
theorem supply_supplied (w : Wheel) (probe : Int) (s : State)
    (h : ((s.rcu.sampled (conf s).jump w (s.rtu.indexOf w) probe).wheel.get w).liftRev < 17 ∨
      ((s.rcu.sampled (conf s).jump w (s.rtu.indexOf w) probe).wheel.get w).liftRev = (s.rcu.wheel.get w).liftRev) :
    supply w probe s = { s with
      rtu := s.rtu.indexed w, rcu := s.rcu.sampled (conf s).jump w (s.rtu.indexOf w) probe } := by
  cases hindex : s.rtu.indexOf w with
  | none =>
    rw [supply_none w probe s hindex]
    simp only [RTU.indexed, RCU.sampled, hindex]
  | some k =>
    simp only [hindex, RCU.sampled] at h ⊢
    rw [supply_some w probe s k hindex]
    by_cases hnew : s.rcu.phase = .filling ∧ (s.rcu.wheel.get w).lastIndex ≠ some (min 255 k)
    · simp only [if_pos hnew, LR.get_put_same] at h ⊢
      rw [if_neg, ← hnew.1]
      · rfl
      · simp only [sampledAt]
        omega
    · simp only [if_neg hnew]

/-- Both indices supplied at the classing of a mark pulse, neither finding a 17th lift-off (R34, R41; log entry 8). -/
theorem supplyBins_supplied (probe : LR Int) (s : State)
    (h : ∀ w : Wheel, ((markSupplied probe s).rcu.wheel.get w).liftRev < 17 ∨
      ((markSupplied probe s).rcu.wheel.get w).liftRev = (s.rcu.wheel.get w).liftRev) :
    supplyBins probe s = markSupplied probe s := by
  have hl := h .l
  have hr := h .r
  simp only [markSupplied, RCU.sampled_get_other _ _ _ _ (show Wheel.l ≠ .r by decide)] at hl
  have hleft := supply_supplied .l probe.l s hl
  have hright := supply_supplied .r probe.r (supply .l probe.l s)
  simp only [hleft, RTU.indexOf_indexed, conf, RCU.sampled_get_other _ _ _ _ (show Wheel.r ≠ .l by decide)] at hright
  simp only [supplyBins, hleft]
  exact hright hr

/-! ## The trailing edge -/

/-- The state at the end of a mark pulse (R25). -/
def pulseEnded (s : State) : State := { s with rtu := { s.rtu with pulseOn := false } }

/-- The counts restarted by a valid mark (R27). -/
def marked (s : State) : RTU := { s.rtu with
  pulseOn := false, firstMark := true, lastMark := some s.rtu.capture, count := s.rtu.pulseCount
  markTimer := some 4000000 }

/-- The RCU at a valid mark: the lift-offs of the revolution start anew (R47). -/
def markedRcu (u : RCU) : RCU :=
  if u.phase = .filling then ⟨.filling, ⟨{ u.wheel.l with liftRev := 0 }, { u.wheel.r with liftRev := 0 }⟩⟩ else u

/-- The state that a steady mark leaves before the indices are supplied or the window is closed (R27). -/
def steadyMark (s : State) : State :=
  let n : LR Nat := ⟨s.rtu.count.l - s.rtu.pulseCount.l, s.rtu.count.r - s.rtu.pulseCount.r⟩
  { s with
    rcu := markedRcu s.rcu
    rtu := { marked s with
      window := ⟨s.rtu.window.l ++ [n.l], s.rtu.window.r ++ [n.r]⟩, prevCount := ⟨some n.l, some n.r⟩
      prevPeriod := some (s.rtu.capture - s.rtu.lastMark.getD 0#32).toNat } }

/-- The state in which an unsteady mark restarts (R28). -/
def unsteadyMark (s : State) : State :=
  restartWindows { pulseEnded s with rcu := markedRcu s.rcu }

/-- A steady mark, by the state `x` that its push leaves (R27, R29, R34). -/
theorem validMark_steady (probe : LR Int) (s x : State) (hfirst : s.rtu.firstMark = true)
    (hperiod : unsteady (periodOf s.rtu.capture s.rtu.lastMark) s.rtu.prevPeriod = false)
    (hx : (newRevolution s).onRTU (pushRevolution s.rtu.capture (periodOf s.rtu.capture s.rtu.lastMark)) = x) :
    validMark probe s = if 8 ≤ x.rtu.window.l.length ∧ 8 ≤ x.rtu.window.r.length then closeAttempt x
      else supplyBins probe x := by
  simp only [validMark, hfirst, if_true, hperiod, Bool.false_eq_true, if_false, hx, LR.all, Bool.and_eq_true,
    decide_eq_true_eq]

/-- An unsteady mark, by the state `x` that its restart leaves (R28). -/
theorem validMark_unsteady (probe : LR Int) (s x : State) (hfirst : s.rtu.firstMark = true)
    (hperiod : unsteady (periodOf s.rtu.capture s.rtu.lastMark) s.rtu.prevPeriod = true)
    (hx : restartWindows (newRevolution s) = x) :
    validMark probe s = if 4 ≤ x.rtu.restarts then endAttempt .slip x else x.onRTU (firstMark s.rtu.capture) := by
  simp only [validMark, hfirst, if_true, hperiod, hx, restartLimit]

section Trailing

variable (probe : LR Int) (s : State) (hrun : s.rtu.run ≠ .none) (hspeed : level s .driveAtSpeed = true)
  (hon : s.rtu.pulseOn = true)

include hrun hspeed hon

theorem exec_trailingEdge : exec (.markTrailingEdge probe) s = .next (markPulseEnd probe s) := by
  simp only [exec, execMarkTrailingEdge, (counting_iff s).2 ⟨hrun, hspeed⟩, hon, Bool.and_self, if_true]

theorem exec_noise (hw : s.rtu.pulseWidth < 2) : exec (.markTrailingEdge probe) s =
    .next (supplyBins probe (pulseEnded s)) := by
  rw [exec_trailingEdge probe s hrun hspeed hon, markPulseEnd, if_pos hw]
  rfl

variable (hw : 2 ≤ s.rtu.pulseWidth)

include hw

theorem exec_validMark : exec (.markTrailingEdge probe) s =
    .next (validMark probe (pulseEnded s)) := by
  rw [exec_trailingEdge probe s hrun hspeed hon, markPulseEnd, if_neg (by omega)]
  rfl

/-- The first valid mark starts the counting (R27). -/
theorem exec_firstMark (hfirst : s.rtu.firstMark = false) :
    exec (.markTrailingEdge probe) s = .next { s with rtu := marked s, rcu := markedRcu s.rcu } := by
  rw [exec_validMark probe s hrun hspeed hon hw, validMark, newRevolution_eq]
  simp only [pulseEnded, hfirst, Bool.false_eq_true, if_false]
  rfl

variable (hfirst : s.rtu.firstMark = true)

include hfirst

/-- A steady mark pushes its revolution, and closes the window or supplies the indices (R27, R29, R34). -/
theorem exec_steadyMark
    (hsteady : ¬ ∃ q, s.rtu.prevPeriod = some q ∧
      (q : Int) < 4 * |(((s.rtu.capture - s.rtu.lastMark.getD 0#32).toNat : Nat) : Int) - q|) :
    exec (.markTrailingEdge probe) s = .next
      (if 8 ≤ (steadyMark s).rtu.window.l.length ∧ 8 ≤ (steadyMark s).rtu.window.r.length then
        closeAttempt (steadyMark s)
       else supplyBins probe (steadyMark s)) := by
  have hperiod : unsteady (periodOf s.rtu.capture s.rtu.lastMark) s.rtu.prevPeriod = false :=
    Bool.eq_false_iff.2 (mt (unsteady_iff _ _).1 hsteady)
  have hpushed : (newRevolution (pulseEnded s)).onRTU
      (pushRevolution s.rtu.capture (periodOf s.rtu.capture s.rtu.lastMark)) = steadyMark s := by
    rw [newRevolution_eq]
    simp [pulseEnded, steadyMark, marked, pushRevolution, State.onRTU, hfirst, LR.zip, LR.map, periodOf,
      Config.markTime, Config.sec, markedRcu]
  rw [exec_validMark probe s hrun hspeed hon hw,
    validMark_steady probe (pulseEnded s) (steadyMark s) hfirst hperiod hpushed]

/-- An unsteady mark restarts, or ends its attempt with the fourth restart (R28). -/
theorem exec_unsteadyMark
    (hunsteady : ∃ q, s.rtu.prevPeriod = some q ∧
      (q : Int) < 4 * |(((s.rtu.capture - s.rtu.lastMark.getD 0#32).toNat : Nat) : Int) - q|) :
    exec (.markTrailingEdge probe) s = .next
      (if 3 ≤ s.rtu.restarts then endAttempt .slip (unsteadyMark s)
       else (unsteadyMark s).onRTU (firstMark s.rtu.capture)) := by
  have hperiod : unsteady (periodOf s.rtu.capture s.rtu.lastMark) s.rtu.prevPeriod = true :=
    (unsteady_iff _ _).2 hunsteady
  have hrestarted : restartWindows (newRevolution (pulseEnded s)) = unsteadyMark s := by
    rw [newRevolution_eq]
    rfl
  have hlimit : 4 ≤ (unsteadyMark s).rtu.restarts ↔ 3 ≤ s.rtu.restarts := by
    simp only [unsteadyMark, restartWindows_eq, pulseEnded]
    omega
  rw [exec_validMark probe s hrun hspeed hon hw, validMark_unsteady probe (pulseEnded s) (unsteadyMark s) hfirst hperiod
    hrestarted]
  simp only [hlimit]
  rfl

end Trailing

theorem unsteadyMark_eq (s : State) : unsteadyMark s = { s with
    rtu := { s.rtu with
      pulseOn := false, restarts := s.rtu.restarts + 1, window := .both [], prevCount := .both none, prevPeriod := none
      binIndex := .both none }
    rcu := if s.rtu.run = .measure then ⟨.filling, .both (rcuWindow (conf s).jump)⟩ else markedRcu s.rcu } := by
  rw [unsteadyMark, restartWindows_eq]
  rfl

/-- Settles O45: the trailing edge by the pulse's width and by its revolution. -/
theorem marksBoundRevolutions : Obligations.MarksBoundRevolutions := by
  intro probe s allowed u lead trail period unst rcu mkd noise steady noLimit
  have hattempt : (unsteadyMark s).rtu.attempt = u.attempt := by rw [unsteadyMark_eq]
  have hrun' : (unsteadyMark s).rtu.run = u.run := by rw [unsteadyMark_eq]
  refine ⟨fun h => ⟨?_, ?_⟩, fun h => ?_, fun hoff => ?_, fun ⟨h1, h2⟩ hon hw hno => ?_, fun ⟨h1, h2⟩ hon hw hfirst => ?_,
    fun ⟨h1, h2⟩ hon hw hfirst hs hlen hno => ?_, fun ⟨h1, h2⟩ hon hw hfirst hs hr => ?_,
    fun ⟨h1, h2⟩ hon hw hfirst hs hr => ⟨fun hn => ?_, fun hn hrun hst => ?_, fun c hn hrun hc => ?_⟩⟩
  · simp only [lead, exec, execMarkLeadingEdge, Bool.eq_false_iff.2 (mt (counting_iff s).1 h), Bool.false_eq_true,
      if_false]
  · simp only [trail, exec, execMarkTrailingEdge, Bool.eq_false_iff.2 (mt (counting_iff s).1 h), Bool.false_and,
      Bool.false_eq_true, if_false]
  · simp only [lead, exec, execMarkLeadingEdge, (counting_iff s).2 h, if_true]
    rfl
  · simp only [trail, exec, execMarkTrailingEdge, show s.rtu.pulseOn = false from hoff, Bool.and_false, Bool.false_eq_true,
      if_false]
  · rw [← supplyBins_supplied probe noise hno]
    exact exec_noise probe s h1 h2 hon hw
  · exact exec_firstMark probe s h1 h2 hon hw hfirst
  · have hseven : s.rtu.window.l.length < 7 ∨ s.rtu.window.r.length < 7 := hlen
    have hshort : ¬(8 ≤ (steadyMark s).rtu.window.l.length ∧ 8 ≤ (steadyMark s).rtu.window.r.length) := by
      simp only [steadyMark, List.length_append, List.length_singleton]
      omega
    have htrail := exec_steadyMark probe s h1 h2 hon hw hfirst hs
    rw [if_neg hshort] at htrail
    rw [← supplyBins_supplied probe steady hno]
    exact htrail
  · have htrail := exec_unsteadyMark probe s h1 h2 hon hw hfirst hs
    rw [if_neg (not_le.2 hr), unsteadyMark_eq] at htrail
    exact htrail
  · have htrail := exec_unsteadyMark probe s h1 h2 hon hw hfirst hs
    rw [if_pos hr] at htrail
    exact htrail.trans (congrArg _ (endAttempt_again .slip { s with rcu := rcu } _ rfl hn hattempt
      (nextAttempt_restartWindows _)))
  · have htrail := exec_unsteadyMark probe s h1 h2 hon hw hfirst hs
    rw [if_pos hr] at htrail
    have hkeeps : KeepsBut [.rtu, .rcu] s (unsteadyMark s) := by
      rw [unsteadyMark_eq]
      exact keepsBut_run s _ _
    obtain ⟨hfails, hrcu, hresult⟩ := endAttempt_measure .slip s _ rfl hkeeps (hattempt ▸ hn) hst (hrun'.trans hrun)
    refine ⟨_, _, htrail, hfails, ?_, hresult, ?_⟩
    · rw [hrcu, unsteadyMark_eq, if_pos hrun]
      rfl
    · rw [unsteadyMark_eq]
      exact ⟨rfl, rfl, rfl⟩
  · have htrail := exec_unsteadyMark probe s h1 h2 hon hw hfirst hs
    rw [if_pos hr] at htrail
    have hkeeps : KeepsBut [.rtu] { s with rcu := rcu } (unsteadyMark s) := by
      rw [unsteadyMark_eq, if_neg (by simp [show s.rtu.run = .calibrate from hrun])]
      exact keepsBut_rtu { s with rcu := rcu } _
    obtain ⟨hends, hresult⟩ := endAttempt_calibrate .slip c ((u.slip.get c.wheel).map (·.total))
      { s with rcu := rcu } _ rfl
      hkeeps (hattempt ▸ hn) (hrun'.trans hrun) hc (by rw [unsteadyMark_eq])
    refine ⟨_, _, htrail, hends, hresult, ?_⟩
    rw [unsteadyMark_eq]
    exact ⟨rfl, rfl, rfl⟩

end Sys2Proof.Machine

/-! PROOFS. The eighth revolution: the slip test, the diameters, the runouts and the end of a calibration run
(R29 to R32, R36, R37, R48, R49, R55). -/

namespace Sys2Proof.Machine

open Sys2Proof

/-! ## The slip test -/

theorem slipPasses_iff (tolerance : Nat) (c : List Nat) : slipPasses (slipTest tolerance c) = true ↔
    c.foldl max 0 ≤ c.foldl min (c.headD 0) + c.sum / 8 * tolerance / 1000 := by
  simp only [slipPasses, decide_eq_true_eq]
  exact Nat.sub_le_iff_le_add'

/-- The state in which the slip test of a window has been made (R29). -/
def slipTested (slip : LR (Option SlipResult)) (s : State) : State :=
  { s with rtu := { s.rtu with markTimer := none, binIndex := .both none, slip := slip } }

/-- A measurement run's window closed (R29 to R31). -/
theorem closeAttempt_measure (s : State) (cl cr : List Nat) (hrun : s.rtu.run = .measure)
    (hwin : s.rtu.window = ⟨cl, cr⟩) :
    closeAttempt s =
      let figures := slipTest (conf s).slip
      let x := slipTested ⟨some (figures cl), some (figures cr)⟩ s
      if slipPasses (figures cl) = true ∧ slipPasses (figures cr) = true then measureClosed ⟨cl.sum, cr.sum⟩ x
      else endAttempt .slip x := by
  have hmatch : closeAttempt s =
      (let r := s.rtu.window.map (slipTest (conf s).slip)
       let x := slipTested (r.map some) s
       if r.all slipPasses then measureClosed (r.map (·.total)) x else endAttempt .slip x) := by
    simp only [closeAttempt, hrun]
    cases s.ss.calRun <;> rfl
  rw [hmatch, hwin]
  simp only [LR.map, LR.all, Bool.and_eq_true]
  rfl

/-- A calibration run's window closed: the named wheel alone is tested (R36). -/
theorem closeAttempt_calibrate (s : State) (x : CalRun) (hrun : s.rtu.run = .calibrate) (hx : s.ss.calRun = some x) :
    closeAttempt s =
      let c := s.rtu.window.get x.wheel
      let figures := slipTest (conf s).slip c
      let y := slipTested (s.rtu.slip.put x.wheel (some figures)) s
      if slipPasses figures = true then calibrateClosed x c.sum y else endAttempt .slip y := by
  simp only [closeAttempt, hrun, hx, LR.get_map]
  rfl

/-! ## The next attempt after a window -/

/-- The next attempt clears what a mark and a slip test changed (R23). -/
theorem nextAttempt_slipTested (slip : LR (Option SlipResult)) (s : State) (hspeed : level s .driveAtSpeed = true) :
    nextAttempt (slipTested slip (steadyMark s)) = nextAttempt { s with rcu := markedRcu s.rcu } := by
  have hsteady : level (slipTested slip (steadyMark s)) .driveAtSpeed = true := hspeed
  have hmarked : level { s with rcu := markedRcu s.rcu } .driveAtSpeed = true := hspeed
  simp only [nextAttempt, hsteady, hmarked, if_true]
  rfl

/-- In a measurement run the next attempt empties the RCU (R23, R40). -/
theorem nextAttempt_rcu (s : State) (v : RCU) (hrun : s.rtu.run = .measure) :
    nextAttempt { s with rcu := v } = nextAttempt s := by
  simp only [nextAttempt, hrun, if_true]
  rfl

/-! ## Diameters and runouts -/

theorem inDiameterRange_iff (d : Nat) : inDiameterRange d = true ↔ 600000 ≤ d ∧ d ≤ 1300000 := by
  simp only [inDiameterRange, Bool.and_eq_true, decide_eq_true_eq]
  rfl

/-- A diameter is even and rounded half up to the nearest multiple of 2 µm (R31). -/
theorem diameterOf_rounds (dm e total : Nat) (he : 0 < e) (hd : 0 < diameterOf dm e total) :
    diameterOf dm e total % 2 = 0 ∧ 8 * e * (diameterOf dm e total - 1) ≤ dm * total ∧
    dm * total < 8 * e * (diameterOf dm e total + 1) := by
  unfold diameterOf at hd ⊢
  have hlow := Nat.div_mul_le_self (dm * total + 8 * e) (16 * e)
  have hhigh := Nat.lt_div_mul_add (a := dm * total + 8 * e) (b := 16 * e) (by omega)
  generalize (dm * total + 8 * e) / (16 * e) = q at *
  obtain ⟨p, rfl⟩ : ∃ p, q = p + 1 := ⟨q - 1, by omega⟩
  refine ⟨by omega, ?_, ?_⟩
  · have : 8 * e * (2 * (p + 1) - 1) + 8 * e = (p + 1) * (16 * e) := by
      rw [show 2 * (p + 1) - 1 = 2 * p + 1 by omega]
      ring
    omega
  · have : 8 * e * (2 * (p + 1) + 1) = (p + 1) * (16 * e) + 8 * e := by ring
    omega

/-- A diameter in range is one of a wheel whose encoder gives counts: with none the quotient is 0. -/
theorem diameterOf_counts (dm e total : Nat) (h : 600000 ≤ diameterOf dm e total) : 0 < e := by
  rcases Nat.eq_zero_or_pos e with rfl | he
  · simp [diameterOf] at h
  · exact he

/-- The close of a window handed on: the diameters to the FE, the drive stopped (R31, R32). -/
def diametersHanded (d : LR Nat) (s : State) : State :=
  let u := { s.rtu with diameter := d.map some }
  { s with
    rtu := { u with
      handed := some (rtuSnapshot .none u), run := .none, attempt := 0, driveTimer := none, markTimer := none }
    fe := { s.fe with
      fit := { s.fe.fit with diameter := some (d.map fun (x : Nat) => (x : Int)), state := .collecting } }
    out := s.out.grewBy [.stop] [] }

/-- A window that passed the slip test, by its diameters (R31, R32). -/
theorem measureClosed_eq (total d : LR Nat) (s : State)
    (hd : d = ⟨diameterOf (conf s).dm.l (conf s).counts.l total.l,
      diameterOf (conf s).dm.r (conf s).counts.r total.r⟩) :
    measureClosed total s = if d.all inDiameterRange = true then closeRcu (diametersHanded d s)
      else endRun .diameterRange { s with rtu := { s.rtu with diameter := d.map some } } := by
  subst hd
  simp only [measureClosed, leaveRun_eq]
  rfl

/-- With every bin present the runouts are handed on and SWEEP is ordered on the L side (R48, R55). -/
theorem closeRcu_complete (s : State) (hl : s.rcu.wheel.l.bins.all Option.isSome = true)
    (hr : s.rcu.wheel.r.bins.all Option.isSome = true) :
    let ρ : LR Int := ⟨spreadOf (s.rcu.wheel.l.bins.filterMap id), spreadOf (s.rcu.wheel.r.bins.filterMap id)⟩
    closeRcu s = { s with
      rcu := ⟨.held, ⟨{ s.rcu.wheel.l with candidate := none, runout := some ρ.l },
        { s.rcu.wheel.r with candidate := none, runout := some ρ.r }⟩⟩
      ptu := { s.ptu with phase := .sweepL, sweepTimer := some 60000000 }
      fe := { s.fe with fit := { s.fe.fit with runout := some ρ } }
      out := s.out.grewBy [.sweep .l] [] } := by
  have hall : (holdRcu s).rcu.wheel.all binsComplete = true := by
    simp [holdRcu, LR.map, LR.all, binsComplete, hl, hr]
  simp only [closeRcu, hall, if_true, startSweep, order, State.onOut, State.onPTU, State.onFE, State.onRCU,
    Outputs.grewBy, List.append_nil]
  rfl

/-- With a bin absent the measurement ends (R48, R49). -/
theorem closeRcu_incomplete (s : State)
    (h : s.rcu.wheel.l.bins.all Option.isSome = false ∨ s.rcu.wheel.r.bins.all Option.isSome = false) :
    closeRcu s = measurementFails .runoutIncomplete (holdRcu s) := by
  have hall : (holdRcu s).rcu.wheel.all binsComplete = false := by
    rcases h with h | h <;> simp [holdRcu, LR.map, LR.all, binsComplete, h]
  simp only [closeRcu, hall, Bool.false_eq_true, if_false]

/-- A valid mark empties no bin (R47). -/
theorem markedRcu_bins (u : RCU) (w : Wheel) : ((markedRcu u).wheel.get w).bins = (u.wheel.get w).bins := by
  unfold markedRcu
  split
  · cases w <;> rfl
  · rfl

/-! ## The end of a calibration run -/

/-- What the end of a calibration run with a write leaves alone. -/
theorem keepsBut_store (s : State) (u : RTU) (v : RCU) (t : SS) (o : Outputs) :
    KeepsBut [.rtu, .rcu, .ss, .out] s { s with rtu := u, rcu := v, ss := t, out := o } := by
  intro b hb
  cases b <;> simp_all [Block.same]

/-- A new measuring-wheel diameter, pulses having been counted (R36). -/
theorem newMeasuring_eq (e dRef total : Nat) (h : 0 < total) :
    newMeasuring e dRef total = (16 * e * dRef + total) / (2 * total) := if_neg (by omega)

/-- A calibration run's window that passed the slip test (R36, R37, R191). -/
theorem calibrateClosed_eq (x : CalRun) (total d : Nat) (s : State)
    (hd : d = newMeasuring ((conf s).counts.get x.wheel) x.dRef total) : calibrateClosed x total s =
    if 100000 ≤ d ∧ d ≤ 250000 then
      let b := beginWrite s.ss.image (dmOffset x.wheel) (be4 d)
      { leaveRun .none s with
        ss := { s.ss with image := b.1, calWrite := some b.2, calRun := some { x with dNew := some d } } }
    else endCalibration .none (.refused .calibrate .calRange) (leaveRun .none s) := by
  subst hd
  rfl

/-! ## The eighth revolution -/

/-- A measurement run's window tested on both wheels (R29). -/
def windowTested (cl cr : List Nat) (s : State) : State :=
  slipTested ⟨some (slipTest (conf s).slip cl), some (slipTest (conf s).slip cr)⟩ (steadyMark s)

/-- A calibration run's window tested on its wheel (R36). -/
def wheelTested (w : Wheel) (c : List Nat) (s : State) : State :=
  slipTested (s.rtu.slip.put w (some (slipTest (conf s).slip c))) (steadyMark s)

section Window

variable (probe : LR Int) (s : State) (cl cr : List Nat) (hrun : s.rtu.run ≠ .none)
  (hspeed : level s .driveAtSpeed = true) (hon : s.rtu.pulseOn = true) (hw : 2 ≤ s.rtu.pulseWidth)
  (hfirst : s.rtu.firstMark = true)
  (hsteady : ∀ q, s.rtu.prevPeriod = some q →
    4 * |(((s.rtu.capture - s.rtu.lastMark.getD 0#32).toNat : Nat) : Int) - q| ≤ q)
  (hl : s.rtu.window.l ++ [s.rtu.count.l - s.rtu.pulseCount.l] = cl)
  (hr : s.rtu.window.r ++ [s.rtu.count.r - s.rtu.pulseCount.r] = cr)

include hl hr

theorem steadyMark_window : (steadyMark s).rtu.window = ⟨cl, cr⟩ := by
  subst hl hr
  rfl

variable (hcl : 8 ≤ cl.length) (hcr : 8 ≤ cr.length)

include hrun hspeed hon hw hfirst hsteady hcl hcr

/-- The steady mark that ends the eighth revolution closes the window (R29). -/
theorem exec_windowClosed : exec (.markTrailingEdge probe) s = .next (closeAttempt (steadyMark s)) := by
  have htrail := exec_steadyMark probe s hrun hspeed hon hw hfirst
    fun ⟨q, hq, hlt⟩ => absurd (hsteady q hq) (not_le.2 hlt)
  rwa [if_pos (by rw [steadyMark_window s cl cr hl hr]; exact ⟨hcl, hcr⟩)] at htrail

/-- A measurement run goes on to its diameters where both wheels pass the slip test (R29, R30). -/
theorem exec_windowClosed_measure (hm : s.rtu.run = .measure) : exec (.markTrailingEdge probe) s = .next
    (if slipPasses (slipTest (conf s).slip cl) = true ∧ slipPasses (slipTest (conf s).slip cr) = true then
      measureClosed ⟨cl.sum, cr.sum⟩ (windowTested cl cr s)
    else endAttempt .slip (windowTested cl cr s)) := by
  rw [exec_windowClosed probe s cl cr hrun hspeed hon hw hfirst hsteady hl hr hcl hcr]
  exact congrArg _ (closeAttempt_measure (steadyMark s) cl cr hm (steadyMark_window s cl cr hl hr))

/-- A calibration run tests its own wheel (R36). -/
theorem exec_windowClosed_calibrate (x : CalRun) (c : List Nat) (hc : c = (LR.mk cl cr).get x.wheel)
    (hk : s.rtu.run = .calibrate) (hx : s.ss.calRun = some x) : exec (.markTrailingEdge probe) s = .next
    (if slipPasses (slipTest (conf s).slip c) = true then calibrateClosed x c.sum (wheelTested x.wheel c s)
    else endAttempt .slip (wheelTested x.wheel c s)) := by
  subst hc
  rw [exec_windowClosed probe s cl cr hrun hspeed hon hw hfirst hsteady hl hr hcl hcr,
    closeAttempt_calibrate (steadyMark s) x hk hx, steadyMark_window s cl cr hl hr]
  rfl

end Window

/-- Settles O46: the window closed by the kind of the run, its slip test and its diameters. -/
theorem windowCloses : Obligations.WindowCloses := by
  intro probe s cl cr u period d dl dr slips figures inRange closed rcu hrun hspeed hon hw hfirst hsteady hl hr hcl hcr
  have hslips : ∀ c, slips c ↔ slipPasses (slipTest (conf s).slip c) = true := fun c => (slipPasses_iff _ _).symm
  have hrange : (LR.mk dl dr).all inDiameterRange = true ↔ inRange dl ∧ inRange dr := by
    simp only [LR.all, Bool.and_eq_true, inDiameterRange_iff, inRange]
  have hmeasure : u.run = .measure → closed = .next
      (if slips cl ∧ slips cr then
        if inRange dl ∧ inRange dr then closeRcu (diametersHanded ⟨dl, dr⟩ (windowTested cl cr s))
        else endRun .diameterRange (windowTested cl cr s |>.onRTU fun v => { v with diameter := ⟨some dl, some dr⟩ })
      else endAttempt .slip (windowTested cl cr s)) := fun hm => by
    have hexec := exec_windowClosed_measure probe s cl cr hrun hspeed hon hw hfirst hsteady hl hr hcl hcr hm
    rw [measureClosed_eq _ ⟨dl, dr⟩ _ rfl] at hexec
    simp only [hslips, ← hrange]
    exact hexec
  refine ⟨fun hst hm h1 h2 h3 h4 => ?_, fun hm hno => ⟨fun hn => ?_, fun hn hst => ?_⟩, fun hm hst h1 h2 hno => ?_,
    fun x hc hx => ?_⟩
  · -- both wheels pass and both diameters are in range
    have hclose := hmeasure hm
    rw [if_pos ⟨h1, h2⟩, if_pos ⟨h3, h4⟩] at hclose
    obtain ⟨heven, hlow, hhigh⟩ := diameterOf_rounds (conf s).dm.l (conf s).counts.l cl.sum
      (diameterOf_counts _ _ _ h3.1) (Nat.lt_of_lt_of_le (by decide) h3.1)
    obtain ⟨y, hy⟩ : ∃ y, y = diametersHanded ⟨dl, dr⟩ (windowTested cl cr s) := ⟨_, rfl⟩
    rw [← hy] at hclose
    have hbins : y.rcu.wheel.l.bins = s.rcu.wheel.l.bins ∧ y.rcu.wheel.r.bins = s.rcu.wheel.r.bins := by
      rw [hy]
      exact ⟨markedRcu_bins s.rcu .l, markedRcu_bins s.rcu .r⟩
    refine ⟨_, hclose, ?_⟩
    by_cases hb : s.rcu.wheel.l.bins.all Option.isSome = true ∧ s.rcu.wheel.r.bins.all Option.isSome = true
    · have habsent : ¬(s.rcu.wheel.l.bins.all Option.isSome = false ∨ s.rcu.wheel.r.bins.all Option.isSome = false) := by
        simp [hb]
      rw [closeRcu_complete y (by rw [hbins.1]; exact hb.1) (by rw [hbins.2]; exact hb.2), hbins.1, hbins.2, hy]
      exact ⟨rfl, rfl, heven, hlow, hhigh, rfl, rfl, rfl, fun _ _ => ⟨rfl, rfl, Outputs.grewBy_grewBy _ _ _ _ _, rfl⟩,
        fun h => absurd h habsent⟩
    · have habsent : s.rcu.wheel.l.bins.all Option.isSome = false ∨ s.rcu.wheel.r.bins.all Option.isSome = false := by
        simpa only [not_and_or, Bool.not_eq_true] using hb
      rw [closeRcu_incomplete y (by rw [hbins.1, hbins.2]; exact habsent),
        measurementFails_eq .runoutIncomplete (holdRcu y) (by decide) (by decide) (by rw [hy]; exact hst), writeResult_eq,
        hy]
      exact ⟨rfl, rfl, heven, hlow, hhigh, rfl, rfl, rfl, fun h h' => absurd ⟨h, h'⟩ hb,
        fun _ => ⟨rfl, rfl, rfl, ⟨_, rfl, reported_reason _ _⟩, rfl⟩⟩
  · -- a wheel beyond its allowance, another attempt
    rw [hmeasure hm, if_neg hno]
    exact congrArg _ (endAttempt_again .slip s _ rfl hn rfl
      ((nextAttempt_slipTested _ s hspeed).trans (nextAttempt_rcu s _ hm)))
  · -- a wheel beyond its allowance in the third attempt
    obtain ⟨hfails, hrcu, hresult⟩ := endAttempt_measure .slip s (windowTested cl cr s) rfl (keepsBut_run s _ _)
      hn hst hm
    exact ⟨_, _, (hmeasure hm).trans (by rw [if_neg hno]), hfails, by rw [hrcu]; rfl, hresult, rfl, rfl⟩
  · -- a diameter out of range
    have hclose := hmeasure hm
    rw [if_pos ⟨h1, h2⟩, if_neg hno] at hclose
    obtain ⟨hfails, hrcu, hresult⟩ := endRun_measure .diameterRange
      (windowTested cl cr s |>.onRTU fun v => { v with diameter := ⟨some dl, some dr⟩ }) (by decide) (by decide) hst hm
    exact ⟨_, _, hclose, hfails.of_run (keepsBut_run s _ _), by rw [hrcu]; rfl, hresult, rfl, rfl⟩
  · -- a calibration run
    intro c dNew
    have hcal : closed = .next
        (if slips c then calibrateClosed x c.sum (wheelTested x.wheel c s)
        else endAttempt .slip (wheelTested x.wheel c s)) := by
      simp only [hslips]
      refine exec_windowClosed_calibrate probe s cl cr hrun hspeed hon hw hfirst hsteady hl hr hcl hcr x c ?_ hc hx
      cases hxw : x.wheel <;> simp only [c, hxw, LR.get]
    have hkeeps : KeepsBut [.rtu] { s with rcu := rcu } (wheelTested x.wheel c s) :=
      keepsBut_rtu { s with rcu := rcu } _
    have hnew : 0 < c.sum → dNew = newMeasuring ((conf (wheelTested x.wheel c s)).counts.get x.wheel) x.dRef c.sum :=
      fun hpos => (newMeasuring_eq _ _ _ hpos).symm
    refine ⟨fun hs hpos hlow hhigh => ?_, fun hs hpos hout => ?_, fun hs hn => ?_, fun hs hn => ?_⟩
    · rw [if_pos hs, calibrateClosed_eq x c.sum dNew _ (hnew hpos), if_pos ⟨hlow, hhigh⟩, leaveRun_eq] at hcal
      refine ⟨_, hcal, keepsBut_store s _ _ _ _, rfl, rfl, rfl, rfl, ?_⟩
      cases hxw : x.wheel <;> rfl
    · rw [if_pos hs, calibrateClosed_eq x c.sum dNew _ (hnew hpos), if_neg hout] at hcal
      have hends := endCalibration_ends .none (.refused .calibrate .calRange) (wheelTested x.wheel c s)
      exact ⟨_, hcal, hends.of_run hkeeps⟩
    · rw [hcal, if_neg hs]
      exact congrArg _ (endAttempt_again .slip { s with rcu := rcu } _ rfl hn rfl (nextAttempt_slipTested _ s hspeed))
    · rw [if_neg hs] at hcal
      obtain ⟨hends, -⟩ := endAttempt_calibrate .slip x (some c.sum) { s with rcu := rcu } (wheelTested x.wheel c s) rfl
        hkeeps hn hc hx (by simp only [wheelTested, slipTested, LR.get_put_same]; rfl)
      exact ⟨_, hcal, hends⟩

end Sys2Proof.Machine

/-! PROOFS. What the start reads stands until the next reset, operation by operation (R20, R67, R180, R187, R190, R191,
R193, R194). -/

namespace Sys2Proof.Machine

open Sys2Proof

/-! ## What the operations leave of the start's values -/

/-- What the start reads into the Settings Store, the image apart (R187, R192, R193). -/
def SS.started (t : SS) : Settings × Straps × BitVec 16 := (t.startCopy, t.straps, t.digest)

/-- The image, the two writes and the calibration are no part of what the start reads. -/
@[simp] theorem SS.started_with (t : SS) (i : Image) (h : Option StoreWrite) (w : Option StoreWrite)
    (r : Option CalRun) :
    ({ t with image := i, hostWrite := h, calWrite := w, calRun := r } : SS).started = t.started := rfl

/-! ### The ceiling, the plan and the passes -/

@[simp] theorem changeCeiling_started (st : CeilStatus) (v : Option (LR Int)) (s : State) :
    (changeCeiling st v s).fe.variants = s.fe.variants := by
  simp [changeCeiling]

@[simp] theorem offerCeiling_started (offer : LR Int) (s : State) :
    (offerCeiling offer s).1.fe.variants = s.fe.variants := by
  simp only [offerCeiling, takeCeiling]; (repeat' split) <;> simp

@[simp] theorem enterCondemned_started (s : State) : (enterCondemned s).fe.variants = s.fe.variants := by
  simp only [enterCondemned]; (repeat' split) <;> simp

@[simp] theorem condemnationFound_started (s : State) : (condemnationFound s).fe.variants = s.fe.variants := by
  simp only [condemnationFound]; (repeat' split) <;> simp

@[simp] theorem build_started (n : Nat) (s : State) : (build n s).fe.variants = s.fe.variants := by
  induction n generalizing s with
  | zero => simp [build]
  | succ n ih =>
    simp only [build]
    split
    · simp
    · rename_i o _
      have h := offerCeiling_started o s
      revert h
      split <;> rename_i h2 <;> rw [h2] <;> intro h <;> simp_all

@[simp] theorem handTargets_started (r : State × Bool) : (handTargets r).fe.variants = r.1.fe.variants := by
  simp only [handTargets, targetsChanged]; (repeat' split) <;> simp

@[simp] theorem ownCeilingChanged_started (s : State) : (ownCeilingChanged s).fe.variants = s.fe.variants := by
  simp only [ownCeilingChanged]; (repeat' split) <;> simp

@[simp] theorem afterOffer_started (r : State × OfferResult) : (afterOffer r).fe.variants = r.1.fe.variants := by
  obtain ⟨s, x⟩ := r
  cases x <;> simp [afterOffer]

@[simp] theorem completePass_started (p : Pass) (s : State) : (completePass p s).fe.variants = s.fe.variants := by
  simp only [completePass, owedBuild]; (repeat' split) <;> simp

@[simp] theorem abortPass_started (p : Pass) (why : AbortReason) (s : State) :
    (abortPass p why s).fe.variants = s.fe.variants := by
  have hoffer : ∀ r : State × OfferResult, (afterAbortOffer r).fe.variants = r.1.fe.variants := fun ⟨s, x⟩ => by
    cases x <;> simp [afterAbortOffer]
  simp [abortPass, hoffer]

@[simp] theorem retractTest_started (s : State) : (retractTest s).fe.variants = s.fe.variants := by
  simp only [retractTest]; (repeat' split) <;> simp

@[simp] theorem abortToAborting_started (p : Pass) (why : AbortReason) (s : State) :
    (abortToAborting p why s).fe.variants = s.fe.variants := by
  simp [abortToAborting]

/-! ### The measurement and the fit -/

@[simp] theorem writeResult_started (why : Reason) (s : State) :
    (writeResult why s).rtu.counter = s.rtu.counter ∧ (writeResult why s).result.start = s.result.start := by
  simp [writeResult]

@[simp] theorem measurementFails_started (why : Reason) (s : State) :
    (measurementFails why s).rtu.counter = s.rtu.counter ∧
    (measurementFails why s).result.start = s.result.start := by
  simp only [measurementFails]; (repeat' split) <;> simp

@[simp] theorem offerFit_started (c : LR Int) (s : State) : (offerFit c s).1.fe.variants = s.fe.variants := by
  simp only [offerFit, takeCeiling]; (repeat' split) <;> simp

@[simp] theorem endFit_started (r : State × OfferResult) :
    (endFit r).fe.variants = r.1.fe.variants ∧ (endFit r).rtu.counter = r.1.rtu.counter ∧
    (endFit r).result.start = r.1.result.start := by
  obtain ⟨s, x⟩ := r
  cases x <;> simp [endFit, setFitState]

@[simp] theorem runFit_started (worn : LR (List (Option Int))) (s : State) :
    (runFit worn s).fe.variants = s.fe.variants ∧ (runFit worn s).rtu.counter = s.rtu.counter ∧
    (runFit worn s).result.start = s.result.start := by
  simp only [runFit]; (repeat' split) <;> simp

@[simp] theorem endSweep_started (w : Wheel) (s : State) :
    (endSweep w s).fe.variants = s.fe.variants ∧ (endSweep w s).rtu.counter = s.rtu.counter ∧
    (endSweep w s).result.start = s.result.start := by
  simp only [endSweep]; (repeat' split) <;> simp

/-! ### Runs and attempts -/

@[simp] theorem attemptStart_started (s : State) : (attemptStart s).rtu.counter = s.rtu.counter := by
  simp [attemptStart]

@[simp] theorem startRun_started (k : RunKind) (s : State) : (startRun k s).rtu.counter = s.rtu.counter := by
  simp [startRun]

@[simp] theorem startMeasurement_started (s : State) :
    (startMeasurement s).fe.variants = s.fe.variants ∧ (startMeasurement s).rtu.counter = s.rtu.counter := by
  simp [startMeasurement]

@[simp] theorem leaveRun_started (why : Reason) (s : State) : (leaveRun why s).rtu.counter = s.rtu.counter := by
  simp [leaveRun]

@[simp] theorem endCalibration_started (why : Reason) (r : Response) (s : State) :
    (endCalibration why r s).rtu.counter = s.rtu.counter ∧ (endCalibration why r s).result.start = s.result.start ∧
    (endCalibration why r s).ss.started = s.ss.started ∧ (endCalibration why r s).ss.image = s.ss.image := by
  simp [endCalibration]

@[simp] theorem calibrationFails_started (why : Reason) (s : State) :
    (calibrationFails why s).rtu.counter = s.rtu.counter ∧ (calibrationFails why s).result.start = s.result.start ∧
    (calibrationFails why s).ss.started = s.ss.started ∧ (calibrationFails why s).ss.image = s.ss.image := by
  simp only [calibrationFails]; (repeat' split) <;> simp

@[simp] theorem endRun_started (why : Reason) (s : State) :
    (endRun why s).rtu.counter = s.rtu.counter ∧ (endRun why s).result.start = s.result.start ∧
    (endRun why s).ss.started = s.ss.started ∧ (endRun why s).ss.image = s.ss.image := by
  simp only [endRun]; (repeat' split) <;> simp

@[simp] theorem endAttempt_started (why : Reason) (s : State) :
    (endAttempt why s).rtu.counter = s.rtu.counter ∧ (endAttempt why s).result.start = s.result.start ∧
    (endAttempt why s).ss.started = s.ss.started ∧ (endAttempt why s).ss.image = s.ss.image := by
  simp only [endAttempt]; (repeat' split) <;> simp

@[simp] theorem cutMeasurement_started (why : Reason) (s : State) :
    (cutMeasurement why s).rtu.counter = s.rtu.counter ∧ (cutMeasurement why s).result.start = s.result.start ∧
    (cutMeasurement why s).ss.started = s.ss.started ∧ (cutMeasurement why s).ss.image = s.ss.image := by
  simp only [cutMeasurement]; (repeat' split) <;> simp

@[simp] theorem closeRcu_started (s : State) :
    (closeRcu s).fe.variants = s.fe.variants ∧ (closeRcu s).rtu.counter = s.rtu.counter ∧
    (closeRcu s).result.start = s.result.start := by
  simp only [closeRcu]; (repeat' split) <;> simp

@[simp] theorem measureClosed_started (total : LR Nat) (s : State) :
    (measureClosed total s).fe.variants = s.fe.variants ∧ (measureClosed total s).rtu.counter = s.rtu.counter ∧
    (measureClosed total s).result.start = s.result.start ∧ (measureClosed total s).ss.started = s.ss.started := by
  simp only [measureClosed]; (repeat' split) <;> simp

/-- A calibration that succeeds writes the image and nothing else of the store (R191). -/
@[simp] theorem calibrateClosed_started (c : CalRun) (total : Nat) (s : State) :
    (calibrateClosed c total s).rtu.counter = s.rtu.counter ∧
    (calibrateClosed c total s).result.start = s.result.start ∧
    (calibrateClosed c total s).ss.started = s.ss.started := by
  simp only [calibrateClosed]; split <;> simp

@[simp] theorem closeAttempt_started (s : State) :
    (closeAttempt s).fe.variants = s.fe.variants ∧ (closeAttempt s).rtu.counter = s.rtu.counter ∧
    (closeAttempt s).result.start = s.result.start ∧ (closeAttempt s).ss.started = s.ss.started := by
  simp only [closeAttempt]; (repeat' split) <;> simp

@[simp] theorem supply_started (w : Wheel) (probe : Int) (s : State) :
    (supply w probe s).rtu.counter = s.rtu.counter ∧ (supply w probe s).result.start = s.result.start ∧
    (supply w probe s).ss.started = s.ss.started ∧ (supply w probe s).ss.image = s.ss.image := by
  simp only [supply, supplyBin, computeBin]; (repeat' split) <;> simp

@[simp] theorem supplyBins_started (probe : LR Int) (s : State) :
    (supplyBins probe s).rtu.counter = s.rtu.counter ∧ (supplyBins probe s).result.start = s.result.start ∧
    (supplyBins probe s).ss.started = s.ss.started ∧ (supplyBins probe s).ss.image = s.ss.image := by
  simp [supplyBins]

@[simp] theorem encoderPulse_started (w : Wheel) (probe : Int) (s : State) :
    (encoderPulse w probe s).rtu.counter = s.rtu.counter ∧ (encoderPulse w probe s).result.start = s.result.start ∧
    (encoderPulse w probe s).ss.started = s.ss.started ∧ (encoderPulse w probe s).ss.image = s.ss.image := by
  simp only [encoderPulse]; (repeat' split) <;> simp [countPulse]

@[simp] theorem restartWindows_started (s : State) : (restartWindows s).rtu.counter = s.rtu.counter := by
  simp [restartWindows]

@[simp] theorem markPulseEnd_started (probe : LR Int) (s : State) :
    (markPulseEnd probe s).fe.variants = s.fe.variants ∧ (markPulseEnd probe s).rtu.counter = s.rtu.counter ∧
    (markPulseEnd probe s).result.start = s.result.start ∧ (markPulseEnd probe s).ss.started = s.ss.started := by
  simp only [markPulseEnd, validMark]; (repeat' split) <;> simp [firstMark, pushRevolution]

@[simp] theorem driveLost_started (s : State) :
    (driveLost s).rtu.counter = s.rtu.counter ∧ (driveLost s).result.start = s.result.start ∧
    (driveLost s).ss.started = s.ss.started ∧ (driveLost s).ss.image = s.ss.image := by
  simp only [driveLost]; (repeat' split) <;> simp

/-! ### The visit, ESTOP and silence -/

@[simp] theorem visitEnd_started (s : State) :
    (visitEnd s).fe.variants = s.fe.variants ∧ (visitEnd s).rtu.counter = s.rtu.counter ∧
    (visitEnd s).result.start = s.result.start := by
  simp only [visitEnd, clearCeiling]; split <;> simp [clearVisit, RTU.reset]

@[simp] theorem estopActive_started (s : State) :
    (estopActive s).fe.variants = s.fe.variants ∧ (estopActive s).rtu.counter = s.rtu.counter ∧
    (estopActive s).result.start = s.result.start ∧ (estopActive s).ss.started = s.ss.started ∧
    (estopActive s).ss.image = s.ss.image := by
  simp only [estopActive, enterEstop, estopStops]; (repeat' split) <;> simp

@[simp] theorem estopInactive_started (s : State) : (estopInactive s).fe.variants = s.fe.variants := by
  simp only [estopInactive, exitEstop]; (repeat' split) <;> simp

@[simp] theorem listenExpiry_started (s : State) :
    (listenExpiry s).fe.variants = s.fe.variants ∧ (listenExpiry s).rtu.counter = s.rtu.counter ∧
    (listenExpiry s).result.start = s.result.start ∧ (listenExpiry s).ss.started = s.ss.started ∧
    (listenExpiry s).ss.image = s.ss.image := by
  simp only [listenExpiry, endStart]; (repeat' split) <;> simp

@[simp] theorem silence_started (s : State) :
    (silence s).fe.variants = s.fe.variants ∧ (silence s).rtu.counter = s.rtu.counter ∧
    (silence s).result.start = s.result.start ∧ (silence s).ss.started = s.ss.started ∧
    (silence s).ss.image = s.ss.image := by
  simp only [silence, silenceStops]; (repeat' split) <;> simp

/-! ### Host commands -/

@[simp] theorem actWithdraw_started (p : List Byte) (s : State) :
    (actWithdraw p s).fe.variants = s.fe.variants ∧ (actWithdraw p s).rtu.counter = s.rtu.counter ∧
    (actWithdraw p s).result.start = s.result.start := by
  simp only [actWithdraw]; (repeat' split) <;> simp

@[simp] theorem actRelease_started (p : List Byte) (s : State) :
    (actRelease p s).fe.variants = s.fe.variants ∧ (actRelease p s).rtu.counter = s.rtu.counter ∧
    (actRelease p s).result.start = s.result.start := by
  simp only [actRelease]; (repeat' split) <;> simp

@[simp] theorem actCalibrate_started (p : List Byte) (s : State) :
    (actCalibrate p s).rtu.counter = s.rtu.counter ∧ (actCalibrate p s).ss.started = s.ss.started ∧
    (actCalibrate p s).ss.image = s.ss.image := by
  simp only [actCalibrate]; (repeat' split) <;> simp

@[simp] theorem actCommand_started (k : HostCmd) (p : List Byte) (u : UnlockState) (s : State) :
    (actCommand k p u s).fe.variants = s.fe.variants ∧ (actCommand k p u s).rtu.counter = s.rtu.counter ∧
    (actCommand k p u s).result.start = s.result.start ∧ (actCommand k p u s).ss.started = s.ss.started := by
  cases k with
  | visit => simp only [actCommand, actVisit]; (repeat' split) <;> simp
  | measure => simp only [actCommand, actMeasure]; (repeat' split) <;> simp
  | writeSettings => simp only [actCommand, actWriteSettings]; (repeat' split) <;> simp
  | cut | hold | resume | feed | withdraw | release | calibrate | unlock | readSettings | readStatus | readResult
  | readPeers | readPasses => simp [actCommand]

/-- No host command but WRITE_SETTINGS writes the image (R190). -/
theorem actCommand_image (k : HostCmd) (p : List Byte) (u : UnlockState) (s : State) (h : k ≠ .writeSettings) :
    (actCommand k p u s).ss.image = s.ss.image := by
  cases k with
  | writeSettings => exact absurd rfl h
  | visit | measure | cut | hold | resume | feed | withdraw | release | calibrate | unlock | readSettings | readStatus
  | readResult | readPeers | readPasses => simp [actCommand]

@[simp] theorem takeCommand_started (k : HostCmd) (p : List Byte) (s : State) :
    (takeCommand k p s).fe.variants = s.fe.variants ∧ (takeCommand k p s).rtu.counter = s.rtu.counter ∧
    (takeCommand k p s).result.start = s.result.start ∧ (takeCommand k p s).ss.started = s.ss.started := by
  simp only [takeCommand]; (repeat' split) <;> simp

@[simp] theorem cpSubmit_started (k : HostCmd) (p : List Byte) (s : State) :
    (cpSubmit k p s).fe.variants = s.fe.variants ∧ (cpSubmit k p s).rtu.counter = s.rtu.counter ∧
    (cpSubmit k p s).result.start = s.result.start ∧ (cpSubmit k p s).ss.started = s.ss.started := by
  simp only [cpSubmit]; (repeat' split) <;> simp

theorem cpSubmit_image (k : HostCmd) (p : List Byte) (s : State) (h : k ≠ .writeSettings) :
    (cpSubmit k p s).ss.image = s.ss.image := by
  simp only [cpSubmit, takeCommand]
  (repeat' split) <;> simp [actCommand_image _ _ _ _ h]

@[simp] theorem receiveBytes_started (bs : List Byte) (s : State) :
    (receiveBytes bs s).fe.variants = s.fe.variants ∧ (receiveBytes bs s).rtu.counter = s.rtu.counter ∧
    (receiveBytes bs s).result.start = s.result.start ∧ (receiveBytes bs s).ss.started = s.ss.started := by
  simp only [receiveBytes]; (repeat' split) <;> simp

@[simp] theorem hostWriteEnd_started (m : List (Nat × Byte)) (s : State) :
    (hostWriteEnd m s).fe.variants = s.fe.variants ∧ (hostWriteEnd m s).rtu.counter = s.rtu.counter ∧
    (hostWriteEnd m s).result.start = s.result.start ∧ (hostWriteEnd m s).ss.started = s.ss.started := by
  simp only [hostWriteEnd, takeWaiting]; (repeat' split) <;> simp

@[simp] theorem calWriteEnd_started (m : List (Nat × Byte)) (s : State) :
    (calWriteEnd m s).rtu.counter = s.rtu.counter ∧ (calWriteEnd m s).result.start = s.result.start ∧
    (calWriteEnd m s).ss.started = s.ss.started := by
  simp only [calWriteEnd]; (repeat' split) <;> simp

/-! ### The line and the inputs -/

@[simp] theorem ruReport_started (told : Bool) (before : List ViewEntry) (s : State) :
    (ruReport told before s).fe.variants = s.fe.variants := by
  simp only [ruReport, ruPlans]; (repeat' split) <;> simp

@[simp] theorem deliverState_started (n : Fin 16) (p : PeerState) (s : State) :
    (deliverState n p s).fe.variants = s.fe.variants := by
  simp only [deliverState]; (repeat' split) <;> simp

@[simp] theorem inputChanged_started (i : Input) (v : Bool) (s : State) :
    (inputChanged i v s).fe.variants = s.fe.variants ∧ (inputChanged i v s).rtu.counter = s.rtu.counter ∧
    (inputChanged i v s).result.start = s.result.start ∧ (inputChanged i v s).ss.started = s.ss.started ∧
    (inputChanged i v s).ss.image = s.ss.image := by
  cases i with
  | clamped => simp only [inputChanged, clampedChanged]; (repeat' split) <;> simp
  | guardClosed => simp [inputChanged]
  | estop | homeL | homeR => simp only [inputChanged, homeEdge]; split <;> simp
  | driveAtSpeed => simp only [inputChanged, driveAtSpeed]; (repeat' split) <;> simp

/-! ## The commands -/

/-- The commands that may write the image: a WRITE_SETTINGS, also one that bytes of the line complete, the end of a
readback and the mark that closes a calibration (R180, R190, R191). -/
def mayWriteImage : Instr → Bool
  | .writeSettings _ | .settingsWriteDone _ | .calibrationWriteDone _ | .markTrailingEdge _ => true
  | .discardedFrame f => !cellComplete f
  | _ => false

/-- A state in which what the start read stands as it was, and the image too where `image` says so. -/
structure Stands (image : Bool) (s t : State) : Prop where
  variants : t.fe.variants = s.fe.variants
  counter : t.rtu.counter = s.rtu.counter
  startFields : t.result.start = s.result.start
  started : t.ss.started = s.ss.started
  image : image = true → t.ss.image = s.ss.image

theorem Stands.refl {i : Bool} (s : State) : Stands i s s := ⟨rfl, rfl, rfl, rfl, fun _ => rfl⟩

theorem Stands.ite {i : Bool} {p : Prop} [Decidable p] {s a b : State} (ha : Stands i s a) (hb : Stands i s b) :
    Stands i s (if p then a else b) := by
  split <;> assumption

/-- A host command (R181, R190). -/
theorem cpSubmit_stands (k : HostCmd) (p : List Byte) (s : State) (h : k ≠ .writeSettings) :
    Stands true s (cpSubmit k p s) := by
  constructor <;> simp [cpSubmit_image k p s h]

/-- A frame received, given its delivery (R97 to R99). -/
theorem receive_stands (k : FrameKind) (f : LinkFrame) (deliver : State → State) (s : State)
    (h : Stands true s (deliver s)) : Stands true s (receive k f deliver s) :=
  .ite (by constructor <;> simp [receiveError]) (.ite (.ite (.refl s) (by constructor <;> simp)) h)

/-- Between resets what the start read stands, and the image with it but for the commands that may write it (R20, R67,
R180, R187, R190, R191, R193, R194). -/
theorem exec_stands (c : Instr) (s t : State) (hc : ∀ k p w, c ≠ .reset k p w) (he : exec c s = .next t) :
    Stands (!mayWriteImage c) s t := by
  cases c with
  | reset k p w => exact absurd rfl (hc k p w)
  | visit p | measure p | cut p | hold p | resume p | feed p | withdraw p | release p | calibrate p | unlock p
  | readSettings p | readStatus p | readResult p | readPeers p | readPasses p =>
    injection he with he; subst he
    exact cpSubmit_stands _ p s (by decide)
  | writeSettings p | settingsWriteDone m | calibrationWriteDone m =>
    injection he with he; subst he
    constructor <;> simp [mayWriteImage]
  | markTrailingEdge probe =>
    injection he with he; subst he
    exact .ite (by constructor <;> simp [mayWriteImage]) (.refl s)
  | discardedFrame frame =>
    injection he with he; subst he
    by_cases h : cellComplete frame = true
    · simp only [h, if_true]
      exact .ite (by constructor <;> simp) (.refl s)
    · simp only [h, Bool.false_eq_true, if_false]
      exact .ite (.refl s) (by constructor <;> simp [mayWriteImage, h])
  | announceTimerExpiry =>
    simp only [exec, execAnnounceTimerExpiry] at he
    split at he <;> injection he with he <;> subst he
    · exact .refl s
    · exact .ite (by constructor <;> simp) (by constructor <;> simp)
  | watchdogExpiry =>
    simp only [exec, execWatchdogExpiry] at he
    split at he <;> injection he with he <;> subst he
    · exact .ite (by constructor <;> simp) (by constructor <;> simp)
    · exact .refl s
  | unlockTimerExpiry | rawInputChange i v =>
    injection he with he; subst he
    constructor <;> simp
  | frameGapTimeout | debounceExpiry | homeTimerExpiry | encoderPulse | markLeadingEdge | markTimerExpiry
  | driveTimerExpiry | listenOnlyEnd | violationTimerExpiry | peerWaitTimerExpiry | backoffExpiry =>
    injection he with he; subst he
    exact .ite (by constructor <;> simp) (.refl s)
  | receiveError f =>
    injection he with he; subst he
    exact .ite (.refl s) (by constructor <;> simp [receiveError])
  | tracerReading w x r | sweepEnd w =>
    simp only [exec, execTracerReading, execSweepEnd] at he
    split at he <;> injection he with he <;> subst he
    · exact .ite (by constructor <;> simp) (by constructor <;> simp)
    · exact .refl s
  | sweepTimerExpiry =>
    simp only [exec, execSweepTimerExpiry] at he
    split at he <;> injection he with he <;> subst he
    · constructor <;> simp
    · exact .refl s
  | transmitStart =>
    simp only [exec, execTransmitStart] at he
    split at he <;> injection he with he <;> subst he
    · exact .ite (by constructor <;> simp) (.refl s)
    · exact .refl s
  | arbitrationLost bit =>
    simp only [exec, execArbitrationLost] at he
    split at he <;> injection he with he <;> subst he
    · exact .ite (by constructor <;> simp) (.refl s)
    · exact .refl s
  | ownFrameError =>
    simp only [exec, execOwnFrameError] at he
    split at he <;> injection he with he <;> subst he
    · exact .refl s
    · exact .ite (by constructor <;> simp [goListenOnly]) (by constructor <;> simp)
  | frameSent =>
    simp only [exec, execFrameSent] at he
    split at he <;> injection he with he <;> subst he
    · simp only [reportSent]
      split <;> constructor <;> simp
    · exact .refl s
  | stateReceived f | ceilingReceived f | intentReceived f | claimReceived f =>
    injection he with he; subst he
    refine receive_stands _ f _ s ?_
    split
    · constructor <;> simp [deliverCeiling, deliverIntent, deliverClaim]
    · exact .refl s
  | releaseReceived f =>
    injection he with he; subst he
    exact receive_stands _ f (deliverRelease f.station) s (by constructor <;> simp [deliverRelease])
  | peerAgeExpiry n =>
    simp only [exec, execPeerAgeExpiry] at he
    split at he <;> injection he with he <;> subst he
    · exact .ite (.refl s) (by constructor <;> simp)
    · exact .refl s
  | slideDone w =>
    simp only [exec, execSlideDone] at he
    split at he <;> injection he with he <;> subst he
    · exact .ite (.ite (by constructor <;> simp) (by constructor <;> simp)) (by constructor <;> simp [strayReturn])
    · constructor <;> simp [strayReturn]
  | slideFault w =>
    simp only [exec, execSlideFault] at he
    split at he <;> injection he with he <;> subst he
    · constructor <;> simp
    · constructor <;> simp [strayReturn]
  | passTimerExpiry =>
    simp only [exec, execPassTimerExpiry] at he
    split at he <;> injection he with he <;> subst he
    · constructor <;> simp
    · exact .refl s

/-- Settles O12: every command but RESET leaves the start's values as they were, and the commands named are the only
ones that may write the image. -/
theorem startValuesStandUntilReset : Obligations.StartValuesStandUntilReset := by
  intro c s t hc he
  obtain ⟨hvariants, hcounter, hfields, hstarted, himage⟩ := exec_stands c s t hc he
  obtain ⟨hcopy, hstraps, hdigest⟩ : _ ∧ _ ∧ _ := by simpa only [SS.started, Prod.mk.injEq] using hstarted
  refine ⟨hcopy, hstraps, hdigest, hvariants, hfields, hcounter, fun hw hs hcal hm hf => himage ?_⟩
  cases c with
  | writeSettings p => exact absurd rfl (hw p)
  | settingsWriteDone m => exact absurd rfl (hs m)
  | calibrationWriteDone m => exact absurd rfl (hcal m)
  | markTrailingEdge p => exact absurd rfl (hm p)
  | discardedFrame f => simp [mayWriteImage, hf f rfl]
  | _ => rfl

end Sys2Proof.Machine

/-! PROOFS. The gate of a runout sample: what one sample comes to by the range test, the jump threshold and the gate
(R42 to R47). -/

namespace Sys2Proof.Machine

open Sys2Proof

/-! ## The cases of a sample -/

section
variable {j : Nat} (i : Nat) {v : Int} {r : RcuWheel}

/-- Out of range, whatever the gate and the jump threshold (R42). -/
theorem takeSample_outOfRange (hv : v < -20000 ∨ 20000 < v) : takeSample j i v r = rejectSample j r := if_pos hv

/-- Without a jump threshold a sample in range is accepted (R45). -/
theorem takeSample_noJump (hlow : -20000 ≤ v) (hhigh : v ≤ 20000) : takeSample 0 i v r = acceptSample i v r :=
  if_neg (by omega)

/-- A sample in range at an OPEN gate, by its distance from the last accepted value (R44). -/
theorem takeSample_open (hlow : -20000 ≤ v) (hhigh : v ≤ 20000) (hj : 0 < j) {a : Int} (hg : r.gate = .opened)
    (ha : r.lastAccepted = some a) :
    takeSample j i v r = if |v - a| ≤ j then acceptSample i v r else rejectSample j r := by
  rw [takeSample, if_neg (by omega), if_neg (by omega), hg, ha]

/-- A sample in range at a SEEKING gate (R43). -/
theorem takeSample_seeking (hlow : -20000 ≤ v) (hhigh : v ≤ 20000) (hj : 0 < j) (hg : r.gate = .seeking) :
    takeSample j i v r = makeCandidate i v r := by
  rw [takeSample, if_neg (by omega), if_neg (by omega), hg]

/-- A sample in range at a CANDIDATE gate, by its distance from the candidate (R43). -/
theorem takeSample_candidate (hlow : -20000 ≤ v) (hhigh : v ≤ 20000) (hj : 0 < j) {c : Int} {ci : Nat}
    (hg : r.gate = .candidate) (hc : r.candidate = some (c, ci)) :
    takeSample j i v r =
      if |v - c| ≤ j then acceptSample i v (writeBin ci c r) else makeCandidate i v r := by
  rw [takeSample, if_neg (by omega), if_neg (by omega), hg, hc]

end

/-- A rejected sample: the lift-off counted, and with a jump threshold the gate back at SEEKING (R42, R44, R46). -/
theorem rejectSample_eq (j : Nat) (r : RcuWheel) : rejectSample j r =
    { r with
      liftRev := r.liftRev + 1, liftWindow := min 65535 (r.liftWindow + 1)
      liftMost := max r.liftMost (r.liftRev + 1)
      gate := if j = 0 then r.gate else .seeking
      candidate := if j = 0 then r.candidate else none
      lastAccepted := if j = 0 then r.lastAccepted else none } := by
  by_cases hj : j = 0 <;> simp only [rejectSample, hj, if_true, if_false] <;> rfl

/-- A valid mark begins the lift-off count anew and keeps the last accepted value (R44, R47). -/
theorem newRevolution_lastAccepted (s : State) (w : Wheel) :
    ((newRevolution s).rcu.wheel.get w).lastAccepted = (s.rcu.wheel.get w).lastAccepted := by
  rw [newRevolution_eq]
  by_cases h : s.rcu.phase = .filling
  · simp only [if_pos h]
    cases w <;> rfl
  · simp only [if_neg h]

/-! ## The obligation -/

/-- Settles O18, by the range, the jump threshold and the gate that a sample meets. -/
theorem runoutGate : Obligations.RunoutGate := by
  intro j i v r
  refine ⟨fun hv => ?outOfRange, fun hlow hhigh hj => ?noJump, fun hlow hhigh hj a hg ha => ?opened,
    fun hlow hhigh hj hg => takeSample_seeking i hlow hhigh hj hg,
    fun hlow hhigh hj c ci hg hc => ?candidate, rfl, newRevolution_lastAccepted⟩
  case outOfRange => rw [takeSample_outOfRange i hv, rejectSample_eq]
  case noJump =>
    rw [hj, takeSample_noJump i hlow hhigh]
    exact ⟨rfl, rfl, rfl, rfl⟩
  case opened =>
    rw [takeSample_open i hlow hhigh hj hg ha]
    constructor
    · intro hnear
      rw [if_pos hnear]
      exact ⟨rfl, rfl, rfl, rfl⟩
    · intro hfar
      rw [if_neg hfar.not_ge, rejectSample_eq]
      simp only [if_neg hj.ne', and_self]
  case candidate =>
    rw [takeSample_candidate i hlow hhigh hj hg hc]
    constructor
    · intro hnear
      rw [if_pos hnear]
      exact ⟨rfl, rfl, rfl, rfl⟩
    · exact fun hfar => if_neg hfar.not_ge

end Sys2Proof.Machine

/-! PROOFS. A tracer's reading: what it comes to by the range test, the jump test and the capture window (R56 to
R60). -/

namespace Sys2Proof.Machine

open Sys2Proof

/-! ## The capture window -/

section
variable {x r : Int} {p : PtuWheel}

/-- A reading within 250 µm of a grid point rounds to it: the windows of two points never meet (R59). -/
theorem gridPoint_of_near {j : Nat} (hnear : |x - 1000 * j| ≤ 250) : (x + 500) / 1000 = j := by
  rw [abs_le] at hnear
  omega

/-- A reading outside the window of each of the 120 grid points (R59). -/
theorem binReading_outside (hfar : ∀ j : Nat, j ≤ 119 → 250 < |x - 1000 * j|) :
    binReading x r p = { p with outside := min 65535 (p.outside + 1) } := by
  refine if_neg ?_
  rintro ⟨hlow, hhigh, hnear⟩
  have h := hfar ((x + 500) / 1000).toNat (by omega)
  rw [Int.toNat_of_nonneg hlow] at h
  exact h.not_ge hnear

/-- A reading in the window of a grid point, by the point's count (R60). -/
theorem binReading_near {j : Nat} (hj : j ≤ 119) (hnear : |x - 1000 * j| ≤ 250) {pt : Point}
    (hpt : p.points[j]? = some pt) :
    binReading x r p =
      if pt.count < 65535 then
        { p with
          binned := min 65535 (p.binned + 1)
          points := p.points.set j { pt with sum := pt.sum + r, count := pt.count + 1 } }
      else { p with saturated := min 65535 (p.saturated + 1) } := by
  have hgrid : (x + 500) / 1000 = j := gridPoint_of_near hnear
  have hget : p.points.getD j Point.absent = pt := by rw [List.getD_eq_getElem?_getD, hpt, Option.getD_some]
  have hwindow : 0 ≤ (j : Int) ∧ (j : Int) ≤ 119 ∧ |x - 1000 * j| ≤ 250 := ⟨by omega, by omega, hnear⟩
  simp only [binReading, hgrid, if_pos hwindow, Int.toNat_natCast, hget, satInc]

end

/-! ## The jump test -/

/-- The jump test's rejection: a reference, and a reading further from it than a threshold other than 0 (R57). -/
def ReadingJumps (jumpT : Nat) (r : Int) (p : PtuWheel) : Prop :=
  ∃ q, p.reference = some q ∧ jumpT ≠ 0 ∧ (jumpT : Int) < |r - q|

section
variable {jumpT : Nat} (x : Int) {r : Int} {p : PtuWheel}

/-- A jump short of the sixteenth in its run keeps the reference (R58). -/
theorem jumpLiftoff_short (h : p.jumpRun < 15) :
    jumpLiftoff p = { p with liftoffs := min 65535 (p.liftoffs + 1), jumpRun := p.jumpRun + 1 } :=
  if_neg (show ¬16 ≤ p.jumpRun + 1 by omega)

/-- The sixteenth jump of a run gives up the reference (R58). -/
theorem jumpLiftoff_sixteenth (h : 15 ≤ p.jumpRun) :
    jumpLiftoff p =
      { p with
        liftoffs := min 65535 (p.liftoffs + 1), jumpRun := 0, reference := none
        reseats := min 255 (p.reseats + 1) } :=
  if_pos (show 16 ≤ p.jumpRun + 1 by omega)

/-! ## A reading of the open sweep -/

/-- Every reading taken is received, whatever the tests make of it (R56). -/
theorem takeReading_outOfRange (hr : ¬(-50000 ≤ r ∧ r ≤ 50000)) :
    takeReading jumpT x r p =
      { p with received := min 65535 (p.received + 1), outOfRange := min 65535 (p.outOfRange + 1) } :=
  if_pos (by omega)

/-- A reading in range that jumps (R57). -/
theorem takeReading_jump (hr : -50000 ≤ r ∧ r ≤ 50000) (hjump : ReadingJumps jumpT r p) :
    takeReading jumpT x r p = jumpLiftoff { p with received := min 65535 (p.received + 1) } := by
  obtain ⟨q, href, hzero, hfar⟩ := hjump
  have hrange : ¬(r < -50000 ∨ 50000 < r) := by omega
  simp only [takeReading, if_neg hrange, href, hzero, hfar.not_ge, decide_false, Bool.or_self, Bool.false_eq_true,
    if_false, satInc]

/-- A reading in range that passes the jump test becomes the reference and goes to the capture window (R57, R59). -/
theorem takeReading_pass (hr : -50000 ≤ r ∧ r ≤ 50000) (hpass : ¬ReadingJumps jumpT r p) :
    takeReading jumpT x r p =
      binReading x r { p with received := min 65535 (p.received + 1), reference := some r, jumpRun := 0 } := by
  have hrange : ¬(r < -50000 ∨ 50000 < r) := by omega
  cases href : p.reference with
  | none => simp only [takeReading, if_neg hrange, href, if_true, satInc]
  | some q =>
    have hnear : jumpT = 0 ∨ |r - q| ≤ jumpT := by
      by_contra h
      obtain ⟨hzero, hfar⟩ := not_or.1 h
      exact hpass ⟨q, href, hzero, not_le.1 hfar⟩
    have htest : (decide (jumpT = 0) || decide (|r - q| ≤ (jumpT : Int))) = true := by simpa using hnear
    simp only [takeReading, if_neg hrange, href, htest, if_true, satInc]

end

/-- Neither a lift-off nor the capture window counts a reading as received again (R56). -/
theorem takeReading_received (jumpT : Nat) (x r : Int) (p : PtuWheel) :
    (takeReading jumpT x r p).received = min 65535 (p.received + 1) := by
  have hlift : ∀ p, (jumpLiftoff p).received = p.received := fun p => by
    simp only [jumpLiftoff]
    split <;> rfl
  have hbin : ∀ p, (binReading x r p).received = p.received := fun p => by
    simp only [binReading]
    (repeat' split) <;> rfl
  by_cases hr : -50000 ≤ r ∧ r ≤ 50000
  · by_cases hj : ReadingJumps jumpT r p
    · rw [takeReading_jump x hr hj, hlift]
    · rw [takeReading_pass x hr hj, hbin]
  · rw [takeReading_outOfRange x hr]

/-! ## The obligation -/

/-- Settles O48, by the open sweep and by the range test, the jump test and the window that the reading meets. -/
theorem tracerReadingBinned : Obligations.TracerReadingBinned := by
  intro w x r s runs
  refine ⟨fun hnone => ?none, fun o hopen hne => ?stray, fun hopen => ?taken⟩
  case none => simp only [runs, exec, execTracerReading, hnone]
  case stray =>
    simp only [runs, exec, execTracerReading, hopen, if_neg hne]
    rfl
  case taken =>
    intro p jt jumps inRange
    refine ⟨takeReading jt x r p, by simp only [runs, exec, execTracerReading, hopen, if_true]; rfl,
      takeReading_received jt x r p, ?_⟩
    rw [takeReading_received]
    refine ⟨takeReading_outOfRange x, fun hr hj hrun => ?short, fun hr hj hrun => ?sixteenth,
      fun hr hj hfar => ?outside, fun j hr hj hle hnear pt hpt => ⟨fun hroom => ?binned, fun hfull => ?saturated⟩⟩
    case short => exact (takeReading_jump x hr hj).trans (jumpLiftoff_short hrun)
    case sixteenth => exact (takeReading_jump x hr hj).trans (jumpLiftoff_sixteenth hrun)
    case outside => exact (takeReading_pass x hr hj).trans (binReading_outside hfar)
    case binned =>
      exact (takeReading_pass x hr hj).trans (.trans (binReading_near hle hnear hpt) (if_pos hroom))
    case saturated =>
      exact (takeReading_pass x hr hj).trans (.trans (binReading_near hle hnear hpt) (if_neg hfull.not_gt))

end Sys2Proof.Machine

/-! PROOFS. What every operation does to the ceiling record, the sequences, the saturating counts and the feed override
(R76 to R78, R91, R100, R117, R137, R155, R160). -/

namespace Sys2Proof.Machine

open Sys2Proof

/-! ## The tallies -/

/-- The ceiling record, and every count and sequence with a range (R76, R91, R100, R117, R137, R160). -/
structure Tallies where
  ceil : CeilingRecord
  feed : Nat
  stray : Nat
  passesVisit : Nat
  intentSeq : Nat
  replanCount : Nat
  rxErrors : Nat
  errRun : Nat
  errTotal : Nat
  listenPeriods : Nat
  expiryCount : Nat
  lost : Nat
  yields : Nat

/-- The counts of a link record (R91, R100). -/
def LC.counts (c : LC) : Nat × Nat × Nat × Nat × Nat :=
  (c.rxErrors, c.errRun, c.errTotal, c.listenPeriods, c.expiryCount)

/-- The tallies of a state. -/
def State.tallies (s : State) : Tallies where
  ceil := s.fe.ceil
  feed := s.pc.feed
  stray := s.pc.stray
  passesVisit := s.pc.passesVisit
  intentSeq := s.ru.intentSeq
  replanCount := s.ru.replanCount
  rxErrors := s.lc.rxErrors
  errRun := s.lc.errRun
  errTotal := s.lc.errTotal
  listenPeriods := s.lc.listenPeriods
  expiryCount := s.lc.expiryCount
  lost := s.scu.lost
  yields := s.scu.yields

/-! ## Updates of one record -/

section
variable (s : State)

@[simp] theorem onVC_tallies (f : VC → VC) : (s.onVC f).tallies = s.tallies := rfl
@[simp] theorem onRTU_tallies (f : RTU → RTU) : (s.onRTU f).tallies = s.tallies := rfl
@[simp] theorem onRCU_tallies (f : RCU → RCU) : (s.onRCU f).tallies = s.tallies := rfl
@[simp] theorem onPTU_tallies (f : PTU → PTU) : (s.onPTU f).tallies = s.tallies := rfl
@[simp] theorem onPeers_tallies (f : List PeerEntry → List PeerEntry) : (s.onPeers f).tallies = s.tallies := rfl
@[simp] theorem onIIU_tallies (f : IIU → IIU) : (s.onIIU f).tallies = s.tallies := rfl
@[simp] theorem onCP_tallies (f : CP → CP) : (s.onCP f).tallies = s.tallies := rfl
@[simp] theorem onSS_tallies (f : SS → SS) : (s.onSS f).tallies = s.tallies := rfl
@[simp] theorem onResult_tallies (f : ResultRecord → ResultRecord) : (s.onResult f).tallies = s.tallies := rfl
@[simp] theorem onOut_tallies (f : Outputs → Outputs) : (s.onOut f).tallies = s.tallies := rfl

@[simp] theorem onFE_tallies (f : FE → FE) (h : ∀ x, (f x).ceil = x.ceil) : (s.onFE f).tallies = s.tallies := by
  simp only [State.tallies, State.onFE, h]

@[simp] theorem onPC_tallies (f : PC → PC) (hfeed : ∀ p, (f p).feed = p.feed) (hstray : ∀ p, (f p).stray = p.stray)
    (hvisit : ∀ p, (f p).passesVisit = p.passesVisit) : (s.onPC f).tallies = s.tallies := by
  simp only [State.tallies, State.onPC, hfeed, hstray, hvisit]

@[simp] theorem onRU_tallies (f : RU → RU) (hseq : ∀ r, (f r).intentSeq = r.intentSeq)
    (hcount : ∀ r, (f r).replanCount = r.replanCount) : (s.onRU f).tallies = s.tallies := by
  simp only [State.tallies, State.onRU, hseq, hcount]

@[simp] theorem onSCU_tallies (f : SCU → SCU) (hlost : ∀ u, (f u).lost = u.lost)
    (hyields : ∀ u, (f u).yields = u.yields) : (s.onSCU f).tallies = s.tallies := by
  simp only [State.tallies, State.onSCU, hlost, hyields]

@[simp] theorem onLC_tallies (f : LC → LC) (h : (f s.lc).counts = s.lc.counts) : (s.onLC f).tallies = s.tallies := by
  simp only [LC.counts, Prod.mk.injEq] at h
  obtain ⟨hrx, hrun, htotal, hperiods, hexpiry⟩ := h
  simp only [State.tallies, State.onLC, hrx, hrun, htotal, hperiods, hexpiry]

end

/-! ## The transmit queue leaves the counts of its record -/

@[simp] theorem LC.counts_with (c : LC) (queue : List QEntry) (overflow : Option QFrame) (onLine : Option LinkFrame)
    (listenOnly : Option Nat) (txOverflow silenced : Bool) (announce : Option Nat) (listenLeft : Nat) :
    ({ c with
        queue := queue, overflow := overflow, onLine := onLine, listenOnly := listenOnly, txOverflow := txOverflow
        silenced := silenced, announce := announce, listenLeft := listenLeft } : LC).counts = c.counts := rfl

@[simp] theorem lcHand_counts (f : QFrame) (c : LC) : (lcHand f c).counts = c.counts := by
  simp only [lcHand, lcPlace, lcOverflow]
  (repeat' split) <;> simp

@[simp] theorem lcRefill_counts (c : LC) : (lcRefill c).counts = c.counts := by
  simp only [lcRefill]
  (repeat' split) <;> simp

@[simp] theorem lcWithdraw_counts (why : Withdraw) (c : LC) : (lcWithdraw why c).1.counts = c.counts := by
  simp only [lcWithdraw]
  (repeat' split) <;> simp

@[simp] theorem lcTxFailed_counts (c : LC) : (lcTxFailed c).counts = c.counts := by
  simp [lcTxFailed]

@[simp] theorem lcTxSent_counts (c : LC) : (lcTxSent c).counts = c.counts := by
  simp only [lcTxSent]
  (repeat' split) <;> simp

@[simp] theorem lcDropWithdrawn_counts (c : LC) : (lcDropWithdrawn c).counts = c.counts := by
  simp [lcDropWithdrawn]

/-! ## Operations that leave the tallies -/

section
variable (s : State)

@[simp] theorem latch_tallies (f : Flag) : (latch f s).tallies = s.tallies := rfl
@[simp] theorem order_tallies (o : Order) : (order o s).tallies = s.tallies := rfl
@[simp] theorem respond_tallies (r : Response) : (respond r s).tallies = s.tallies := rfl
@[simp] theorem dropPlan_tallies : (dropPlan s).tallies = s.tallies := rfl
@[simp] theorem refuse_tallies (c : HostCmd) (why : RefuseReason) : (refuse c why s).tallies = s.tallies := rfl
@[simp] theorem accept_tallies (c : HostCmd) : (accept c s).tallies = s.tallies := rfl
@[simp] theorem commandTaken_tallies : (commandTaken s).tallies = s.tallies := rfl
@[simp] theorem clearStatus_tallies : (clearStatus s).tallies = s.tallies := rfl
@[simp] theorem discardFrame_tallies : (discardFrame s).tallies = s.tallies := rfl
@[simp] theorem writeResult_tallies (why : Reason) : (writeResult why s).tallies = s.tallies := rfl
@[simp] theorem setFitState_tallies (st : FitState) : (setFitState st s).tallies = s.tallies := rfl
@[simp] theorem leaveCutting_tallies : (leaveCutting s).tallies = s.tallies := rfl
@[simp] theorem leaveRun_tallies (why : Reason) : (leaveRun why s).tallies = s.tallies := rfl
@[simp] theorem endCalibration_tallies (why : Reason) (r : Response) : (endCalibration why r s).tallies = s.tallies := rfl
@[simp] theorem setHead_tallies (p : Pass) : (setHead p s).tallies = s.tallies := rfl
@[simp] theorem discardQueue_tallies : (discardQueue s).tallies = s.tallies := rfl
@[simp] theorem waitTimers_tallies : (waitTimers s).tallies = s.tallies := rfl
@[simp] theorem abortOrders_tallies : (abortOrders s).tallies = s.tallies := rfl
@[simp] theorem abortRecord_tallies (p : Pass) (why : AbortReason) : (abortRecord p why s).tallies = s.tallies := rfl
@[simp] theorem startSweep_tallies (w : Wheel) : (startSweep w s).tallies = s.tallies := rfl
@[simp] theorem toBackoff_tallies : (toBackoff s).tallies = s.tallies := rfl
@[simp] theorem removeOwnClaim_tallies : (removeOwnClaim s).tallies = s.tallies := rfl

@[simp] theorem queueFrame_tallies (f : QFrame) : (queueFrame f s).tallies = s.tallies := by
  simp only [queueFrame]
  split <;> simp

@[simp] theorem setStation_tallies (st : StationState) : (setStation st s).tallies = s.tallies := by
  simp only [setStation]
  (repeat' split) <;> simp

@[simp] theorem setEffState_tallies (st : StationState) : (setEffState st s).tallies = s.tallies := by
  simp only [setEffState]
  split <;> simp

@[simp] theorem slotTest_tallies : (slotTest s).tallies = s.tallies := by
  simp only [slotTest]
  (repeat' split) <;> simp

@[simp] theorem slotAsk_tallies : (slotAsk s).tallies = s.tallies := by
  simp only [slotAsk]
  split <;> simp

@[simp] theorem releaseClaim_tallies : (releaseClaim s).tallies = s.tallies := by
  simp only [releaseClaim]
  (repeat' split) <;> simp

@[simp] theorem slotHead_tallies : (slotHead s).tallies = s.tallies := by
  simp only [slotHead]
  split <;> simp

@[simp] theorem removePeerClaim_tallies (n : Fin 16) : (removePeerClaim n s).tallies = s.tallies := by
  simp only [removePeerClaim]
  (repeat' split) <;> simp

@[simp] theorem appendHeldClaim_tallies (n : Fin 16) : (appendHeldClaim n s).tallies = s.tallies := by
  simp only [appendHeldClaim]
  split <;> simp

@[simp] theorem agree_tallies : (agree s).tallies = s.tallies := by
  simp only [agree]
  split <;> simp

@[simp] theorem storeOutside_tallies (b : BuildResult) : (storeOutside b s).tallies = s.tallies := by
  cases b <;> simp [storeOutside]

@[simp] theorem enterFinished_tallies : (enterFinished s).tallies = s.tallies := by
  simp [enterFinished]

@[simp] theorem deepToReady_tallies : (deepToReady s).tallies = s.tallies := by
  simp [deepToReady]

@[simp] theorem applyBuild_tallies : (applyBuild s).tallies = s.tallies := by
  simp only [applyBuild]
  (repeat' split) <;> simp

@[simp] theorem passOrder_tallies (p : Pass) (w : Wheel) : (passOrder p w s).tallies = s.tallies := by
  simp only [passOrder]
  split <;> simp

@[simp] theorem tryStart_tallies : (tryStart s).tallies = s.tallies := by
  simp only [tryStart, startPass]
  (repeat' split) <;> simp

@[simp] theorem settle_tallies : (settle s).tallies = s.tallies := by
  simp [settle]

@[simp] theorem addHold_tallies (c : HoldCause) : (addHold c s).tallies = s.tallies := by
  simp only [addHold, holdOrder]
  (repeat' split) <;> simp

@[simp] theorem clearHolds_tallies : (clearHolds s).tallies = s.tallies := by
  simp only [clearHolds]
  (repeat' split) <;> simp

@[simp] theorem measurementFails_tallies (why : Reason) : (measurementFails why s).tallies = s.tallies := by
  cases why <;> simp [measurementFails]

@[simp] theorem windowStart_tallies : (windowStart s).tallies = s.tallies := by
  simp only [windowStart]
  split <;> simp

@[simp] theorem attemptStart_tallies : (attemptStart s).tallies = s.tallies := by
  simp [attemptStart]

@[simp] theorem startRun_tallies (k : RunKind) : (startRun k s).tallies = s.tallies := by
  simp [startRun]

@[simp] theorem startMeasurement_tallies : (startMeasurement s).tallies = s.tallies := by
  simp [startMeasurement]

@[simp] theorem holdRcu_tallies : (holdRcu s).tallies = s.tallies := rfl

@[simp] theorem calibrationFails_tallies (why : Reason) : (calibrationFails why s).tallies = s.tallies := by
  simp only [calibrationFails]
  (repeat' split) <;> simp

@[simp] theorem endRun_tallies (why : Reason) : (endRun why s).tallies = s.tallies := by
  simp only [endRun]
  split <;> simp

@[simp] theorem endAttempt_tallies (why : Reason) : (endAttempt why s).tallies = s.tallies := by
  simp only [endAttempt]
  split <;> simp

@[simp] theorem holdTrace_tallies : (holdTrace s).tallies = s.tallies := rfl

@[simp] theorem countStray_tallies : (countStray s).tallies = s.tallies := rfl

@[simp] theorem cutMeasurement_tallies (why : Reason) : (cutMeasurement why s).tallies = s.tallies := by
  simp only [cutMeasurement, interruptTrace]
  (repeat' split) <;> simp

@[simp] theorem closeRcu_tallies : (closeRcu s).tallies = s.tallies := by
  simp only [closeRcu]
  split <;> simp

@[simp] theorem measureClosed_tallies (total : LR Nat) : (measureClosed total s).tallies = s.tallies := by
  simp only [measureClosed]
  split <;> simp

@[simp] theorem calibrateClosed_tallies (c : CalRun) (total : Nat) : (calibrateClosed c total s).tallies = s.tallies := by
  simp only [calibrateClosed]
  split <;> simp

@[simp] theorem closeAttempt_tallies : (closeAttempt s).tallies = s.tallies := by
  simp only [closeAttempt]
  (repeat' split) <;> simp

@[simp] theorem supply_tallies (w : Wheel) (probe : Int) : (supply w probe s).tallies = s.tallies := by
  simp only [supply, supplyBin, computeBin]
  (repeat' split) <;> simp

@[simp] theorem supplyBins_tallies (probe : LR Int) : (supplyBins probe s).tallies = s.tallies := by
  simp [supplyBins]

@[simp] theorem encoderPulse_tallies (w : Wheel) (probe : Int) : (encoderPulse w probe s).tallies = s.tallies := by
  simp only [encoderPulse]
  (repeat' split) <;> simp

@[simp] theorem restartWindows_tallies : (restartWindows s).tallies = s.tallies := by
  simp [restartWindows]

@[simp] theorem newRevolution_tallies : (newRevolution s).tallies = s.tallies := by
  simp only [newRevolution]
  split <;> simp

@[simp] theorem markPulseEnd_tallies (probe : LR Int) : (markPulseEnd probe s).tallies = s.tallies := by
  simp only [markPulseEnd, validMark]
  (repeat' split) <;> simp

@[simp] theorem driveLost_tallies : (driveLost s).tallies = s.tallies := by
  simp only [driveLost]
  (repeat' split) <;> simp

@[simp] theorem driveAtSpeed_tallies : (driveAtSpeed s).tallies = s.tallies := by
  simp only [driveAtSpeed]
  split <;> simp

@[simp] theorem transmissionFailed_tallies : (transmissionFailed s).tallies = s.tallies := by
  simp only [transmissionFailed]
  (repeat' split) <;> simp

@[simp] theorem calWriteEnd_tallies (misread : List (Nat × Byte)) : (calWriteEnd misread s).tallies = s.tallies := by
  simp only [calWriteEnd]
  (repeat' split) <;> simp

@[simp] theorem estopToAborted_tallies : (estopToAborted s).tallies = s.tallies := by
  simp [estopToAborted]

end
end Sys2Proof.Machine

/-! PROOFS. Every operation but a fit lets the ceiling record fall alone and keeps the ranges of the counts (R76 to R78,
R91, R100, R117, R137, R160). -/

namespace Sys2Proof.Machine

open Sys2Proof

/-! ## What an operation may do to the tallies -/

/-- A ceiling record that follows another without a fit between: NORMAL only where the other was, announced where the
other was, and at or below it (R76, R78). -/
def Falls (c d : CeilingRecord) : Prop :=
  d.status = .normal → c.status = .normal ∧ (c.announced = true → d.announced = true) ∧
    ∀ v, c.value = some v → ∃ w, d.value = some w ∧ w.l ≤ v.l ∧ w.r ≤ v.r

theorem Falls.refl (c : CeilingRecord) : Falls c c := fun h => ⟨h, id, fun v hv => ⟨v, hv, le_rfl, le_rfl⟩⟩

theorem Falls.trans {c d e : CeilingRecord} (h : Falls c d) (k : Falls d e) : Falls c e := by
  intro he
  obtain ⟨hd, hannounced, hvalue⟩ := k he
  obtain ⟨hc, hannounced', hvalue'⟩ := h hd
  refine ⟨hc, hannounced ∘ hannounced', fun v hv => ?_⟩
  obtain ⟨w, hw, hwl, hwr⟩ := hvalue' v hv
  obtain ⟨x, hx, hxl, hxr⟩ := hvalue w hw
  exact ⟨x, hx, hxl.trans hwl, hxr.trans hwr⟩

/-- A record that is not NORMAL may follow any other. -/
theorem Falls.of_ne {c d : CeilingRecord} (h : d.status ≠ .normal) : Falls c d := fun hd => absurd hd h

/-- The ranges of `RangesInv`, of the tallies alone. -/
def Tallies.InRange (a : Tallies) : Prop :=
  50 ≤ a.feed ∧ a.feed ≤ 120 ∧ a.stray ≤ 255 ∧ a.passesVisit ≤ 255 ∧ a.ceil.seq ≤ 255 ∧ a.intentSeq ≤ 255 ∧
  a.replanCount ≤ 255 ∧ a.rxErrors ≤ 255 ∧ a.errRun ≤ 16 ∧ a.errTotal ≤ 65535 ∧ a.listenPeriods ≤ 255 ∧
  a.expiryCount ≤ 4 ∧ a.lost ≤ 255 ∧ a.yields ≤ 255

theorem rangesInv_iff (s : State) : RangesInv s ↔ s.tallies.InRange := Iff.rfl

/-- What every operation but a fit and a reset does: the ceiling record falls, and the ranges are kept. -/
structure Moves (a b : Tallies) : Prop where
  falls : Falls a.ceil b.ceil
  ranges : a.InRange → b.InRange

@[simp] theorem Moves.refl (a : Tallies) : Moves a a := ⟨.refl _, id⟩

theorem Moves.trans {a b c : Tallies} (h : Moves a b) (k : Moves b c) : Moves a c :=
  ⟨h.falls.trans k.falls, k.ranges ∘ h.ranges⟩

theorem Moves.ite {p : Prop} [Decidable p] {a : Tallies} {s t : State} (hs : Moves a s.tallies)
    (ht : Moves a t.tallies) : Moves a (if p then s else t).tallies := by
  split <;> assumption

/-- Counts that move within their ranges, the ceiling record as it was. -/
theorem Moves.of_counts {a b : Tallies} (hceil : b.ceil = a.ceil) (h : a.InRange → b.InRange) : Moves a b :=
  ⟨hceil ▸ .refl _, h⟩

/-! ## The ceiling record, the intent and the plan -/

theorem nextSeq_le (n : Nat) : nextSeq n ≤ 255 := by
  unfold nextSeq
  omega

theorem satInc_le (top n : Nat) : satInc top n ≤ top := Nat.min_le_left _ _

/-- A change of the ceiling record advances its sequence (R76). -/
theorem changeCeiling_tallies (st : CeilStatus) (v : Option (LR Int)) (s : State) :
    (changeCeiling st v s).tallies = { s.tallies with
      ceil := ⟨st, v, nextSeq s.fe.ceil.seq, true, if st = .passive ∨ st = .cleared then none else s.fe.ceil.condemning⟩ } :=
  queueFrame_tallies _ _

theorem Tallies.InRange.with_ceil {a : Tallies} {c : CeilingRecord} (h : a.InRange) (hseq : c.seq ≤ 255) :
    ({ a with ceil := c } : Tallies).InRange := by
  simp only [Tallies.InRange] at h ⊢
  omega

theorem changeCeiling_ranges (st : CeilStatus) (v : Option (LR Int)) (s : State) (h : s.tallies.InRange) :
    (changeCeiling st v s).tallies.InRange :=
  changeCeiling_tallies st v s ▸ h.with_ceil (nextSeq_le _)

/-- A record that becomes CONDEMNED, PASSIVE or CLEARED (R80, R81). -/
protected theorem Moves.changeCeiling {a : Tallies} {s : State} {st : CeilStatus} {v : Option (LR Int)}
    (h : Moves a s.tallies) (hst : st ≠ .normal) : Moves a (changeCeiling st v s).tallies :=
  ⟨.of_ne (by simpa [changeCeiling_tallies] using hst), fun hr => changeCeiling_ranges st v s (h.ranges hr)⟩

/-- Values taken into the record keep the ranges, whatever they are (R76 to R78). -/
theorem takeCeiling_ranges (v : LR Int) (fresh : Bool) (s : State) (h : s.tallies.InRange) :
    (takeCeiling v fresh s).1.tallies.InRange := by
  simp only [takeCeiling]
  (repeat' split)
  · exact changeCeiling_ranges _ _ s h
  · exact h
  · exact h

/-- Values taken into a NORMAL record, at or below those it holds (R77, R78). -/
theorem takeCeiling_falls (v : LR Int) (fresh : Bool) (s : State) (hn : s.fe.ceil.status = .normal)
    (hle : ∀ held, s.fe.ceil.value = some held → v.l ≤ held.l ∧ v.r ≤ held.r) :
    Falls s.fe.ceil (takeCeiling v fresh s).1.fe.ceil := by
  have hchanged : Falls s.fe.ceil (changeCeiling .normal (some v) s).fe.ceil := by
    rw [show (changeCeiling .normal (some v) s).fe.ceil = _ from
      congrArg Tallies.ceil (changeCeiling_tallies .normal (some v) s)]
    exact fun _ => ⟨hn, fun _ => rfl, fun held hheld => ⟨v, rfl, hle held hheld⟩⟩
  simp only [takeCeiling]
  (repeat' split)
  · exact hchanged
  · exact .refl _
  · exact .refl s.fe.ceil

/-- The minimum of an offer and the ceilings held is at or below them (R77, R78). -/
theorem takeCeiling_min_falls (offer held : LR Int) (fresh : Bool) (s : State) (hn : s.fe.ceil.status = .normal)
    (hvalue : s.fe.ceil.value = some held) :
    Falls s.fe.ceil (takeCeiling (LR.zip min offer held) fresh s).1.fe.ceil := by
  refine takeCeiling_falls _ fresh s hn fun x hx => ?_
  obtain rfl : held = x := Option.some.inj (hvalue.symm.trans hx)
  exact ⟨min_le_right _ _, min_le_right _ _⟩

section
variable {a : Tallies} {s : State}

protected theorem Moves.offerCeiling {offer : LR Int} (h : Moves a s.tallies) :
    Moves a (offerCeiling offer s).1.tallies := by
  simp only [Machine.offerCeiling]
  split
  case h_1 held hn hvalue =>
    exact h.trans ⟨takeCeiling_min_falls offer held false s hn hvalue, takeCeiling_ranges _ _ s⟩
  case h_2 => exact h

protected theorem Moves.formIntent {target : LR Int} (h : Moves a s.tallies) :
    Moves a (formIntent target s).tallies := by
  have he : (Machine.formIntent target s).tallies = { s.tallies with intentSeq := nextSeq s.ru.intentSeq } :=
    queueFrame_tallies _ _
  rw [he]
  refine h.trans (.of_counts rfl fun hr => ?_)
  have := nextSeq_le s.ru.intentSeq
  simp only [Tallies.InRange] at hr ⊢
  omega

protected theorem Moves.takePlan {first : Bool} {p : Plan} (h : Moves a s.tallies) :
    Moves a (takePlan first p s).1.tallies := by
  have hcount : ∀ b : Bool, Moves a
      (s.onRU fun r => { r with
        plan := some p, replanCount := if b = true then satInc 255 r.replanCount else r.replanCount }).tallies := by
    intro b
    refine h.trans (.of_counts rfl fun hr => ?_)
    have := satInc_le 255 s.ru.replanCount
    cases b <;> simp only [Tallies.InRange, State.tallies, State.onRU] at hr ⊢ <;> simp <;> omega
  exact .ite (hcount _).formIntent (hcount _)

protected theorem Moves.replan (h : Moves a s.tallies) : Moves a (replan s).1.tallies := by
  simp only [Machine.replan]
  (repeat' split)
  · exact .takePlan (by simpa using h)
  · exact .takePlan (by simpa using h)
  · exact h

/-! ## Condemnation and the build -/

protected theorem Moves.enterCondemned (h : Moves a s.tallies) : Moves a (enterCondemned s).tallies := by
  simp only [Machine.enterCondemned, setStation_tallies, latch_tallies, onVC_tallies]
  exact .changeCeiling (by split <;> simpa using h) (by decide)

protected theorem Moves.condemnationFound (h : Moves a s.tallies) : Moves a (condemnationFound s).tallies := by
  have hwait : Moves a (s.onVC fun v => { v with condPending := true }).tallies := h
  simp only [Machine.condemnationFound]
  split
  case h_1 | h_2 | h_3 | h_4 => exact h.enterCondemned
  case h_5 => exact .ite hwait h.enterCondemned
  case h_6 | h_7 | h_8 => exact hwait
  case h_9 => exact h

protected theorem Moves.build {fuel : Nat} (h : Moves a s.tallies) : Moves a (build fuel s).tallies := by
  induction fuel generalizing s with
  | zero => simpa [Machine.build] using h
  | succ n ih =>
    simp only [Machine.build]
    split
    · simpa using h
    · rename_i offer _
      have hoffer : Moves a (Machine.offerCeiling offer s).1.tallies := h.offerCeiling
      split <;> rename_i heq <;> rw [heq] at hoffer
      · exact hoffer.condemnationFound
      · simpa using hoffer
      · exact ih hoffer.replan

protected theorem Moves.targetsChanged (h : Moves a s.tallies) : Moves a (targetsChanged s).tallies := by
  simp only [Machine.targetsChanged]
  split
  · exact h.build
  · exact .ite (.ite (by simpa using h) h.build) h
  · exact .ite h.build h
  · exact h

protected theorem Moves.handTargets {r : State × Bool} (h : Moves a r.1.tallies) : Moves a (handTargets r).tallies :=
  .ite h.targetsChanged h

protected theorem Moves.firstPlan (h : Moves a s.tallies) : Moves a (firstPlan s).tallies := by
  simp only [Machine.firstPlan]
  (repeat' split)
  · exact h
  · simpa using Moves.takePlan (by simpa using h)
  · exact h

protected theorem Moves.ownCeilingChanged (h : Moves a s.tallies) : Moves a (ownCeilingChanged s).tallies := by
  simp only [Machine.ownCeilingChanged]
  exact .ite (.ite (by simpa using h.replan.handTargets) h.firstPlan) h

/-! ## Passes -/

protected theorem Moves.afterOffer {r : State × OfferResult} (h : Moves a r.1.tallies) :
    Moves a (afterOffer r).tallies := by
  obtain ⟨s, x⟩ := r
  cases x with
  | same => exact h
  | changed => exact h.ownCeilingChanged
  | condemned => exact h.condemnationFound

protected theorem Moves.completeRecord {p : Pass} (h : Moves a s.tallies) : Moves a (completeRecord p s).tallies := by
  refine h.trans (.of_counts rfl fun hr => ?_)
  have := satInc_le 255 s.pc.passesVisit
  simp only [Tallies.InRange, State.tallies, Machine.completeRecord, State.onPC, State.onVC] at hr ⊢
  omega

protected theorem Moves.owedBuild (h : Moves a s.tallies) : Moves a (owedBuild s).tallies := by
  have hnot : Moves a (s.onPC fun c => { c with rebuildOwed := false }).tallies := by simpa using h
  exact .ite (.ite (by simpa using hnot.build) hnot) h

protected theorem Moves.completePass {p : Pass} (h : Moves a s.tallies) : Moves a (completePass p s).tallies := by
  have howed := (h.completeRecord (p := p)).offerCeiling (offer := completionOffer (conf s) p) |>.afterOffer.owedBuild
  simp only [Machine.completePass]
  exact .ite howed.enterCondemned (.ite (.ite (by simpa using howed) (by simpa using howed)) howed)

protected theorem Moves.afterAbortOffer {r : State × OfferResult} (h : Moves a r.1.tallies) :
    Moves a (afterAbortOffer r).tallies := by
  obtain ⟨s, x⟩ := r
  cases x with
  | same => exact h
  | changed => exact h.ownCeilingChanged
  | condemned => exact h

protected theorem Moves.abortPass {p : Pass} {why : AbortReason} (h : Moves a s.tallies) :
    Moves a (abortPass p why s).tallies := by
  simp only [Machine.abortPass, releaseClaim_tallies, latch_tallies]
  exact .afterAbortOffer (.offerCeiling (by simpa using h))

protected theorem Moves.retractTest (h : Moves a s.tallies) : Moves a (retractTest s).tallies := by
  have htimer : Moves a (s.onVC fun v => { v with homeTimer := none }).tallies := h
  exact .ite (.ite htimer.enterCondemned (by simpa using h)) h

protected theorem Moves.abortToAborting {p : Pass} {why : AbortReason} (h : Moves a s.tallies) :
    Moves a (abortToAborting p why s).tallies :=
  .retractTest (by simpa using h.abortPass)

protected theorem Moves.strayReturn (h : Moves a s.tallies) : Moves a (strayReturn s).tallies := by
  refine h.trans (.of_counts rfl fun hr => ?_)
  have := satInc_le 255 s.pc.stray
  simp only [Tallies.InRange, State.tallies, Machine.strayReturn, State.onPC] at hr ⊢
  omega

/-! ## Slots -/

protected theorem Moves.reservationLost (h : Moves a s.tallies) : Moves a (reservationLost s).tallies := by
  have hlost : ∀ c, c.counts = s.lc.counts → Moves a ((s.onLC fun _ => c).onSCU fun u =>
      { u with lost := satInc 255 u.lost }).tallies := fun c hc => by
    refine (show Moves a (s.onLC fun _ => c).tallies by simpa [hc] using h).trans (.of_counts rfl fun hr => ?_)
    have := satInc_le 255 s.scu.lost
    simp only [Tallies.InRange, State.tallies, State.onLC, State.onSCU] at hr ⊢
    omega
  simp only [Machine.reservationLost]
  exact .ite (.ite (hlost _ (lcWithdraw_counts _ _)) (hlost _ (lcWithdraw_counts _ _))) h

protected theorem Moves.claimHeard {n : Fin 16} {pass : Nat} (h : Moves a s.tallies) :
    Moves a (claimHeard n pass s).tallies :=
  .reservationLost (by simpa using h)

protected theorem Moves.ownClaimSent {pass : Nat} {givenUp : Bool} (h : Moves a s.tallies) :
    Moves a (ownClaimSent pass givenUp s).tallies := by
  have hyield : ∀ t : State, t.tallies = s.tallies → Moves a (t.onSCU fun u =>
      { u with yields := satInc 255 u.yields }).tallies := fun t ht => by
    refine (ht ▸ h).trans (.of_counts rfl fun hr => ?_)
    have := satInc_le 255 t.scu.yields
    simp only [Tallies.InRange, State.tallies, State.onSCU] at hr ⊢
    omega
  simp only [Machine.ownClaimSent]
  refine .ite (by simpa using h) (.ite (by simpa using h) ?_)
  rw [queueFrame_tallies]
  exact hyield _ (by simp)

end
end Sys2Proof.Machine

/-! PROOFS. Every command keeps the ranges, and lets a NORMAL record announced in the visit fall alone (R76 to R78, R91,
R100, R117, R137, R155, R160). -/

namespace Sys2Proof.Machine

open Sys2Proof

section
variable {a : Tallies} {s : State}

/-! ## The visit, ESTOP and silence -/

/-- A visit end puts the pass controller's counts back to their reset values (R137). -/
protected theorem Moves.clearVisit (h : Moves a s.tallies) : Moves a (clearVisit s).tallies := by
  refine h.trans (.of_counts rfl fun hr => ?_)
  simp only [Tallies.InRange, State.tallies, Machine.clearVisit, PC.reset, RU.reset] at hr ⊢
  omega

protected theorem Moves.clearCeiling (h : Moves a s.tallies) : Moves a (clearCeiling s).tallies := by
  have hcleared : Moves a ((changeCeiling .cleared none s).onFE fun f =>
      { f with ceil := { f.ceil with announced := false } }).tallies := by
    obtain ⟨-, hranges⟩ : Moves a (changeCeiling .cleared none s).tallies := h.changeCeiling (by decide)
    have hstatus : (changeCeiling .cleared none s).fe.ceil.status = .cleared :=
      congrArg (·.ceil.status) (changeCeiling_tallies .cleared none s)
    exact ⟨.of_ne (by simp [State.tallies, hstatus]), hranges⟩
  exact .ite hcleared h

protected theorem Moves.visitEnd (h : Moves a s.tallies) : Moves a (visitEnd s).tallies :=
  .clearCeiling (.clearVisit (by simpa using h))

protected theorem Moves.estopActive (h : Moves a s.tallies) : Moves a (estopActive s).tallies := by
  have henter : Moves a (enterEstop s).tallies := by
    simp only [enterEstop, estopStops]
    (repeat' split)
    · simpa using h
    · exact .abortPass (by simpa using h)
    · simpa using h
    · simpa using h
    · simpa using h
    · simpa using h
  simp only [Machine.estopActive]
  split
  · exact h
  · exact h
  · exact h
  · exact henter

protected theorem Moves.estopInactive (h : Moves a s.tallies) : Moves a (estopInactive s).tallies := by
  have hexit : Moves a (exitEstop s).tallies := by
    simp only [exitEstop, onVC_tallies]
    (repeat' split)
    · exact h.enterCondemned
    · simpa using h
    · simpa using h
    · simpa using h
    · simpa using h
    · exact h
  exact .ite hexit h

protected theorem Moves.listenExpiry (h : Moves a s.tallies) : Moves a (listenExpiry s).tallies := by
  have hend : ∀ t : State, Moves a t.tallies → Moves a (endStart t).tallies := fun t ht => by
    have hleft : Moves a (if t.result.start.good then setStation .idle t else
        setStation .invalid (latch .settingsInvalid (t.onVC fun v => { v with settingsInvalid := true }))).tallies :=
      .ite (by simpa using ht) (by simpa using ht)
    exact .ite hleft.estopActive hleft
  have hcount : Moves a (s.onLC fun c => { c with listenLeft := c.listenLeft - 1 }).tallies := h
  exact .ite (hend _ hcount) hcount

protected theorem Moves.silence (h : Moves a s.tallies) : Moves a (silence s).tallies := by
  simp only [Machine.silence, silenceStops, dropPlan_tallies, releaseClaim_tallies]
  (repeat' split)
  · simpa using h
  · simpa using h
  · exact .abortPass (by simpa using h)
  · simpa using h
  · simpa using h

/-! ## Host commands -/

protected theorem Moves.actFeed {p : List Byte} (h : Moves a s.tallies) : Moves a (actFeed p s).tallies := by
  have hfeed : Moves a ((respond (.ok .feed (be1 (clampTo 50 120 (field p 0 1)))) s).onPC fun c =>
      { c with feed := clampTo 50 120 (field p 0 1) }).tallies := by
    refine h.trans (.of_counts rfl fun hr => ?_)
    simp only [Tallies.InRange, State.tallies, clampTo, respond, State.onPC, State.onOut] at hr ⊢
    omega
  simp only [Machine.actFeed, rateOrder]
  (repeat' split)
  · exact h
  · simpa using hfeed
  · simpa using hfeed
  · simpa using hfeed
  · simpa using hfeed
  · exact hfeed

protected theorem Moves.actWithdraw {p : List Byte} (h : Moves a s.tallies) : Moves a (actWithdraw p s).tallies := by
  have hended : Moves a (if s.vc.visitOpen then visitEnd s else s).tallies := .ite h.visitEnd h
  simp only [Machine.actWithdraw]
  refine .ite h (.ite h (.ite (by simpa using hended) ?_))
  rw [setStation_tallies]
  exact .formIntent (.changeCeiling (by simpa using hended) (by decide))

protected theorem Moves.actRelease {p : List Byte} (h : Moves a s.tallies) : Moves a (actRelease p s).tallies := by
  have hended : Moves a (visitEnd (accept .release s)).tallies := .visitEnd (by simpa using h)
  simp only [Machine.actRelease]
  exact .ite h (.ite h (.ite h (by simpa using hended)))

protected theorem Moves.actCommand {k : HostCmd} {p : List Byte} {u : UnlockState} (h : Moves a s.tallies) :
    Moves a (actCommand k p u s).tallies := by
  cases k with
  | feed => exact h.actFeed
  | withdraw => exact h.actWithdraw
  | release => exact h.actRelease
  | visit =>
    simp only [Machine.actCommand, actVisit]
    exact .ite h (.ite h (.ite h (by simpa using h)))
  | measure =>
    have hdrops : (measureDrops s).tallies = s.tallies := by
      simp only [measureDrops]
      split <;> simp
    simp only [Machine.actCommand, actMeasure]
    exact .ite h (.ite h (by simpa [hdrops] using h))
  | cut =>
    simp only [Machine.actCommand, actCut]
    exact .ite h (.ite h (by simpa using h))
  | hold => exact .ite h (by simpa using h)
  | resume => exact .ite h (.ite h (by simpa using h))
  | calibrate =>
    simp only [Machine.actCommand, actCalibrate]
    (repeat' split) <;> simpa using h
  | unlock =>
    simp only [Machine.actCommand, actUnlock]
    (repeat' split) <;> exact h
  | writeSettings =>
    simp only [Machine.actCommand, actWriteSettings]
    (repeat' split) <;> exact h
  | readSettings =>
    simp only [Machine.actCommand, actReadSettings]
    (repeat' split) <;> exact h
  | readStatus => exact h
  | readResult => exact .ite h h
  | readPeers => exact h
  | readPasses => exact h

protected theorem Moves.takeCommand {k : HostCmd} {p : List Byte} (h : Moves a s.tallies) :
    Moves a (takeCommand k p s).tallies :=
  .ite h (.ite h (.actCommand h))

protected theorem Moves.cpSubmit {k : HostCmd} {p : List Byte} (h : Moves a s.tallies) :
    Moves a (cpSubmit k p s).tallies :=
  .ite (.ite h h) h.takeCommand

protected theorem Moves.receiveBytes {bs : List Byte} (h : Moves a s.tallies) :
    Moves a (receiveBytes bs s).tallies := by
  simp only [Machine.receiveBytes]
  split
  · exact .cpSubmit h
  · exact .ite h (.ite h h)

protected theorem Moves.hostWriteEnd {misread : List (Nat × Byte)} (h : Moves a s.tallies) :
    Moves a (hostWriteEnd misread s).tallies := by
  have hwaiting : ∀ t : State, Moves a t.tallies → Moves a (takeWaiting t).tallies := fun t ht => by
    simp only [takeWaiting]
    split
    · exact .takeCommand ht
    · exact ht
  simp only [Machine.hostWriteEnd]
  split
  · exact hwaiting _ (.ite h h)
  · exact h

/-! ## The line -/

protected theorem Moves.announce (h : Moves a s.tallies) : Moves a (announce s).tallies := by
  have hcount : Moves a (s.onLC fun c => { c with expiryCount := c.expiryCount % 4 + 1 }).tallies := by
    refine h.trans (.of_counts rfl fun hr => ?_)
    simp only [Tallies.InRange, State.tallies, State.onLC] at hr ⊢
    omega
  have hrefresh : ∀ t : State, (refresh t).tallies = t.tallies := fun t => by
    simp only [refresh]
    (repeat' split) <;> simp
  exact .ite (by simpa [hrefresh] using hcount) (by simpa using hcount)

protected theorem Moves.receiveError (h : Moves a s.tallies) : Moves a (receiveError s).tallies := by
  refine h.trans (.of_counts rfl fun hr => ?_)
  have := satInc_le 255 s.lc.rxErrors
  simp only [Tallies.InRange, State.tallies, Machine.receiveError, State.onLC] at hr ⊢
  omega

protected theorem Moves.countFrameError (h : Moves a s.tallies) : Moves a (s.onLC countFrameError).tallies := by
  refine h.trans (.of_counts rfl fun hr => ?_)
  have := satInc_le 65535 s.lc.errTotal
  simp only [Tallies.InRange, State.tallies, Machine.countFrameError, errorRunLimit, State.onLC] at hr ⊢
  omega

protected theorem Moves.goListenOnly (h : Moves a s.tallies) : Moves a (goListenOnly s).tallies := by
  refine h.trans (.of_counts rfl fun hr => ?_)
  have := satInc_le 255 s.lc.listenPeriods
  simp only [Tallies.InRange, State.tallies, Machine.goListenOnly, latch, State.onCP, State.onLC] at hr ⊢
  omega

/-- The run of errors ends (R88, R89). -/
theorem Moves.errRun_zero {f : LC → LC} (h : Moves a s.tallies) (hf : ∀ c, (f c).counts = { c with errRun := 0 }.counts) :
    Moves a (s.onLC f).tallies := by
  refine h.trans (.of_counts rfl fun hr => ?_)
  have hc := hf s.lc
  simp only [LC.counts, Prod.mk.injEq] at hc
  obtain ⟨hrx, hrun, htotal, hperiods, hexpiry⟩ := hc
  simp only [Tallies.InRange, State.tallies, State.onLC, hrx, hrun, htotal, hperiods, hexpiry] at hr ⊢
  omega

protected theorem Moves.reportSent {e : QEntry} (h : Moves a s.tallies) : Moves a (reportSent e s).tallies := by
  simp only [Machine.reportSent]
  split
  · simpa using h.ownClaimSent
  · exact h

protected theorem Moves.ruReport {told : Bool} {before : List ViewEntry} (h : Moves a s.tallies) :
    Moves a (ruReport told before s).tallies := by
  have hplans : Moves a (ruPlans before s).tallies := by
    simp only [ruPlans]
    (repeat' split)
    · exact h.firstPlan
    · exact h.replan.handTargets
    · exact h
    · exact h
  exact .ite (by simpa using hplans) (.ite (by simpa using h) h)

protected theorem Moves.deliverState {n : Fin 16} {p : PeerState} (h : Moves a s.tallies) :
    Moves a (deliverState n p s).tallies := by
  refine .ruReport ?_
  (repeat' split) <;> simpa using h

protected theorem Moves.deliverClaim {n : Fin 16} {pass : Nat} (h : Moves a s.tallies) :
    Moves a (deliverClaim n pass s).tallies :=
  .ruReport (.claimHeard h)

protected theorem Moves.receive {k : FrameKind} {f : LinkFrame} {deliver : State → State} (h : Moves a s.tallies)
    (hd : Moves a (deliver s).tallies) : Moves a (receive k f deliver s).tallies :=
  .ite h.receiveError (.ite (.ite h h.silence) hd)

protected theorem Moves.inputChanged {i : Input} {v : Bool} (h : Moves a s.tallies) :
    Moves a (inputChanged i v s).tallies := by
  have hhome : ∀ w, Moves a (homeEdge w s).tallies := fun w => .retractTest h
  cases i with
  | clamped =>
    simp only [Machine.inputChanged, clampedChanged]
    (repeat' split)
    · simpa using h
    · simpa using h
    · simpa using h
    · exact h.abortToAborting
    · simpa using h
    · exact h
  | guardClosed => exact .ite (by simpa using h) (by simpa using h)
  | estop => exact .ite h.estopActive h.estopInactive
  | driveAtSpeed => exact .ite (by simpa using h) (by simpa using h)
  | homeL => exact .ite (hhome .l) h
  | homeR => exact .ite (hhome .r) h

end

/-! ## The fit -/

/-- What a fit may do: it keeps the ranges, and a NORMAL record announced before it falls (R77). -/
structure FitMoves (a b : Tallies) : Prop where
  falls : a.ceil.status = .normal → a.ceil.announced = true → Falls a.ceil b.ceil
  ranges : a.InRange → b.InRange

theorem FitMoves.of_moves {a b : Tallies} (h : Moves a b) : FitMoves a b := ⟨fun _ _ => h.falls, h.ranges⟩

theorem FitMoves.refl (a : Tallies) : FitMoves a a := .of_moves (.refl a)

theorem FitMoves.trans {a b c : Tallies} (h : FitMoves a b) (k : Moves b c) : FitMoves a c :=
  ⟨fun hn ha => (h.falls hn ha).trans k.falls, k.ranges ∘ h.ranges⟩

/-- The fit's offer is lowered to a NORMAL record announced in the visit (R77). -/
theorem offerFit_moves {a : Tallies} (c : LR Int) (s : State) (h : s.tallies = a) :
    FitMoves a (offerFit c s).1.tallies := by
  subst h
  refine ⟨fun hn ha => ?_, takeCeiling_ranges _ _ s⟩
  have ha' : s.fe.ceil.announced = true := ha
  simp only [offerFit]
  split
  case h_1 held _ hvalue =>
    rw [ha']
    exact takeCeiling_min_falls c held _ s hn hvalue
  case h_2 hnone => exact takeCeiling_falls c _ s hn fun held hvalue => absurd hvalue (hnone held hn)

theorem endFit_moves {a : Tallies} {r : State × OfferResult} (h : FitMoves a r.1.tallies) :
    FitMoves a (endFit r).tallies := by
  obtain ⟨s, x⟩ := r
  have hfitted : FitMoves a (firstPlan (setStation .reconciling (writeResult .none (setFitState .fitted s)))).tallies :=
    h.trans (.firstPlan (by simp))
  cases x with
  | condemned => exact h.trans (.enterCondemned (.refl _))
  | same => exact hfitted
  | changed => exact hfitted

theorem runFit_moves {a : Tallies} (worn : LR (List (Option Int))) (s : State) (h : s.tallies = a) :
    FitMoves a (runFit worn s).tallies := by
  subst h
  simp only [runFit]
  (repeat' split)
  · exact endFit_moves (offerFit_moves _ _ rfl)
  · exact .refl s.tallies
  · exact .refl s.tallies

/-- The end of a sweep, of the R sweep with the fit (R65, R71). -/
theorem endSweep_moves (w : Wheel) (s : State) : FitMoves s.tallies (endSweep w s).tallies := by
  simp only [endSweep]
  (repeat' split)
  · exact .refl s.tallies
  · exact runFit_moves _ _ rfl
  · exact .of_moves (by simp)

/-! ## The commands -/

/-- What every command but RESET does (R76 to R78, R91, R100, R117, R137, R160). -/
theorem exec_moves (c : Instr) (s t : State) (hc : ∀ k p w, c ≠ .reset k p w) (he : exec c s = .next t) :
    FitMoves s.tallies t.tallies := by
  have hself : Moves s.tallies s.tallies := .refl _
  cases c with
  | reset k p w => exact absurd rfl (hc k p w)
  | sweepEnd w =>
    simp only [exec, execSweepEnd] at he
    split at he <;> injection he with he <;> subst he
    · split
      · exact endSweep_moves w s
      · exact .of_moves hself
    · exact .of_moves hself
  | visit p | measure p | cut p | hold p | resume p | feed p | withdraw p | release p | calibrate p | unlock p
  | writeSettings p | readSettings p | readStatus p | readResult p | readPeers p | readPasses p =>
    injection he with he; subst he
    exact .of_moves hself.cpSubmit
  | discardedFrame frame =>
    injection he with he; subst he
    exact .of_moves (.ite (.ite hself hself) (.ite hself hself.receiveBytes))
  | settingsWriteDone m =>
    injection he with he; subst he
    exact .of_moves hself.hostWriteEnd
  | calibrationWriteDone m | unlockTimerExpiry | rawInputChange i v =>
    injection he with he; subst he
    exact .of_moves (by simp)
  | announceTimerExpiry =>
    simp only [exec, execAnnounceTimerExpiry] at he
    split at he <;> injection he with he <;> subst he
    · exact .of_moves hself
    · exact .of_moves (.ite (.listenExpiry hself) (.announce hself))
  | watchdogExpiry =>
    simp only [exec, execWatchdogExpiry] at he
    split at he <;> injection he with he <;> subst he
    · exact .of_moves (.ite (by rw [settle_tallies, addHold_tallies]; exact hself) hself)
    · exact .of_moves hself
  | debounceExpiry i =>
    injection he with he; subst he
    exact .of_moves (.ite (.inputChanged hself) hself)
  | frameGapTimeout | homeTimerExpiry | encoderPulse | markLeadingEdge | markTrailingEdge | markTimerExpiry
  | driveTimerExpiry | violationTimerExpiry | peerWaitTimerExpiry | backoffExpiry =>
    injection he with he; subst he
    exact .of_moves (.ite (by simp) hself)
  | receiveError f =>
    injection he with he; subst he
    exact .of_moves (.ite hself hself.receiveError)
  | tracerReading w x r =>
    simp only [exec, execTracerReading] at he
    split at he <;> injection he with he <;> subst he
    · exact .of_moves (.ite hself hself)
    · exact .of_moves hself
  | sweepTimerExpiry =>
    simp only [exec, execSweepTimerExpiry] at he
    split at he <;> injection he with he <;> subst he
    · exact .of_moves (by simp)
    · exact .of_moves hself
  | transmitStart =>
    simp only [exec, execTransmitStart] at he
    split at he <;> injection he with he <;> subst he
    · exact .of_moves (.ite hself hself)
    · exact .of_moves hself
  | arbitrationLost bit =>
    simp only [exec, execArbitrationLost] at he
    split at he <;> injection he with he <;> subst he
    · exact .of_moves (.ite (by simp) hself)
    · exact .of_moves hself
  | ownFrameError =>
    simp only [exec, execOwnFrameError] at he
    split at he <;> injection he with he <;> subst he
    · exact .of_moves hself
    · have hfailed : Moves s.tallies (transmissionFailed (s.onLC countFrameError)).tallies := by
        simpa using hself.countFrameError
      exact .of_moves (.ite hfailed.goListenOnly hfailed)
  | listenOnlyEnd =>
    injection he with he; subst he
    exact .of_moves (.ite (hself.errRun_zero fun _ => rfl) hself)
  | frameSent =>
    simp only [exec, execFrameSent] at he
    split at he <;> injection he with he <;> subst he
    · exact .of_moves (.reportSent (.errRun_zero hself fun _ => lcTxSent_counts _))
    · exact .of_moves hself
  | stateReceived f =>
    injection he with he; subst he
    refine .of_moves (.receive hself ?_)
    split
    · exact .deliverState hself
    · exact hself
  | ceilingReceived f | intentReceived f =>
    injection he with he; subst he
    refine .of_moves (.receive hself ?_)
    split
    · exact .ruReport hself
    · exact hself
  | claimReceived f =>
    injection he with he; subst he
    refine .of_moves (.receive hself ?_)
    split
    · exact .deliverClaim hself
    · exact hself
  | releaseReceived f =>
    injection he with he; subst he
    exact .of_moves (hself.receive (.ruReport (by simp)))
  | peerAgeExpiry n =>
    simp only [exec, execPeerAgeExpiry] at he
    split at he <;> injection he with he <;> subst he
    · exact .of_moves (.ite hself (.ruReport (by simp)))
    · exact .of_moves hself
  | slideDone w =>
    simp only [exec, execSlideDone] at he
    split at he <;> injection he with he <;> subst he
    · exact .of_moves (.ite (.ite hself.completePass hself) hself.strayReturn)
    · exact .of_moves hself.strayReturn
  | slideFault w =>
    simp only [exec, execSlideFault] at he
    split at he <;> injection he with he <;> subst he
    · exact .of_moves hself.abortToAborting
    · exact .of_moves hself.strayReturn
  | passTimerExpiry =>
    simp only [exec, execPassTimerExpiry] at he
    split at he <;> injection he with he <;> subst he
    · exact .of_moves hself.abortToAborting
    · exact .of_moves hself

/-! ## The obligations -/

/-- Settles O13: every command but RESET lets a NORMAL record announced in the visit fall alone. -/
theorem announcedCeilingNeverRises : Obligations.AnnouncedCeilingNeverRises := by
  intro c s t v hc he hn ha hv ht
  obtain ⟨-, -, hvalue⟩ := (exec_moves c s t hc he).falls hn ha ht
  exact hvalue v hv

/-- The start sequence puts every count and the feed override within its range (R76, R91, R100, R117, R137, R160). -/
theorem start_ranges (kind : ResetKind) (straps : Straps) (m : Image) (s : State) : RangesInv (start kind straps m s) := by
  simp [RangesInv, start, PC.reset, RU.reset, LC.reset, SCU.reset, bootFE, CeilingRecord.reset]

/-- Settles O11: a reset puts the tallies within their ranges, every other command keeps them there, and a microsecond
leaves them as they are. -/
theorem countsKeepTheirRanges : Obligations.CountsKeepTheirRanges := by
  intro s t h he
  simp only [step] at he
  split at he
  case h_1 c rest _ =>
    by_cases hc : ∃ k p w, c = .reset k p w
    · obtain ⟨k, p, w, rfl⟩ := hc
      injection he with he; subst he
      exact start_ranges _ _ _ _
    · exact (exec_moves c _ t (fun k p w e => hc ⟨k, p, w, e⟩) he).ranges h
  case h_2 =>
    injection he with he; subst he
    exact h

end Sys2Proof.Machine

/-! PROOFS. The fit: the profile excess and the lowest point where it stands, the variant of the smallest axle depth, the
depths and the fit ceilings (R72 to R75, R83). -/

namespace Sys2Proof.Machine

open Sys2Proof

/-! ## The profile excess -/

/-- The difference of a variant's height and a worn height at a grid point where both stand (R72). -/
def ExcessAt (heights : List Int) (worn : List (Option Int)) (k : Nat) (d : Int) : Prop :=
  ∃ x y, heights[k]? = some x ∧ worn[k]? = some (some y) ∧ d = x - y

/-- A difference d at point i leads a difference e at point k: it is no smaller, and greater where its point is the
higher of the two (R72, R83). -/
def Leads (d : Int) (i : Nat) (e : Int) (k : Nat) : Prop := e ≤ d ∧ (k < i → e < d)

section
variable {t y d : Int} {ts : List Int} {ws : List (Option Int)} {w : Option Int} {k : Nat}

@[simp] theorem excessAt_nil_left : ¬ExcessAt [] ws k d := by
  simp [ExcessAt]

@[simp] theorem excessAt_nil_right : ¬ExcessAt ts [] k d := by
  simp [ExcessAt]

@[simp] theorem excessAt_zero_some : ExcessAt (t :: ts) (some y :: ws) 0 d ↔ d = t - y := by
  simp [ExcessAt]

@[simp] theorem excessAt_zero_none : ¬ExcessAt (t :: ts) (none :: ws) 0 d := by
  simp [ExcessAt]

@[simp] theorem excessAt_succ : ExcessAt (t :: ts) (w :: ws) (k + 1) d ↔ ExcessAt ts ws k d := by
  simp [ExcessAt]

end

/-- Of the best so far and the difference at its own point, the search goes on with one that leads both. -/
theorem maxExcess_cons_some (t y : Int) (ts : List Int) (ws : List (Option Int)) (j : Nat)
    (best : Option (Int × Nat)) (hbest : ∀ b i, best = some (b, i) → i < j) :
    ∃ b i, maxExcess (t :: ts) (some y :: ws) j best = maxExcess ts ws (j + 1) (some (b, i)) ∧ i < j + 1 ∧
      (best = some (b, i) ∨ i = j ∧ b = t - y) ∧ Leads b i (t - y) j ∧
      ∀ c k, best = some (c, k) → Leads b i c k := by
  rcases best with _ | ⟨c, k⟩
  · exact ⟨t - y, j, rfl, by omega, .inr ⟨rfl, rfl⟩, ⟨le_rfl, by omega⟩, by simp⟩
  · have hk : k < j := hbest c k rfl
    by_cases h : c < t - y
    · refine ⟨t - y, j, by simp [maxExcess, h], by omega, .inr ⟨rfl, rfl⟩, ⟨le_rfl, by omega⟩, ?_⟩
      rintro _ _ ⟨⟩
      exact ⟨h.le, fun _ => h⟩
    · refine ⟨c, k, by simp [maxExcess, h], by omega, .inl rfl, ⟨by omega, by omega⟩, ?_⟩
      rintro _ _ ⟨⟩
      exact ⟨le_rfl, by omega⟩

theorem Leads.trans {d e f : Int} {i j k : Nat} (h : Leads d i e j) (h' : Leads e j f k) : Leads d i f k := by
  obtain ⟨hle, hlt⟩ := h
  obtain ⟨hle', hlt'⟩ := h'
  refine ⟨hle'.trans hle, fun hki => ?_⟩
  rcases lt_or_ge k j with hkj | hjk
  · exact (hlt' hkj).trans_le hle
  · exact hle'.trans_lt (hlt (hjk.trans_lt hki))

/-- The search over the points from the j-th on, with a best of the points below: it finds one of them, and what it
finds leads them all (R72, R83). -/
theorem maxExcess_spec (ts : List Int) (ws : List (Option Int)) (j : Nat) (best : Option (Int × Nat))
    (hbest : ∀ b i, best = some (b, i) → i < j) (d : Int) (i : Nat) (h : maxExcess ts ws j best = some (d, i)) :
    (best = some (d, i) ∨ ∃ k, i = j + k ∧ ExcessAt ts ws k d) ∧
    (∀ c k, best = some (c, k) → Leads d i c k) ∧ ∀ k e, ExcessAt ts ws k e → Leads d i e (j + k) := by
  induction ts generalizing ws j best with
  | nil =>
    obtain rfl : best = some (d, i) := by simpa [maxExcess] using h
    exact ⟨.inl rfl, by rintro _ _ ⟨⟩; exact ⟨le_rfl, fun h => absurd h (lt_irrefl _)⟩, by simp⟩
  | cons t ts ih =>
    rcases ws with _ | ⟨_ | y, ws⟩
    · obtain rfl : best = some (d, i) := by simpa [maxExcess] using h
      exact ⟨.inl rfl, by rintro _ _ ⟨⟩; exact ⟨le_rfl, fun h => absurd h (lt_irrefl _)⟩, by simp⟩
    · obtain ⟨hfound, hleads, hall⟩ := ih ws (j + 1) best (fun b i hb => (hbest b i hb).trans (by omega)) h
      refine ⟨hfound.imp_right ?_, hleads, ?_⟩
      · rintro ⟨k, rfl, hk⟩
        exact ⟨k + 1, by omega, by simpa using hk⟩
      · rintro (_ | k) e he
        · simp at he
        · exact (show j + 1 + k = j + (k + 1) by omega) ▸ hall k e (by simpa using he)
    · obtain ⟨b, m, hstep, hm, hb, hown, hprev⟩ := maxExcess_cons_some t y ts ws j best hbest
      obtain ⟨hfound, hleads, hall⟩ := ih ws (j + 1) (some (b, m)) (by rintro _ _ ⟨⟩; exact hm) (hstep ▸ h)
      have hbm : Leads d i b m := hleads b m rfl
      refine ⟨?_, fun c k hc => hbm.trans (hprev c k hc), ?_⟩
      · rcases hfound with hfound | ⟨k, rfl, hk⟩
        · obtain ⟨rfl, rfl⟩ : b = d ∧ m = i := by simpa using hfound
          exact hb.imp_right fun ⟨hi, hd⟩ => ⟨0, hi, by simpa using hd⟩
        · exact .inr ⟨k + 1, by omega, by simpa using hk⟩
      · rintro (_ | k) e he
        · obtain rfl : e = t - y := by simpa using he
          exact hbm.trans hown
        · exact (show j + 1 + k = j + (k + 1) by omega) ▸ hall k e (by simpa using he)

/-- A best found is not lost, and a point where both heights stand is found (R72). -/
theorem maxExcess_isSome (ts : List Int) (ws : List (Option Int)) (j : Nat) (best : Option (Int × Nat))
    (h : best.isSome = true ∨ ∃ k d, ExcessAt ts ws k d) : (maxExcess ts ws j best).isSome = true := by
  induction ts generalizing ws j best with
  | nil => simpa [maxExcess] using h
  | cons t ts ih =>
    rcases ws with _ | ⟨_ | y, ws⟩
    · simpa [maxExcess] using h
    · refine ih ws (j + 1) best (h.imp_right ?_)
      rintro ⟨_ | k, d, hd⟩
      · simp at hd
      · exact ⟨k, d, by simpa using hd⟩
    · refine ih ws (j + 1) _ (.inl ?_)
      (repeat' split) <;> rfl

/-- The profile excess over the present points: it stands at its point, and leads every other difference (R72, R83). -/
theorem excess_spec (v : Variant) (worn : List (Option Int)) (h : ∃ k d, ExcessAt v.heights worn k d) :
    ExcessAt v.heights worn (excess v worn).2 (excess v worn).1 ∧
    ∀ k e, ExcessAt v.heights worn k e → Leads (excess v worn).1 (excess v worn).2 e k := by
  obtain ⟨⟨d, i⟩, hm⟩ := Option.isSome_iff_exists.1 (maxExcess_isSome v.heights worn 0 none (.inr h))
  obtain ⟨hfound, -, hall⟩ := maxExcess_spec v.heights worn 0 none (by simp) d i hm
  simp only [excess, hm, Option.getD_some]
  refine ⟨?_, fun k e he => by simpa using hall k e he⟩
  rcases hfound with hnone | ⟨k, rfl, hk⟩
  · simp at hnone
  · simpa using hk

/-- Heights of one length, one of them present: a point where both stand. -/
theorem excessAt_of_present (heights : List Int) (worn : List (Option Int)) (hlen : worn.length = heights.length)
    (j : Nat) (y : Int) (hy : worn[j]? = some (some y)) : ∃ k d, ExcessAt heights worn k d := by
  obtain ⟨hj, -⟩ := List.getElem?_eq_some_iff.1 hy
  exact ⟨j, _, heights[j]'(hlen ▸ hj), y, List.getElem?_eq_getElem _, hy, rfl⟩

/-! ## The choice of the variant -/

/-- A choice is made of every list but the empty one (R74). -/
theorem chooseVariant_exists (fs : List VariantFit) (h : fs ≠ []) : ∃ g, chooseVariant fs = some g := by
  cases fs with
  | nil => exact absurd rfl h
  | cons f t =>
    simp only [chooseVariant]
    (repeat' split) <;> exact ⟨_, rfl⟩

/-- The chosen variant has the smallest axle depth, and the lowest index among equals (R74). -/
theorem chooseVariant_spec (fs : List VariantFit) (hfs : fs.Pairwise fun a b => a.index < b.index) (g : VariantFit)
    (h : chooseVariant fs = some g) :
    g ∈ fs ∧ ∀ f ∈ fs, g.axle ≤ f.axle ∧ (f.axle = g.axle → g.index ≤ f.index) := by
  induction fs generalizing g with
  | nil => simp [chooseVariant] at h
  | cons f t ih =>
    obtain ⟨hf, ht⟩ := List.pairwise_cons.1 hfs
    simp only [chooseVariant] at h
    split at h
    · rename_i x hx
      obtain ⟨hmem, hleast⟩ := ih ht x hx
      split at h <;> cases h
      · rename_i hlt
        exact ⟨.tail _ hmem, List.forall_mem_cons.2 ⟨⟨hlt.le, fun he => absurd he hlt.ne'⟩, hleast⟩⟩
      · rename_i hge
        refine ⟨.head _, List.forall_mem_cons.2 ⟨⟨le_rfl, fun _ => le_rfl⟩, fun e he => ?_⟩⟩
        obtain ⟨hle, -⟩ := hleast e he
        exact ⟨(not_lt.1 hge).trans hle, fun _ => (hf e he).le⟩
    · rename_i hnone
      cases h
      obtain rfl : t = [] := by
        by_contra hne
        obtain ⟨g, hg⟩ := chooseVariant_exists t hne
        rw [hnone] at hg
        cases hg
      simp

/-! ## The obligation -/

/-- Settles O19, by the search for the excess and the choice of the variant; depths and fit ceilings are as defined. -/
theorem fitChoosesTheVariant : Obligations.FitChoosesTheVariant := by
  refine ⟨fun v worn hlen ⟨j, y, hy⟩ => ?excess, fun m k v ρ worn w => ?depth, fun fs hfs => ?choice,
    fun d f w => ?ceilings⟩
  case excess =>
    obtain ⟨⟨x, z, hx, hz, hd⟩, hall⟩ := excess_spec v worn (excessAt_of_present v.heights worn hlen j y hy)
    exact ⟨⟨x, z, hx, hz, hd⟩, fun k a b ha hb => hall k _ ⟨a, b, ha, hb, rfl⟩⟩
  case depth => cases w <;> exact ⟨rfl, rfl, rfl, rfl, rfl⟩
  case choice => exact ⟨chooseVariant_exists fs, chooseVariant_spec fs hfs⟩
  case ceilings => cases w <;> rfl

end Sys2Proof.Machine

/-! PROOFS. Reading a host record: bytes that stand at an offset, what a field reads there, lists of equal pieces, marks
and sections (R195, R201). -/

namespace Sys2Proof.Machine

open Sys2Proof

/-! ## Bytes at an offset -/

/-- The bytes `bs` stand in the record `r` from offset `off` on. -/
def HoldsAt (r : List Byte) (off : Nat) (bs : List Byte) : Prop := bs <+: r.drop off

theorem HoldsAt.of_eq {r bs : List Byte} (h : r = bs) : HoldsAt r 0 bs :=
  ⟨[], by simp [h]⟩

@[simp] theorem be1_length (n : Nat) : (be1 n).length = 1 := rfl
@[simp] theorem be2_length (n : Nat) : (be2 n).length = 2 := rfl
@[simp] theorem be4_length (n : Nat) : (be4 n).length = 4 := rfl

section
variable {r : List Byte} {off : Nat}

@[simp] theorem holdsAt_append (a b : List Byte) :
    HoldsAt r off (a ++ b) ↔ HoldsAt r off a ∧ HoldsAt r (off + a.length) b := by
  simp only [HoldsAt, ← List.drop_drop]
  constructor
  · rintro ⟨t, ht⟩
    rw [← ht, List.append_assoc]
    exact ⟨⟨b ++ t, rfl⟩, t, by simp⟩
  · rintro ⟨⟨t, ht⟩, hb⟩
    rw [← ht, List.drop_left] at hb
    obtain ⟨u, hu⟩ := hb
    exact ⟨u, by rw [← ht, List.append_assoc, hu]⟩

/-- A one-byte field (R195). -/
@[simp] theorem holdsAt_be1 (n : Nat) : HoldsAt r off (be1 n) ↔ off < r.length ∧ field r off 1 = n % 256 := by
  rw [← Nat.sub_pos_iff_lt, ← List.length_drop]
  rcases h : r.drop off with _ | ⟨a, t⟩ <;> simp [HoldsAt, field, ofBytes, be1, h, BitVec.toNat_eq, eq_comm]

/-- A two-byte field, most significant byte first (R195). -/
@[simp] theorem holdsAt_be2 (n : Nat) :
    HoldsAt r off (be2 n) ↔ off + 1 < r.length ∧ field r off 2 = n % 65536 := by
  have hlen : off + 1 < r.length ↔ 1 < (r.drop off).length := by rw [List.length_drop]; omega
  rw [hlen]
  rcases h : r.drop off with _ | ⟨a, _ | ⟨b, t⟩⟩ <;> simp [HoldsAt, field, ofBytes, be2, h, BitVec.toNat_eq]
  omega

/-- A four-byte field, most significant byte first (R195). -/
@[simp] theorem holdsAt_be4 (n : Nat) :
    HoldsAt r off (be4 n) ↔ off + 3 < r.length ∧ field r off 4 = n % 4294967296 := by
  have hlen : off + 3 < r.length ↔ 3 < (r.drop off).length := by rw [List.length_drop]; omega
  rw [hlen]
  rcases h : r.drop off with _ | ⟨a, _ | ⟨b, _ | ⟨c, _ | ⟨d, t⟩⟩⟩⟩ <;>
    simp [HoldsAt, field, ofBytes, be4, h, BitVec.toNat_eq]
  omega

/-- Pieces of one length: the i-th stands i lengths on. -/
theorem HoldsAt.flatMap {α : Type} {g : α → List Byte} {k : Nat} (hk : ∀ x, (g x).length = k) {xs : List α} {i : Nat}
    {x : α} (h : HoldsAt r off (xs.flatMap g)) (hi : xs[i]? = some x) : HoldsAt r (off + k * i) (g x) := by
  induction xs generalizing off i with
  | nil => simp at hi
  | cons y ys ih =>
    rw [List.flatMap_cons, holdsAt_append, hk] at h
    obtain ⟨hy, hys⟩ := h
    rcases i with _ | i
    · obtain rfl : y = x := by simpa using hi
      exact hy
    · exact (show off + k + k * i = off + k * (i + 1) by rw [Nat.mul_succ]; omega) ▸ ih hys (by simpa using hi)

end

theorem flatMap_length {α : Type} {g : α → List Byte} {k : Nat} (hk : ∀ x, (g x).length = k) (xs : List α) :
    (xs.flatMap g).length = k * xs.length := by
  induction xs with
  | nil => rfl
  | cons y ys ih => rw [List.flatMap_cons, List.length_append, ih, hk, List.length_cons, Nat.mul_succ, Nat.add_comm]

/-! ## Places -/

@[simp] theorem reads_nil (r : List Byte) : Reads r [] := by
  simp [Reads]

@[simp] theorem reads_cons (r : List Byte) (off width v : Nat) (t : List (Nat × Nat × Nat)) :
    Reads r ((off, width, v) :: t) ↔ field r off width = v % 256 ^ width ∧ Reads r t := by
  simp [Reads]

@[simp] theorem reads_append (r : List Byte) (a b : List (Nat × Nat × Nat)) :
    Reads r (a ++ b) ↔ Reads r a ∧ Reads r b := by
  simp [Reads, or_imp, forall_and]

/-! ## Optional pairs, times and marks -/

@[simp] theorem optPair4_length (v : Option (LR Int)) : (optPair4 v).length = 8 := rfl

/-- A pair of signed fields, 0 where absent (R195). -/
@[simp] theorem holdsAt_optPair4 {r : List Byte} {off : Nat} (v : Option (LR Int)) :
    HoldsAt r off (optPair4 v) ↔ off + 7 < r.length ∧ Reads r (pairAt off v) := by
  have h : optPair4 v = be4 (signedField (v.map (·.l))) ++ be4 (signedField (v.map (·.r))) := by
    cases v <;> rfl
  rw [h]
  simp [pairAt]
  omega

@[simp] theorem opt1_eq (v : Option Nat) : opt1 v = be1 (v.getD 0) := rfl
@[simp] theorem opt2_eq (v : Option Nat) : opt2 v = be2 (v.getD 0) := rfl
@[simp] theorem opt4_eq (v : Option Nat) : opt4 v = be4 (v.getD 0) := rfl
@[simp] theorem sbe4_eq (i : Int) : sbe4 i = be4 (twos 32 i) := rfl

/-- An optional time in whole milliseconds (log entry 37). -/
@[simp] theorem getD_map_toMs (t : Option Nat) : (t.map toMs).getD 0 = t.getD 0 / 1000 := by
  cases t <;> rfl

/-- Up to eight marks are one byte (R195). -/
@[simp] theorem marks_eq (m : List Bool) (h : m.length ≤ 8) : marks m = be1 (packMarks m) := by
  have hn : max 1 ((m.length + 7) / 8) = 1 := by omega
  simp [marks, hn, markBytes, be1, List.take_of_length_le h]

/-- Nine to sixteen marks are two bytes (R195). -/
theorem marks_eq_two (m : List Bool) (h : 8 < m.length) (h' : m.length ≤ 16) :
    marks m = be1 (packMarks (m.take 8)) ++ be1 (packMarks (m.drop 8)) := by
  have hn : max 1 ((m.length + 7) / 8) = 2 := by omega
  have hrest : (m.drop 8).length ≤ 8 := by rw [List.length_drop]; omega
  simp [marks, hn, markBytes, be1, List.take_of_length_le hrest]

theorem markBytes_length (n : Nat) (m : List Bool) : (markBytes n m).length = n := by
  induction n generalizing m with
  | zero => rfl
  | succ n ih => rw [markBytes, List.length_cons, ih]

/-- The i-th byte of marks packs the i-th eight of them (R195). -/
theorem HoldsAt.markBytes {r : List Byte} {off n : Nat} {m : List Bool} (h : HoldsAt r off (markBytes n m)) (i : Nat)
    (hi : i < n) : HoldsAt r (off + i) (be1 (packMarks ((m.drop (8 * i)).take 8))) := by
  induction n generalizing off m i with
  | zero => omega
  | succ n ih =>
    rw [Machine.markBytes, ← List.singleton_append, holdsAt_append] at h
    obtain ⟨hfirst, hrest⟩ := h
    rcases i with _ | i
    · exact hfirst
    · have hr := ih hrest i (by omega)
      rw [List.drop_drop] at hr
      have hat : off + 1 + i = off + (i + 1) := by omega
      have hdrop : 8 + 8 * i = 8 * (i + 1) := by omega
      rwa [List.length_singleton, hat, hdrop] at hr

/-- The length field counts the whole section (R201). -/
theorem field_section_length (presence : List Bool) (fields : List Byte) :
    field (section_ presence fields) 0 2 = (section_ presence fields).length % 65536 := by
  have h := HoldsAt.of_eq (rfl : section_ presence fields = section_ presence fields)
  conv at h => arg 3; rw [section_]
  rw [holdsAt_append, holdsAt_be2] at h
  obtain ⟨⟨-, hfield⟩, -⟩ := h
  rw [hfield, section_, List.length_append (as := be2 _), be2_length, Nat.add_comm 2]

/-- A section of up to eight presence bits (R201). -/
theorem section_eq (presence : List Bool) (fields : List Byte) (h : presence.length ≤ 8) :
    section_ presence fields = be2 (fields.length + 3) ++ (be1 (packMarks presence) ++ fields) := by
  rw [section_, marks_eq presence h, List.length_append, be1_length, Nat.add_comm 1, Nat.add_assoc]

/-- A section of up to eight presence bits, read from its start (R201). -/
theorem holdsAt_section {r : List Byte} {presence : List Bool} {fields : List Byte} (h : r = section_ presence fields)
    (hp : presence.length ≤ 8) :
    HoldsAt r 0 (be2 (fields.length + 3)) ∧ HoldsAt r 2 (be1 (packMarks presence)) ∧ HoldsAt r 3 fields := by
  have hr := HoldsAt.of_eq (h.trans (section_eq presence fields hp))
  simpa only [holdsAt_append, be2_length, be1_length, Nat.zero_add] using hr

theorem section_length {presence : List Bool} (fields : List Byte) (hp : presence.length ≤ 8) :
    (section_ presence fields).length = fields.length + 3 := by
  rw [section_eq presence fields hp]
  simp
  omega

end Sys2Proof.Machine

/-! PROOFS. The status record, section by section (R84, R100, R116, R136, R157, R170, R179, R201). -/

namespace Sys2Proof.Machine

open Sys2Proof

/-! ## The visit, run and ceiling sections -/

theorem visitReads (v : VC) : VisitReads v := by
  have h := holdsAt_section (r := visitSection v) rfl (by simp)
  simp at h
  exact ⟨by simp [visitSection, section_length], by simp [h]⟩

theorem RunKind.code_eq (k : RunKind) : k.code = if k = .calibrate then 1 else 0 := by
  cases k <;> rfl

/-- The code of a phase with an open sweep names the sweep's wheel (R53). -/
theorem PtuPhase.code_of_openSweep {p : PtuPhase} {w : Wheel} (h : openSweep p = some w) :
    p.code = if w = .l then 1 else 2 := by
  cases p <;> cases h <;> rfl

/-- The run's fields stand at 3 to 5, the RCU's at 6 to 11, the sweep's at 12 to 20, present or not (R35, R51, R66). -/
theorem runReads (s : State) : RunReads s := by
  have hrun : ∀ c : Prop, [Decidable c] → (if c then be1 s.rtu.run.code ++ be1 s.rtu.attempt ++ be1 s.rtu.restarts
      else [0, 0, 0]).length = 3 := fun c _ => by split <;> rfl
  have hfill : ∀ c : Prop, [Decidable c] → (if c then fillingFields s.rcu.wheel.l ++ fillingFields s.rcu.wheel.r
      else List.replicate 6 0).length = 6 := fun c _ => by split <;> rfl
  have hsweep : ∀ (c : Prop) (w : PtuWheel), [Decidable c] → (if c then be1 s.ptu.phase.code ++
      opt2 (s.ptu.sweepTimer.map toMs) ++ be2 w.received ++ be2 w.binned ++ be2 w.liftoffs
      else List.replicate 9 0).length = 9 := fun c w _ => by split <;> rfl
  have h := holdsAt_section (r := runSection s) rfl (by simp)
  simp only [holdsAt_append, List.length_append, hrun, hfill, hsweep, holdsAt_be1, holdsAt_be2] at h
  obtain ⟨⟨-, hlen⟩, ⟨-, hpresence⟩, ⟨hr, hf⟩, hs⟩ := h
  refine ⟨?length, ?presence, fun hon => ?run, fun hon => ?filling, fun w hw => ?sweep⟩
  case length =>
    rw [runSection, section_length _ (by simp), List.length_append, List.length_append, hrun, hfill, hsweep]
  case presence => simp [hlen, hpresence]
  case run =>
    rw [if_pos (by simpa using hon)] at hr
    simp at hr
    simp [hr, RunKind.code_eq]
  case filling =>
    rw [if_pos (by simpa using hon)] at hf
    simp [fillingFields, binsPresent] at hf
    simp [hf]
  case sweep =>
    rw [if_pos (by simp [hw])] at hs
    simp [hw] at hs
    simp [hs, PtuPhase.code_of_openSweep hw]

theorem ceilingReads (f : FE) : CeilingReads f := by
  have h := holdsAt_section (r := ceilingSection f) rfl (by simp)
  simp at h
  exact ⟨by simp [ceilingSection, section_length], by simp [h]⟩

/-! ## The link and peers sections -/

theorem queueFields_length (f : QFrame) : (queueFields f).length = 3 := rfl

/-- The fields of the overflow frame, 0 without one (R100). -/
theorem overflowFields_getD (o : Option QFrame) : (o.map queueFields).getD [0, 0, 0] =
    be1 ((o.map QFrame.kindCode).getD 0) ++ be1 ((o.map QFrame.cls).getD 0) ++ be1 ((o.bind QFrame.pass).getD 0) := by
  cases o <;> rfl

/-- The frames stand from 13 on, three bytes each; after them the overflow frame and the mark (R100). -/
theorem linkReads (c : LC) : LinkReads c := by
  unfold LinkReads
  intro r n num frame hn
  have hnum : num = QFrame.pass := by
    funext f
    cases f <;> rfl
  have hqueue : (c.queue.flatMap fun e => queueFields e.frame).length = 3 * n :=
    flatMap_length (fun e => queueFields_length e.frame) c.queue
  have hp : (linkPresence c).length ≤ 8 := by
    simp only [linkPresence, List.length_append, List.length_map, List.length_cons, List.length_nil]
    omega
  have h := holdsAt_section (r := r) rfl hp
  rw [overflowFields_getD] at h
  simp [hqueue] at h
  have hframes : HoldsAt r 13 (c.queue.flatMap fun e => queueFields e.frame) := by simp [h]
  have hlength : r.length = 17 + 3 * n := by
    simp only [r, linkSection, section_length _ hp, overflowFields_getD]
    simp [hqueue]
    omega
  have hwhole : field r 0 2 = (17 + 3 * n) % 65536 := hlength ▸ field_section_length _ _
  refine ⟨hlength, ?fixed, fun i e hi => ?queued, fun g hg => ?overflow⟩
  case fixed =>
    have hlast : 16 + 3 * n = 13 + 3 * n + 1 + 1 + 1 := by omega
    rw [hlast, reads_cons, hwhole]
    simp [h, hnum, linkPresence]
    rfl
  case queued =>
    have he := hframes.flatMap (g := fun e => queueFields e.frame) (fun e => queueFields_length e.frame) hi
    simp [queueFields] at he
    simp [frame, hnum, he]
  case overflow =>
    have hat : 13 + 3 * n + 2 = 13 + 3 * n + 1 + 1 := by omega
    simp [frame, hnum, h, hg, hat]

theorem name_eq_pending (c : PeerClass) : decide (c.name = .pending) = c.isPending := by
  cases c <;> rfl

theorem peersReads (s : State) : PeersReads s := by
  have hstale : ∀ e : PeerEntry, decide (e.freshness = .stale) = (e.freshness == .stale) := fun e => by
    cases e.freshness <;> rfl
  have hmember : ∀ e : ViewEntry, decide (e.cls = .member) = (e.cls == .member) := fun _ => rfl
  simp only [PeersReads, peersSection, section_eq [] _ (Nat.zero_le 8), List.countP_eq_length_filter, name_eq_pending,
    hstale, hmember]
  simp [be2, be1, packMarks]

/-! ## The reconciliation section -/

theorem firstPending_isSome (v : List ViewEntry) : (firstPending v).isSome = anyPending v := by
  simp only [firstPending, anyPending, List.isSome_findSome?]
  congr 1
  funext e
  cases e.cls <;> rfl

theorem firstPending_of_find {v : List ViewEntry} {e : ViewEntry} {why : PendReason}
    (h : v.find? (fun e => e.cls.isPending) = some e) (hc : e.cls = .pending why) :
    firstPending v = some (e.station, why) := by
  induction v with
  | nil => simp at h
  | cons x t ih =>
    rw [List.find?_cons] at h
    rw [firstPending, List.findSome?_cons]
    cases hx : x.cls with
    | pending w =>
      obtain rfl : x = e := by simpa [hx, PeerClass.isPending] using h
      obtain rfl : w = why := by simpa [hx] using hc
      rfl
    | notMember | member => exact ih (by simpa [hx, PeerClass.isPending] using h)

/-- The seven figures of a plan, 0 without one (R136). -/
theorem planFields_getD (p : Option Plan) : (p.map planFields).getD (List.replicate 28 0) =
    be4 ((p.map (twos 32 ·.minAxle)).getD 0) ++ be4 ((p.map (twos 32 ·.minBogie)).getD 0) ++
    be4 ((p.map (twos 32 ·.minCar)).getD 0) ++ be4 ((p.map (twos 32 ·.termAxle)).getD 0) ++
    be4 ((p.map (twos 32 ·.termBogie)).getD 0) ++ be4 ((p.map (twos 32 ·.termCar)).getD 0) ++
    be4 ((p.map (twos 32 ·.cap)).getD 0) := by
  cases p <;> rfl

/-- The fields of an intent, 0 without one (R136). -/
theorem intentFields_getD (i : Option Intent) : (i.map intentFields).getD (List.replicate 10 0) =
    be1 ((i.map (·.seq)).getD 0) ++ be1 ((i.map (·.basis)).getD 0) ++ optPair4 (i.map (·.target)) := by
  cases i <;> rfl

/-- The fields of the pair shown for a violation, 0 without one (R136). -/
theorem violationFields_getD (x : Option (Fin 16 × Wheel × Wheel × Int × Nat)) :
    (x.map violationFields).getD (List.replicate 9 0) =
    be1 ((x.map (·.1.val)).getD 0) ++ be1 ((x.map (Wheel.code ·.2.1)).getD 0) ++
    be1 ((x.map (Wheel.code ·.2.2.1)).getD 0) ++ be4 ((x.map (twos 32 ·.2.2.2.1)).getD 0) ++
    be2 ((x.map (·.2.2.2.2)).getD 0) := by
  cases x <;> rfl

theorem reconciliationReads (s : State) : ReconciliationReads s := by
  have hawaited : (s.ru.awaited.flatMap fun n => be1 n.val).length = s.ru.awaited.length := by
    rw [flatMap_length (fun _ => be1_length _), Nat.one_mul]
  have h := holdsAt_section (r := reconciliationSection s) rfl (by simp)
  rw [planFields_getD, intentFields_getD, violationFields_getD] at h
  simp [hawaited, firstPending_isSome, ← List.countP_eq_length_filter] at h
  have hlist : HoldsAt (reconciliationSection s) 66 (s.ru.awaited.flatMap fun n => be1 n.val) := by simp [h]
  refine ⟨?all, fun p hp => ?plan, fun i hi => ?intent, fun e why he hc => ?pending, fun x hx => ?violation,
    fun i n hi => ?awaited, ?timers⟩
  case all => simp [h, name_eq_pending]
  case plan => simp [h, hp]
  case intent => simp [h, hi]
  case pending => simp [h, firstPending_of_find he hc]
  case violation => simp [h, hx]
  case awaited =>
    have hn := hlist.flatMap (g := fun n : Fin 16 => be1 n.val) (fun _ => be1_length _) hi
    simp at hn
    simp [hn]
  case timers =>
    have : 68 + s.ru.awaited.length = 66 + s.ru.awaited.length + 2 := by omega
    simp [h, this]

/-! ## The passes, slots and interlocks sections -/

theorem PassKind.code_eq (k : PassKind) : k.code = if k = .rough then 1 else 2 := by
  cases k <;> rfl

theorem pitReads (s : State) : PitReads s := by
  have hp := holdsAt_section (r := passesSection s.pc) rfl (by simp)
  have hs := holdsAt_section (r := slotsSection s) rfl (by simp)
  have hi := holdsAt_section (r := interlocksSection s) rfl (by simp)
  simp [HoldCauses.list, ownPosition, askCode, overSubscribed] at hp hs
  simp [IIU.lines, marks_eq_two] at hi
  refine ⟨?passes, ?slots, ?interlocks⟩
  case passes => cases ht : s.pc.timer <;> simp [hp, ht, PassTimer.left, PassKind.code_eq]
  case slots => simp [hs]
  case interlocks => simp [hi]

end Sys2Proof.Machine

/-! PROOFS. The result record, section by section (R35, R51, R66, R83, R194, R201). -/

namespace Sys2Proof.Machine

open Sys2Proof

/-! ## The start and revolution timing sections -/

/-- The changed settings stand from 16 on, the digest after them, then the verdicts (R194). -/
theorem startReads (f : StartFields) : StartReads f := by
  have hchanged : (f.changed.flatMap be1).length = f.changed.length := by
    rw [flatMap_length be1_length, Nat.one_mul]
  have h := holdsAt_section (r := startSection f) rfl (by simp)
  simp [hchanged] at h
  have hlist : HoldsAt (startSection f) 16 (f.changed.flatMap be1) := by simp [h]
  have hverdicts : HoldsAt (startSection f) (16 + f.changed.length + 2) (f.verdicts.flatMap fun v => be1 v.code) := by
    simp [h]
  refine ⟨?fixed, fun i x hi => ?changed, fun i v hi => ?verdict⟩
  case fixed => cases hk : f.kind <;> simp [h, hk, packMarks]
  case changed =>
    have hx := hlist.flatMap be1_length hi
    simp at hx
    simp [hx]
  case verdict =>
    have hv := hverdicts.flatMap (g := fun v : Verdict => be1 v.code) (fun _ => be1_length _) hi
    have hat : 18 + f.changed.length + i = 16 + f.changed.length + 2 + i := by omega
    simp at hv
    simp [hat, hv]

theorem timingWheel_length (win : List Nat) (t : Option SlipResult) (d : Option Nat) :
    (timingWheel win t d).length = 21 + 4 * win.length := by
  simp [timingWheel, flatMap_length be4_length]
  omega

/-- A wheel's part of the timing section: the window counts, the slip figures and the diameter (R35). -/
theorem timingWheel_reads {r : List Byte} {off start figures : Nat} {win : List Nat} {t : Option SlipResult}
    {d : Option Nat} (h : HoldsAt r off (timingWheel win t d)) (hstart : start = off + 1)
    (hfigures : figures = start + 4 * win.length) :
    Reads r [(off, 1, win.length), (figures, 4, (t.map (·.total)).getD 0), (figures + 4, 4, (t.map (·.mean)).getD 0),
      (figures + 8, 4, (t.map (·.spread)).getD 0), (figures + 12, 4, (t.map (·.allowance)).getD 0),
      (figures + 16, 4, d.getD 0)] ∧
    ∀ (i c : Nat), win[i]? = some c → Reads r [(start + 4 * i, 4, c)] := by
  subst hstart hfigures
  simp [timingWheel, flatMap_length be4_length] at h
  have hlist : HoldsAt r (off + 1) (win.flatMap be4) := by simp [h]
  refine ⟨?figures, fun i c hi => ?count⟩
  case figures =>
    simp only [Nat.add_assoc, Nat.reduceAdd] at h ⊢
    simp [h]
  case count =>
    have hc := hlist.flatMap be4_length hi
    simp at hc
    simp [hc]

theorem timingReads (o : Option RtuResult) : TimingReads o := by
  unfold TimingReads
  intro r
  refine ⟨fun ho => ?none, fun x ho => ?written⟩
  case none =>
    subst ho
    rfl
  case written =>
    subst ho
    have h := holdsAt_section (r := r) rfl (by simp)
    simp [timingWheel_length] at h
    obtain ⟨⟨-, hlen⟩, ⟨-, hpresence⟩, hrun, hattempts, hreason, hrestarts, hclamp, hperiod, hl, hr⟩ := h
    dsimp only
    obtain ⟨hl, hlcounts⟩ := timingWheel_reads hl (start := 13) rfl rfl
    have hat : 12 + (21 + 4 * x.window.l.length) = 33 + 4 * x.window.l.length := by omega
    obtain ⟨hr, hrcounts⟩ := timingWheel_reads (hat ▸ hr) (start := 34 + 4 * x.window.l.length) (by omega) rfl
    have hwhole : field r 0 2 = (54 + 4 * x.window.l.length + 4 * x.window.r.length) % 65536 := by
      rw [hlen]
      omega
    refine ⟨?_, hlcounts, hrcounts⟩
    simp at hl hr
    simp [RunKind.code_eq, hwhole, hpresence, hrun, hattempts, hreason, hrestarts, hclamp, hperiod, hl, hr]

/-! ## The runout section -/

/-- A value that is extreme among the bins stands first in the extreme bin. -/
theorem ExtremeBin.findIdx {beyond : Int → Int → Prop} (hanti : ∀ u v, beyond u v → beyond v u → u = v)
    {bins : List (Option Int)} {i : Nat} (h : ExtremeBin beyond bins i) {m : Int} (hm : m ∈ bins.filterMap id)
    (hmost : ∀ u ∈ bins.filterMap id, beyond u m) : bins.findIdx? (fun b => b == some m) = some i := by
  obtain ⟨v, hi, hv⟩ := h
  have hvm : beyond v m := hmost v (by simpa using List.mem_of_getElem? hi)
  obtain ⟨j, hj⟩ := List.mem_iff_getElem?.1 (show some m ∈ bins by simpa using hm)
  obtain rfl : v = m := hanti v m hvm (hv j m hj).1
  rw [List.findIdx?_eq_some_iff_getElem]
  obtain ⟨hlt, hget⟩ := List.getElem?_eq_some_iff.1 hi
  refine ⟨hlt, by simp [hget], fun k hk hbin => ?_⟩
  have hle := (hv k v (by rw [List.getElem?_eq_getElem (by omega)]; simpa using hbin)).2 rfl
  omega

theorem largest_extreme {vs : List Int} (h : vs ≠ []) : largest vs ∈ vs ∧ ∀ u ∈ vs, u ≤ largest vs := by
  rw [← List.max?_eq_some_iff]
  cases vs with
  | nil => exact absurd rfl h
  | cons v t => simp [largest, List.max?]

theorem smallest_extreme {vs : List Int} (h : vs ≠ []) : smallest vs ∈ vs ∧ ∀ u ∈ vs, smallest vs ≤ u := by
  rw [← List.min?_eq_some_iff]
  cases vs with
  | nil => exact absurd rfl h
  | cons v t => simp [smallest, List.min?]

/-- The bins present have values. -/
theorem binValues_ne_nil {b : RcuWheel} : binValues b ≠ [] ↔ b.bins.any Option.isSome = true := by
  simp [binValues, List.filterMap_eq_nil_iff, Option.isSome_iff_ne_none]

/-- Without a bin present no bin holds a value (R51). -/
theorem binWith_eq_none {b : RcuWheel} (h : b.bins.any Option.isSome = false) (v : Int) : binWith v b = none := by
  rw [binWith, List.findIdx?_eq_none_iff]
  intro x hx
  have hnone := List.any_eq_false.1 h x hx
  cases x <;> simp at hnone ⊢

/-- The bin of an extreme is present when the runout was computed and some bin is present (R51). -/
theorem binWith_isSome {pick : List Int → Int} (hpick : ∀ vs, vs ≠ [] → pick vs ∈ vs) (b : RcuWheel) :
    (b.runout.bind fun _ => binWith (pick (binValues b)) b).isSome = (b.runout.isSome && b.bins.any Option.isSome) := by
  cases b.runout with
  | none => rfl
  | some ρ =>
    rw [Option.bind_some, Option.isSome_some, Bool.true_and]
    cases hany : b.bins.any Option.isSome with
    | false => rw [binWith_eq_none hany, Option.isSome_none]
    | true =>
      have hmem := hpick _ (binValues_ne_nil.2 hany)
      simpa [binWith, binValues] using hmem

theorem binLargest_isSome (b : RcuWheel) :
    (binLargest b).isSome = (b.runout.isSome && b.bins.any Option.isSome) :=
  binWith_isSome (fun _ h => (largest_extreme h).1) b

theorem binSmallest_isSome (b : RcuWheel) :
    (binSmallest b).isSome = (b.runout.isSome && b.bins.any Option.isSome) :=
  binWith_isSome (fun _ h => (smallest_extreme h).1) b

theorem ExtremeBin.binValues_ne_nil {beyond : Int → Int → Prop} {b : RcuWheel} {i : Nat}
    (h : ExtremeBin beyond b.bins i) : binValues b ≠ [] := by
  obtain ⟨v, hi, -⟩ := h
  exact List.ne_nil_of_mem (a := v) (by simpa [binValues] using List.mem_of_getElem? hi)

theorem binLargest_of_extremeBin {b : RcuWheel} {i : Nat} (hρ : b.runout.isSome = true)
    (h : ExtremeBin (· ≤ ·) b.bins i) : binLargest b = some i := by
  obtain ⟨ρ, hρ⟩ := Option.isSome_iff_exists.1 hρ
  obtain ⟨hmem, hmost⟩ := largest_extreme h.binValues_ne_nil
  rw [binLargest, hρ]
  exact h.findIdx (fun _ _ => le_antisymm) hmem hmost

theorem binSmallest_of_extremeBin {b : RcuWheel} {i : Nat} (hρ : b.runout.isSome = true)
    (h : ExtremeBin (· ≥ ·) b.bins i) : binSmallest b = some i := by
  obtain ⟨ρ, hρ⟩ := Option.isSome_iff_exists.1 hρ
  obtain ⟨hmem, hleast⟩ := smallest_extreme h.binValues_ne_nil
  rw [binSmallest, hρ]
  exact h.findIdx (fun _ _ h h' => le_antisymm h' h) hmem hleast

theorem runoutWheel_length (b : RcuWheel) : (runoutWheel b).length = 44 := by
  simp [runoutWheel, markBytes_length]

/-- A wheel's part of the runout section stands at 4 or at 48 (R51). -/
theorem runoutReads (o : Option (LR RcuWheel)) : RunoutReads o := by
  unfold RunoutReads
  intro r
  refine ⟨fun ho => ?none, fun x ho => ?written⟩
  case none =>
    subst ho
    rfl
  case written =>
    subst ho
    intro hole extremes
    have hnine := marks_eq_two (true :: (runoutPresence x.l ++ runoutPresence x.r)) (by simp [runoutPresence])
      (by simp [runoutPresence])
    have hr : r = be2 92 ++ (be1 (packMarks [true, x.l.runout.isSome, (hole x.l).isSome, extremes x.l, extremes x.l,
        x.r.runout.isSome, (hole x.r).isSome, extremes x.r]) ++ be1 (packMarks [extremes x.r]) ++
        (runoutWheel x.l ++ runoutWheel x.r)) := by
      simp only [r, runoutSection, section_, hnine]
      simp [runoutWheel_length, runoutPresence, binLargest_isSome, binSmallest_isSome, hole, extremes, firstAbsent]
    have hlength : r.length = 92 := by
      rw [hr]
      simp [runoutWheel_length]
    have h := HoldsAt.of_eq hr
    simp [runoutWheel_length] at h
    refine ⟨hlength, by simp [h], fun w => ?wheel⟩
    case wheel =>
      intro b at_
      have hw : HoldsAt r at_ (runoutWheel b) := by
        cases w <;> simp [at_, b, LR.get, h]
      simp [runoutWheel, Nat.add_assoc] at hw
      obtain ⟨⟨-, hρ⟩, ⟨-, hpresent⟩, ⟨-, hhole⟩, ⟨-, hlargest⟩, ⟨-, hsmallest⟩, ⟨-, hwindow⟩, ⟨-, hmost⟩, hmap⟩ := hw
      refine ⟨?fixed, fun hnone => ?absent, fun i hb hi => ?largest, fun i hb hi => ?smallest, fun i hi => ?bins⟩
      case fixed => simp [hρ, hpresent, hhole, hwindow, hmost, signedField, binsPresent, firstAbsent, hole]
      case absent =>
        have hl : binLargest b = none := by simpa [← binLargest_isSome, extremes] using hnone
        have hs : binSmallest b = none := by simpa [← binSmallest_isSome, extremes] using hnone
        simp [hlargest, hsmallest, hl, hs]
      case largest => simp [hlargest, binLargest_of_extremeBin hb hi]
      case smallest => simp [hsmallest, binSmallest_of_extremeBin hb hi]
      case bins =>
        have hbyte := hmap.markBytes i hi
        simp at hbyte
        simp [hbyte]

end Sys2Proof.Machine

/-! PROOFS. The result record, its last sections: the profile and the fit (R62, R66, R83, R201). -/

namespace Sys2Proof.Machine

open Sys2Proof

/-! ## The profile section -/

theorem pointFields_length (p : Point) : (pointFields p).length = 10 := rfl

theorem absentCount_eq (ps : List Point) : absentCount ps = ps.countP fun q => decide (q.count = 0) := by
  rw [List.countP_eq_length_filter]
  rfl

theorem verdictFields_length (v : TraceVerdict) : (verdictFields v).length = 3 := by
  cases v <;> rfl

theorem points_length {p : PtuWheel} (h : p.points.length = 120) : (p.points.flatMap pointFields).length = 1200 := by
  rw [flatMap_length pointFields_length, h]

theorem profileWheel_length (taping flange : Nat) {p : PtuWheel} (h : p.points.length = 120) :
    (profileWheel taping flange p).length = 1222 := by
  simp [profileWheel, points_length h, verdictFields_length]

/-- A wheel's part of the profile section stands at 3 or at 1225 (R66). -/
theorem profileReads (o : Option (PTU × Nat × Nat)) : ProfileReads o := by
  unfold ProfileReads
  intro r
  refine ⟨fun ho => ?none, fun u taping flange ho hpoints => ?written⟩
  case none =>
    subst ho
    rfl
  case written =>
    subst ho
    intro test figure bits
    have hpresence : ∀ p : PtuWheel, profilePresence p = bits p := fun p => by
      cases hv : p.verdict <;> simp [profilePresence, bits, hv, verdictPresence, PtuWheel.sweepEnded, test, figure]
    have hverdict : ∀ v, verdictFields v = be1 (match v with
        | .none => 0
        | .complete => 1
        | _ => 2) ++ be1 ((test v).getD 0) ++ be1 ((figure v).getD 0) := fun v => by cases v <;> rfl
    have hlen : ∀ w, (profileWheel taping flange (u.wheel.get w)).length = 1222 := fun w =>
      profileWheel_length taping flange (hpoints w)
    have hlenL : (profileWheel taping flange u.wheel.l).length = 1222 := hlen .l
    have hlenR : (profileWheel taping flange u.wheel.r).length = 1222 := hlen .r
    have hp : (true :: (profilePresence u.wheel.l ++ profilePresence u.wheel.r ++ [u.failing.isSome])).length ≤ 8 := by
      simp [hpresence, bits]
    have h := holdsAt_section (r := r) rfl hp
    simp [hlenL, hlenR] at h
    have hfailing : (u.failing.map Wheel.code).getD 0 = if u.failing = some .r then 1 else 0 := by
      rcases u.failing with _ | _ | _ <;> rfl
    refine ⟨?length, ?fixed, fun w => ?wheel⟩
    case length =>
      rw [show r.length = _ from section_length _ hp]
      simp [hlenL, hlenR]
    case fixed => simp [h, hpresence, hfailing]
    case wheel =>
      intro p at_ absent
      have hw : HoldsAt r at_ (profileWheel taping flange p) := by
        cases w <;> simp [at_, p, LR.get, h]
      rw [profileWheel, hverdict] at hw
      have hbytes : (p.points.flatMap pointFields).length = 1200 := points_length (hpoints w)
      simp [hbytes, absentCount_eq, Nat.add_assoc] at hw
      have hlist : HoldsAt r (at_ + 5) (p.points.flatMap pointFields) := by simp [hw]
      refine ⟨?fields, fun j q hj => ?point⟩
      case fields => cases hv : p.verdict <;> simp [hw, hv, PtuWheel.sweepEnded, absent]
      case point =>
        have hq := hlist.flatMap pointFields_length hj
        have hvalue : at_ + 7 + 10 * j = at_ + 5 + 10 * j + 2 := by omega
        have hheight : at_ + 11 + 10 * j = at_ + 5 + 10 * j + 2 + 4 := by omega
        simp [pointFields] at hq
        simp [hq, hvalue, hheight, signedField]

/-! ## The fit section -/

theorem variantFields_length (f : VariantFit) : (variantFields f).length = 20 := rfl

theorem variantPoints_length (f : VariantFit) : (variantPoints f).length = 2 := rfl

/-- The variants' results stand from 21 on, their points after all of them, then the chosen variant (R83). -/
theorem fitReads (o : Option FeResult) : FitReads o := by
  unfold FitReads
  intro r
  refine ⟨fun ho => ?none, fun x ho => ?written⟩
  case none =>
    subst ho
    rfl
  case written =>
    subst ho
    intro n
    have hresults : (x.fit.results.flatMap variantFields).length = 20 * n := flatMap_length variantFields_length _
    have hpoints : (x.fit.results.flatMap variantPoints).length = 2 * n := flatMap_length variantPoints_length _
    have h := holdsAt_section (r := r) rfl (by simp)
    simp [hresults, hpoints] at h
    have hfields : HoldsAt r 21 (x.fit.results.flatMap variantFields) := by simp [h]
    have hplaces : HoldsAt r (21 + 20 * n) (x.fit.results.flatMap variantPoints) := by simp [h]
    have hwhole : field r 0 2 = (41 + 22 * n) % 65536 := by
      obtain ⟨⟨-, hlen⟩, -⟩ := h
      rw [hlen]
      omega
    refine ⟨?fixed, fun i f hi => ?variant⟩
    case fixed =>
      have hchosen : 21 + 22 * n = 21 + 20 * n + 2 * n := by omega
      have hthickness : 22 + 22 * n = 21 + 20 * n + 2 * n + 1 := by omega
      have hceiling : 24 + 22 * n = 21 + 20 * n + 2 * n + 1 + 2 := by omega
      have hheld : 32 + 22 * n = 21 + 20 * n + 2 * n + 1 + 2 + 8 := by omega
      have hstate : 40 + 22 * n = 21 + 20 * n + 2 * n + 1 + 2 + 8 + 8 := by omega
      simp only [List.cons_append, reads_cons, hwhole]
      simp [h, hchosen, hthickness, hceiling, hheld, hstate, n]
      cases x.fit.state <;> rfl
    case variant =>
      have hf := hfields.flatMap variantFields_length hi
      have hp := hplaces.flatMap variantPoints_length hi
      have hdepth : 29 + 20 * i = 21 + 20 * i + 8 := by omega
      have haxle : 37 + 20 * i = 21 + 20 * i + 8 + 8 := by omega
      have hright : 22 + 20 * n + 2 * i = 21 + 20 * n + 2 * i + 1 := by omega
      simp [variantFields, pair4] at hf
      simp [variantPoints] at hp
      simp [pairAt, signedField, hdepth, haxle, hright, hf, hp]

end Sys2Proof.Machine

/-! PROOFS. The records of the peers and the passes, the records as a whole, and the read commands (R116, R157, R170,
R183, R185, R201). -/

namespace Sys2Proof.Machine

open Sys2Proof

theorem resultReads (s : State) : ResultReads s :=
  ⟨timingReads _, runoutReads _, profileReads _, fitReads _, by simp [resultRecord, section_eq, be2, packMarks, be1]⟩

theorem statusReads (s : State) : StatusReads s :=
  ⟨rfl, visitReads _, runReads s, ceilingReads _, linkReads _, peersReads s, reconciliationReads s, pitReads s⟩

/-! ## Peers -/

theorem claimRecord_eq (own : Fin 16) (c : Claim) : claimRecord own c =
    [BitVec.ofNat 8 c.station.val, BitVec.ofNat 8 (c.pass.getD 0), if c.station = own then 1#8 else 0#8] := by
  by_cases h : c.station = own <;> simp [claimRecord, be1, h, packMarks]

theorem peersDataReads (s : State) : PeersDataReads s := by
  have h : claimRecord (ownStation s) = _ := funext (claimRecord_eq (ownStation s))
  rw [PeersDataReads, peersData, h]

/-- The seven bytes of a peer's STATE, 0 without one (R201). -/
theorem stFields_getD (st : Option PeerState) :
    (st.map fun p => be1 p.car.val ++ be1 p.bogie.val ++ be1 (stateCode p.status) ++ be1 p.passesDone ++
      be1 p.passesTotal ++ be2 p.digest.toNat).getD (List.replicate 7 0) =
    be1 ((st.map (·.car.val)).getD 0) ++ be1 ((st.map (·.bogie.val)).getD 0) ++
    be1 ((st.map (stateCode ·.status)).getD 0) ++ be1 ((st.map (·.passesDone)).getD 0) ++
    be1 ((st.map (·.passesTotal)).getD 0) ++ be2 ((st.map (·.digest.toNat)).getD 0) := by
  cases st <;> rfl

theorem placementCode_eq {car : Fin 16} {e : PeerEntry} {p : PeerState} (h : e.st = some p) :
    placementCode car e = if p.car = car then 1 else 2 := by
  rw [placementCode, h]

/-- An own-car entry shows its class, another none (R116). -/
theorem shownClass_eq {car : Fin 16} {e : PeerEntry} {p : PeerState} (h : e.st = some p) :
    shownClass car e = if p.car = car then some (peerClass p e) else none := by
  rw [shownClass, viewEntry, h]
  by_cases hc : p.car = car <;> simp [hc]

theorem shownClass_of_none {car : Fin 16} {e : PeerEntry} (h : e.st = none) : shownClass car e = none := by
  rw [shownClass, viewEntry, h, Option.map_none]

/-- An entry outside the own car has neither class nor reason (R201). -/
theorem shownClass_of_not_mine {car : Fin 16} {e : PeerEntry} (h : ¬∃ p, e.st = some p ∧ p.car = car) :
    shownClass car e = none := by
  cases hs : e.st with
  | none => exact shownClass_of_none hs
  | some p => rw [shownClass_eq hs, if_neg fun hc => h ⟨p, hs, hc⟩]

theorem peerRecordReads (car : Fin 16) (e : PeerEntry) : PeerRecordReads car e := by
  unfold PeerRecordReads
  intro r mine
  have h := HoldsAt.of_eq (show r = peerRecord car e from rfl)
  rw [peerRecord, stFields_getD] at h
  simp [ageMax, toMs, Config.ms] at h
  refine ⟨?length, ?fixed, fun hs => ?unplaced, fun p hs => ?placed, fun hm => ?other, fun p hs hc => ?own⟩
  case length =>
    simp only [r, peerRecord, stFields_getD]
    simp
  case fixed => cases hf : e.freshness <;> simp [h, hf, Freshness.code]
  case unplaced =>
    have hzero : HoldsAt r 2 (be1 0 ++ be1 0 ++ be1 0 ++ be1 0) := by simp [h, hs]
    rw [show be1 0 ++ be1 0 ++ be1 0 ++ be1 0 = be4 0 from rfl, holdsAt_be4] at hzero
    simp [h, hs, hzero, placementCode, shownClass_of_none hs, classCode, pendingCode]
  case placed => simp [h, hs, placementCode_eq hs]
  case other => simp [h, shownClass_of_not_mine hm, classCode, pendingCode]
  case own =>
    have hclass : shownClass car e = some (peerClass p e) := by rw [shownClass_eq hs, if_pos hc]
    refine ⟨fun hk => ?_, fun why hk => ?_, fun hk => ?_⟩
    · simp [h, hclass, hk, classCode, pendingCode]
    · cases why <;> simp [h, hclass, hk, classCode, pendingCode, PendReason.code]
    · simp [h, hclass, hk, classCode, pendingCode]

/-! ## Passes -/

theorem passRecord_length (p : Pass) : (passRecord p).length = 17 := by
  simp [passRecord, pair4]

theorem passRecordReads (p : Pass) : PassRecordReads p := by
  have h := HoldsAt.of_eq (show passRecord p = passRecord p from rfl)
  conv at h => arg 3; rw [passRecord]
  simp [pair4] at h
  refine ⟨passRecord_length p, ?_⟩
  simp [h, pairAt, PassKind.code_eq, ordered, LR.get, signedField]
  exact ⟨by cases p.state <;> rfl, by cases p.reason <;> rfl, rfl⟩

/-- The controller's section stands after the count, the passes, a mark and the last pass ended (R157). -/
theorem passesData_drop (p : PC) : (passesData p).drop (19 + 17 * p.queue.length) = controllerSection p := by
  have hlast : ((p.lastEnded.map passRecord).getD (List.replicate 17 0)).length = 17 := by
    cases p.lastEnded with
    | none => rfl
    | some q => exact passRecord_length q
  rw [passesData]
  refine List.drop_left' ?_
  rw [List.length_append, List.length_append, List.length_append, flatMap_length passRecord_length, hlast,
    marks_eq _ (by simp), be1_length, be1_length]
  omega

theorem passesReads (p : PC) : PassesReads p := by
  unfold PassesReads
  have h := holdsAt_section (r := controllerSection p) rfl (by simp)
  simp [HoldCauses.list] at h
  dsimp only
  rw [passesData_drop]
  refine ⟨by simp [passesData], by simp [controllerSection, section_length, HoldCauses.list], by simp [h],
    fun ht => ?stopped, fun t ht => ?running, fun t ht => ?paused⟩
  case stopped => simp [h, ht, PassTimer.code, PassTimer.left]
  case running => simp [h, ht, PassTimer.code, PassTimer.left]
  case paused => simp [h, ht, PassTimer.code, PassTimer.left]

/-! ## Any section -/

/-- A section is its length, one byte of presence bits for each eight begun, at least one, and its fields (R201). -/
theorem section_shape (presence : List Bool) (fields : List Byte) (hp : presence.length ≤ 32)
    (hf : fields.length ≤ 60000) :
    ∃ n, section_ presence fields = be2 (2 + n + fields.length) ++ markBytes n presence ++ fields ∧ 1 ≤ n ∧
      8 * (n - 1) < max 1 presence.length ∧ presence.length ≤ 8 * n ∧
      field (section_ presence fields) 0 2 = (section_ presence fields).length := by
  have hshape : section_ presence fields = be2 (2 + max 1 ((presence.length + 7) / 8) + fields.length) ++
      markBytes (max 1 ((presence.length + 7) / 8)) presence ++ fields := by
    rw [section_, marks, List.length_append, markBytes_length, List.append_assoc, Nat.add_comm, Nat.add_assoc]
  refine ⟨_, hshape, by omega, by omega, by omega, ?_⟩
  rw [field_section_length, hshape, List.length_append, List.length_append, be2_length, markBytes_length]
  omega

/-! ## The read commands -/

/-- The response to a command taken (R181, R186, R189). -/
theorem respond_commandTaken (r : Response) (s : State) : respond r (commandTaken s) =
    { s with cp := s.cp.afterCommand (conf s).watch, out := s.out.grewBy [] [r] } := by
  simp [respond, commandTaken_eq, State.onOut, Outputs.grewBy]

/-- READ_STATUS is acted on whatever is latched (R182). -/
theorem exec_readStatus (s : State) (h : s.ss.hostWrite = none) :
    exec (.readStatus []) s = .next (actReadStatus (commandTaken s)) := by
  simp [exec, execReadStatus, cpSubmit, takeCommand, h, lengthFits, actCommand]

/-- Settles O36: each section of the records is read from its start on, the fields one after the other; the read
commands respond with the record of the state they find. -/
theorem readRecords : Obligations.ReadRecords := by
  intro s cp reads w
  refine ⟨fun h => ?status, fun h => ?peers, fun h => ?passes, fun h hnew => ?result, fun h hold => ?oldResult,
    statusReads s, startReads _, resultReads s, peersDataReads s, passesReads _, fun e => peerRecordReads _ e,
    passRecordReads, section_shape⟩
  case status =>
    rw [exec_readStatus s h, actReadStatus, respond_commandTaken]
    rfl
  case peers =>
    refine (exec_hostCommand .readPeers [] s h rfl).trans ?_
    rw [actCommand, actReadPeers, respond_commandTaken]
    rfl
  case passes =>
    refine (exec_hostCommand .readPasses [] s h rfl).trans ?_
    rw [actCommand, actReadPasses, respond_commandTaken]
    rfl
  case result =>
    have hmark : (commandTaken s).cp.newResult = true := hnew
    refine (exec_hostCommand .readResult [] s h rfl).trans ?_
    rw [actCommand, actReadResult, if_pos hmark, respond_commandTaken]
    rfl
  case oldResult =>
    have hmark : ¬(commandTaken s).cp.newResult = true := by simp [commandTaken_eq, CP.afterCommand, hold]
    refine (exec_hostCommand .readResult [] s h rfl).trans ?_
    rw [actCommand, actReadResult, if_neg hmark, respond_commandTaken]
    rfl

end Sys2Proof.Machine

/-! PROOFS. The transmit queue keeps its order, its bound, one frame of each replaceable kind and one CLAIM, through
every operation and every command (R93 to R96, R163). -/

namespace Sys2Proof.Machine

open Sys2Proof

/-! ## The form of the queue -/

/-- What `TxQueueInv` says, of the link record alone. -/
def LC.InForm (c : LC) : Prop := TxQueueOk c ∧ (framesOfKind 1 c).length ≤ 1

theorem txQueueInv_iff (s : State) : TxQueueInv s ↔ s.lc.InForm := Iff.rfl

/-- The form reads the queue and the overflow position alone. -/
theorem LC.InForm.congr {c d : LC} (h : c.InForm) (hq : d.queue = c.queue) (ho : d.overflow = c.overflow) :
    d.InForm := by
  obtain ⟨hok, hclaim⟩ := h
  exact ⟨(txQueueOk_congr hq ho).2 hok, by simpa [framesOfKind, hq, ho] using hclaim⟩

/-- An empty queue and an empty overflow position have the form. -/
theorem LC.InForm.of_empty {c : LC} (hq : c.queue = []) (ho : c.overflow = none) : c.InForm := by
  simp [LC.InForm, TxQueueOk, framesOfKind, hq, ho]

section
variable {c : LC} (h : c.InForm)
include h

/-- A frame other than a CLAIM is handed to the LC (R93 to R95). -/
theorem LC.InForm.hand {f : QFrame} (hf : ∀ n, f ≠ .claim n) : (lcHand f c).InForm := by
  obtain ⟨hok, hclaim⟩ := h
  have hkind : f.kindCode ≠ 1 := by
    cases f with
    | claim n => exact absurd rfl (hf n)
    | release n => simp [QFrame.kindCode]
    | ceiling q st v => simp [QFrame.kindCode]
    | intent q b t => simp [QFrame.kindCode]
    | state => simp [QFrame.kindCode]
  have hcount := countKind_lcHand 1 f c
  rw [if_neg hkind] at hcount
  exact ⟨txQueueOk_lcHand f c hok, hcount.trans hclaim⟩

theorem LC.InForm.withdraw (why : Withdraw) : (lcWithdraw why c).1.InForm := by
  obtain ⟨hok, hclaim⟩ := h
  exact ⟨txQueueOk_lcWithdraw why c hok, (countKind_lcWithdraw 1 why c).trans hclaim⟩

theorem LC.InForm.txFailed : (lcTxFailed c).InForm := by
  obtain ⟨hok, hclaim⟩ := h
  exact ⟨txQueueOk_lcTxFailed c hok, (countKind_map 1 c (fun e => { e with tx := false, replaced := false }) fun _ => rfl).le.trans hclaim⟩

theorem LC.InForm.txSent : (lcTxSent c).InForm := by
  obtain ⟨hok, hclaim⟩ := h
  exact ⟨txQueueOk_lcTxSent c hok, (countKind_lcTxSent 1 c).trans hclaim⟩

theorem LC.InForm.dropWithdrawn : (lcDropWithdrawn c).InForm := by
  obtain ⟨hok, hclaim⟩ := h
  exact ⟨txQueueOk_lcDropWithdrawn c hok, (countKind_lcDropWithdrawn 1 c).trans hclaim⟩

/-- The head frame is begun: its kind stays (R87). -/
theorem LC.InForm.begun {e : QEntry} {t : List QEntry} (hq : c.queue = e :: t) (line : Option LinkFrame) :
    ({ c with queue := { e with tx := true, replaced := false } :: t, onLine := line } : LC).InForm := by
  obtain ⟨⟨hlen, hsorted, h3, h4, h5⟩, h1⟩ := h
  simp only [framesOfKind, hq, List.map_cons, List.length_cons, List.pairwise_cons] at hlen hsorted h1 h3 h4 h5
  exact ⟨⟨hlen, List.pairwise_cons.2 hsorted, h3, h4, h5⟩, h1⟩

end

/-! ## The operations -/

/-- Of two states in form, the one that a condition takes is in form. -/
theorem LC.InForm.ite {p : Prop} [Decidable p] {a b : State} (ha : a.lc.InForm) (hb : b.lc.InForm) :
    (if p then a else b).lc.InForm := by
  split <;> assumption

section
variable {s : State}

protected theorem LC.InForm.queueFrame {f : QFrame} (h : s.lc.InForm) (hf : ∀ n, f ≠ .claim n) :
    (queueFrame f s).lc.InForm :=
  .ite h (h.hand hf)

protected theorem LC.InForm.setStation {st : StationState} (h : s.lc.InForm) : (setStation st s).lc.InForm := by
  have hleft : (if s.vc.state = .cutting ∧ st ≠ .cutting then leaveCutting (s.onVC fun v => { v with state := st })
      else s.onVC fun v => { v with state := st }).lc.InForm := .ite h h
  have hclosed := LC.InForm.ite (p := (isOpenState s.vc.state && !isOpenState st) = true)
    (a := State.onCP _ fun c => { c with unlock := .closed }) hleft hleft
  exact .ite (hclosed.queueFrame nofun) hclosed

protected theorem LC.InForm.setEffState {st : StationState} (h : s.lc.InForm) : (setEffState st s).lc.InForm :=
  .ite h h.setStation

protected theorem LC.InForm.changeCeiling {st : CeilStatus} {v : Option (LR Int)} (h : s.lc.InForm) :
    (changeCeiling st v s).lc.InForm :=
  .queueFrame (s := s.onFE _) h nofun

protected theorem LC.InForm.formIntent {target : LR Int} (h : s.lc.InForm) : (formIntent target s).lc.InForm :=
  .queueFrame (s := s.onRU _) h nofun

protected theorem LC.InForm.takeCeiling {taken : LR Int} {fresh : Bool} (h : s.lc.InForm) :
    (takeCeiling taken fresh s).1.lc.InForm := by
  simp only [Machine.takeCeiling]
  (repeat' split)
  · exact h.changeCeiling
  · exact h
  · exact h

protected theorem LC.InForm.offerCeiling {offer : LR Int} (h : s.lc.InForm) : (offerCeiling offer s).1.lc.InForm := by
  simp only [Machine.offerCeiling]
  split
  · exact h.takeCeiling
  · exact h

/-! ### Slots -/

/-- The test of R163 arms only where no CLAIM stands, so that the CLAIM it queues is the only one. -/
protected theorem LC.InForm.slotTest (h : s.lc.InForm) : (slotTest s).lc.InForm := by
  obtain ⟨hok, hclaim⟩ := h
  have hqueued : ∀ f (t : State), TxQueueOk t.lc → TxQueueOk (queueFrame f t).lc := fun f t ht => by
    simp only [Machine.queueFrame]
    split
    · exact ht
    · exact txQueueOk_lcHand f _ ht
  refine ⟨?_, slotTest_oneClaim s hclaim⟩
  simp only [Machine.slotTest]
  (repeat' split)
  · exact hok
  · exact hqueued _ _ hok
  · exact hok
  · exact hok

protected theorem LC.InForm.slotAsk (h : s.lc.InForm) : (slotAsk s).lc.InForm :=
  .ite h (.slotTest h)

protected theorem LC.InForm.releaseClaim (h : s.lc.InForm) : (releaseClaim s).lc.InForm := by
  have hwithdrawn := h.withdraw .givenUp
  simp only [Machine.releaseClaim]
  split
  · exact .queueFrame h nofun
  · exact .ite (.queueFrame hwithdrawn nofun) hwithdrawn
  · exact h

protected theorem LC.InForm.slotHead (h : s.lc.InForm) : (slotHead s).lc.InForm :=
  .ite h h.releaseClaim

protected theorem LC.InForm.removePeerClaim {n : Fin 16} (h : s.lc.InForm) : (removePeerClaim n s).lc.InForm :=
  .ite (.ite (.slotTest h) h) h

protected theorem LC.InForm.appendHeldClaim {n : Fin 16} (h : s.lc.InForm) : (appendHeldClaim n s).lc.InForm :=
  .ite h h

protected theorem LC.InForm.reservationLost (h : s.lc.InForm) : (reservationLost s).lc.InForm :=
  .ite (.ite (h.withdraw .lost) (h.withdraw .lost)) h

protected theorem LC.InForm.claimHeard {n : Fin 16} {pass : Nat} (h : s.lc.InForm) : (claimHeard n pass s).lc.InForm :=
  .reservationLost h

protected theorem LC.InForm.ownClaimSent {pass : Nat} {givenUp : Bool} (h : s.lc.InForm) :
    (ownClaimSent pass givenUp s).lc.InForm :=
  .ite (.slotTest (.queueFrame h nofun)) (.ite h (.queueFrame h nofun))

/-! ### The plan, the build and condemnation -/

protected theorem LC.InForm.takePlan {first : Bool} {p : Plan} (h : s.lc.InForm) : (takePlan first p s).1.lc.InForm :=
  .ite (.formIntent h) h

protected theorem LC.InForm.replan (h : s.lc.InForm) : (replan s).1.lc.InForm := by
  simp only [Machine.replan]
  (repeat' split)
  · exact .takePlan h
  · exact .takePlan h
  · exact h

protected theorem LC.InForm.agree (h : s.lc.InForm) : (agree s).lc.InForm :=
  .ite h h

protected theorem LC.InForm.storeOutside {b : BuildResult} (h : s.lc.InForm) : (storeOutside b s).lc.InForm := by
  cases b <;> exact h

protected theorem LC.InForm.enterCondemned (h : s.lc.InForm) : (enterCondemned s).lc.InForm := by
  have hstopped : (if s.vc.state = .cutting then
      order .stop ((discardQueue s).onPC fun p => { p with holds := HoldCauses.empty, timer := .stopped })
      else (discardQueue s).onPC fun p => { p with holds := HoldCauses.empty, timer := .stopped }).lc.InForm := .ite h h
  have hreleased : (dropPlan (Machine.releaseClaim _)).lc.InForm := hstopped.releaseClaim
  exact .setStation hreleased.changeCeiling

protected theorem LC.InForm.condemnationFound (h : s.lc.InForm) : (condemnationFound s).lc.InForm := by
  simp only [Machine.condemnationFound]
  split
  case h_1 | h_2 | h_3 | h_4 => exact h.enterCondemned
  case h_5 => exact .ite h h.enterCondemned
  case h_6 | h_7 | h_8 | h_9 => exact h

protected theorem LC.InForm.enterFinished (h : s.lc.InForm) : (enterFinished s).lc.InForm :=
  .setStation (.releaseClaim h)

protected theorem LC.InForm.deepToReady (h : s.lc.InForm) : (deepToReady s).lc.InForm :=
  .storeOutside (LC.InForm.setStation (.releaseClaim h))

protected theorem LC.InForm.applyBuild (h : s.lc.InForm) : (applyBuild s).lc.InForm := by
  have hstored : (storeOutside (buildResult false s) s).lc.InForm := h.storeOutside
  simp only [Machine.applyBuild]
  split
  · split
    · exact h
    · exact .enterFinished h
    · exact .deepToReady h
    · exact .slotHead h
  · exact .ite hstored.setEffState (.ite hstored.setEffState hstored)

protected theorem LC.InForm.build {fuel : Nat} (h : s.lc.InForm) : (build fuel s).lc.InForm := by
  induction fuel generalizing s with
  | zero => exact h.applyBuild
  | succ n ih =>
    simp only [Machine.build]
    split
    · exact h.applyBuild
    · rename_i offer _
      have hoffer : (Machine.offerCeiling offer s).1.lc.InForm := h.offerCeiling
      split <;> rename_i heq <;> rw [heq] at hoffer
      · exact hoffer.condemnationFound
      · exact hoffer.applyBuild
      · exact ih hoffer.replan

protected theorem LC.InForm.targetsChanged (h : s.lc.InForm) : (targetsChanged s).lc.InForm := by
  simp only [Machine.targetsChanged]
  split
  · exact h.build
  · exact .ite (.ite h h.build) h
  · exact .ite h.build h
  · exact h

protected theorem LC.InForm.handTargets {r : State × Bool} (h : r.1.lc.InForm) : (handTargets r).lc.InForm :=
  .ite h.targetsChanged h

protected theorem LC.InForm.firstPlan (h : s.lc.InForm) : (firstPlan s).lc.InForm := by
  simp only [Machine.firstPlan]
  (repeat' split)
  · exact h
  · exact .agree (.setEffState (.storeOutside (.takePlan h)))
  · exact h

protected theorem LC.InForm.ownCeilingChanged (h : s.lc.InForm) : (ownCeilingChanged s).lc.InForm :=
  .ite (.ite (.agree (.handTargets h.replan)) h.firstPlan) h

/-! ### Passes -/

protected theorem LC.InForm.tryStart (h : s.lc.InForm) : (tryStart s).lc.InForm := by
  simp only [Machine.tryStart]
  split
  · exact .ite (.ite (by simpa using h) h.slotAsk) h
  · exact h

protected theorem LC.InForm.settle (h : s.lc.InForm) : (settle s).lc.InForm :=
  h.tryStart

protected theorem LC.InForm.afterOffer {r : State × OfferResult} (h : r.1.lc.InForm) : (afterOffer r).lc.InForm := by
  obtain ⟨s, x⟩ := r
  cases x with
  | same => exact h
  | changed => exact h.ownCeilingChanged
  | condemned => exact h.condemnationFound

protected theorem LC.InForm.owedBuild (h : s.lc.InForm) : (owedBuild s).lc.InForm :=
  .ite (.ite (.agree (.build h)) h) h

protected theorem LC.InForm.completePass {p : Pass} (h : s.lc.InForm) : (completePass p s).lc.InForm := by
  have howed := LC.InForm.offerCeiling (s := completeRecord p s) (offer := completionOffer (conf s) p) h
    |>.afterOffer.owedBuild
  exact .ite howed.enterCondemned (.ite (.ite howed.slotHead.enterFinished howed.slotHead.settle) howed)

protected theorem LC.InForm.afterAbortOffer {r : State × OfferResult} (h : r.1.lc.InForm) :
    (afterAbortOffer r).lc.InForm := by
  obtain ⟨s, x⟩ := r
  cases x with
  | same => exact h
  | changed => exact h.ownCeilingChanged
  | condemned => exact h

protected theorem LC.InForm.abortPass {p : Pass} {why : AbortReason} (h : s.lc.InForm) :
    (abortPass p why s).lc.InForm := by
  have hoffered := LC.InForm.offerCeiling (s := abortRecord p why (abortOrders s)) (offer := abortOffer (conf s) p) h
  exact .releaseClaim hoffered.afterAbortOffer

protected theorem LC.InForm.retractTest (h : s.lc.InForm) : (retractTest s).lc.InForm :=
  .ite (.ite (.enterCondemned h) (.setStation h)) h

protected theorem LC.InForm.abortToAborting {p : Pass} {why : AbortReason} (h : s.lc.InForm) :
    (abortToAborting p why s).lc.InForm :=
  .retractTest h.abortPass.setStation

end
end Sys2Proof.Machine

/-! PROOFS. The transmit queue through the measurement, the visit, the host commands and the line, and so through every
command (R93 to R96, R163). -/

namespace Sys2Proof.Machine

open Sys2Proof

section
variable {s : State}

/-! ## Runs, attempts and the fit -/

protected theorem LC.InForm.measurementFails {why : Reason} (h : s.lc.InForm) :
    (measurementFails why s).lc.InForm := by
  simp only [Machine.measurementFails]
  split
  · exact h
  · exact h
  · exact .setStation h

protected theorem LC.InForm.endRun {why : Reason} (h : s.lc.InForm) : (endRun why s).lc.InForm := by
  simp only [Machine.endRun]
  split
  · exact .measurementFails h
  · simpa using h
  · exact h

protected theorem LC.InForm.endAttempt {why : Reason} (h : s.lc.InForm) : (endAttempt why s).lc.InForm :=
  .ite (by simpa using h) h.endRun

protected theorem LC.InForm.cutMeasurement {why : Reason} (h : s.lc.InForm) : (cutMeasurement why s).lc.InForm :=
  .ite h.endRun (.measurementFails (by simpa using h))

protected theorem LC.InForm.closeRcu (h : s.lc.InForm) : (closeRcu s).lc.InForm :=
  .ite h (.measurementFails h)

protected theorem LC.InForm.measureClosed {total : LR Nat} (h : s.lc.InForm) : (measureClosed total s).lc.InForm :=
  .ite (.closeRcu h) (.endRun h)

protected theorem LC.InForm.closeAttempt (h : s.lc.InForm) : (closeAttempt s).lc.InForm := by
  simp only [Machine.closeAttempt]
  split
  · exact .ite (by simpa using h) (.endAttempt h)
  · exact .ite (.measureClosed h) (.endAttempt h)

protected theorem LC.InForm.supply {w : Wheel} {probe : Int} (h : s.lc.InForm) : (supply w probe s).lc.InForm := by
  have hcomputed : (computeBin w s).lc.InForm := by simpa using h
  simp only [Machine.supply, supplyBin]
  (repeat' split)
  · exact .endAttempt hcomputed
  · exact hcomputed
  · exact hcomputed
  · exact hcomputed
  · exact h

protected theorem LC.InForm.encoderPulse {w : Wheel} {probe : Int} (h : s.lc.InForm) :
    (encoderPulse w probe s).lc.InForm :=
  .ite (.ite (.endAttempt h) h) (.supply h)

protected theorem LC.InForm.markPulseEnd {probe : LR Int} (h : s.lc.InForm) : (markPulseEnd probe s).lc.InForm := by
  have hsupplied : ∀ t : State, t.lc.InForm → (supplyBins probe t).lc.InForm := fun t ht => ht.supply.supply
  have hstart : (newRevolution (s.onRTU fun u => { u with pulseOn := false })).lc.InForm := by simpa using h
  have hrestart : ∀ t : State, t.lc.InForm → (restartWindows t).lc.InForm := fun t ht => by simpa using ht
  simp only [Machine.markPulseEnd, validMark]
  (repeat' split)
  · exact hsupplied _ h
  · exact (hrestart _ hstart).endAttempt
  · exact hrestart _ hstart
  · exact .closeAttempt hstart
  · exact hsupplied _ hstart
  · exact hstart

protected theorem LC.InForm.driveLost (h : s.lc.InForm) : (driveLost s).lc.InForm := by
  have hrestart : (restartWindows (s.onRTU fun u =>
      { u with markTimer := none, driveTimer := some Config.driveTime, pulseOn := false, firstMark := false })).lc.InForm := by
    simpa using h
  exact .ite (.ite hrestart.endAttempt hrestart) h

protected theorem LC.InForm.runFit {worn : LR (List (Option Int))} (h : s.lc.InForm) : (runFit worn s).lc.InForm := by
  have hend : ∀ r : State × OfferResult, r.1.lc.InForm → (endFit r).lc.InForm := fun ⟨t, x⟩ ht => by
    cases x with
    | condemned => exact .enterCondemned ht
    | same => exact .firstPlan (.setStation ht)
    | changed => exact .firstPlan (.setStation ht)
  simp only [Machine.runFit]
  (repeat' split)
  · exact hend _ (.takeCeiling h)
  · exact h
  · exact h

protected theorem LC.InForm.endSweep {w : Wheel} (h : s.lc.InForm) : (endSweep w s).lc.InForm := by
  simp only [Machine.endSweep]
  (repeat' split)
  · simpa using h
  · exact .runFit h
  · exact .measurementFails h

/-! ## The visit, ESTOP and silence -/

protected theorem LC.InForm.visitEnd (h : s.lc.InForm) : (visitEnd s).lc.InForm := by
  have hcleared : (clearVisit (releaseClaim s)).lc.InForm := h.releaseClaim
  exact .ite hcleared.changeCeiling hcleared

protected theorem LC.InForm.estopActive (h : s.lc.InForm) : (estopActive s).lc.InForm := by
  have hstops : ∀ (old : StationState) (t : State), t.lc.InForm → (estopStops old t).lc.InForm := fun old t ht => by
    simp only [estopStops]
    (repeat' split)
    · exact ht.cutMeasurement
    · exact ht.abortPass
    · exact .releaseClaim ht
    · exact ht
    · exact ht.endRun
    · exact ht
  simp only [Machine.estopActive]
  split
  · exact h
  · exact h
  · exact h
  · exact hstops _ _ (.setStation h)

protected theorem LC.InForm.estopInactive (h : s.lc.InForm) : (estopInactive s).lc.InForm := by
  have hexit : (exitEstop s).lc.InForm := by
    simp only [exitEstop]
    (repeat' split)
    · exact h.enterCondemned
    · exact h.setStation
    · exact h.setStation
    · exact .setStation h
    · exact h.setStation
    · exact h
  exact .ite hexit h

protected theorem LC.InForm.listenExpiry (h : s.lc.InForm) : (listenExpiry s).lc.InForm := by
  have hend : ∀ t : State, t.lc.InForm → (endStart t).lc.InForm := fun t ht => by
    have hleft : (if t.result.start.good then setStation .idle t else
        setStation .invalid (latch .settingsInvalid (t.onVC fun v => { v with settingsInvalid := true }))).lc.InForm :=
      .ite ht.setStation (.setStation ht)
    exact .ite hleft.estopActive hleft
  have hcount : (s.onLC fun c => { c with listenLeft := c.listenLeft - 1 }).lc.InForm := h.congr rfl rfl
  exact .ite (hend _ hcount) hcount

/-- Silence empties the queue, and what it stops hands no frame to it that breaks the form (R99). -/
theorem silence_inForm (s : State) : (silence s).lc.InForm := by
  have hempty : ((latch .duplicateId s).onLC fun c =>
      { c with queue := [], overflow := none, onLine := none, announce := none, silenced := true }).lc.InForm :=
    .of_empty rfl rfl
  have hstops : ∀ (old : StationState) (t : State), t.lc.InForm → (silenceStops old t).lc.InForm := fun old t ht => by
    simp only [silenceStops]
    (repeat' split)
    · exact ht.cutMeasurement
    · exact ht.endRun
    · exact ht.abortPass
    · exact ht
    · exact ht
  exact .releaseClaim (hstops _ _ hempty.setStation)

/-! ## Host commands -/

protected theorem LC.InForm.actWithdraw {p : List Byte} (h : s.lc.InForm) : (actWithdraw p s).lc.InForm := by
  have hended : (if s.vc.visitOpen then visitEnd s else s).lc.InForm := .ite h.visitEnd h
  exact .ite h (.ite h (.ite (.setStation hended) (.setStation (.formIntent (.changeCeiling hended)))))

protected theorem LC.InForm.actRelease {p : List Byte} (h : s.lc.InForm) : (actRelease p s).lc.InForm := by
  have hended : (visitEnd (accept .release s)).lc.InForm := .visitEnd h
  exact .ite h (.ite h (.ite h hended.setStation))

protected theorem LC.InForm.actCommand {k : HostCmd} {p : List Byte} {u : UnlockState} (h : s.lc.InForm) :
    (actCommand k p u s).lc.InForm := by
  cases k with
  | visit =>
    have hmeasuring : (setStation .measuring (accept .visit ((s.onVC fun v => { v with
        visitOpen := true, mask := (p.headD 0#8).truncate 4, cutBegun := false, passCompleted := false
        condPending := false }).onFE fun f =>
          { f with effective := effectiveSet s.fe.variants (p.headD 0#8) }))).lc.InForm := .setStation h
    exact .ite h (.ite h (.ite h (by simpa using hmeasuring)))
  | measure =>
    have hmeasuring : (setStation .measuring (accept .measure (measureDrops s))).lc.InForm :=
      .setStation (by simpa using h)
    exact .ite h (.ite h (by simpa using hmeasuring))
  | cut => exact .ite h (.ite h (.settle (LC.InForm.setStation (st := .cutting) (s := accept .cut s) h)))
  | hold => exact .ite h (.settle (by simpa using h))
  | resume => exact .ite h (.ite h (.settle (by simpa using h)))
  | withdraw => exact h.actWithdraw
  | release => exact h.actRelease
  | feed | calibrate | unlock | writeSettings | readSettings | readStatus | readResult | readPeers | readPasses =>
    simpa [Machine.actCommand] using h

protected theorem LC.InForm.takeCommand {k : HostCmd} {p : List Byte} (h : s.lc.InForm) :
    (takeCommand k p s).lc.InForm :=
  .ite h (.ite h (.actCommand h))

protected theorem LC.InForm.cpSubmit {k : HostCmd} {p : List Byte} (h : s.lc.InForm) : (cpSubmit k p s).lc.InForm :=
  .ite (.ite h h) h.takeCommand

protected theorem LC.InForm.receiveBytes {bs : List Byte} (h : s.lc.InForm) : (receiveBytes bs s).lc.InForm := by
  simp only [Machine.receiveBytes]
  split
  · exact .cpSubmit h
  · exact .ite h (.ite h h)

protected theorem LC.InForm.hostWriteEnd {misread : List (Nat × Byte)} (h : s.lc.InForm) :
    (hostWriteEnd misread s).lc.InForm := by
  have hwaiting : ∀ t : State, t.lc.InForm → (takeWaiting t).lc.InForm := fun t ht => by
    simp only [takeWaiting]
    split
    · exact .takeCommand ht
    · exact ht
  simp only [Machine.hostWriteEnd]
  split
  · exact hwaiting _ (.ite h h)
  · exact h

/-! ## The line -/

protected theorem LC.InForm.announce (h : s.lc.InForm) : (Machine.announce s).lc.InForm := by
  have hcount : (s.onLC fun c => { c with expiryCount := c.expiryCount % 4 + 1 }).lc.InForm := h.congr rfl rfl
  have hstate := hcount.queueFrame (f := .state) nofun
  have hrefresh : ∀ t : State, t.lc.InForm → (refresh t).lc.InForm := fun t ht => by
    have hceiling : (if t.fe.ceil.status = .none then t else queueFrame (ceilingFrame t) t).lc.InForm :=
      .ite ht (ht.queueFrame nofun)
    simp only [refresh]
    split
    · exact hceiling.queueFrame nofun
    · exact hceiling
  exact .ite (hrefresh _ hstate) hstate

protected theorem LC.InForm.transmissionFailed (h : s.lc.InForm) : (transmissionFailed s).lc.InForm := by
  have hdropped : ((s.onLC lcTxFailed).onLC lcDropWithdrawn).lc.InForm := h.txFailed.dropWithdrawn
  simp only [Machine.transmissionFailed]
  split
  · exact h.txFailed
  · exact .ite hdropped hdropped.slotTest

protected theorem LC.InForm.reportSent {e : QEntry} (h : s.lc.InForm) : (reportSent e s).lc.InForm := by
  simp only [Machine.reportSent]
  split
  · exact h.ownClaimSent.settle
  · exact h

protected theorem LC.InForm.ruReport {told : Bool} {before : List ViewEntry} (h : s.lc.InForm) :
    (ruReport told before s).lc.InForm := by
  have hplans : (ruPlans before s).lc.InForm := by
    simp only [ruPlans]
    (repeat' split)
    · exact h.firstPlan
    · exact h.replan.handTargets
    · exact h
    · exact h
  exact .ite hplans.agree.settle (.ite h.agree.settle h)

protected theorem LC.InForm.deliverState {n : Fin 16} {p : PeerState} (h : s.lc.InForm) :
    (deliverState n p s).lc.InForm := by
  have hlatched : (if mismatchLatches p (entryOf n s) then
      latch .configMismatch (s.onPeers (putPeer (takeState p (entryOf n s))))
      else s.onPeers (putPeer (takeState p (entryOf n s)))).lc.InForm := .ite h h
  have hrestarted := LC.InForm.ite (p := restartFound (entryOf n s) p.annCeiling = true)
    (hlatched.removePeerClaim (n := n)) hlatched
  exact .ruReport (.ite hrestarted.appendHeldClaim hrestarted.removePeerClaim)

protected theorem LC.InForm.receive {k : FrameKind} {f : LinkFrame} {deliver : State → State} (h : s.lc.InForm)
    (hd : (deliver s).lc.InForm) : (receive k f deliver s).lc.InForm :=
  .ite (h.congr rfl rfl) (.ite (.ite h (silence_inForm s)) hd)

protected theorem LC.InForm.inputChanged {i : Input} {v : Bool} (h : s.lc.InForm) :
    (inputChanged i v s).lc.InForm := by
  cases i with
  | clamped =>
    simp only [Machine.inputChanged, clampedChanged]
    (repeat' split)
    · exact h.settle
    · exact h.cutMeasurement
    · exact h.endRun
    · exact h.abortToAborting
    · exact h.settle
    · exact h
  | guardClosed => exact .ite (.settle (by simpa using h)) h.settle
  | estop => exact .ite h.estopActive h.estopInactive
  | driveAtSpeed => exact .ite (by simpa using h) h.driveLost
  | homeL => exact .ite (.retractTest h) h
  | homeR => exact .ite (.retractTest h) h

end

/-! ## The commands -/

/-- Every command but RESET keeps the form of the transmit queue (R93 to R96, R163). -/
theorem exec_inForm (c : Instr) (s t : State) (hc : ∀ k p w, c ≠ .reset k p w) (h : s.lc.InForm)
    (he : exec c s = .next t) : t.lc.InForm := by
  cases c with
  | reset k p w => exact absurd rfl (hc k p w)
  | visit p | measure p | cut p | hold p | resume p | feed p | withdraw p | release p | calibrate p | unlock p
  | writeSettings p | readSettings p | readStatus p | readResult p | readPeers p | readPasses p =>
    injection he with he; subst he
    exact h.cpSubmit
  | discardedFrame frame =>
    injection he with he; subst he
    exact .ite (.ite h h) (.ite h h.receiveBytes)
  | settingsWriteDone m =>
    injection he with he; subst he
    exact h.hostWriteEnd
  | calibrationWriteDone m =>
    injection he with he; subst he
    simpa using h
  | unlockTimerExpiry | rawInputChange i v =>
    injection he with he; subst he
    exact h
  | frameGapTimeout | homeTimerExpiry | markLeadingEdge | violationTimerExpiry | peerWaitTimerExpiry =>
    injection he with he; subst he
    exact .ite h h
  | announceTimerExpiry =>
    simp only [exec, execAnnounceTimerExpiry] at he
    split at he <;> injection he with he <;> subst he
    · exact h
    · have hloaded : (s.onLC fun c => { c with announce := some (announcePeriod s) }).lc.InForm := h.congr rfl rfl
      exact .ite hloaded.listenExpiry hloaded.announce
  | watchdogExpiry =>
    simp only [exec, execWatchdogExpiry] at he
    split at he <;> injection he with he <;> subst he
    · exact .ite (.settle (by simpa using h)) h
    · exact h
  | debounceExpiry i =>
    injection he with he; subst he
    exact .ite (.inputChanged h) h
  | encoderPulse w probe =>
    injection he with he; subst he
    exact .ite h.encoderPulse h
  | markTrailingEdge probe =>
    injection he with he; subst he
    exact .ite h.markPulseEnd h
  | markTimerExpiry =>
    injection he with he; subst he
    exact .ite h.endAttempt h
  | driveTimerExpiry =>
    injection he with he; subst he
    exact .ite h.endRun h
  | tracerReading w x r =>
    simp only [exec, execTracerReading] at he
    split at he <;> injection he with he <;> subst he
    · exact .ite h h
    · exact h
  | sweepEnd w =>
    simp only [exec, execSweepEnd] at he
    split at he <;> injection he with he <;> subst he
    · exact .ite h.endSweep h
    · exact h
  | sweepTimerExpiry =>
    simp only [exec, execSweepTimerExpiry] at he
    split at he <;> injection he with he <;> subst he
    · exact .measurementFails h
    · exact h
  | transmitStart =>
    simp only [exec, execTransmitStart] at he
    split at he <;> injection he with he <;> subst he
    · rename_i hq
      exact .ite (h.begun hq _) h
    · exact h
  | arbitrationLost bit =>
    simp only [exec, execArbitrationLost] at he
    split at he <;> injection he with he <;> subst he
    · exact .ite h.transmissionFailed h
    · exact h
  | ownFrameError =>
    simp only [exec, execOwnFrameError] at he
    split at he <;> injection he with he <;> subst he
    · exact h
    · have hfailed : (transmissionFailed (s.onLC countFrameError)).lc.InForm :=
        .transmissionFailed (h.congr rfl rfl)
      exact .ite (hfailed.congr rfl rfl) hfailed
  | listenOnlyEnd =>
    injection he with he; subst he
    exact .ite (h.congr rfl rfl) h
  | frameSent =>
    simp only [exec, execFrameSent] at he
    split at he <;> injection he with he <;> subst he
    · exact .reportSent (LC.InForm.txSent (h.congr rfl rfl))
    · exact h
  | receiveError f =>
    injection he with he; subst he
    exact .ite h (h.congr rfl rfl)
  | stateReceived f =>
    injection he with he; subst he
    refine .receive h ?_
    split
    · exact h.deliverState
    · exact h
  | ceilingReceived f | intentReceived f =>
    injection he with he; subst he
    refine .receive h ?_
    split
    · exact .ruReport h
    · exact h
  | claimReceived f =>
    injection he with he; subst he
    refine .receive h ?_
    split
    · exact .ruReport (.claimHeard h)
    · exact h
  | releaseReceived f =>
    injection he with he; subst he
    exact .receive h (.ruReport (.removePeerClaim h))
  | peerAgeExpiry n =>
    simp only [exec, execPeerAgeExpiry] at he
    split at he <;> injection he with he <;> subst he
    · exact .ite h (.ruReport (.removePeerClaim h))
    · exact h
  | slideDone w =>
    simp only [exec, execSlideDone] at he
    split at he <;> injection he with he <;> subst he
    · exact .ite (.ite h.completePass h) h
    · exact h
  | slideFault w =>
    simp only [exec, execSlideFault] at he
    split at he <;> injection he with he <;> subst he
    · exact h.abortToAborting
    · exact h
  | passTimerExpiry =>
    simp only [exec, execPassTimerExpiry] at he
    split at he <;> injection he with he <;> subst he
    · exact h.abortToAborting
    · exact h
  | backoffExpiry =>
    injection he with he; subst he
    exact .ite (.slotTest h) h

/-- Settles O7: a reset empties the queue, every other command keeps its form, and a microsecond leaves it as it is. -/
theorem transmitQueueKeepsItsOrder : Obligations.TransmitQueueKeepsItsOrder := by
  intro s t h he
  rw [txQueueInv_iff] at h ⊢
  simp only [step] at he
  split at he
  case h_1 c rest _ =>
    by_cases hc : ∃ k p w, c = .reset k p w
    · obtain ⟨k, p, w, rfl⟩ := hc
      injection he with he; subst he
      exact LC.InForm.of_empty rfl rfl
    · exact exec_inForm c { s with pending := rest } t (fun k p w e => hc ⟨k, p, w, e⟩) h he
  case h_2 =>
    injection he with he; subst he
    exact LC.InForm.congr h rfl rfl

end Sys2Proof.Machine

/-! PROOFS. Frames of the cell port assembled and discarded, and receive errors of the pit link (R97, R180, R181). -/

namespace Sys2Proof.Machine

open Sys2Proof

/-- A frame that is a command is complete (R180). -/
theorem cellComplete_of_command {bs : List Byte} (h : cellCommand bs ≠ none) : cellComplete bs = true := by
  by_contra hc
  simp [cellCommand, hc] at h

/-- A complete frame is no part of one (R180). -/
theorem cellPartial_of_complete {bs : List Byte} (h : cellComplete bs = true) : cellPartial bs = false := by
  simp only [cellComplete, cellPartial, Bool.and_eq_true, Bool.and_eq_false_iff, Bool.or_eq_false_iff,
    decide_eq_true_eq, decide_eq_false_iff_not] at h ⊢
  omega

/-- A host command is submitted to the port (R181). -/
theorem exec_instr (k : HostCmd) (p : List Byte) (s : State) : exec (k.instr p) s = .next (cpSubmit k p s) := by
  cases k <;> rfl

theorem noRoom_iff (s : State) : noRoom s = true ↔ s.ss.hostWrite ≠ none ∧ s.cp.waiting ≠ none := by
  simp [noRoom, Option.isSome_iff_ne_none]

/-- Bytes that are no complete frame of their own join the frame being assembled (R180). -/
theorem exec_discardedFrame_bytes (r : List Byte) (s : State) (hr : r ≠ []) (hc : cellComplete r = false) :
    exec (.discardedFrame r) s = .next (receiveBytes r s) := by
  simp [exec, execDiscardedFrame, hc, hr]

/-- Bytes that complete no command: the buffer lost with them, lengthened, or as it was (R180). -/
theorem receiveBytes_noCommand (r : List Byte) (s : State) (h : cellCommand (s.cp.rxBuffer ++ r) = none) :
    receiveBytes r s =
      if cellComplete (s.cp.rxBuffer ++ r) then discardFrame s
      else if cellPartial (s.cp.rxBuffer ++ r) then s.onCP fun t => { t with rxBuffer := s.cp.rxBuffer ++ r, rxGap := 0 }
      else s := by
  simp only [receiveBytes, h]

/-- Bytes that complete a command (R180). -/
theorem receiveBytes_command (r : List Byte) (s : State) (k : HostCmd) (p : List Byte)
    (h : cellCommand (s.cp.rxBuffer ++ r) = some (k, p)) :
    receiveBytes r s = cpSubmit k p (s.onCP fun t => { t with rxBuffer := [] }) := by
  simp only [receiveBytes, h]

/-- A buffer that is not complete is no command (R180). -/
theorem cellCommand_of_incomplete {bs : List Byte} (h : cellComplete bs = false) : cellCommand bs = none := by
  simp [cellCommand, h]

/-- Settles O37. -/
theorem framesLost : Obligations.FramesLost := by
  intro s lost
  refine ⟨fun f hc hlost => ?discarded, fun f hcommand hroom => ?good, rfl, fun r hr hc => ?bytes,
    fun r hpart => ?gap, fun r hpart => ?noGap, fun f hf => ?linkError⟩
  case discarded =>
    have hlost' : ((cellCommand f).isNone || noRoom s) = true := by
      rcases hlost with h | h
      · simp [h]
      · simp [(noRoom_iff s).2 h]
    simp only [exec, execDiscardedFrame, hc, hlost', if_true]
    rfl
  case good =>
    have hfits : ((cellCommand f).isNone || noRoom s) = false := by
      rw [Bool.or_eq_false_iff, Option.isNone_eq_false_iff, Option.isSome_iff_ne_none, ← Bool.not_eq_true, noRoom_iff]
      exact ⟨hcommand, by tauto⟩
    simp [exec, execDiscardedFrame, cellComplete_of_command hcommand, hfits]
  case bytes =>
    intro buf
    rw [exec_discardedFrame_bytes r s hr hc]
    refine ⟨fun hpart => ?_, fun hfull hnone => ?_, fun k p hcommand => ?_, fun hpart hfull => ?_⟩
    · have hfull : cellComplete buf = false := by
        by_contra h
        simp [cellPartial_of_complete (Bool.not_eq_false _ ▸ h)] at hpart
      rw [receiveBytes_noCommand r s (cellCommand_of_incomplete hfull), if_neg (by simpa using hfull), if_pos hpart]
      rfl
    · rw [receiveBytes_noCommand r s hnone, if_pos hfull]
      rfl
    · rw [receiveBytes_command r s k p hcommand, exec_instr]
      rfl
    · rw [receiveBytes_noCommand r s (cellCommand_of_incomplete hfull), if_neg (by simpa using hfull),
        if_neg (by simpa using hpart)]
  case gap =>
    simp only [exec, execFrameGapTimeout, hpart, if_true]
    rfl
  case noGap => simp [exec, execFrameGapTimeout, hpart]
  case linkError =>
    simp only [exec, execReceiveError, hf]
    rfl

end Sys2Proof.Machine

/-! PROOFS. A pit link frame reads back as it was sent, and the bits of a frame in sending order (R86, R97, R195 to
R197). -/

namespace Sys2Proof.Machine

open Sys2Proof

/-! ## Fields of a payload -/

@[simp] theorem be3_length (n : Nat) : (be3 n).length = 3 := rfl

/-- A three-byte field, most significant byte first (R195). -/
@[simp] theorem holdsAt_be3 {r : List Byte} {off : Nat} (n : Nat) :
    HoldsAt r off (be3 n) ↔ off + 2 < r.length ∧ field r off 3 = n % 16777216 := by
  have hlen : off + 2 < r.length ↔ 2 < (r.drop off).length := by rw [List.length_drop]; omega
  rw [hlen]
  rcases h : r.drop off with _ | ⟨a, _ | ⟨b, _ | ⟨c, t⟩⟩⟩ <;> simp [HoldsAt, field, ofBytes, be3, h, BitVec.toNat_eq]
  omega

/-- An even diameter below 2^25 stands in its field (R86). -/
theorem diameterField_of_holds {r : List Byte} {off : Nat} {d : Int} (h : HoldsAt r off (linkDiameter d))
    (heven : d % 2 = 0) (hlow : 0 ≤ d) (hhigh : d < 33554432) : diameterField r off = d := by
  rw [linkDiameter, holdsAt_be3] at h
  rw [diameterField, h.2]
  omega

/-- A frame that the station makes passes the first three tests of its kind (R97). -/
@[simp] theorem frameIs_makeFrame (k : FrameKind) (n : Fin 16) (p : List Byte) : frameIs k (makeFrame k n p) = true := by
  simp [frameIs, makeFrame]

/-! ## The five kinds -/

/-- The code of a state that is sent names that state (R1). -/
theorem stateOfCode_linkCode {st : StationState} (h : (linkCode st).isSome) :
    stateOfCode ((linkCode st).getD 0 % 256) = some st := by
  cases st <;> simp_all [linkCode, stateOfCode]

/-- The fields of a STATE's payload (R197). -/
theorem statePayload_fields (p : PeerState) :
    field (statePayload p) 0 1 = p.car.val * 16 + p.bogie.val * 4 ∧
    field (statePayload p) 1 1 = (linkCode p.status).getD 0 % 256 ∧ field (statePayload p) 2 2 = p.digest.toNat ∧
    field (statePayload p) 4 1 = p.annCeiling % 256 ∧ field (statePayload p) 5 1 = p.annIntent % 256 ∧
    field (statePayload p) 6 1 = (if p.slotHeld then 1 else 0) ∧
    field (statePayload p) 7 1 = (p.passesDone * 16 + p.passesTotal) % 256 := by
  have h := HoldsAt.of_eq (rfl : statePayload p = statePayload p)
  conv at h => arg 3; rw [statePayload]
  simp only [holdsAt_append, holdsAt_be1, holdsAt_be2, List.length_append, be1_length, be2_length] at h
  obtain ⟨⟨⟨⟨⟨⟨⟨-, h0⟩, -, h1⟩, -, h2⟩, -, h4⟩, -, h5⟩, -, h6⟩, -, h7⟩ := h
  have hcar := p.car.isLt
  have hbogie := p.bogie.isLt
  have hdigest := p.digest.isLt
  refine ⟨h0.trans (by omega), h1, h2.trans (Nat.mod_eq_of_lt hdigest), h4, h5, h6.trans ?_, h7⟩
  split <;> rfl

/-- A STATE reads back as it was sent, its digest match set against the receiver's digest (R112, R197). -/
theorem readState_statePayload (p : PeerState) (own : BitVec 16) (hst : (linkCode p.status).isSome)
    (hdone : p.passesDone ≤ p.passesTotal) (htotal : p.passesTotal ≤ 8) (hceiling : p.annCeiling ≤ 255)
    (hintent : p.annIntent ≤ 255) :
    readState own (statePayload p) = some { p with digestMatch := decide (p.digest = own) } := by
  obtain ⟨h0, h1, h2, h4, h5, h6, h7⟩ := statePayload_fields p
  have hcar := p.car.isLt
  have hbogie := p.bogie.isLt
  have hpasses : (p.passesDone * 16 + p.passesTotal) % 256 = p.passesDone * 16 + p.passesTotal := by omega
  have hdone' : (p.passesDone * 16 + p.passesTotal) / 16 = p.passesDone := by omega
  have htotal' : (p.passesDone * 16 + p.passesTotal) % 16 = p.passesTotal := by omega
  have hcar' : Fin.ofNat 16 ((p.car.val * 16 + p.bogie.val * 4) / 16) = p.car := Fin.ext (by simp; omega)
  have hbogie' : Fin.ofNat 4 ((p.car.val * 16 + p.bogie.val * 4) / 4) = p.bogie := Fin.ext (by simp; omega)
  have hheld : decide ((if p.slotHeld then 1 else 0) % 2 = 1) = p.slotHeld := by cases p.slotHeld <;> rfl
  have hmatch : decide (p.digest.toNat = own.toNat) = decide (p.digest = own) := by simp [BitVec.toNat_eq]
  have hlength : (statePayload p).length = 8 := rfl
  simp only [readState, hlength, h0, h1, h2, h4, h5, h6, h7, stateOfCode_linkCode hst, hpasses, hdone', htotal', hcar',
    hbogie', hheld, hmatch, Nat.mod_eq_of_lt (Nat.lt_succ_of_le hceiling), Nat.mod_eq_of_lt (Nat.lt_succ_of_le hintent)]
  simp [hdone, htotal, hdone.trans htotal]

theorem linkDiameterOk_iff (d : Int) : linkDiameterOk d = true ↔ 600000 ≤ d ∧ d ≤ 1300000 := by
  rw [linkDiameterOk, Bool.and_eq_true, decide_eq_true_eq, decide_eq_true_eq]
  exact Iff.rfl

/-- A CEILING with values reads back as it was sent (R109, R197). -/
theorem readCeiling_values (q : Nat) (st : CeilStatus) (v : LR Int) (hq : 1 ≤ q) (hq' : q ≤ 255)
    (hst : st = .normal ∨ st = .passive) (hv : v.all (fun d => decide (d % 2 = 0) && linkDiameterOk d) = true) :
    readCeiling (ceilingPayload ⟨q, st, some v⟩) = some ⟨q, st, some v⟩ := by
  simp only [LR.all, Bool.and_eq_true, decide_eq_true_eq, linkDiameterOk_iff] at hv
  obtain ⟨⟨hevenl, hlowl, hhighl⟩, hevenr, hlowr, hhighr⟩ := hv
  have h := HoldsAt.of_eq (rfl : ceilingPayload ⟨q, st, some v⟩ = ceilingPayload ⟨q, st, some v⟩)
  conv at h => arg 3; rw [ceilingPayload]
  simp only [holdsAt_append, holdsAt_be1, List.length_append, be1_length] at h
  obtain ⟨⟨⟨-, h0⟩, -, h1⟩, hl, hr⟩ := h
  have hl' : diameterField (ceilingPayload ⟨q, st, some v⟩) 2 = v.l :=
    diameterField_of_holds hl hevenl (by omega) (by omega)
  have hr' : diameterField (ceilingPayload ⟨q, st, some v⟩) 5 = v.r :=
    diameterField_of_holds hr hevenr (by omega) (by omega)
  have hcode : ceilStatusOf (st.code % 256) = some st := by rcases hst with rfl | rfl <;> rfl
  have hlength : (ceilingPayload ⟨q, st, some v⟩).length = 8 := rfl
  have hin : LR.all linkDiameterOk v = true := by
    rw [LR.all, Bool.and_eq_true, linkDiameterOk_iff, linkDiameterOk_iff]
    exact ⟨⟨hlowl, hhighl⟩, hlowr, hhighr⟩
  simp only [Nat.zero_add] at h1
  simp only [readCeiling, h0, h1, hcode, hl', hr', hlength, hst, Nat.mod_eq_of_lt (Nat.lt_succ_of_le hq')]
  simp [hin]
  omega

/-- A CEILING without values reads back as it was sent (R109, R197). -/
theorem readCeiling_bare (q : Nat) (st : CeilStatus) (hq : 1 ≤ q) (hq' : q ≤ 255)
    (hst : st = .condemned ∨ st = .cleared) :
    readCeiling (ceilingPayload ⟨q, st, none⟩) = some ⟨q, st, none⟩ := by
  have h := HoldsAt.of_eq (rfl : ceilingPayload ⟨q, st, none⟩ = ceilingPayload ⟨q, st, none⟩)
  conv at h => arg 3; rw [ceilingPayload]
  simp only [holdsAt_append, holdsAt_be1, be1_length, Nat.zero_add] at h
  obtain ⟨⟨⟨-, h0⟩, -, h1⟩, -⟩ := h
  have hlength : (ceilingPayload ⟨q, st, none⟩).length = 2 := rfl
  have hq0 : q ≠ 0 := by omega
  rcases hst with rfl | rfl <;>
    simp [readCeiling, h0, h1, hlength, CeilStatus.code, ceilStatusOf, Nat.mod_eq_of_lt (Nat.lt_succ_of_le hq'), hq0]

/-- An INTENT reads back as it was sent (R110, R197). -/
theorem readIntent_intentPayload (i : Intent) (hseq : 1 ≤ i.seq) (hseq' : i.seq ≤ 255) (hbasis : 1 ≤ i.basis)
    (hbasis' : i.basis ≤ 255)
    (ht : i.target.all (fun d => decide (d % 2 = 0) && decide (0 ≤ d) && decide (d < 33554432)) = true) :
    readIntent (intentPayload i) = some i := by
  simp only [LR.all, Bool.and_eq_true, decide_eq_true_eq] at ht
  obtain ⟨⟨⟨hevenl, hlowl⟩, hhighl⟩, ⟨hevenr, hlowr⟩, hhighr⟩ := ht
  have h := HoldsAt.of_eq (rfl : intentPayload i = intentPayload i)
  conv at h => arg 3; rw [intentPayload]
  simp only [holdsAt_append, holdsAt_be1, List.length_append, be1_length, Nat.zero_add] at h
  obtain ⟨⟨⟨⟨-, h0⟩, -, h1⟩, hl⟩, hr⟩ := h
  have hl' : diameterField (intentPayload i) 2 = i.target.l := diameterField_of_holds hl hevenl hlowl hhighl
  have hr' : diameterField (intentPayload i) 5 = i.target.r := diameterField_of_holds hr hevenr hlowr hhighr
  have hlength : (intentPayload i).length = 8 := rfl
  simp [readIntent, hlength, h0, h1, hl', hr', Nat.mod_eq_of_lt (Nat.lt_succ_of_le hseq'),
    Nat.mod_eq_of_lt (Nat.lt_succ_of_le hbasis'), hseq, hbasis]

/-- The pass number of a CLAIM or a RELEASE reads back (R197). -/
theorem readPass_be1 (k : Nat) (h : 1 ≤ k) (h' : k ≤ 8) : readPass (be1 k) = some k := by
  have hk : field (be1 k) 0 1 = k % 256 := ((holdsAt_be1 k).1 (HoldsAt.of_eq rfl)).2
  have hmod : k % 256 = k := by omega
  simp [readPass, hk, hmod, h, h']

/-! ## The bits of a frame -/

@[simp] theorem fieldBits_length (width n : Nat) : (fieldBits width n).length = width := by
  simp [fieldBits]

/-- The i-th bit of a field, most significant first (R86). -/
theorem fieldBits_getElem? {width i : Nat} (n : Nat) (h : i < width) :
    (fieldBits width n)[i]? = some (n.testBit (width - 1 - i)) := by
  simp [fieldBits, h]

/-- What stands in the middle of three pieces. -/
theorem getElem?_middle {α : Type} (a b c : List α) {k i : Nat} (hk : a.length = k) (hi : i < b.length) :
    (a ++ b ++ c)[k + i]? = b[i]? := by
  subst hk
  rw [List.getElem?_append_left (by simpa using hi), List.getElem?_append_right (by omega), Nat.add_sub_cancel_left]

/-- Pieces of one length: the j-th begins j lengths on. -/
theorem getElem?_flatMap {α β : Type} {g : α → List β} {k : Nat} (hk : ∀ x, (g x).length = k) {xs : List α} {i j : Nat}
    {x : α} (hj : xs[j]? = some x) (hi : i < k) : (xs.flatMap g)[k * j + i]? = (g x)[i]? := by
  induction xs generalizing j with
  | nil => simp at hj
  | cons y ys ih =>
    rw [List.flatMap_cons]
    rcases j with _ | j
    · obtain rfl : y = x := by simpa using hj
      rw [List.getElem?_append_left (by simp [hk, hi])]
      simp
    · have hat : k * (j + 1) + i - k = k * j + i := by rw [Nat.mul_succ]; omega
      rw [List.getElem?_append_right (by rw [hk, Nat.mul_succ]; omega), hk, hat, ih (by simpa using hj)]

theorem payloadBits_length (p : List Byte) : (p.flatMap fun b => fieldBits 8 b.toNat).length = 8 * p.length := by
  simp [List.length_flatMap, Nat.mul_comm]

/-- The header byte: the kind above, the length of the payload below (R197). -/
theorem headerByte_toNat (k : BitVec 4) {n : Nat} (h : n ≤ 15) : (headerByte k n).toNat = 2 ^ 4 * k.toNat + n := by
  have := k.isLt
  simp [headerByte]
  omega

section
variable (f : LinkFrame) {i : Nat}

/-- The bits of a frame before its payload, as one list (R86). -/
def headBits (f : LinkFrame) : List Bool :=
  false :: (fieldBits 6 (arbitration f) ++ fieldBits 8 (headerByte f.kind f.payload.length).toNat)

@[simp] theorem headBits_length : (headBits f).length = 15 := by
  simp [headBits]

theorem frameBits_eq : frameBits f = headBits f ++ ((f.payload.flatMap fun b => fieldBits 8 b.toNat) ++
    (fieldBits 16 f.check.toNat ++ List.replicate 8 true)) := by
  simp [frameBits, headBits]

theorem frameBits_length : (frameBits f).length = 39 + 8 * f.payload.length := by
  rw [frameBits_eq, List.length_append, List.length_append, payloadBits_length]
  simp
  omega

theorem frameBits_head (h : i < 15) : (frameBits f)[i]? = (headBits f)[i]? := by
  rw [frameBits_eq, List.getElem?_append_left (by simpa using h)]

/-- The arbitration field: class and station number (R86). -/
theorem frameBits_arbitration (h : i < 6) :
    (frameBits f)[1 + i]? = some ((f.cls.toNat * 16 + f.station.val).testBit (5 - i)) := by
  rw [frameBits_head f (by omega), Nat.add_comm, headBits, List.getElem?_cons_succ,
    List.getElem?_append_left (by simpa using h), fieldBits_getElem? _ h]
  rfl

/-- A bit of the header (R86). -/
theorem frameBits_header (h : i < 8) :
    (frameBits f)[7 + i]? = some ((headerByte f.kind f.payload.length).toNat.testBit (7 - i)) := by
  rw [frameBits_head f (by omega), show 7 + i = 6 + i + 1 by omega, headBits, List.getElem?_cons_succ,
    List.getElem?_append_right (by simp), fieldBits_length, Nat.add_sub_cancel_left, fieldBits_getElem? _ h]

/-- A bit of the payload (R86). -/
theorem frameBits_payload {j : Nat} {x : Byte} (hx : f.payload[j]? = some x) (h : i < 8) :
    (frameBits f)[15 + 8 * j + i]? = some (x.toNat.testBit (7 - i)) := by
  obtain ⟨hj, -⟩ := List.getElem?_eq_some_iff.1 hx
  have hin : 8 * j + i < (f.payload.flatMap fun b => fieldBits 8 b.toNat).length := by
    rw [payloadBits_length]
    omega
  have hbit : (f.payload.flatMap fun b => fieldBits 8 b.toNat)[8 * j + i]? = (fieldBits 8 x.toNat)[i]? :=
    getElem?_flatMap (g := fun b : Byte => fieldBits 8 b.toNat) (fun _ => fieldBits_length _ _) hx h
  rw [frameBits_eq, ← List.append_assoc, Nat.add_assoc 15, getElem?_middle _ _ _ (headBits_length f) hin, hbit,
    fieldBits_getElem? _ h]

/-- The bits before the check. -/
theorem beforeCheck_length :
    (headBits f ++ f.payload.flatMap fun b => fieldBits 8 b.toNat).length = 15 + 8 * f.payload.length := by
  rw [List.length_append, headBits_length, payloadBits_length]

/-- A bit of the check (R86). -/
theorem frameBits_check (h : i < 16) :
    (frameBits f)[15 + 8 * f.payload.length + i]? = some (f.check.toNat.testBit (15 - i)) := by
  rw [frameBits_eq, ← List.append_assoc, ← List.append_assoc,
    getElem?_middle _ _ _ (beforeCheck_length f) (by simpa using h), fieldBits_getElem? _ h]

/-- The end field is recessive (R86). -/
theorem frameBits_end (h : i < 8) : (frameBits f)[31 + 8 * f.payload.length + i]? = some true := by
  rw [frameBits_eq, ← List.append_assoc, ← List.append_assoc,
    List.getElem?_append_right (by rw [List.length_append, beforeCheck_length, fieldBits_length]; omega),
    List.getElem?_replicate]
  rw [if_pos (by rw [List.length_append, beforeCheck_length, fieldBits_length]; omega)]

end

/-- Settles O16. -/
theorem linkFramesReadBack : Obligations.LinkFramesReadBack := by
  refine ⟨fun n p own hst hdone htotal hceiling hintent => ?state, fun n q st v hq hq' hst hv => ?values,
    fun n q st hq hq' hst => ?bare, fun n i hseq hseq' hbasis hbasis' ht => ?intent, fun n k hk hk' => ?claim,
    fun f hn => ?bits⟩
  case state =>
    have hread := fun own => readState_statePayload p own hst hdone htotal hceiling hintent
    exact ⟨by simp [goodAs, makeFrame, hread, frameIs], hread own⟩
  case values =>
    have hread := readCeiling_values q st v hq hq' hst hv
    exact ⟨by simp [goodAs, makeFrame, hread, frameIs], hread⟩
  case bare =>
    have hread := readCeiling_bare q st hq hq' hst
    exact ⟨by simp [goodAs, makeFrame, hread, frameIs], hread⟩
  case intent =>
    have hread := readIntent_intentPayload i hseq hseq' hbasis hbasis' ht
    exact ⟨by simp [goodAs, makeFrame, hread, frameIs], hread⟩
  case claim =>
    have hread := readPass_be1 k hk hk'
    exact ⟨by simp [goodAs, makeFrame, hread, frameIs], by simp [goodAs, makeFrame, hread, frameIs], hread⟩
  case bits =>
    have hheader := headerByte_toNat f.kind hn
    refine ⟨frameBits_length f, rfl, fun i hi => frameBits_arbitration f hi, fun i hi => ⟨?_, ?_⟩,
      fun j x hx i hi => frameBits_payload f hx hi, fun i hi => frameBits_check f hi, fun i hi => frameBits_end f hi⟩
    · refine (frameBits_header f (by omega)).trans ?_
      rw [hheader, Nat.testBit_two_pow_mul_add _ (by omega), if_neg (by omega),
        show 7 - i - 4 = 3 - i by omega]
    · rw [show 11 + i = 7 + (4 + i) by omega]
      refine (frameBits_header f (by omega)).trans ?_
      rw [hheader, Nat.testBit_two_pow_mul_add _ (by omega), if_pos (by omega), show 7 - (4 + i) = 3 - i by omega]

end Sys2Proof.Machine

/-! PROOFS. Transmission: a frame begun, sent whole, lost or failed; what the test of a slot comes to; a frame handed to a
queue with and without room (R87 to R90, R93 to R96, R163 to R165). -/

namespace Sys2Proof.Machine

open Sys2Proof

/-! ## The test of a slot -/

section
variable {s : State}

/-- The test changes nothing without an ask that waits for a slot, or beside a CLAIM still queued (R163). -/
theorem slotTest_rests (h : ¬(s.scu.ask = true ∧ (s.scu.slot = .none ∨ s.scu.slot = .waiting)) ∨
    (s.scu.claims.length < (conf s).slots ∧ framesOfKind 1 s.lc ≠ [])) : slotTest s = s := by
  rcases h with h | ⟨hroom, hqueued⟩
  · exact if_neg h
  · simp only [slotTest, hroom, (claimQueued_iff s.lc).2 hqueued, if_true]
    split <;> rfl

/-- With the list full the station waits (R163). -/
theorem slotTest_waits (hask : s.scu.ask = true ∧ (s.scu.slot = .none ∨ s.scu.slot = .waiting))
    (hfull : (conf s).slots ≤ s.scu.claims.length) :
    slotTest s = { s with scu := { s.scu with slot := .waiting } } := by
  rw [slotTest, if_pos hask, if_neg (by omega)]
  rfl

/-- With room, no CLAIM queued and a ROUGH head pass the station arms (R163). -/
theorem slotTest_arms {p : Pass} {rest : List Pass}
    (hask : s.scu.ask = true ∧ (s.scu.slot = .none ∨ s.scu.slot = .waiting))
    (hroom : s.scu.claims.length < (conf s).slots) (hnone : framesOfKind 1 s.lc = []) (hstart : s.vc.state ≠ .start)
    (hq : s.pc.queue = p :: rest) (hp : p.kind = .rough) :
    slotTest s = { s with
      lc := handed (.claim p.number) s.lc, scu := { s.scu with slot := .armed, claimPass := some p.number } } := by
  have hqueued : ¬claimQueued s.lc = true := by rw [claimQueued_iff]; exact not_not_intro hnone
  have hhead : (headRough s).getD 1 = p.number := by simp [headRough, hq, hp]
  rw [slotTest, if_pos hask, if_pos hroom, if_neg hqueued, hhead, queueFrame_eq _ _ (by exact hstart)]
  rfl

end

/-! ## A frame handed to the queue -/

/-- A placed entry stands behind the entries of its class and of those before it (R93). -/
theorem queueInsert_eq (e : QEntry) (q : List QEntry) :
    queueInsert e q = (q.takeWhile fun x => decide (x.frame.cls ≤ e.frame.cls)) ++
      e :: q.dropWhile fun x => decide (x.frame.cls ≤ e.frame.cls) := by
  induction q with
  | nil => rfl
  | cons x t ih =>
    unfold queueInsert
    by_cases h : x.frame.cls ≤ e.frame.cls
    · simp [h, ih]
    · simp [h]

/-- A frame that replaces nothing is placed (R94). -/
theorem lcHand_alone {g : QFrame} {c : LC} (hq : 3 ≤ g.kindCode → ∀ x ∈ c.queue, x.frame.kindCode ≠ g.kindCode)
    (ho : ∀ o, c.overflow = some o → 3 ≤ g.kindCode → o.kindCode ≠ g.kindCode) : lcHand g c = lcPlace g c := by
  have hqueue : ¬(replaceable g && c.queue.any fun e => sameKind e.frame g) = true := by
    simpa [replaceable, sameKind] using hq
  have hoverflow : ¬overflowReplaced g c = true := by
    cases hc : c.overflow with
    | none => simp [overflowReplaced, hc]
    | some o => simpa [overflowReplaced, hc, replaceable, sameKind] using ho o hc
  rw [lcHand, if_neg hqueue, if_neg hoverflow]

/-- What an erased entry is not is found as often after the erasure. -/
theorem filter_eraseP_disjoint {α : Type} {p q : α → Bool} (h : ∀ x, p x = true → q x = false) (l : List α) :
    (l.eraseP p).filter q = l.filter q := by
  induction l with
  | nil => rfl
  | cons x t ih =>
    by_cases hx : p x = true
    · simp [hx, h x hx]
    · simp [hx, List.filter_cons, ih]

/-- Room is made by dropping no CLAIM (R95). -/
theorem queueDrop_claims {q q' : List QEntry} (h : queueDrop q = some q') :
    (q'.filter fun e => e.frame.kindCode == 1) = q.filter fun e => e.frame.kindCode == 1 := by
  have hdrop : ∀ k, k ≠ 1 → ((queueErase (fun e => e.frame.kindCode == k && !e.tx) q).filter fun e =>
      e.frame.kindCode == 1) = q.filter fun e => e.frame.kindCode == 1 := fun k hk => by
    refine filter_eraseP_disjoint (fun x hx => ?_) q
    simp only [Bool.and_eq_true, beq_iff_eq] at hx
    simp [hx.1, hk]
  simp only [queueDrop] at h
  split at h
  · cases h
    exact hdrop 5 (by decide)
  · split at h
    · cases h
      exact hdrop 4 (by decide)
    · cases h

/-- A RELEASE handed to the queue leaves a CLAIM that stands there, and adds none (R95). -/
theorem countKind_lcHand_release (n : Nat) (c : LC) :
    (framesOfKind 1 (lcHand (.release n) c)).length = (framesOfKind 1 c).length := by
  have hrelease : (QFrame.release n).kindCode = 2 := rfl
  rw [lcHand_alone (fun h => absurd h (by simp [hrelease])) (fun _ _ h => absurd h (by simp [hrelease]))]
  simp only [lcPlace]
  split
  · simp [framesOfKind_length, queueInsert_countKind, QEntry.new, hrelease]
  · split
    · rename_i q hq
      simp [framesOfKind_length, queueInsert_countKind, QEntry.new, hrelease, queueDrop_claims hq]
    · simp only [lcOverflow]
      split
      · rename_i ho
        simp [framesOfKind_length, ho, hrelease]
      · rename_i o ho
        split
        · rename_i hreplaced
          have hkind : o.kindCode ≠ 1 := fun hk => by
            simp [sameKind, droppable, hk, hrelease] at hreplaced
          simp [framesOfKind_length, ho, hrelease, hkind]
        · rfl

theorem noClaim_handed_release (n : Nat) (c : LC) :
    framesOfKind 1 (handed (.release n) c) = [] ↔ framesOfKind 1 c = [] := by
  rw [← List.length_eq_zero_iff, ← List.length_eq_zero_iff, handed]
  split
  · exact Iff.rfl
  · rw [countKind_lcHand_release]

/-! ## A frame begun and sent -/

theorem txEntry_eq_none_iff (c : LC) : txEntry c = none ↔ ∀ x ∈ c.queue, x.tx = false := by
  simp [txEntry, List.find?_eq_none]

/-- When a station may transmit (R89, R99, R101). -/
theorem mayTransmit_iff (s : State) : mayTransmit s = true ↔
    s.vc.state ≠ .start ∧ s.lc.silenced = false ∧ s.lc.listenOnly = none ∧ ∀ x ∈ s.lc.queue, x.tx = false := by
  simp only [mayTransmit, Bool.and_eq_true, decide_eq_true_eq, Bool.not_eq_true', Option.isNone_iff_eq_none,
    txEntry_eq_none_iff, and_assoc]

section
variable {e : QEntry} {f : LinkFrame} {s : State}

/-- The queue once the frame on the line is sent whole and not replaced (R88, R95). -/
def txGone (c : LC) : LC := lcRefill { c with errRun := 0, onLine := none, queue := c.queue.eraseP (·.tx) }

/-- The state once the frame on the line is sent whole and not replaced, before its report (R88). -/
def sentWhole (f : LinkFrame) (s : State) : State :=
  { s with lc := txGone s.lc, out := { s.out with sent := s.out.sent ++ [f] } }

/-- The end of a transmission is reported to the block that queued the frame (R88). -/
theorem exec_frameSent (hline : s.lc.onLine = some f) (he : s.lc.queue.find? (·.tx) = some e) :
    exec .frameSent s = .next (reportSent e ((s.onOut fun t => { t with sent := t.sent ++ [f] }).onLC fun c =>
      lcTxSent { c with errRun := 0 })) := by
  have htx : txEntry s.lc = some e := he
  simp only [exec, execFrameSent, hline, htx]

/-- A frame sent whole leaves the queue (R88). -/
theorem exec_frameSent_whole (hline : s.lc.onLine = some f) (he : s.lc.queue.find? (·.tx) = some e)
    (hr : e.replaced = false) : exec .frameSent s = .next (reportSent e (sentWhole f s)) := by
  have hsent : lcTxSent { s.lc with errRun := 0 } = txGone s.lc := by
    have htx : txEntry { s.lc with errRun := 0 } = some e := he
    simp only [lcTxSent, htx, hr]
    rfl
  rw [exec_frameSent hline he, State.onLC]
  exact congrArg (fun c => Host.Outcome.next (reportSent e { s with
    lc := c, out := { s.out with sent := s.out.sent ++ [f] } })) hsent

/-- A report of a frame that is no CLAIM is made to no block (R164). -/
theorem reportSent_other (h : e.frame.kindCode ≠ 1) (s : State) : reportSent e s = s := by
  cases he : e.frame with
  | claim n => simp [he, QFrame.kindCode] at h
  | release | ceiling | intent | state => simp only [reportSent, he]

/-- The own CLAIM sent by an ARMED station with room in the list: HELD (R164). -/
theorem ownClaimSent_holds (n : Nat) (harmed : s.scu.slot = .armed)
    (hroom : (withoutClaim (ownStation s) s.scu.claims).length < (conf s).slots) :
    ownClaimSent n false s = { s with scu := { s.scu with
      claims := withoutClaim (ownStation s) s.scu.claims ++ [⟨ownStation s, some n⟩], slot := .held, ask := false } } := by
  rw [ownClaimSent, if_neg (by simp [harmed]), if_pos hroom]
  rfl

/-- The own CLAIM sent by an ARMED station without room: it yields (R168). -/
theorem ownClaimSent_yields (n : Nat) (harmed : s.scu.slot = .armed)
    (hfull : (conf s).slots ≤ (withoutClaim (ownStation s) s.scu.claims).length) (hstart : s.vc.state ≠ .start) :
    ownClaimSent n false s = { s with
      lc := handed (.release n) s.lc
      scu := { s.scu with
        claims := withoutClaim (ownStation s) s.scu.claims, slot := .backoff, claimPass := none
        backoff := some (((ownStation s).val + 1) * 20000), yields := min 255 (s.scu.yields + 1) } } := by
  rw [ownClaimSent, if_neg (by simp [harmed]), if_neg (by omega), queueFrame_eq _ _ (by exact hstart)]
  rfl

/-- A CLAIM sent without a reservation: its RELEASE, then the test for an ask that has come since (R96, R163, R168). -/
theorem ownClaimSent_releases (n : Nat) (givenUp : Bool) (h : givenUp = true ∨ s.scu.slot ≠ .armed)
    (hstart : s.vc.state ≠ .start) :
    ownClaimSent n givenUp s = slotTest { s with
      lc := handed (.release n) s.lc
      scu := { s.scu with claims := withoutClaim (ownStation s) s.scu.claims } } := by
  rw [ownClaimSent, if_pos h, queueFrame_eq _ _ (by exact hstart)]
  rfl

/-- A CLAIM sent whole is reported, and the start conditions are taken afresh (R144, R164). -/
theorem exec_frameSent_claim {n : Nat} (hline : s.lc.onLine = some f) (he : s.lc.queue.find? (·.tx) = some e)
    (hr : e.replaced = false) (hn : e.frame = .claim n) :
    exec .frameSent s = .next (settle (ownClaimSent n (e.withdraw == some .givenUp) (sentWhole f s))) := by
  rw [exec_frameSent_whole hline he hr, reportSent, hn]

end

/-- Settles O51. -/
theorem framesAreSent : Obligations.FramesAreSent := by
  intro e q f s cleared gone sent others
  refine ⟨fun hq => ?empty, fun hnot => ?notAllowed, fun hq hstart hsilenced hlisten htx => ?begun, fun hline => ?idle,
    fun hline he hr hkind => ?replaced, fun hline he hr hkind => ?whole,
    fun n hline he hr hn hkept harmed hroom => ?holds, fun n hline he hr hn hkept harmed hfull hstart => ?yields,
    fun n hline he hr hn hgiven hstart => ?releases, fun g c => ?queue⟩
  case empty => simp only [exec, execTransmitStart, hq]
  case notAllowed =>
    have hmay : ¬mayTransmit s = true := by
      rw [mayTransmit_iff]
      rintro ⟨hstart, hsilenced, hlisten, htx⟩
      rcases hnot with h | h | h | ⟨x, hx, h⟩
      · exact hstart h
      · simp [hsilenced] at h
      · exact h hlisten
      · simp [htx x hx] at h
    simp only [exec, execTransmitStart, hmay]
    split <;> rfl
  case begun =>
    have hmay : mayTransmit s = true := (mayTransmit_iff s).2 ⟨hstart, hsilenced, hlisten, htx⟩
    simp only [exec, execTransmitStart, hq, hmay, if_true]
    rfl
  case idle => simp only [exec, execFrameSent, hline]
  case replaced =>
    have hcleared : lcTxSent { s.lc with errRun := 0 } = cleared := by
      have htx : txEntry { s.lc with errRun := 0 } = some e := he
      simp only [lcTxSent, htx, hr]
      rfl
    rw [exec_frameSent hline he, reportSent_other hkind]
    exact congrArg (fun c => Host.Outcome.next { s with lc := c, out := sent }) hcleared
  case whole =>
    rw [exec_frameSent_whole hline he hr, reportSent_other hkind]
    rfl
  case holds =>
    refine ⟨_, exec_frameSent_claim hline he hr hn, ?_⟩
    rw [beq_false_of_ne hkept, ownClaimSent_holds (s := sentWhole f s) n harmed hroom]
    exact settle_settled _
  case yields =>
    refine ⟨_, exec_frameSent_claim hline he hr hn, ?_⟩
    rw [beq_false_of_ne hkept, ownClaimSent_yields (s := sentWhole f s) n harmed hfull hstart]
    exact settle_settled _
  case releases =>
    intro b asks
    have hgone := noClaim_handed_release n gone
    refine ⟨_, exec_frameSent_claim hline he hr hn, ?_⟩
    have hreleases : ownClaimSent n (e.withdraw == some .givenUp) (sentWhole f s) = slotTest b :=
      ownClaimSent_releases (s := sentWhole f s) n _ (hgiven.imp_left beq_iff_eq.2) hstart
    rw [hreleases]
    refine ⟨fun hrests => ?_, fun hasks hfull => ?_, fun p rest hasks hroom hnone hq hp => ?_⟩
    · have hrests' := hrests.imp_right fun h => And.intro h.1 (mt hgone.1 h.2)
      rw [slotTest_rests (s := b) hrests']
      exact settle_settled b
    · rw [slotTest_waits (s := b) hasks hfull]
      exact settle_settled _
    · rw [slotTest_arms (s := b) hasks hroom (hgone.2 hnone) hstart hq hp]
      exact settle_settled _
  case queue =>
    intro place still alone
    have hplace : ∀ l, queueInsert (.new g) l = place l := fun l => queueInsert_eq (.new g) l
    have hany : ∀ k, (c.queue.any fun x => x.frame.kindCode == k && !x.tx) = c.queue.any (still k) := fun _ => rfl
    have hhand : alone → lcHand g c = lcPlace g c := fun h => lcHand_alone h.1 h.2
    refine ⟨fun ho hlen => ?_, fun h => ?_, fun h hlen => ?_, fun h hlen h5 => ?_, fun h hlen h5 h4 => ?_,
      fun h hlen h5 h4 ho => ?_⟩
    · simp only [lcRefill, ho, queueMax, hlen, if_true, hplace]
    · rcases h with h | h
      · simp only [lcRefill, h]
      · simp only [lcRefill, queueMax, not_lt.2 h, if_false]
        split <;> rfl
    · rw [hhand h, lcPlace, if_pos (by exact hlen), hplace]
    · rw [hhand h, lcPlace, if_neg (by exact not_lt.2 hlen), queueDrop, hany, if_pos h5]
      exact congrArg (fun l => { c with queue := l }) (hplace _)
    · rw [hhand h, lcPlace, if_neg (by exact not_lt.2 hlen), queueDrop, hany, hany, if_neg (by rw [h5]; decide), if_pos h4]
      exact congrArg (fun l => { c with queue := l }) (hplace _)
    · rw [hhand h, lcPlace, if_neg (by exact not_lt.2 hlen), queueDrop, hany, hany, if_neg (by rw [h5]; decide),
        if_neg (by rw [h4]; decide)]
      simp only [lcOverflow, ho]

end Sys2Proof.Machine

/-! PROOFS. Transmissions lost and failed, the withdrawal that waits for their end, and the listen-only period (R87 to
R89, R96, R163, R165). -/

namespace Sys2Proof.Machine

open Sys2Proof

section
variable {e : QEntry} {f : LinkFrame} {s : State}

/-- No withdrawal waits for the end of the transmission (R96). -/
theorem txWithdraw_eq_none {c : LC} (h : ∀ e, c.queue.find? (·.tx) = some e → e.withdraw = none) :
    txWithdraw c = none := by
  cases he : txEntry c with
  | none => simp [txWithdraw, he]
  | some e => simpa [txWithdraw, he] using h e he

/-- A frame whose transmission failed stays for the retry (R87, R88). -/
theorem transmissionFailed_retries (h : ∀ e, s.lc.queue.find? (·.tx) = some e → e.withdraw = none) :
    transmissionFailed s = { s with lc := lcTxFailed s.lc } := by
  simp only [transmissionFailed, txWithdraw_eq_none h]
  rfl

/-- The state that the answer to a withdrawal leaves, the CLAIM taken out of the queue `c` (R163, R165). -/
def withdrawalAnswered (why : Withdraw) (c : LC) (s : State) : State :=
  if why = .lost ∧ s.scu.slot = .armed then toBackoff { s with lc := c } else slotTest { s with lc := c }

/-- A CLAIM whose withdrawal waited leaves the queue (R96). -/
theorem transmissionFailed_withdrawn {why : Withdraw} (he : s.lc.queue.find? (·.tx) = some e)
    (hw : e.withdraw = some why) :
    transmissionFailed s = withdrawalAnswered why (lcDropWithdrawn (lcTxFailed s.lc)) s := by
  have htx : txEntry s.lc = some e := he
  have hwaits : txWithdraw s.lc = some why := by simp [txWithdraw, htx, hw]
  simp only [transmissionFailed, hwaits]
  rfl

/-- A bit sent recessive that read back dominant (R87). -/
theorem exec_arbitrationLost (i : Fin 6) (hline : s.lc.onLine = some f) : exec (.arbitrationLost i) s =
    .next (if (f.cls.toNat * 16 + f.station.val).testBit (5 - i.val) = true then transmissionFailed s else s) := by
  simp only [exec, execArbitrationLost, hline]
  rfl

/-- An error of the own frame, counted (R88, R89). -/
theorem exec_ownFrameError (hline : s.lc.onLine = some f) : exec .ownFrameError s =
    .next (if 16 ≤ min 16 (s.lc.errRun + 1) then goListenOnly (transmissionFailed (s.onLC countFrameError))
      else transmissionFailed (s.onLC countFrameError)) := by
  have hrun : (transmissionFailed (s.onLC countFrameError)).lc.errRun = min 16 (s.lc.errRun + 1) :=
    congrArg Tallies.errRun (transmissionFailed_tallies (s.onLC countFrameError))
  simp only [exec, execOwnFrameError, hline, hrun]
  rfl

/-- Fewer than sixteen errors in a row (R89). -/
theorem exec_ownFrameError_few (hline : s.lc.onLine = some f) (h : s.lc.errRun < 15) :
    exec .ownFrameError s = .next (transmissionFailed (s.onLC countFrameError)) := by
  rw [exec_ownFrameError hline, if_neg (by omega)]

end

/-- Settles O52. -/
theorem transmissionsLost : Obligations.TransmissionsLost := by
  intro i s retry counted
  refine ⟨fun hline => ?idle, fun f hline hbit => ?dominant, fun f hline hbit hw => ?lost, fun f hline hw hrun => ?failed,
    fun f hline hw hrun => ?listens, fun f e why hline he hw => ?withdrawn, fun hlisten => ?ends, fun hlisten => ?stopped⟩
  case idle =>
    constructor
    · simp only [exec, execArbitrationLost, hline]
    · simp [exec, execOwnFrameError, hline]
  case dominant => rw [exec_arbitrationLost i hline, if_neg (by rw [hbit]; decide)]
  case lost =>
    rw [exec_arbitrationLost i hline, if_pos hbit, transmissionFailed_retries hw]
    rfl
  case failed =>
    rw [exec_ownFrameError_few hline hrun, transmissionFailed_retries (s := s.onLC countFrameError) hw]
    rfl
  case listens =>
    rw [exec_ownFrameError hline, if_pos (by omega), transmissionFailed_retries (s := s.onLC countFrameError) hw]
    rfl
  case withdrawn =>
    intro waiting lost asks room ends
    have hasks : asks → ¬lost := fun h hlost => by
      rcases h.2 with h | h <;> simp [hlost.2] at h
    have hends : ∀ c, ends c (withdrawalAnswered why c s) := fun c => by
      refine ⟨fun hlost => ?_, fun hlost hrests => ?_, fun h hfull => ?_, fun p rest h hroom hnone hstart hq hp => ?_⟩
      · rw [withdrawalAnswered, if_pos hlost]
        rfl
      · rw [withdrawalAnswered, if_neg hlost, slotTest_rests (s := { s with lc := c }) hrests]
      · rw [withdrawalAnswered, if_neg (hasks h), slotTest_waits (s := { s with lc := c }) h (not_lt.1 hfull)]
      · rw [withdrawalAnswered, if_neg (hasks h),
          slotTest_arms (s := { s with lc := c }) h hroom hnone hstart hq hp]
    refine ⟨fun hbit => ⟨_, ?_, hends _⟩, fun hrun => ⟨_, ?_, hends _⟩⟩
    · rw [exec_arbitrationLost i hline, if_pos hbit, transmissionFailed_withdrawn he hw]
      rfl
    · rw [exec_ownFrameError_few hline hrun, transmissionFailed_withdrawn (s := s.onLC countFrameError) he hw]
      rfl
  case ends => simp only [exec, execListenOnlyEnd, Option.isSome_iff_ne_none.2 hlisten, if_true]; rfl
  case stopped => simp only [exec, execListenOnlyEnd, hlisten]; rfl

end Sys2Proof.Machine

/-! PROOFS. A frame of a peer updates its entry alone: what each kind leaves of the entry, and that a flag latched with it
stands whatever the report brings about (R98, R104 to R110, R112). -/

namespace Sys2Proof.Machine

open Sys2Proof

/-! ## A flag that stands -/

/-- A flag is set in the status word (R183). -/
def Flagged (f : Flag) (s : State) : Prop := flagSet s.cp.status f = true

section
variable {f : Flag} {s : State}

theorem Flagged.ite {p : Prop} [Decidable p] {a b : State} (ha : Flagged f a) (hb : Flagged f b) :
    Flagged f (if p then a else b) := by
  split <;> assumption

/-- What leaves the status word leaves the flag. -/
theorem Flagged.of_cp {t : State} (h : Flagged f s) (ht : t.cp = s.cp) : Flagged f t := by
  rwa [Flagged, ht]

protected theorem Flagged.latch {g : Flag} (h : Flagged f s) : Flagged f (latch g s) :=
  flagSet_latchWord_of_set _ f g h

theorem latch_flagged : Flagged f (latch f s) := flagSet_latchWord_same _ f

protected theorem Flagged.agree (h : Flagged f s) : Flagged f (agree s) := h.of_cp (by simp)

protected theorem Flagged.setStation {st : StationState} (h : Flagged f s) : Flagged f (setStation st s) := by
  have hstatus : (setStation st s).cp.status = s.cp.status := by
    simp only [Machine.setStation]
    (repeat' split) <;> simp
  rwa [Flagged, hstatus]

protected theorem Flagged.setEffState {st : StationState} (h : Flagged f s) : Flagged f (setEffState st s) :=
  .ite h h.setStation

protected theorem Flagged.enterCondemned (h : Flagged f s) : Flagged f (enterCondemned s) := by
  have hrecords : (changeCeiling .condemned none (dropPlan (releaseClaim (if s.vc.state = .cutting then
      order .stop ((discardQueue s).onPC fun p => { p with holds := HoldCauses.empty, timer := .stopped })
      else (discardQueue s).onPC fun p => { p with holds := HoldCauses.empty, timer := .stopped })))).cp = s.cp := by
    split <;> simp
  exact .setStation (.latch (Flagged.of_cp (t := changeCeiling .condemned none _) h hrecords))

protected theorem Flagged.condemnationFound (h : Flagged f s) : Flagged f (condemnationFound s) := by
  simp only [Machine.condemnationFound]
  split
  case h_1 | h_2 | h_3 | h_4 => exact h.enterCondemned
  case h_5 => exact .ite h h.enterCondemned
  case h_6 | h_7 | h_8 | h_9 => exact h

protected theorem Flagged.storeOutside {b : BuildResult} (h : Flagged f s) : Flagged f (storeOutside b s) := by
  cases b <;> exact h

protected theorem Flagged.applyBuild (h : Flagged f s) : Flagged f (applyBuild s) := by
  have hstored : Flagged f (Machine.storeOutside (buildResult false s) s) := h.storeOutside
  simp only [Machine.applyBuild]
  split
  · split
    · exact h
    · exact .setStation (h.of_cp (by simp))
    · exact .storeOutside (.latch (.setStation (h.of_cp (by simp))))
    · exact h.of_cp (by simp)
  · exact .ite hstored.setEffState.latch (.ite hstored.setEffState hstored)

protected theorem Flagged.build {fuel : Nat} (h : Flagged f s) : Flagged f (build fuel s) := by
  induction fuel generalizing s with
  | zero => exact h.applyBuild
  | succ n ih =>
    simp only [Machine.build]
    split
    · exact h.applyBuild
    · rename_i offer _
      have hoffer : Flagged f (offerCeiling offer s).1 := h.of_cp (by simp)
      split <;> rename_i heq <;> rw [heq] at hoffer
      · exact hoffer.condemnationFound
      · exact hoffer.applyBuild
      · exact ih (hoffer.of_cp (by simp))

protected theorem Flagged.targetsChanged (h : Flagged f s) : Flagged f (targetsChanged s) := by
  simp only [Machine.targetsChanged]
  split
  · exact h.build
  · exact .ite (.ite h h.build) h
  · exact .ite h.build h
  · exact h

protected theorem Flagged.firstPlan (h : Flagged f s) : Flagged f (firstPlan s) := by
  simp only [Machine.firstPlan]
  (repeat' split)
  · exact h
  · exact .agree (.setEffState (.storeOutside (h.of_cp (by simp))))
  · exact h

/-- A report to the RU clears no flag (R114). -/
protected theorem Flagged.ruReport {told : Bool} {before : List ViewEntry} (h : Flagged f s) :
    Flagged f (ruReport told before s) := by
  have hreplanned : Flagged f (replan s).1 := h.of_cp (by simp)
  have hplans : Flagged f (ruPlans before s) := by
    simp only [ruPlans]
    (repeat' split)
    · exact h.firstPlan
    · exact .ite hreplanned.targetsChanged hreplanned
    · exact h
    · exact h
  exact .ite (hplans.of_cp (by simp)) (.ite (h.of_cp (by simp)) h)

end

/-! ## The entry of the sender -/

section
variable (e : PeerEntry)

@[simp] theorem touchPeer_station : (touchPeer e).station = e.station := rfl

theorem restartFound_iff (e : PeerEntry) (n : Nat) :
    restartFound e n = true ↔ ∃ c, e.ceiling = some c ∧ (n = 0 ∨ seqOlder n c.seq = true) := by
  cases hc : e.ceiling <;> simp [restartFound, hc]

/-- What a STATE leaves of its sender's entry (R105, R107, R108, R112). -/
theorem takeState_entry (p : PeerState) : (takeState p e).station = e.station ∧ (takeState p e).st = some p ∧
    (takeState p e).age = 0 ∧
    (restartFound e p.annCeiling = true → (takeState p e).freshness = .restarted ∧ (takeState p e).ceiling = none ∧
      (takeState p e).intent = none) ∧
    (restartFound e p.annCeiling = false → (takeState p e).ceiling = e.ceiling ∧
      (takeState p e).intent = (if p.annIntent = 0 then none else e.intent) ∧
      (takeState p e).freshness = (if e.freshness = .restarted then .restarted else .fresh)) ∧
    (p.digestMatch = false → (takeState p e).mismatchReported = true) := by
  have htouched : restartFound (touchPeer e) p.annCeiling = restartFound e p.annCeiling := rfl
  rw [takeState, htouched]
  cases restartFound e p.annCeiling
  · by_cases hi : p.annIntent = 0 <;> cases p.digestMatch <;> simp [touchPeer, hi]
  · cases p.digestMatch <;> simp [touchPeer, markRestarted]

theorem takeCeilingFrame_eq (c : StoredCeiling) [Decidable (e.freshness = .restarted ∨
    ∀ old, e.ceiling = some old → seqNewer c.seq old.seq = true)] :
    takeCeilingFrame c e = { e with
      age := 0, freshness := .fresh
      ceiling := if e.freshness = .restarted ∨ ∀ old, e.ceiling = some old → seqNewer c.seq old.seq = true
        then some c else e.ceiling } := by
  by_cases hr : e.freshness = .restarted
  · simp [takeCeilingFrame, touchPeer, hr]
  · by_cases hnew : ∀ old, e.ceiling = some old → seqNewer c.seq old.seq = true
    · simp only [if_pos (Or.inr hnew)]
      cases hc : e.ceiling <;> simp_all [takeCeilingFrame, touchPeer]
    · simp only [hr, hnew, or_false, if_false]
      cases hc : e.ceiling <;> simp_all [takeCeilingFrame, touchPeer]

theorem takeIntentFrame_eq (i : Intent) [Decidable (∀ old, e.intent = some old → seqNewer i.seq old.seq = true)] :
    takeIntentFrame i e = { e with
      age := 0, freshness := if e.freshness = .restarted then .restarted else .fresh
      intent := if ∀ old, e.intent = some old → seqNewer i.seq old.seq = true then some i else e.intent } := by
  by_cases hnew : ∀ old, e.intent = some old → seqNewer i.seq old.seq = true
  · simp only [if_pos hnew]
    cases hi : e.intent <;> simp_all [takeIntentFrame, intentTaken, touchPeer]
  · simp only [if_neg hnew]
    cases hi : e.intent <;> simp_all [takeIntentFrame, intentTaken, touchPeer]

end

/-! ## Delivery -/

/-- A good frame of another station is delivered (R97, R98). -/
theorem receive_other {k : FrameKind} {f : LinkFrame} {deliver : State → State} {s : State} (hg : goodAs k f = true)
    (hf : f.station ≠ ownStation s) : receive k f deliver s = deliver s := by
  rw [receive, if_neg (by rw [hg]; decide), if_neg hf]

/-- An entry put in a table is the one its station finds, and every other station finds what it found (R102). -/
theorem findPeer_putPeer {n : Fin 16} {e : PeerEntry} (he : e.station = n) (t : List PeerEntry) :
    findPeer n (putPeer e t) = some e ∧ ∀ m, m ≠ n → findPeer m (putPeer e t) = findPeer m t := by
  subst he
  exact ⟨findPeer_putPeer_same e t, findPeer_putPeer_other e t⟩

theorem deliverState_peers (n : Fin 16) (p : PeerState) (s : State) :
    (deliverState n p s).peers = putPeer (takeState p (entryOf n s)) s.peers := by
  simp only [deliverState]
  (repeat' split) <;> simp

/-- A mismatch that is reported latches its flag (R112). -/
theorem deliverState_flagged (n : Fin 16) (p : PeerState) (s : State) (hm : p.digestMatch = false)
    (he : (entryOf n s).mismatchReported = false) : Flagged .configMismatch (deliverState n p s) := by
  have hlatches : mismatchLatches p (entryOf n s) = true := by simp [mismatchLatches, hm, he]
  have hlatched : Flagged .configMismatch
      (latch .configMismatch (s.onPeers (putPeer (takeState p (entryOf n s))))) := latch_flagged
  simp only [deliverState, hlatches, if_true]
  refine .ruReport ?_
  (repeat' split) <;> exact hlatched.of_cp (by simp)

/-- Settles O53. -/
theorem peerFramesUpdateTheirEntry : Obligations.PeerFramesUpdateTheirEntry := by
  intro f s hf e others
  have hstation : e.station = f.station := entryOf_station f.station s
  refine ⟨fun p hg hread => ?state, fun c hg hread => ?ceiling, fun i hg hread => ?intent⟩
  case state =>
    intro restart
    obtain ⟨hst, hfields, hage, hrestart, hkept, hmismatch⟩ := takeState_entry e p
    have hiff : restartFound e p.annCeiling = true ↔ restart := restartFound_iff e p.annCeiling
    have hdeliver : exec (.stateReceived f) s = .next (deliverState f.station p s) := by
      simp only [exec, execStateReceived, receive_other hg hf, hread]
    have hpeers := deliverState_peers f.station p s
    obtain ⟨hfind, hothers⟩ := findPeer_putPeer (hst.trans hstation) s.peers
    exact ⟨_, takeState p e, hdeliver, fun m hm => (congrArg _ hpeers).trans (hothers m hm),
      (congrArg _ hpeers).trans hfind, hfields, hage, fun h => hrestart (hiff.2 h),
      fun h => hkept (Bool.not_eq_true _ ▸ mt hiff.1 h),
      fun hm => ⟨hmismatch hm, fun he => deliverState_flagged f.station p s hm he⟩⟩
  case ceiling =>
    intro takes
    have hdeliver : exec (.ceilingReceived f) s = .next (deliverCeiling f.station c s) := by
      simp only [exec, execCeilingReceived, receive_other hg hf, hread]
    have hpeers : (deliverCeiling f.station c s).peers = putPeer (takeCeilingFrame c e) s.peers := by
      simp [deliverCeiling]
      rfl
    rw [takeCeilingFrame_eq] at hpeers
    obtain ⟨hfind, hothers⟩ := findPeer_putPeer (e := { e with
      age := 0, freshness := .fresh, ceiling := if takes then some c else e.ceiling }) hstation s.peers
    exact ⟨_, hdeliver, fun m hm => (congrArg _ hpeers).trans (hothers m hm), (congrArg _ hpeers).trans hfind⟩
  case intent =>
    intro takes
    have hdeliver : exec (.intentReceived f) s = .next (deliverIntent f.station i s) := by
      simp only [exec, execIntentReceived, receive_other hg hf, hread]
    have hpeers : (deliverIntent f.station i s).peers = putPeer (takeIntentFrame i e) s.peers := by
      simp [deliverIntent]
      rfl
    rw [takeIntentFrame_eq] at hpeers
    obtain ⟨hfind, hothers⟩ := findPeer_putPeer (e := { e with
      age := 0, freshness := if e.freshness = .restarted then .restarted else .fresh
      intent := if takes then some i else e.intent }) hstation s.peers
    exact ⟨_, hdeliver, fun m hm => (congrArg _ hpeers).trans (hothers m hm), (congrArg _ hpeers).trans hfind⟩

end Sys2Proof.Machine

/-! PROOFS. CLAIM and RELEASE of other stations: the sender's entry touched, which no finding reads, the claim list, and the
reservation lost or armed (R105, R111, R161, R163, R165). -/

namespace Sys2Proof.Machine

open Sys2Proof

/-! ## An entry touched -/

/-- An entry is put in the place of the one found, or beside those that stand (R102). -/
theorem putPeer_cases (e : PeerEntry) (t : List PeerEntry) :
    (∃ l₁ x l₂, t = l₁ ++ x :: l₂ ∧ putPeer e t = l₁ ++ e :: l₂ ∧ findPeer e.station t = some x) ∨
      ∃ l₁ l₂, t = l₁ ++ l₂ ∧ putPeer e t = l₁ ++ e :: l₂ := by
  induction t with
  | nil => exact .inr ⟨[], [], rfl, rfl⟩
  | cons h t ih =>
    by_cases hlt : h.station < e.station
    · have hput : putPeer e (h :: t) = h :: putPeer e t := if_pos hlt
      have hfind : findPeer e.station (h :: t) = findPeer e.station t := by
        simp [findPeer, ne_of_lt hlt]
      rw [hput, hfind]
      rcases ih with ⟨l₁, x, l₂, ht, hp, hx⟩ | ⟨l₁, l₂, ht, hp⟩
      · exact .inl ⟨h :: l₁, x, l₂, congrArg _ ht, congrArg _ hp, hx⟩
      · exact .inr ⟨h :: l₁, l₂, congrArg _ ht, congrArg _ hp⟩
    · by_cases heq : h.station = e.station
      · exact .inl ⟨[], h, t, rfl, by simp [putPeer, heq], by simp [findPeer, heq]⟩
      · exact .inr ⟨[], h :: t, rfl, by simp [putPeer, hlt, heq]⟩

/-- Whether an entry is in the view is read of its STATE alone (R113, R114). -/
theorem viewEntry_isSome {car : Fin 16} {e e' : PeerEntry} (hst : e'.st = e.st) :
    (viewEntry car e').isSome = (viewEntry car e).isSome := by
  simp only [viewEntry, hst]
  split
  · split <;> rfl
  · rfl

/-- Two views of one STATE that report the same are checked the same (R114, R131). -/
theorem checkKey_eq_of_reportKey_eq {car : Fin 16} {e e' : PeerEntry} {x x' : ViewEntry}
    (hx : viewEntry car e = some x) (hx' : viewEntry car e' = some x') (hst : e'.st = e.st)
    (hkey : reportKey x = reportKey x') : checkKey x = checkKey x' := by
  obtain ⟨-, -, p, hp, hbogie, hstatus⟩ := viewEntry_state hx
  obtain ⟨-, -, p', hp', hbogie', hstatus'⟩ := viewEntry_state hx'
  obtain rfl : p' = p := Option.some.inj (hp'.symm.trans (hst.trans hp))
  simp only [reportKey, ReportKey.mk.injEq] at hkey
  obtain ⟨hstation, hname, -⟩ := hkey
  have hmember : x.cls = .member ↔ x'.cls = .member := by
    cases h : x.cls <;> cases h' : x'.cls <;> simp_all [PeerClass.name]
  simp only [checkKey, hmember, hstation, hbogie, hbogie', hstatus, hstatus']

section
variable {n : Fin 16} {s : State}

/-- A touched entry that changes nothing reported changes nothing that the findings read (R105, R114, R131). -/
theorem touched_unchecked
    (h : (groupView s).map reportKey =
      (groupView { s with peers := putPeer (touchPeer (entryOf n s)) s.peers }).map reportKey) :
    (groupView s).map checkKey =
      (groupView { s with peers := putPeer (touchPeer (entryOf n s)) s.peers }).map checkKey := by
  simp only [groupView] at h ⊢
  rcases putPeer_cases (touchPeer (entryOf n s)) s.peers with ⟨l₁, x, l₂, ht, hp, hfind⟩ | ⟨l₁, l₂, ht, hp⟩
  · have hentry : entryOf n s = x := by
      rw [touchPeer_station, entryOf_station] at hfind
      rw [entryOf, hfind]
      rfl
    rw [hp, hentry, ht] at h ⊢
    have hseen := viewEntry_isSome (car := s.ss.straps.car) (e := x) (e' := touchPeer x) rfl
    rcases hx : viewEntry s.ss.straps.car x with _ | y <;>
      rcases hx' : viewEntry s.ss.straps.car (touchPeer x) with _ | y'
    · simp [hx, hx']
    · simp [hx, hx'] at hseen
    · simp [hx, hx'] at hseen
    · simp only [List.filterMap_append, List.filterMap_cons, hx, hx', List.map_append, List.map_cons,
        List.append_cancel_left_eq, List.cons.injEq, and_true] at h ⊢
      exact checkKey_eq_of_reportKey_eq hx hx' rfl h
  · rw [hp, ht] at h ⊢
    rcases hx' : viewEntry s.ss.straps.car (touchPeer (entryOf n s)) with _ | y'
    · simp [hx']
    · have hlen := congrArg List.length h
      simp [hx'] at hlen

/-- A touched entry that changes nothing reported is reported to nobody (R105, R114). -/
theorem ruReport_touched {t : State}
    (h : (groupView s).map reportKey =
      (groupView { s with peers := putPeer (touchPeer (entryOf n s)) s.peers }).map reportKey)
    (hpeers : t.peers = putPeer (touchPeer (entryOf n s)) s.peers) (hss : t.ss = s.ss) :
    ruReport false (groupView s) t = t := by
  have hview : groupView t = groupView { s with peers := putPeer (touchPeer (entryOf n s)) s.peers } := by
    simp only [groupView, hpeers, hss]
  rw [ruReport, hview, if_neg (by simp [h]), if_neg (not_not_intro (touched_unchecked h))]

end

/-! ## The claim list -/

section
variable {n : Fin 16} {s : State}

theorem withoutClaim_eq_self_iff (cs : List Claim) :
    withoutClaim n cs = cs ↔ ¬(cs.any fun c => c.station == n) = true := by
  simp [withoutClaim, List.filter_eq_self]

/-- No removal, no test (R163). -/
theorem removePeerClaim_absent (h : withoutClaim n s.scu.claims = s.scu.claims) : removePeerClaim n s = s :=
  if_neg ((withoutClaim_eq_self_iff _).1 h)

/-- Outside WAITING a removal is all (R161, R163). -/
theorem removePeerClaim_untested (h : s.scu.slot ≠ .waiting) :
    removePeerClaim n s = { s with scu := { s.scu with claims := withoutClaim n s.scu.claims } } := by
  by_cases hself : withoutClaim n s.scu.claims = s.scu.claims
  · rw [removePeerClaim_absent hself, hself]
  · rw [removePeerClaim, if_pos (not_not.1 (mt (withoutClaim_eq_self_iff _).2 hself)), if_neg (by exact h)]
    rfl

/-- In WAITING a removal repeats the test (R163). -/
theorem removePeerClaim_tested (hself : withoutClaim n s.scu.claims ≠ s.scu.claims) (h : s.scu.slot = .waiting) :
    removePeerClaim n s = slotTest { s with scu := { s.scu with claims := withoutClaim n s.scu.claims } } := by
  rw [removePeerClaim, if_pos (not_not.1 (mt (withoutClaim_eq_self_iff _).2 hself)), if_pos (by exact h)]
  rfl

/-- The claim list once a CLAIM of a station is heard (R161). -/
def claimsHeardOf (n : Fin 16) (pass : Nat) (cs : List Claim) : List Claim :=
  if cs.any (fun c => c.station == n) then cs.map fun c => if c.station = n then { c with pass := some pass } else c
  else cs ++ [⟨n, some pass⟩]

end

/-! ## A reservation lost -/

section
variable {s : State} {c : LC}

theorem reservationLost_unarmed (h : s.scu.slot ≠ .armed) : reservationLost s = s := if_neg fun hl => h hl.1

/-- No loss of the reservation waits yet for the CLAIM on the line (R96, R165). -/
def NoLossWaits (c : LC) : Prop := ∀ x ∈ c.queue, x.frame.kindCode = 1 → x.withdraw ≠ some .lost

theorem noLossWaits_iff (c : LC) :
    NoLossWaits c ↔ (c.queue.any fun e => isClaimEntry e && e.withdraw == some .lost) = false := by
  simp [NoLossWaits, isClaimEntry]

/-- A withdrawn CLAIM takes the reservation to BACKOFF (R165). -/
theorem reservationLost_withdrawn (harmed : s.scu.slot = .armed) (hno : NoLossWaits s.lc)
    (h : lcWithdraw .lost s.lc = (c, .withdrawn)) :
    reservationLost s = { s with
      lc := c
      scu := { s.scu with
        lost := min 255 (s.scu.lost + 1), slot := .backoff, claimPass := none
        backoff := some (((ownStation s).val + 1) * 20000) } } := by
  rw [reservationLost, if_pos ⟨harmed, (noLossWaits_iff _).1 hno⟩, h]
  rfl

/-- A CLAIM on the line keeps the reservation until its transmission ends (R96). -/
theorem reservationLost_waits (harmed : s.scu.slot = .armed) (hno : NoLossWaits s.lc)
    (h : lcWithdraw .lost s.lc = (c, .waits)) :
    reservationLost s = { s with lc := c, scu := { s.scu with lost := min 255 (s.scu.lost + 1) } } := by
  rw [reservationLost, if_pos ⟨harmed, (noLossWaits_iff _).1 hno⟩, h]
  rfl

/-- A queued CLAIM that is not on the line leaves the queue (R96). -/
theorem lcWithdraw_queued (why : Withdraw) (hs : c.silenced = false)
    (h : ∃ x ∈ c.queue, x.frame.kindCode = 1 ∧ x.tx = false) :
    lcWithdraw why c = (lcRefill { c with queue := queueErase (fun e => isClaimEntry e && !e.tx) c.queue },
      .withdrawn) := by
  rw [lcWithdraw, if_neg (by simp [hs]), if_pos (by simpa [isClaimEntry] using h)]

/-- A CLAIM on the line is withdrawn at the end of its transmission (R96). -/
theorem lcWithdraw_onLine (why : Withdraw) (hs : c.silenced = false) (h : ∃ x ∈ c.queue, x.frame.kindCode = 1)
    (htx : ∀ x ∈ c.queue, x.frame.kindCode = 1 → x.tx = true) :
    lcWithdraw why c = ({ c with queue := c.queue.map fun x =>
      if x.frame.kindCode = 1 then { x with withdraw := some why } else x }, .waits) := by
  rw [lcWithdraw, if_neg (by simp [hs]), if_neg (by simpa [isClaimEntry] using htx),
    if_pos (by simpa [isClaimEntry] using h)]
  simp [isClaimEntry]

/-- A CLAIM in the overflow position leaves it (R95, R96). -/
theorem lcWithdraw_overflow (why : Withdraw) {k : Nat} (hs : c.silenced = false)
    (h : ∀ x ∈ c.queue, x.frame.kindCode ≠ 1) (ho : c.overflow = some (.claim k)) :
    lcWithdraw why c = ({ c with overflow := none }, .withdrawn) := by
  have hnone : ∀ x ∈ c.queue, isClaimEntry x = false := by simpa [isClaimEntry] using h
  rw [lcWithdraw, if_neg (by simp [hs]), if_neg (by simpa using fun x hx hc => absurd hc (by simp [hnone x hx])),
    if_neg (by simpa using hnone), ho]

end

/-! ## Delivery of a CLAIM and a RELEASE -/

section
variable {f : LinkFrame} {n : Nat} {s : State}

/-- The state with the sender's entry touched (R105). -/
def touched (f : LinkFrame) (s : State) : State :=
  { s with peers := putPeer (touchPeer (entryOf f.station s)) s.peers }

/-- The sender's entry touched and its CLAIM in the list, before the reservation is looked at (R161). -/
def claimListed (f : LinkFrame) (n : Nat) (s : State) : State :=
  { touched f s with scu := { s.scu with claims := claimsHeardOf f.station n s.scu.claims } }

/-- The sender's entry touched and its claim out of the list, before the test (R161). -/
def claimRemoved (f : LinkFrame) (s : State) : State :=
  { touched f s with scu := { s.scu with claims := withoutClaim f.station s.scu.claims } }

theorem exec_claimReceived (hg : goodAs .claim f = true) (hf : f.station ≠ ownStation s)
    (hread : readPass f.payload = some n) :
    exec (.claimReceived f) s = .next (ruReport false (groupView s) (reservationLost (claimListed f n s))) := by
  simp only [exec, execClaimReceived, receive_other hg hf, hread]
  rfl

theorem exec_releaseReceived (hg : goodAs .release f = true) (hf : f.station ≠ ownStation s) :
    exec (.releaseReceived f) s = .next (ruReport false (groupView s) (removePeerClaim f.station (touched f s))) := by
  simp only [exec, execReleaseReceived, receive_other hg hf]
  rfl

theorem exec_claimReceived_unreported (hg : goodAs .claim f = true) (hf : f.station ≠ ownStation s)
    (hread : readPass f.payload = some n)
    (hsame : (groupView s).map reportKey = (groupView (touched f s)).map reportKey) :
    exec (.claimReceived f) s = .next (reservationLost (claimListed f n s)) := by
  rw [exec_claimReceived hg hf hread,
    ruReport_touched hsame (by simp [claimListed, touched]) (by simp [claimListed, touched])]

theorem exec_releaseReceived_unreported (hg : goodAs .release f = true) (hf : f.station ≠ ownStation s)
    (hsame : (groupView s).map reportKey = (groupView (touched f s)).map reportKey) :
    exec (.releaseReceived f) s = .next (removePeerClaim f.station (touched f s)) := by
  rw [exec_releaseReceived hg hf, ruReport_touched hsame (by simp [touched]) (by simp [touched])]

theorem keepsBut_removePeerClaim_touched :
    KeepsBut [.peers, .scu, .lc] s (removePeerClaim f.station (touched f s)) := by
  intro b hb
  cases b <;> simp_all [Block.same, touched]

/-- Only the claim list moves with the touched entry (R161). -/
theorem keepsBut_touched (u : SCU) : KeepsBut [.peers, .scu] s { touched f s with scu := u } := by
  intro b hb
  cases b <;> simp_all [Block.same, touched]

end

/-- Settles O55. -/
theorem claimsHeard : Obligations.ClaimsHeard := by
  intro f n s hf hread e e' entryAfter same
  have hentry : ∀ t : State, t.peers = (touched f s).peers → entryAfter t := fun t ht => by
    obtain ⟨hfind, hothers⟩ := findPeer_putPeer (e := e') (entryOf_station f.station s) s.peers
    exact ⟨(congrArg _ ht).trans hfind, fun m hm => (congrArg _ ht).trans (hothers m hm)⟩
  refine ⟨fun hg => ⟨_, exec_claimReceived hg hf hread, hentry _ (by simp [claimListed])⟩,
    fun hg => ⟨_, exec_releaseReceived hg hf, hentry _ (by simp)⟩, fun hg hsame hslot => ?unarmed,
    fun hg hsame harmed hs hex hno => ?withdrawn, fun hg hsame harmed hs => ?lost, fun hg hsame hslot => ?released,
    fun hg hsame hslot hask => ?waiting⟩
  case unarmed =>
    refine ⟨_, exec_claimReceived_unreported hg hf hread hsame, ?_⟩
    rw [reservationLost_unarmed (s := claimListed f n s) hslot]
    exact ⟨keepsBut_touched _, rfl⟩
  case withdrawn =>
    refine ⟨_, exec_claimReceived_unreported hg hf hread hsame, ?_⟩
    rw [reservationLost_withdrawn (s := claimListed f n s) harmed (fun x hx _ => hno x hx)
      (lcWithdraw_queued .lost hs hex)]
    exact ⟨rfl, rfl, rfl, rfl, rfl⟩
  case lost =>
    intro lost
    refine ⟨fun hex hall => ?_, fun k hnone ho => ?_⟩
    · rw [exec_claimReceived_unreported hg hf hread hsame,
        reservationLost_waits (s := claimListed f n s) harmed (fun x hx hk => (hall x hx hk).2)
          (lcWithdraw_onLine .lost hs hex fun x hx hk => (hall x hx hk).1)]
      rfl
    · rw [exec_claimReceived_unreported hg hf hread hsame,
        reservationLost_withdrawn (s := claimListed f n s) harmed (fun x hx hk => absurd hk (hnone x hx))
          (lcWithdraw_overflow .lost hs hnone ho)]
      rfl
  case released =>
    refine ⟨_, exec_releaseReceived_unreported hg hf hsame, ?_⟩
    rw [removePeerClaim_untested (by exact hslot)]
    exact ⟨keepsBut_touched _, rfl⟩
  case waiting =>
    refine ⟨_, exec_releaseReceived_unreported hg hf hsame, keepsBut_removePeerClaim_touched, ?_⟩
    intro left
    have hwaits : s.scu.ask = true ∧ (s.scu.slot = .none ∨ s.scu.slot = .waiting) := ⟨hask, .inr hslot⟩
    have htested : left ≠ s.scu.claims → removePeerClaim f.station (touched f s) = slotTest (claimRemoved f s) := fun h =>
      removePeerClaim_tested (s := touched f s) h hslot
    refine ⟨fun hstands => ?_, fun p rest hgone hroom hnone hcutting hq hp => ?_⟩
    · by_cases hself : left = s.scu.claims
      · rw [removePeerClaim_absent (s := touched f s) hself]
        exact ⟨congrArg (fun cs => { s.scu with claims := cs }) hself.symm, rfl⟩
      · rw [htested hself]
        by_cases hfull : (conf s).slots ≤ left.length
        · rw [slotTest_waits (s := claimRemoved f s) hwaits hfull]
          exact ⟨congrArg (fun slot => { s.scu with claims := left, slot := slot }) hslot.symm, rfl⟩
        · have hqueued := (hstands.resolve_left hself).resolve_left hfull
          rw [slotTest_rests (s := claimRemoved f s) (.inr ⟨not_le.1 hfull, hqueued⟩)]
          exact ⟨rfl, rfl⟩
    · have hstart : s.vc.state ≠ .start := by simp [hcutting]
      rw [htested hgone, slotTest_arms (s := claimRemoved f s) hwaits hroom hnone hstart hq hp]
      exact ⟨rfl, rfl⟩

end Sys2Proof.Machine

/-! PROOFS. Wrap order, and the peer table kept by every command: one entry a station, in station order, none of the own
number (R102, R104, R106). -/

namespace Sys2Proof.Machine

open Sys2Proof

/-! ## Wrap order -/

/-- The difference of two sequences of at most 255, in the naturals (R106). -/
theorem seqDiff_eq (a : Nat) {b : Nat} (hb : b ≤ 255) : seqDiff a b = (a + 255 - b) % 255 := by
  unfold seqDiff
  omega

theorem seqDiff_lt (a b : Nat) : seqDiff a b < 255 := by
  unfold seqDiff
  omega

/-- The differences of two unequal sequences, each way round, make up one turn (R106). -/
theorem seqDiff_add_swap {a b : Nat} (ha : 1 ≤ a ∧ a ≤ 255) (hb : 1 ≤ b ∧ b ≤ 255) (hne : a ≠ b) :
    seqDiff a b + seqDiff b a = 255 := by
  rw [seqDiff_eq a hb.2, seqDiff_eq b ha.2]
  omega

theorem seqDiff_self (a : Nat) : seqDiff a a = 0 := by simp [seqDiff]

theorem seqNewer_iff (a b : Nat) : seqNewer a b = true ↔ 1 ≤ seqDiff a b ∧ seqDiff a b ≤ 127 := by
  simp [seqNewer]

theorem seqOlder_iff (a b : Nat) : seqOlder a b = true ↔ 128 ≤ seqDiff a b ∧ seqDiff a b ≤ 254 := by
  have hlt := seqDiff_lt a b
  simp only [seqOlder, decide_eq_true_eq]
  omega

/-- Older is newer the other way round (R106). -/
theorem seqOlder_eq_swap {a b : Nat} (ha : 1 ≤ a ∧ a ≤ 255) (hb : 1 ≤ b ∧ b ≤ 255) :
    seqOlder a b = seqNewer b a := by
  rw [Bool.eq_iff_iff, seqOlder_iff, seqNewer_iff]
  by_cases hne : a = b
  · subst hne
    simp [seqDiff_self]
  · have hturn := seqDiff_add_swap ha hb hne
    omega

/-- Of two unequal sequences one is the newer (R106). -/
theorem seqNewer_eq_not_older {a b : Nat} (ha : 1 ≤ a ∧ a ≤ 255) (hb : 1 ≤ b ∧ b ≤ 255) (hne : a ≠ b) :
    seqNewer a b = !seqOlder a b := by
  have hturn := seqDiff_add_swap ha hb hne
  have hforth := seqDiff_lt a b
  have hback := seqDiff_lt b a
  rw [Bool.eq_iff_iff, Bool.not_eq_true', ← Bool.not_eq_true, seqNewer_iff, seqOlder_iff]
  omega

/-- The sequence that follows is one ahead, also across the wrap (R76, R92, R106). -/
theorem seqDiff_nextSeq {a : Nat} (ha : a ≤ 255) : seqDiff (nextSeq a) a = 1 := by
  rw [seqDiff_eq _ ha, nextSeq]
  omega

/-- Settles O20, by the difference of the two sequences and its sum with the difference the other way round. -/
theorem sequenceWrapOrder : Obligations.SequenceWrapOrder := by
  intro a b ha ha' hb hb'
  refine ⟨seqDiff_eq a hb', seqNewer_iff a b, seqOlder_iff a b, seqOlder_eq_swap ⟨ha, ha'⟩ ⟨hb, hb'⟩, fun hab => ?equal,
    seqNewer_eq_not_older ⟨ha, ha'⟩ ⟨hb, hb'⟩, ?next, ?ahead⟩
  case equal =>
    subst hab
    simp [seqNewer, seqOlder, seqDiff_self]
  case next =>
    unfold nextSeq
    split <;> omega
  case ahead => simp [seqNewer_iff, seqDiff_nextSeq ha']

/-! ## What a command does to the table -/

theorem takeCeilingFrame_station (c : StoredCeiling) (e : PeerEntry) : (takeCeilingFrame c e).station = e.station := by
  simp only [takeCeilingFrame]
  (repeat' split) <;> rfl

theorem takeIntentFrame_station (i : Intent) (e : PeerEntry) : (takeIntentFrame i e).station = e.station := by
  simp only [takeIntentFrame]
  split <;> rfl

theorem deliverCeiling_peers (n : Fin 16) (c : StoredCeiling) (s : State) :
    (deliverCeiling n c s).peers = putPeer (takeCeilingFrame c (entryOf n s)) s.peers := by
  simp [deliverCeiling]

theorem deliverIntent_peers (n : Fin 16) (i : Intent) (s : State) :
    (deliverIntent n i s).peers = putPeer (takeIntentFrame i (entryOf n s)) s.peers := by
  simp [deliverIntent]

theorem deliverClaim_peers (n : Fin 16) (pass : Nat) (s : State) :
    (deliverClaim n pass s).peers = putPeer (touchPeer (entryOf n s)) s.peers := by
  simp [deliverClaim]

theorem deliverRelease_peers (n : Fin 16) (s : State) :
    (deliverRelease n s).peers = putPeer (touchPeer (entryOf n s)) s.peers := by
  simp [deliverRelease]

/-- Bytes of the cell port's line, a command they complete among them, leave the peer table (R180, R181). -/
theorem receiveBytes_peers (bs : List Byte) (s : State) : (receiveBytes bs s).peers = s.peers := by
  simp only [receiveBytes]
  (repeat' split) <;> simp

/-- The peer table stands as it was, or has one entry put in it, of another station than the own (R102, R104). -/
def PutsPeer (s t : State) : Prop :=
  t.peers = s.peers ∨ ∃ e, e.station ≠ ownStation s ∧ t.peers = putPeer e s.peers

section
variable {s t : State}

protected theorem PutsPeer.ite {p : Prop} [Decidable p] {a b : State} (ha : PutsPeer s a) (hb : PutsPeer s b) :
    PutsPeer s (if p then a else b) := by
  split <;> assumption

/-- A frame received puts at most an entry of its sender, and none where it has the own number (R97 to R99, R104). -/
protected theorem PutsPeer.receive {k : FrameKind} {f : LinkFrame} {deliver : State → State}
    (h : (deliver s).peers = s.peers ∨ ∃ e, e.station = f.station ∧ (deliver s).peers = putPeer e s.peers) :
    PutsPeer s (receive k f deliver s) := by
  by_cases hf : f.station = ownStation s
  · simp only [Machine.receive, if_pos hf]
    exact .ite (.inl rfl) (.ite (.inl rfl) (.inl (by simp)))
  · simp only [Machine.receive, if_neg hf]
    exact .ite (.inl rfl) (h.imp_right fun ⟨e, he, hput⟩ => ⟨e, he ▸ hf, hput⟩)

theorem PutsPeer.inv (h : PutsPeer s t) (hs : PeersInv s) (hstraps : t.ss.straps = s.ss.straps) : PeersInv t := by
  obtain ⟨hsorted, hother⟩ := hs
  have hown : ownStation t = ownStation s := congrArg Straps.station hstraps
  rw [PeersInv, hown]
  rcases h with hsame | ⟨e, he, hput⟩
  · rw [hsame]
    exact ⟨hsorted, hother⟩
  · rw [hput]
    refine ⟨putPeer_sorted e _ hsorted, fun x hx => ?_⟩
    rcases mem_putPeer e x _ hx with rfl | hx
    · exact he
    · exact hother x hx

end

/-- The commands that may move the peer table: RESET, the good frames and the expiry of an age (R98, R104, R105,
R192). -/
def mayMovePeers : Instr → Bool
  | .reset _ _ _ | .stateReceived _ | .ceilingReceived _ | .intentReceived _ | .claimReceived _ | .releaseReceived _
  | .peerAgeExpiry _ => true
  | _ => false

/-- Every other command leaves the peer table as it stands (R98, R104, R105). -/
theorem exec_peers (c : Instr) (s t : State) (hc : mayMovePeers c = false) (he : exec c s = .next t) :
    t.peers = s.peers := by
  cases c with
  | reset | stateReceived | ceilingReceived | intentReceived | claimReceived | releaseReceived | peerAgeExpiry =>
    exact absurd hc (by simp [mayMovePeers])
  | visit p | measure p | cut p | hold p | resume p | feed p | withdraw p | release p | calibrate p | unlock p
  | writeSettings p | readSettings p | readStatus p | readResult p | readPeers p | readPasses p | settingsWriteDone
  | calibrationWriteDone | unlockTimerExpiry | rawInputChange =>
    injection he with he; subst he
    simp
  | discardedFrame | frameGapTimeout | debounceExpiry | homeTimerExpiry | encoderPulse | markLeadingEdge
  | markTrailingEdge | markTimerExpiry | driveTimerExpiry | listenOnlyEnd | receiveError | violationTimerExpiry
  | peerWaitTimerExpiry | backoffExpiry =>
    injection he with he; subst he
    simp [apply_ite State.peers, receiveBytes_peers]
  | announceTimerExpiry | watchdogExpiry | tracerReading | sweepEnd | sweepTimerExpiry | transmitStart
  | arbitrationLost | ownFrameError | frameSent | slideDone | slideFault | passTimerExpiry =>
    simp only [exec, execAnnounceTimerExpiry, execWatchdogExpiry, execTracerReading, execSweepEnd, execSweepTimerExpiry,
      execTransmitStart, execArbitrationLost, execOwnFrameError, execFrameSent, execSlideDone, execSlideFault,
      execPassTimerExpiry] at he
    split at he <;> injection he with he <;> subst he <;> simp [apply_ite State.peers]

/-- Every command but RESET leaves the peer table or puts one entry of another station in it (R97 to R99, R104, R105). -/
theorem exec_putsPeer (c : Instr) (s t : State) (hc : ∀ k p w, c ≠ .reset k p w) (hs : PeersInv s)
    (he : exec c s = .next t) : PutsPeer s t := by
  by_cases hm : mayMovePeers c = false
  · exact .inl (exec_peers c s t hm he)
  · cases c with
    | reset k p w => exact absurd rfl (hc k p w)
    | stateReceived f =>
      injection he with he; subst he
      refine .receive ?_
      split
      · rename_i p _
        exact .inr ⟨_, (takeState_entry _ p).1.trans (entryOf_station _ s), deliverState_peers _ p s⟩
      · exact .inl rfl
    | ceilingReceived f =>
      injection he with he; subst he
      refine .receive ?_
      split
      · exact .inr ⟨_, (takeCeilingFrame_station _ _).trans (entryOf_station _ s), deliverCeiling_peers _ _ s⟩
      · exact .inl rfl
    | intentReceived f =>
      injection he with he; subst he
      refine .receive ?_
      split
      · exact .inr ⟨_, (takeIntentFrame_station _ _).trans (entryOf_station _ s), deliverIntent_peers _ _ s⟩
      · exact .inl rfl
    | claimReceived f =>
      injection he with he; subst he
      refine .receive ?_
      split
      · exact .inr ⟨_, (touchPeer_station _).trans (entryOf_station _ s), deliverClaim_peers _ _ s⟩
      · exact .inl rfl
    | releaseReceived f =>
      injection he with he; subst he
      exact .receive (.inr ⟨_, (touchPeer_station _).trans (entryOf_station _ s), deliverRelease_peers _ s⟩)
    | peerAgeExpiry n =>
      simp only [exec, execPeerAgeExpiry] at he
      split at he <;> injection he with he <;> subst he
      · rename_i e hfind
        have hlisted : e ∈ s.peers := List.mem_of_find?_eq_some hfind
        exact .ite (.inl rfl) (.inr ⟨turnStale (staleAge s) e, hs.2 e hlisted, by simp⟩)
      · exact .inl rfl
    | _ => exact absurd rfl hm

/-- The straps stand until the next reset (R193). -/
theorem exec_straps {c : Instr} {s t : State} (hc : ∀ k p w, c ≠ .reset k p w) (he : exec c s = .next t) :
    t.ss.straps = s.ss.straps := by
  obtain ⟨-, hstraps, -⟩ := startValuesStandUntilReset c s t hc he
  exact hstraps

/-- The start sequence empties the table (R102, R192). -/
theorem start_peersInv (kind : ResetKind) (straps : Straps) (m : Image) (s : State) :
    PeersInv (start kind straps m s) := by
  simp [PeersInv, start]

/-- A microsecond ages the entries and leaves their stations (R105). -/
theorem tick_peersInv {s : State} (h : PeersInv s) : PeersInv (tick s) := by
  obtain ⟨hsorted, hother⟩ := h
  refine ⟨List.pairwise_map.2 hsorted, fun e he => ?_⟩
  obtain ⟨e', he', rfl⟩ := List.mem_map.1 he
  exact hother e' he'

/-- Settles O8: a reset empties the table, every other command puts at most the entry of another station in it, and a
microsecond leaves the stations of its entries. -/
theorem peerTableKeepsItsOrder : Obligations.PeerTableKeepsItsOrder := by
  intro s t h he
  simp only [step] at he
  split at he
  case h_1 c rest _ =>
    by_cases hc : ∃ k p w, c = .reset k p w
    · obtain ⟨k, p, w, rfl⟩ := hc
      injection he with he; subst he
      exact start_peersInv _ _ _ _
    · have hother : ∀ k p w, c ≠ .reset k p w := fun k p w e => hc ⟨k, p, w, e⟩
      exact (exec_putsPeer c { s with pending := rest } t hother h he).inv h (exec_straps hother he)
  case h_2 =>
    injection he with he; subst he
    exact tick_peersInv h

end Sys2Proof.Machine

/-! PROOFS. Silent peers and the wait timers: an entry turned STALE, its claim out of the list, the report that follows, and
each wait timer at its limit (R105, R115, R133, R134, R162, R163, R166). -/

namespace Sys2Proof.Machine

open Sys2Proof

/-! ## No report adds a claim -/

/-- The test of a slot reads the claim list and leaves it (R163). -/
@[simp] theorem slotTest_claims (s : State) : (slotTest s).scu.claims = s.scu.claims := by
  simp only [slotTest]
  (repeat' split) <;> simp

@[simp] theorem slotAsk_claims (s : State) : (slotAsk s).scu.claims = s.scu.claims := by
  simp only [slotAsk]
  split <;> simp

/-- A slot or a reservation given up takes at most the own claim out of the list (R168). -/
theorem releaseClaim_claims {s a : State} (ha : a.scu = s.scu) :
    (releaseClaim a).scu.claims.Sublist s.scu.claims := by
  simp only [releaseClaim, removeOwnClaim, withoutClaim]
  (repeat' split) <;> simp [ha]

theorem slotHead_claims (s : State) : (slotHead s).scu.claims.Sublist s.scu.claims := by
  simp only [slotHead]
  split
  · exact .refl _
  · exact releaseClaim_claims rfl

/-- A peer's claim removed, tested or not (R161 to R163). -/
@[simp] theorem removePeerClaim_claims (n : Fin 16) (s : State) :
    (removePeerClaim n s).scu.claims = withoutClaim n s.scu.claims := by
  by_cases hself : withoutClaim n s.scu.claims = s.scu.claims
  · rw [removePeerClaim_absent hself, hself]
  · by_cases hslot : s.scu.slot = .waiting
    · rw [removePeerClaim_tested hself hslot, slotTest_claims]
    · rw [removePeerClaim_untested hslot]

theorem enterCondemned_claims (s : State) : (enterCondemned s).scu.claims.Sublist s.scu.claims := by
  simp only [enterCondemned, setStation_frame, latch_frame, State.onVC_scu, changeCeiling_frame, dropPlan_frame]
  exact releaseClaim_claims (by split <;> simp)

theorem condemnationFound_claims (s : State) : (condemnationFound s).scu.claims.Sublist s.scu.claims := by
  simp only [condemnationFound]
  split
  case h_1 | h_2 | h_3 | h_4 => exact enterCondemned_claims s
  case h_5 =>
    split
    · exact .refl _
    · exact enterCondemned_claims s
  case h_6 | h_7 | h_8 | h_9 => exact .refl _

theorem applyBuild_claims (s : State) : (applyBuild s).scu.claims.Sublist s.scu.claims := by
  simp only [applyBuild]
  split
  · split
    · exact .refl _
    · simp only [enterFinished, setStation_frame]
      exact releaseClaim_claims (by simp)
    · simp only [deepToReady, storeOutside_frame, latch_frame, setStation_frame]
      exact releaseClaim_claims (by simp)
    · exact slotHead_claims _
  · (repeat' split) <;> simp

theorem build_claims (fuel : Nat) (s : State) : (build fuel s).scu.claims.Sublist s.scu.claims := by
  induction fuel generalizing s with
  | zero => exact applyBuild_claims s
  | succ n ih =>
    simp only [build]
    split
    · exact applyBuild_claims s
    · rename_i offer _
      have hoffer : (offerCeiling offer s).1.scu = s.scu := by simp
      split <;> rename_i heq <;> rw [heq] at hoffer <;> rw [← hoffer]
      · exact condemnationFound_claims _
      · exact applyBuild_claims _
      · simpa using ih (replan _).1

theorem targetsChanged_claims (s : State) : (targetsChanged s).scu.claims.Sublist s.scu.claims := by
  simp only [targetsChanged]
  (repeat' split)
  · exact build_claims _ s
  · exact .refl _
  · exact build_claims _ s
  · exact .refl _
  · exact build_claims _ s
  · exact .refl _
  · exact .refl _

@[simp] theorem settle_claims (s : State) : (settle s).scu.claims = s.scu.claims := by
  simp only [settle, tryStart]
  (repeat' split) <;> simp

theorem ruPlans_claims (before : List ViewEntry) (s : State) :
    (ruPlans before s).scu.claims.Sublist s.scu.claims := by
  simp only [ruPlans, handTargets]
  (repeat' split)
  · simp
  · simpa using targetsChanged_claims (replan s).1
  · simp
  · exact .refl _
  · exact .refl _

/-- A report to the RU adds no claim to the list (R114, R159). -/
theorem ruReport_claims (told : Bool) (before : List ViewEntry) (s : State) :
    (ruReport told before s).scu.claims.Sublist s.scu.claims := by
  simp only [ruReport]
  (repeat' split)
  · simpa using ruPlans_claims before s
  · simp
  · exact .refl _

/-! ## An entry turned STALE -/

section
variable {n : Fin 16} {e : PeerEntry} {s : State}

/-- An entry put in the place of one outside the own car, and outside it too, leaves the group view (R113, R114). -/
theorem groupView_putPeer_outside {e' : PeerEntry} {t : List PeerEntry} {car : Fin 16}
    (hfind : findPeer e'.station t = some e) (hout : viewEntry car e = none) (hout' : viewEntry car e' = none) :
    (putPeer e' t).filterMap (viewEntry car) = t.filterMap (viewEntry car) := by
  rcases putPeer_cases e' t with ⟨l₁, x, l₂, ht, hp, hx⟩ | ⟨l₁, l₂, ht, hp⟩
  · obtain rfl : x = e := Option.some.inj (hx.symm.trans hfind)
    rw [hp, ht]
    simp [hout, hout']
  · rw [hp, ht]
    simp [hout']

/-- An entry whose STATE, if it has one, is of another car is in no view of the own car (R113). -/
theorem viewEntry_outside {car : Fin 16} (h : ∀ q, e.st = some q → q.car ≠ car) : viewEntry car e = none := by
  simp only [viewEntry]
  split
  · rename_i p hp
    exact if_neg (h p hp)
  · rfl

/-- The state with an entry of the table turned STALE (R105). -/
def turnedStale (e : PeerEntry) (s : State) : State := s.onPeers (putPeer (turnStale (staleAge s) e))

/-- That state with the station's claim out of the list, before the test (R115, R162). -/
def staleUnlisted (n : Fin 16) (e : PeerEntry) (s : State) : State :=
  { turnedStale e s with scu := { s.scu with claims := withoutClaim n s.scu.claims } }

theorem exec_peerAgeExpiry (hfind : findPeer n s.peers = some e) (hfresh : e.freshness ≠ .stale) :
    exec (.peerAgeExpiry n) s =
      .next (ruReport (inOwnCar s.ss.straps.car e) (groupView s) (removePeerClaim n (turnedStale e s))) := by
  simp only [exec, execPeerAgeExpiry, hfind, if_neg hfresh]
  rfl

/-- Of an entry outside the own car nothing is told to the RU (R105, R114). -/
theorem ruReport_turnedStale_outside (hfind : findPeer n s.peers = some e)
    (hcar : ∀ q, e.st = some q → q.car ≠ s.ss.straps.car) :
    ruReport (inOwnCar s.ss.straps.car e) (groupView s) (removePeerClaim n (turnedStale e s)) =
      removePeerClaim n (turnedStale e s) := by
  have hstation : e.station = n := by simpa using List.find?_some hfind
  have hout : viewEntry s.ss.straps.car e = none := viewEntry_outside hcar
  have hstale : viewEntry s.ss.straps.car (turnStale (staleAge s) e) = none := viewEntry_outside hcar
  have hview : groupView (removePeerClaim n (turnedStale e s)) = groupView s := by
    simpa [groupView, turnedStale] using groupView_putPeer_outside (hstation ▸ hfind) hout hstale
  rw [ruReport, hview]
  simp [inOwnCar, hout]

/-- The age of a STALE entry is past 3P (R105). -/
theorem staleAge_lt (s : State) (e : PeerEntry) :
    3 * (conf s).announce * 1000 < (turnStale (staleAge s) e).age := by
  refine lt_of_lt_of_le ?_ (le_max_left _ _)
  simp only [staleAge, Config.ms]
  omega

end

/-- Settles O56: an age's expiry by the entry it finds, and each timer by whether it runs and has latched. -/
theorem waitsForPeersEnd : Obligations.WaitsForPeersEnd := by
  intro n s
  refine ⟨fun hnone => ?absent, fun e hfind hstale => ?stale, fun e hfind hfresh => ?turned, fun hon hnew => ?violation,
    fun hoff => ?violationStands, fun hon hnew => ?peerWait, fun hoff => ?peerWaitStands, fun hslot => ?backoff⟩
  case absent => simp [exec, execPeerAgeExpiry, hnone]
  case stale => simp [exec, execPeerAgeExpiry, hfind, hstale]
  case turned =>
    have hstation : e.station = n := by simpa using List.find?_some hfind
    have hpeers : ∀ told before, (ruReport told before (removePeerClaim n (turnedStale e s))).peers =
        putPeer (turnStale (staleAge s) e) s.peers := fun told before => by simp [turnedStale]
    obtain ⟨hput, hothers⟩ := findPeer_putPeer (e := turnStale (staleAge s) e) hstation s.peers
    refine ⟨_, turnStale (staleAge s) e, exec_peerAgeExpiry hfind hfresh, (congrArg _ (hpeers _ _)).trans hput, rfl,
      staleAge_lt s e, fun m hm => (congrArg _ (hpeers _ _)).trans (hothers m hm), fun c hc => ?_, ?_⟩
    · have hkept := (ruReport_claims _ _ _).subset hc
      rw [removePeerClaim_claims] at hkept
      simpa using (List.mem_filter.1 hkept).2
    · intro left p rest hcar hslot hask hgone hroom hcutting hq hp
      have htested : removePeerClaim n (turnedStale e s) = slotTest (staleUnlisted n e s) :=
        removePeerClaim_tested (s := turnedStale e s) hgone hslot
      rw [ruReport_turnedStale_outside hfind hcar, htested]
      have hstart : s.vc.state ≠ .start := by simp [hcutting]
      refine ⟨fun hnone => ?_, fun hqueued => ?_⟩
      · rw [slotTest_arms (s := staleUnlisted n e s) ⟨hask, .inr hslot⟩ hroom hnone hstart hq hp]
        exact ⟨rfl, rfl⟩
      · rw [slotTest_rests (s := staleUnlisted n e s) (.inr ⟨hroom, hqueued⟩)]
        exact ⟨rfl, rfl⟩
  case violation =>
    have hlimit : violationLimit s = 40 * (conf s).announce * 1000 := (Nat.mul_assoc _ _ _).symm
    simp only [exec, execViolationTimerExpiry, Option.isSome_iff_ne_none.2 hon, hnew, hlimit, and_self, if_true]
    rfl
  case violationStands =>
    rcases hoff with hoff | hoff <;> simp [exec, execViolationTimerExpiry, hoff]
  case peerWait =>
    simp only [exec, execPeerWaitTimerExpiry, Option.isSome_iff_ne_none.2 hon, hnew, and_self, if_true]
    rfl
  case peerWaitStands =>
    rcases hoff with hoff | hoff <;> simp [exec, execPeerWaitTimerExpiry, hoff]
  case backoff => simp [exec, execBackoffExpiry, hslot]

end Sys2Proof.Machine

/-! PROOFS. What every operation does to the pass queue, the feed override and the orders given: the queue keeps its form,
the feed override stands, and no pass is started but by settling (R138, R140, R141, R144, R145, R155). -/

namespace Sys2Proof.Machine

open Sys2Proof

/-! ## The form of the pass queue -/

/-- The form of `PassQueueInv`, of the queue alone (R138). -/
def PassesInForm (q : List Pass) : Prop :=
  q.length ≤ 8 ∧ (∀ p ∈ q.dropLast, p.kind = .rough) ∧ (∀ p, q.getLast? = some p → p.kind = .finish) ∧
  ∀ p ∈ q.tail, p.state = .queued

theorem passQueueInv_iff (s : State) : PassQueueInv s ↔ PassesInForm s.pc.queue := Iff.rfl

theorem PassesInForm.nil : PassesInForm [] := by simp [PassesInForm]

/-- The queue without its head (R147). -/
theorem PassesInForm.tail {q : List Pass} (h : PassesInForm q) : PassesInForm q.tail := by
  obtain ⟨hlen, hrough, hfinish, hqueued⟩ := h
  rcases q with _ | ⟨p, _ | ⟨x, t⟩⟩
  · exact .nil
  · exact .nil
  · refine ⟨(Nat.le_succ _).trans hlen, fun y hy => hrough y ?_, fun y hy => hfinish y ?_, fun y hy => hqueued y ?_⟩
    · simpa using Or.inr hy
    · simpa using hy
    · exact List.mem_cons_of_mem _ hy

/-- Another pass of the same kind at the head, whatever its state (R145, R146). -/
theorem PassesInForm.head {p p' : Pass} {t : List Pass} (h : PassesInForm (p :: t)) (hk : p'.kind = p.kind) :
    PassesInForm (p' :: t) := by
  obtain ⟨hlen, hrough, hfinish, hqueued⟩ := h
  rcases t with _ | ⟨x, t⟩
  · exact ⟨hlen, by simp, by simpa [hk] using hfinish, by simp⟩
  · simp only [List.dropLast_cons_cons, List.forall_mem_cons, List.getLast?_cons_cons] at hrough hfinish ⊢
    obtain ⟨hp, hrest⟩ := hrough
    refine ⟨hlen, ?_, by simpa using hfinish, hqueued⟩
    simpa using ⟨hk.trans hp, hrest⟩

/-- The passes of a build: ROUGH ones, QUEUED, then the FINISH pass (R138, R140). -/
theorem splitPasses_inForm (r fin : LR Nat) (n base left i : Nat) (before : LR Int) (h : left ≤ 7) :
    PassesInForm (splitPasses r fin n base left i before) := by
  have hlen := splitPasses_length r fin n base left i before
  have hrecord := splitPasses_record r fin n base left i before
  generalize splitPasses r fin n base left i before = q at hlen hrecord
  refine ⟨by omega, fun p hp => ?_, fun p hp => ?_, fun p hp => ?_⟩
  · obtain ⟨j, hj, rfl⟩ := List.getElem_of_mem hp
    have hleft : j < left := by simpa [hlen] using hj
    obtain ⟨-, hkind, -, -⟩ := hrecord j (by omega)
    rw [List.getElem_dropLast, hkind, if_pos hleft]
  · rw [List.getLast?_eq_getElem?, List.getElem?_eq_some_iff] at hp
    obtain ⟨hj, rfl⟩ := hp
    obtain ⟨-, hkind, -, -⟩ := hrecord _ hj
    rw [hkind, if_neg (by omega)]
  · obtain ⟨j, hj, rfl⟩ := List.getElem_of_mem (List.mem_of_mem_tail hp)
    obtain ⟨-, -, hstate, -⟩ := hrecord j hj
    exact hstate

/-- A build that is made is in form: it has no more than 8 passes (R138, R141). -/
theorem buildResult_inForm {cutting : Bool} {s : State} {q : List Pass} {f : LR Int}
    (h : buildResult cutting s = .made q f) : PassesInForm q := by
  simp only [buildResult, buildFrom] at h
  (repeat' split at h) <;> simp only [reduceCtorEq, BuildResult.made.injEq] at h
  all_goals
    obtain ⟨rfl, -⟩ := h
    exact splitPasses_inForm _ _ _ _ _ _ _ (by omega)

/-- The ACTIVE pass is the head of the queue (R138). -/
theorem queue_of_activePass {s : State} {p : Pass} (h : activePass s = some p) : ∃ rest, s.pc.queue = p :: rest := by
  rcases hq : s.pc.queue with _ | ⟨x, rest⟩
  · simp [activePass, hq] at h
  · obtain ⟨-, rfl⟩ : x.state = .active ∧ x = p := by simpa [activePass, hq] using h
    exact ⟨rest, rfl⟩

/-! ## What is followed -/

/-- The pass queue, the feed override, and the orders given (R137). -/
structure Work where
  queue : List Pass
  feed : Nat
  orders : List Order

/-- The work of a state. -/
def State.work (s : State) : Work := ⟨s.pc.queue, s.pc.feed, s.out.orders⟩

/-- What an operation does that starts no pass: the queue keeps its form, the orders grow without CUT_SPEED, and, where
`k` says so, the feed override stands. -/
structure Calm (k : Bool) (a b : Work) : Prop where
  form : PassesInForm a.queue → PassesInForm b.queue
  feed : k = true → b.feed = a.feed
  orders : ∃ l, b.orders = a.orders ++ l ∧ .cutSpeed ∉ l

theorem Calm.refl {k : Bool} (a : Work) : Calm k a a := ⟨id, fun _ => rfl, [], by simp⟩

section
variable {k : Bool} {a b : Work} {s t : State}

theorem Calm.ite {p : Prop} [Decidable p] (hs : Calm k a s.work) (ht : Calm k a t.work) :
    Calm k a (if p then s else t).work := by
  split <;> assumption

/-- The passes' record and the outputs as they were. -/
theorem Calm.kept (h : Calm k a s.work) (hpc : t.pc = s.pc) (hout : t.out.orders = s.out.orders) :
    Calm k a t.work := by
  simpa only [State.work, hpc, hout] using h

/-- Another queue that is in form where the one before it was. -/
theorem Calm.requeued {q : List Pass} (h : Calm k a b) (hq : PassesInForm b.queue → PassesInForm q) :
    Calm k a { b with queue := q } :=
  ⟨hq ∘ h.form, h.feed, h.orders⟩

/-- The queue emptied. -/
theorem Calm.emptied (h : Calm k a b) : Calm k a { b with queue := [] } := h.requeued fun _ => .nil

/-- Orders given, CUT_SPEED not among them. -/
theorem Calm.ordered {l : List Order} (h : Calm k a b) (hl : .cutSpeed ∉ l) :
    Calm k a { b with orders := b.orders ++ l } := by
  obtain ⟨m, hm, hnot⟩ := h.orders
  exact ⟨h.form, h.feed, m ++ l, by simp [hm], by simp [hnot, hl]⟩

protected theorem Calm.order {o : Order} (h : Calm k a s.work) (ho : Order.cutSpeed ≠ o) : Calm k a (order o s).work :=
  h.ordered (by simpa using ho)

/-! ## The station state and the ceiling -/

protected theorem Calm.setStation {st : StationState} (h : Calm k a s.work) : Calm k a (setStation st s).work := by
  have hleft : Calm k a (if s.vc.state = .cutting ∧ st ≠ .cutting then
      leaveCutting (s.onVC fun v => { v with state := st }) else s.onVC fun v => { v with state := st }).work := .ite h h
  have hclosed := Calm.ite (p := (isOpenState s.vc.state && !isOpenState st) = true)
    (s := State.onCP _ fun c => { c with unlock := .closed }) hleft hleft
  exact .ite (hclosed.kept (by simp) (by simp)) hclosed

protected theorem Calm.setEffState {st : StationState} (h : Calm k a s.work) : Calm k a (setEffState st s).work :=
  .ite h h.setStation

protected theorem Calm.discardQueue (h : Calm k a s.work) : Calm k a (discardQueue s).work := h.emptied

protected theorem Calm.releaseClaim (h : Calm k a s.work) : Calm k a (releaseClaim s).work :=
  h.kept (by simp) (by simp)

protected theorem Calm.enterCondemned (h : Calm k a s.work) : Calm k a (enterCondemned s).work := by
  have hstopped : Calm k a (if s.vc.state = .cutting then
      order .stop ((discardQueue s).onPC fun p => { p with holds := HoldCauses.empty, timer := .stopped })
      else (discardQueue s).onPC fun p => { p with holds := HoldCauses.empty, timer := .stopped }).work :=
    .ite (.order h.emptied nofun) h.emptied
  exact .setStation (hstopped.kept (by simp) (by simp))

protected theorem Calm.condemnationFound (h : Calm k a s.work) : Calm k a (condemnationFound s).work := by
  simp only [Machine.condemnationFound]
  split
  case h_1 | h_2 | h_3 | h_4 => exact h.enterCondemned
  case h_5 => exact .ite h h.enterCondemned
  case h_6 | h_7 | h_8 | h_9 => exact h

protected theorem Calm.offerCeiling {offer : LR Int} (h : Calm k a s.work) : Calm k a (offerCeiling offer s).1.work :=
  h.kept (by simp) (by simp)

/-! ## The build and the plan -/

protected theorem Calm.storeOutside {cutting : Bool} {x : State} (h : Calm k a s.work) :
    Calm k a (storeOutside (buildResult cutting x) s).work := by
  cases hb : buildResult cutting x with
  | notMade => exact h
  | empty | deep n => exact h.emptied
  | made q f => exact h.requeued fun _ => buildResult_inForm hb

protected theorem Calm.enterFinished (h : Calm k a s.work) : Calm k a (enterFinished s).work :=
  .setStation (.releaseClaim (.order h.emptied nofun))

protected theorem Calm.deepToReady (h : Calm k a s.work) : Calm k a (deepToReady s).work :=
  .storeOutside (Calm.setStation (.releaseClaim (h.order nofun)))

protected theorem Calm.applyBuild (h : Calm k a s.work) : Calm k a (applyBuild s).work := by
  have hstored : Calm k a (storeOutside (buildResult false s) s).work := h.storeOutside
  simp only [Machine.applyBuild]
  split
  · cases hb : buildResult true s with
    | notMade => exact h
    | empty => exact .enterFinished h
    | deep n => exact .deepToReady h.emptied
    | made q f =>
      have hmade : Calm k a (s.onPC fun p => { p with queue := q, queueFinish := some f, planDeep := none }).work :=
        h.requeued fun _ => buildResult_inForm hb
      exact hmade.kept (by simp) (by simp)
  · exact .ite hstored.setEffState (.ite hstored.setEffState hstored)

protected theorem Calm.replan (h : Calm k a s.work) : Calm k a (replan s).1.work := h.kept (by simp) (by simp)

protected theorem Calm.build {fuel : Nat} (h : Calm k a s.work) : Calm k a (build fuel s).work := by
  induction fuel generalizing s with
  | zero => exact h.applyBuild
  | succ n ih =>
    simp only [Machine.build]
    split
    · exact h.applyBuild
    · rename_i offer _
      have hoffer : Calm k a (Machine.offerCeiling offer s).1.work := h.offerCeiling
      split <;> rename_i heq <;> rw [heq] at hoffer
      · exact hoffer.condemnationFound
      · exact hoffer.applyBuild
      · exact ih hoffer.replan

protected theorem Calm.targetsChanged (h : Calm k a s.work) : Calm k a (targetsChanged s).work := by
  simp only [Machine.targetsChanged]
  split
  · exact h.build
  · exact .ite (.ite h h.build) h
  · exact .ite h.build h
  · exact h

protected theorem Calm.handTargets {r : State × Bool} (h : Calm k a r.1.work) : Calm k a (handTargets r).work :=
  .ite h.targetsChanged h

protected theorem Calm.agree (h : Calm k a s.work) : Calm k a (agree s).work := .ite h h

protected theorem Calm.firstPlan (h : Calm k a s.work) : Calm k a (firstPlan s).work := by
  simp only [Machine.firstPlan]
  (repeat' split)
  · exact h
  · exact .agree (.setEffState (.storeOutside (Calm.kept h (by simp) (by simp) : Calm k a (takePlan _ _ _).1.work)))
  · exact h

protected theorem Calm.ownCeilingChanged (h : Calm k a s.work) : Calm k a (ownCeilingChanged s).work :=
  .ite (.ite (.agree (.handTargets h.replan)) h.firstPlan) h

/-! ## Passes -/

/-- The head of the queue replaced by one of its kind (R145, R146). -/
protected theorem Calm.setHead {p q : Pass} {rest : List Pass} (h : Calm k a s.work) (hq : s.pc.queue = q :: rest)
    (hk : p.kind = q.kind) : Calm k a (setHead p s).work := by
  refine h.requeued (q := p :: s.pc.queue.tail) fun hform => ?_
  have hform' : PassesInForm (q :: rest) := hq ▸ hform
  simpa [hq] using hform'.head hk

protected theorem Calm.addHold {c : HoldCause} (h : Calm k a s.work) : Calm k a (addHold c s).work := by
  rw [addHold_eq]
  refine h.ordered ?_
  split <;> simp

protected theorem Calm.clearHolds (h : Calm k a s.work) : Calm k a (clearHolds s).work := by
  rw [clearHolds_eq]
  refine h.ordered ?_
  split <;> simp [passOrders]

/-- What an offer's result brings about outside an abort (R78, R79). -/
protected theorem Calm.afterOffer {r : State × OfferResult} (h : Calm k a r.1.work) : Calm k a (afterOffer r).work := by
  obtain ⟨s, x⟩ := r
  cases x with
  | same => exact h
  | changed => exact h.ownCeilingChanged
  | condemned => exact h.condemnationFound

protected theorem Calm.owedBuild (h : Calm k a s.work) : Calm k a (owedBuild s).work :=
  .ite (.ite (.agree (.build h)) h) h

/-- The pass completed leaves the queue (R147). -/
protected theorem Calm.completeRecord {p : Pass} (h : Calm k a s.work) : Calm k a (completeRecord p s).work :=
  h.requeued PassesInForm.tail

protected theorem Calm.afterAbortOffer {r : State × OfferResult} (h : Calm k a r.1.work) :
    Calm k a (afterAbortOffer r).work := by
  obtain ⟨s, x⟩ := r
  cases x with
  | same => exact h
  | changed => exact h.ownCeilingChanged
  | condemned => exact h

protected theorem Calm.abortPass {p : Pass} {why : AbortReason} (h : Calm k a s.work) :
    Calm k a (abortPass p why s).work := by
  have hretracted : Calm k a (order (.retract .r) (order (.retract .l) s)).work :=
    .order (h.order nofun) nofun
  have horders : Calm k a (abortOrders s).work := hretracted.order (o := .stop) nofun
  have hoffered := Calm.offerCeiling (s := abortRecord p why (abortOrders s)) (offer := abortOffer (conf s) p)
    horders.emptied
  exact .releaseClaim hoffered.afterAbortOffer

protected theorem Calm.retractTest (h : Calm k a s.work) : Calm k a (retractTest s).work :=
  .ite (.ite (.enterCondemned h) (.setStation h)) h

protected theorem Calm.abortToAborting {p : Pass} {why : AbortReason} (h : Calm k a s.work) :
    Calm k a (abortToAborting p why s).work :=
  .retractTest h.abortPass.setStation

protected theorem Calm.strayReturn (h : Calm k a s.work) : Calm k a (strayReturn s).work := h

/-! ## Runs, attempts and the fit -/

protected theorem Calm.measurementFails {why : Reason} (h : Calm k a s.work) :
    Calm k a (measurementFails why s).work := by
  simp only [Machine.measurementFails]
  split
  · exact h
  · exact h
  · exact .setStation h

protected theorem Calm.startRun {r : RunKind} (h : Calm k a s.work) : Calm k a (startRun r s).work := by
  have hordered : Calm k a (order .measureSpeed s).work := h.order nofun
  exact hordered.kept (by simp) (by simp [Machine.startRun, order])

protected theorem Calm.startMeasurement (h : Calm k a s.work) : Calm k a (startMeasurement s).work :=
  .startRun h

@[simp] theorem respond_orders (r : Response) (s : State) : (respond r s).out.orders = s.out.orders := rfl

protected theorem Calm.endRun {why : Reason} (h : Calm k a s.work) : Calm k a (endRun why s).work := by
  have hleft : Calm k a (leaveRun why s).work := h.order nofun
  simp only [Machine.endRun]
  split
  · exact .measurementFails hleft
  · exact hleft.kept (by simp) (by simp only [calibrationFails]; (repeat' split) <;> simp [endCalibration])
  · exact h

protected theorem Calm.endAttempt {why : Reason} (h : Calm k a s.work) : Calm k a (endAttempt why s).work :=
  .ite (h.kept (by simp) (by simp)) h.endRun

end
end Sys2Proof.Machine

/-! PROOFS. The pass queue, the feed override and the orders through the measurement, the visit, the host commands and the
line, and so through every command: a pass starts only by settling, with its start conditions (R138, R144, R145, R155). -/

namespace Sys2Proof.Machine

open Sys2Proof

section
variable {k : Bool} {a : Work} {s : State}

/-! ## Windows, marks and sweeps -/

protected theorem Calm.cutMeasurement {why : Reason} (h : Calm k a s.work) : Calm k a (cutMeasurement why s).work := by
  have hparked : Calm k a (interruptTrace s).work := by
    simp only [interruptTrace]
    split
    · exact h.order nofun
    · exact h
  exact .ite h.endRun (.measurementFails (hparked.order nofun))

protected theorem Calm.closeRcu (h : Calm k a s.work) : Calm k a (closeRcu s).work :=
  .ite (.order h nofun) (.measurementFails h)

protected theorem Calm.measureClosed {total : LR Nat} (h : Calm k a s.work) : Calm k a (measureClosed total s).work :=
  .ite (.closeRcu (h.order (o := .stop) nofun)) (.endRun h)

protected theorem Calm.calibrateClosed {c : CalRun} {total : Nat} (h : Calm k a s.work) :
    Calm k a (calibrateClosed c total s).work := by
  have hleft : Calm k a (leaveRun .none s).work := h.order nofun
  exact .ite hleft hleft

protected theorem Calm.closeAttempt (h : Calm k a s.work) : Calm k a (closeAttempt s).work := by
  simp only [Machine.closeAttempt]
  split
  · exact .ite (.calibrateClosed h) (.endAttempt h)
  · exact .ite (.measureClosed h) (.endAttempt h)

protected theorem Calm.supply {w : Wheel} {probe : Int} (h : Calm k a s.work) : Calm k a (supply w probe s).work := by
  have hcomputed : Calm k a (computeBin w s).work := h.kept (by simp) (by simp)
  simp only [Machine.supply, supplyBin]
  (repeat' split)
  · exact .endAttempt hcomputed
  · exact hcomputed
  · exact hcomputed
  · exact hcomputed
  · exact h

protected theorem Calm.encoderPulse {w : Wheel} {probe : Int} (h : Calm k a s.work) :
    Calm k a (encoderPulse w probe s).work :=
  .ite (.ite (.endAttempt h) h) (.supply h)

protected theorem Calm.restartWindows (h : Calm k a s.work) : Calm k a (restartWindows s).work :=
  h.kept (by simp) (by simp)

protected theorem Calm.markPulseEnd {probe : LR Int} (h : Calm k a s.work) : Calm k a (markPulseEnd probe s).work := by
  have hsupplied : ∀ t : State, Calm k a t.work → Calm k a (supplyBins probe t).work := fun t ht => ht.supply.supply
  have hstart : Calm k a (newRevolution (s.onRTU fun u => { u with pulseOn := false })).work :=
    h.kept (by simp) (by simp)
  simp only [Machine.markPulseEnd, validMark]
  (repeat' split)
  · exact hsupplied _ h
  · exact hstart.restartWindows.endAttempt
  · exact hstart.restartWindows
  · exact .closeAttempt hstart
  · exact hsupplied _ hstart
  · exact hstart

protected theorem Calm.driveLost (h : Calm k a s.work) : Calm k a (driveLost s).work := by
  have hrestart : Calm k a (restartWindows (s.onRTU fun u =>
      { u with markTimer := none, driveTimer := some Config.driveTime, pulseOn := false, firstMark := false })).work :=
    .restartWindows h
  exact .ite (.ite hrestart.endAttempt hrestart) h

protected theorem Calm.runFit {worn : LR (List (Option Int))} (h : Calm k a s.work) : Calm k a (runFit worn s).work := by
  have hend : ∀ r : State × OfferResult, Calm k a r.1.work → Calm k a (endFit r).work := fun ⟨t, x⟩ ht => by
    cases x with
    | condemned => exact .enterCondemned ht
    | same => exact .firstPlan (.setStation ht)
    | changed => exact .firstPlan (.setStation ht)
  simp only [Machine.runFit]
  (repeat' split)
  · exact hend _ (h.kept (by simp) (by simp))
  · exact h
  · exact h

protected theorem Calm.endSweep {w : Wheel} (h : Calm k a s.work) : Calm k a (endSweep w s).work := by
  simp only [Machine.endSweep]
  (repeat' split)
  · exact h.order (o := .sweep .r) nofun
  · exact .runFit h
  · exact .measurementFails h

/-! ## The visit, ESTOP and silence -/

/-- A visit end empties the queue and gives no order; it puts the feed override back (R14, R137). -/
protected theorem Calm.visitEnd (h : Calm false a s.work) : Calm false a (visitEnd s).work := by
  have hcleared : Calm false a (clearVisit (releaseClaim s)).work := by
    obtain ⟨hform, -, horders⟩ := h.releaseClaim
    exact ⟨fun _ => .nil, nofun, horders⟩
  exact hcleared.kept (by simp [Machine.visitEnd]) (by simp)

protected theorem Calm.estopActive (h : Calm k a s.work) : Calm k a (estopActive s).work := by
  have hstops : ∀ (old : StationState) (t : State), Calm k a t.work → Calm k a (estopStops old t).work :=
    fun old t ht => by
      simp only [estopStops]
      (repeat' split)
      · exact ht.cutMeasurement
      · exact ht.abortPass
      · exact .releaseClaim (.order ht.discardQueue nofun)
      · exact ht
      · exact ht.endRun
      · exact ht
  simp only [Machine.estopActive]
  split
  · exact h
  · exact h
  · exact h
  · exact hstops _ _ (.setStation h)

protected theorem Calm.estopInactive (h : Calm k a s.work) : Calm k a (estopInactive s).work := by
  have hexit : Calm k a (exitEstop s).work := by
    simp only [exitEstop]
    (repeat' split)
    · exact h.enterCondemned
    · exact h.setStation
    · exact h.setStation
    · exact .setStation h.emptied
    · exact h.setStation
    · exact h
  exact .ite hexit h

protected theorem Calm.listenExpiry (h : Calm k a s.work) : Calm k a (listenExpiry s).work := by
  have hend : ∀ t : State, Calm k a t.work → Calm k a (endStart t).work := fun t ht => by
    have hleft : Calm k a (if t.result.start.good then setStation .idle t else
        setStation .invalid (latch .settingsInvalid (t.onVC fun v => { v with settingsInvalid := true }))).work :=
      .ite ht.setStation (.setStation ht)
    exact .ite hleft.estopActive hleft
  have hcount : Calm k a (s.onLC fun c => { c with listenLeft := c.listenLeft - 1 }).work := h
  exact .ite (hend _ hcount) hcount

protected theorem Calm.silence (h : Calm k a s.work) : Calm k a (silence s).work := by
  have hstops : ∀ (old : StationState) (t : State), Calm k a t.work → Calm k a (silenceStops old t).work :=
    fun old t ht => by
      simp only [silenceStops]
      (repeat' split)
      · exact ht.cutMeasurement
      · exact ht.endRun
      · exact ht.abortPass
      · exact .order ht.discardQueue nofun
      · exact ht.discardQueue
  exact .releaseClaim (hstops _ _ (.setStation h))

end

/-! ## Settling -/

/-- The start conditions of R144 with the pass they start, in the state reached. -/
def PassStarted (t : State) : Prop :=
  t.vc.state = .cutting ∧ level t .clamped = true ∧ level t .guardClosed = true ∧ level t .estop = false ∧
  t.pc.holds = HoldCauses.empty ∧ anyPending (groupView t) = false ∧ t.ru.violation = false ∧ t.ru.awaited = [] ∧
  ∃ p, activePass t = some p ∧ (p.kind = .rough → t.scu.slot = .held)

/-- What a whole command does: the queue keeps its form, where `k` says so the feed override stands, and the orders grow
by CUT_SPEED only where a pass has started on its start conditions. -/
structure Conducted (k : Bool) (a : Work) (t : State) : Prop where
  form : PassesInForm a.queue → PassesInForm t.pc.queue
  feed : k = true → t.pc.feed = a.feed
  orders : ∃ l, t.out.orders = a.orders ++ l ∧ (.cutSpeed ∈ l → PassStarted t)

section
variable {k : Bool} {a : Work} {s t : State}

theorem Conducted.of_calm (h : Calm k a t.work) : Conducted k a t := by
  obtain ⟨l, hl, hnot⟩ := h.orders
  exact ⟨h.form, h.feed, l, hl, fun hmem => absurd hmem hnot⟩

theorem Conducted.ite {p : Prop} [Decidable p] (hs : Conducted k a s) (ht : Conducted k a t) :
    Conducted k a (if p then s else t) := by
  split <;> assumption

/-- Settling starts the head pass on its start conditions, or leaves the passes and the orders as they were (R144,
R145). -/
theorem Settled.starts_or_stands (h : Settled s t) :
    (∃ p rest, s.pc.queue = p :: rest ∧ CanStart s ∧ (p.kind = .finish ∨ s.scu.slot = .held) ∧
      t.pc = { s.pc with
        queue := { p with state := .active } :: rest, timer := .running ((conf s).passTime * Config.sec) } ∧
      t.out = { s.out with orders := s.out.orders ++ .cutSpeed :: passOrders p s.pc } ∧ t.scu = s.scu) ∨
    (t.pc = s.pc ∧ t.out = s.out) := by
  rcases hq : s.pc.queue with _ | ⟨p, rest⟩
  · obtain ⟨hpc, hout, -, -⟩ := h.stands (.inr hq)
    exact .inr ⟨hpc, hout⟩
  · by_cases hcan : CanStart s
    · by_cases hslot : p.kind = .finish ∨ s.scu.slot = .held
      · obtain ⟨hpc, hout, hscu, -⟩ := h.started p rest hq hcan hslot
        exact .inl ⟨p, rest, rfl, hcan, hslot, hpc, hout, hscu⟩
      · obtain ⟨hkind, hheld⟩ := not_or.1 hslot
        have hrough : p.kind = .rough := by
          cases hk : p.kind with
          | rough => rfl
          | finish => exact absurd hk hkind
        obtain ⟨hpc, hout, -⟩ := h.asked p rest hq hcan hrough hheld
        exact .inr ⟨hpc, hout⟩
    · obtain ⟨hpc, hout, -, -⟩ := h.stands (.inl hcan)
      exact .inr ⟨hpc, hout⟩

/-- What the start conditions read is the same after settling as before it (R144). -/
theorem Settled.reads (h : Settled s t) :
    t.vc.state = s.vc.state ∧ (∀ i, level t i = level s i) ∧ groupView t = groupView s ∧
    t.ru.violation = s.ru.violation ∧ t.ru.awaited = s.ru.awaited := by
  have hiiu : t.iiu = s.iiu := h.frame .iiu (by decide)
  have hpeers : t.peers = s.peers := h.frame .peers (by decide)
  have hss : t.ss = s.ss := h.frame .ss (by decide)
  refine ⟨?_, fun i => ?_, ?_, ?_, ?_⟩
  · rw [h.vc]
  · simp only [level, hiiu]
  · simp only [groupView, hpeers, hss]
  · rw [h.ru]
  · rw [h.ru]

/-- A pass that settling starts has its start conditions in the state reached (R144). -/
theorem Settled.passStarted {p : Pass} {rest : List Pass} (h : Settled s t) (hcan : CanStart s)
    (hslot : p.kind = .finish ∨ s.scu.slot = .held) (hholds : t.pc.holds = s.pc.holds)
    (hqueue : t.pc.queue = { p with state := .active } :: rest) (hscu : t.scu = s.scu) : PassStarted t := by
  obtain ⟨hcutting, -, hempty, hclamped, hguard, hestop, hpending, hviolation, hawaited⟩ := hcan
  obtain ⟨hstate, hlevel, hview, hvio, hawait⟩ := h.reads
  refine ⟨hstate.trans hcutting, (hlevel _).trans hclamped, (hlevel _).trans hguard, (hlevel _).trans hestop,
    hholds.trans hempty, hview ▸ hpending, hvio.trans hviolation, hawait.trans hawaited,
    { p with state := .active }, by simp [activePass, hqueue], fun hrough => ?_⟩
  rw [hscu]
  exact hslot.resolve_left fun hfinish => nomatch hrough.symm.trans hfinish

/-- Settling after an operation that starts no pass. -/
protected theorem Conducted.settle (h : Calm k a s.work) : Conducted k a (settle s) := by
  obtain ⟨l, hl, hnot⟩ := h.orders
  have hsettled := settle_settled s
  obtain ⟨p, rest, hq, hcan, hslot, hpc, hout, hscu⟩ | ⟨hpc, hout⟩ := hsettled.starts_or_stands
  · refine ⟨fun ha => ?_, fun hk => ?_, l ++ .cutSpeed :: passOrders p s.pc, ?_, fun _ => ?_⟩
    · have hform : PassesInForm (p :: rest) := hq ▸ h.form ha
      rw [hpc]
      exact hform.head rfl
    · rw [hpc]
      exact h.feed hk
    · have hl' : s.out.orders = a.orders ++ l := hl
      simp [hout, hl']
    · exact hsettled.passStarted hcan hslot (by rw [hpc]) (by rw [hpc]) hscu
  · exact .of_calm (h.kept hpc (by rw [hout]))

protected theorem Conducted.completePass {p : Pass} (h : Calm k a s.work) : Conducted k a (completePass p s) := by
  have howed := Calm.offerCeiling (s := completeRecord p s) (offer := completionOffer (conf s) p) h.completeRecord
    |>.afterOffer.owedBuild
  have hhead : Calm k a (slotHead (owedBuild (afterOffer
      (offerCeiling (completionOffer (conf s) p) (completeRecord p s))))).work := howed.kept (by simp) (by simp)
  exact .ite (.of_calm howed.enterCondemned) (.ite (.ite (.of_calm hhead.enterFinished) (.settle hhead)) (.of_calm howed))

/-! ## Host commands -/

/-- The host commands that leave the feed override: all but FEED and those that may end a visit (R14, R155). -/
def HostCmd.keepsFeed : HostCmd → Bool
  | .feed | .withdraw | .release => false
  | _ => true

/-- FEED stores its value and gives RATE (R155). -/
protected theorem Calm.actFeed {p : List Byte} (h : Calm false a s.work) : Calm false a (actFeed p s).work := by
  have hstored : Calm false a ((respond (.ok .feed (be1 (clampTo 50 120 (field p 0 1)))) s).onPC fun c =>
      { c with feed := clampTo 50 120 (field p 0 1) }).work := ⟨h.form, nofun, h.orders⟩
  simp only [Machine.actFeed]
  split
  · exact h
  · split
    · rw [rateOrder_eq]
      exact hstored.ordered (by simp)
    · exact hstored

protected theorem Calm.actWithdraw {p : List Byte} (h : Calm false a s.work) : Calm false a (actWithdraw p s).work := by
  have hended : Calm false a (if s.vc.visitOpen then visitEnd s else s).work := .ite h.visitEnd h
  have haccepted : Calm false a ((accept .withdraw (if s.vc.visitOpen then visitEnd s else s)).onVC fun v =>
      { v with visitOpen := true }).work := hended
  exact .ite h (.ite h (.ite (.setStation haccepted) (.setStation (haccepted.kept (by simp) (by simp)))))

protected theorem Calm.actRelease {p : List Byte} (h : Calm false a s.work) : Calm false a (actRelease p s).work :=
  .ite h (.ite h (.ite h (.setStation (.visitEnd h))))

protected theorem Calm.actMeasure {p : List Byte} (h : Calm k a s.work) : Calm k a (actMeasure p s).work := by
  have hdrops : Calm k a (measureDrops s).work := by
    simp only [measureDrops]
    split
    · exact h
    · exact h
    · exact h.emptied
  exact .ite h (.ite h (.startMeasurement (.setStation hdrops)))

protected theorem Calm.actCalibrate {p : List Byte} (h : Calm k a s.work) : Calm k a (actCalibrate p s).work := by
  simp only [Machine.actCalibrate]
  split
  · exact h
  · split
    · exact h
    · exact .ite h (.ite h (.startRun h))

/-- A command acted on; the feed override stands but for FEED and the ends of a visit. -/
protected theorem Conducted.actCommand {c : HostCmd} {p : List Byte} {u : UnlockState} (h : Calm k a s.work)
    (hk : k = true → c.keepsFeed = true) : Conducted k a (actCommand c p u s) := by
  have hanswered : ∀ t : State, t.pc = s.pc → t.out.orders = s.out.orders → Conducted k a t := fun t hpc hout =>
    .of_calm (h.kept hpc hout)
  cases c with
  | visit => exact .ite (.of_calm h) (.ite (.of_calm h) (.ite (.of_calm h)
      (.of_calm (Calm.startMeasurement (.setStation h)))))
  | measure => exact .of_calm (h.actMeasure (p := p))
  | cut => exact .ite (.of_calm h) (.ite (.of_calm h) (.settle (Calm.setStation (s := accept .cut s) h)))
  | hold => exact .ite (.of_calm h) (.settle (.addHold h))
  | resume => exact .ite (.of_calm h) (.ite (.of_calm h) (.settle (.clearHolds h)))
  | feed =>
    obtain rfl : k = false := by simpa [HostCmd.keepsFeed] using hk
    exact .of_calm h.actFeed
  | withdraw =>
    obtain rfl : k = false := by simpa [HostCmd.keepsFeed] using hk
    exact .of_calm h.actWithdraw
  | release =>
    obtain rfl : k = false := by simpa [HostCmd.keepsFeed] using hk
    exact .of_calm h.actRelease
  | calibrate => exact .of_calm h.actCalibrate
  | unlock | writeSettings | readSettings =>
    refine hanswered _ (by simp [Machine.actCommand]) ?_
    simp only [Machine.actCommand, actUnlock, actWriteSettings, actReadSettings]
    (repeat' split) <;> rfl
  | readResult => exact .ite (.of_calm h) (.of_calm h)
  | readStatus | readPeers | readPasses => exact .of_calm h

protected theorem Conducted.takeCommand {c : HostCmd} {p : List Byte} (h : Calm k a s.work)
    (hk : k = true → c.keepsFeed = true) : Conducted k a (takeCommand c p s) :=
  .ite (.of_calm h) (.ite (.of_calm h) (.actCommand h hk))

protected theorem Conducted.cpSubmit {c : HostCmd} {p : List Byte} (h : Calm k a s.work)
    (hk : k = true → c.keepsFeed = true) : Conducted k a (cpSubmit c p s) :=
  .ite (.ite (.of_calm h) (.of_calm h)) (.takeCommand h hk)

/-- Bytes of the line may complete any command (R180). -/
protected theorem Conducted.receiveBytes {bs : List Byte} (h : Calm false a s.work) :
    Conducted false a (receiveBytes bs s) := by
  simp only [Machine.receiveBytes]
  split
  · exact .cpSubmit h nofun
  · exact .ite (.of_calm h) (.ite (.of_calm h) (.of_calm h))

/-- The end of a WRITE_SETTINGS takes the command that waits, whichever it is (R181). -/
protected theorem Conducted.hostWriteEnd {misread : List (Nat × Byte)} (h : Calm false a s.work) :
    Conducted false a (hostWriteEnd misread s) := by
  have hwaiting : ∀ t : State, Calm false a t.work → Conducted false a (takeWaiting t) := fun t ht => by
    simp only [takeWaiting]
    split
    · exact .takeCommand ht nofun
    · exact .of_calm ht
  simp only [Machine.hostWriteEnd]
  split
  · exact hwaiting _ (.ite h h)
  · exact .of_calm h

/-! ## The line and the inputs -/

protected theorem Conducted.reportSent {e : QEntry} (h : Calm k a s.work) : Conducted k a (reportSent e s) := by
  simp only [Machine.reportSent]
  split
  · exact .settle (h.kept (by simp) (by simp))
  · exact .of_calm h

protected theorem Conducted.ruReport {told : Bool} {before : List ViewEntry} (h : Calm k a s.work) :
    Conducted k a (ruReport told before s) := by
  have hplans : Calm k a (ruPlans before s).work := by
    simp only [ruPlans]
    (repeat' split)
    · exact h.firstPlan
    · exact h.replan.handTargets
    · exact h
    · exact h
  exact .ite (.settle hplans.agree) (.ite (.settle h.agree) (.of_calm h))

protected theorem Conducted.deliverState {n : Fin 16} {p : PeerState} (h : Calm k a s.work) :
    Conducted k a (deliverState n p s) := by
  refine .ruReport (h.kept ?_ ?_) <;> (repeat' split) <;> simp

protected theorem Conducted.receive {f : FrameKind} {x : LinkFrame} {deliver : State → State} (h : Calm k a s.work)
    (hd : Conducted k a (deliver s)) : Conducted k a (receive f x deliver s) :=
  .ite (.of_calm h) (.ite (.ite (.of_calm h) (.of_calm h.silence)) hd)

protected theorem Conducted.inputChanged {i : Input} {v : Bool} (h : Calm k a s.work) :
    Conducted k a (inputChanged i v s) := by
  have hhome : ∀ w, Conducted k a (homeEdge w s) := fun w =>
    .of_calm (Calm.retractTest (s := s.onIIU fun u => { u with latch := u.latch.put w true }) h)
  cases i with
  | clamped =>
    simp only [Machine.inputChanged, clampedChanged]
    (repeat' split)
    · exact .settle h
    · exact .of_calm h.cutMeasurement
    · exact .of_calm h.endRun
    · exact .of_calm h.abortToAborting
    · exact .settle h
    · exact .of_calm h
  | guardClosed => exact .ite (.settle h.addHold) (.settle h)
  | estop => exact .ite (.of_calm h.estopActive) (.of_calm h.estopInactive)
  | driveAtSpeed => exact .ite (.of_calm (h.kept (by simp) (by simp))) (.of_calm h.driveLost)
  | homeL => exact .ite (hhome .l) (.of_calm h)
  | homeR => exact .ite (hhome .r) (.of_calm h)

/-- A slide's return: its slide marked, the pass completed, or a stray one (R146, R147). -/
protected theorem Conducted.slideDone {p : Pass} {w : Wheel} (h : Calm k a s.work) (hp : activePass s = some p) :
    Conducted k a (if ordered p w && !p.slideDone.get w then
      (if allDone { p with slideDone := p.slideDone.put w true } then
        completePass { p with slideDone := p.slideDone.put w true } s
       else setHead { p with slideDone := p.slideDone.put w true } s)
      else strayReturn s) := by
  obtain ⟨rest, hq⟩ := queue_of_activePass hp
  have hmarked : Calm k a (setHead { p with slideDone := p.slideDone.put w true } s).work := h.setHead hq rfl
  exact .ite (.ite (.completePass h) (.of_calm hmarked)) (.of_calm h.strayReturn)

end

/-! ## The commands -/

/-- The commands that leave the feed override: all but RESET, FEED, those that may end a visit, and those that may take a
command of the line or one that waited (R14, R155, R180, R181). -/
def keepsFeed : Instr → Bool
  | .reset .. | .feed _ | .withdraw _ | .release _ | .settingsWriteDone _ => false
  | .discardedFrame f => cellComplete f
  | _ => true

/-- What every command does (R138, R140, R141, R144, R145, R155). -/
theorem exec_conducted (c : Instr) (s t : State) (he : exec c s = .next t) : Conducted (keepsFeed c) s.work t := by
  have hself : ∀ {k}, Calm k s.work s.work := .refl _
  cases c with
  | reset k p w =>
    injection he with he; subst he
    exact ⟨fun _ => .nil, nofun, [], by simp [start, State.work], nofun⟩
  | visit p | measure p | cut p | hold p | resume p | feed p | withdraw p | release p | calibrate p | unlock p
  | writeSettings p | readSettings p | readStatus p | readResult p | readPeers p | readPasses p =>
    injection he with he; subst he
    exact .cpSubmit hself id
  | discardedFrame frame =>
    injection he with he; subst he
    split
    · exact .ite (.of_calm hself) (.of_calm hself)
    · rename_i hpart
      have hk : keepsFeed (.discardedFrame frame) = false := by simpa [keepsFeed] using hpart
      rw [hk]
      exact .ite (.of_calm hself) (.receiveBytes hself)
  | settingsWriteDone m =>
    injection he with he; subst he
    exact .hostWriteEnd hself
  | calibrationWriteDone m =>
    injection he with he; subst he
    refine .of_calm (hself.kept (by simp) ?_)
    simp only [calWriteEnd, endCalibration]
    (repeat' split) <;> rfl
  | unlockTimerExpiry | rawInputChange i v =>
    injection he with he; subst he
    exact .of_calm hself
  | announceTimerExpiry =>
    simp only [exec, execAnnounceTimerExpiry] at he
    split at he <;> injection he with he <;> subst he
    · exact .of_calm hself
    · exact .ite (.of_calm (Calm.listenExpiry hself)) (.of_calm (hself.kept (by simp) (by simp)))
  | watchdogExpiry =>
    simp only [exec, execWatchdogExpiry] at he
    split at he <;> injection he with he <;> subst he
    · exact .ite (.settle (.addHold hself)) (.of_calm hself)
    · exact .of_calm hself
  | debounceExpiry i =>
    injection he with he; subst he
    exact .ite (.inputChanged hself) (.of_calm hself)
  | encoderPulse w probe =>
    injection he with he; subst he
    exact .ite (.of_calm hself.encoderPulse) (.of_calm hself)
  | markTrailingEdge probe =>
    injection he with he; subst he
    exact .ite (.of_calm hself.markPulseEnd) (.of_calm hself)
  | markTimerExpiry =>
    injection he with he; subst he
    exact .ite (.of_calm hself.endAttempt) (.of_calm hself)
  | driveTimerExpiry =>
    injection he with he; subst he
    exact .ite (.of_calm hself.endRun) (.of_calm hself)
  | frameGapTimeout | homeTimerExpiry | markLeadingEdge | violationTimerExpiry | peerWaitTimerExpiry
  | backoffExpiry | listenOnlyEnd | receiveError f =>
    injection he with he; subst he
    exact .ite (.of_calm (hself.kept (by simp) (by simp))) (.of_calm (hself.kept (by simp) (by simp)))
  | tracerReading w x r =>
    simp only [exec, execTracerReading] at he
    split at he <;> injection he with he <;> subst he
    · exact .ite (.of_calm hself) (.of_calm hself)
    · exact .of_calm hself
  | sweepEnd w =>
    simp only [exec, execSweepEnd] at he
    split at he <;> injection he with he <;> subst he
    · exact .ite (.of_calm hself.endSweep) (.of_calm hself)
    · exact .of_calm hself
  | sweepTimerExpiry =>
    simp only [exec, execSweepTimerExpiry] at he
    split at he <;> injection he with he <;> subst he
    · rename_i w _
      exact .of_calm (Calm.measurementFails (hself.order (o := .park w) nofun))
    · exact .of_calm hself
  | transmitStart =>
    simp only [exec, execTransmitStart] at he
    split at he <;> injection he with he <;> subst he
    · exact .ite (.of_calm hself) (.of_calm hself)
    · exact .of_calm hself
  | arbitrationLost bit =>
    simp only [exec, execArbitrationLost] at he
    split at he <;> injection he with he <;> subst he
    · exact .ite (.of_calm (hself.kept (by simp) (by simp))) (.of_calm hself)
    · exact .of_calm hself
  | ownFrameError =>
    simp only [exec, execOwnFrameError] at he
    split at he <;> injection he with he <;> subst he
    · exact .of_calm hself
    · exact .ite (.of_calm (hself.kept (by simp) (by simp))) (.of_calm (hself.kept (by simp) (by simp)))
  | frameSent =>
    simp only [exec, execFrameSent] at he
    split at he <;> injection he with he <;> subst he
    · exact .reportSent hself
    · exact .of_calm hself
  | stateReceived f =>
    injection he with he; subst he
    refine .receive hself ?_
    split
    · exact .deliverState hself
    · exact .of_calm hself
  | ceilingReceived f | intentReceived f =>
    injection he with he; subst he
    refine .receive hself ?_
    split
    · exact .ruReport hself
    · exact .of_calm hself
  | claimReceived f =>
    injection he with he; subst he
    refine .receive hself ?_
    split
    · exact .ruReport (hself.kept (by simp) (by simp))
    · exact .of_calm hself
  | releaseReceived f =>
    injection he with he; subst he
    exact .receive hself (.ruReport (hself.kept (by simp) (by simp)))
  | peerAgeExpiry n =>
    simp only [exec, execPeerAgeExpiry] at he
    split at he <;> injection he with he <;> subst he
    · exact .ite (.of_calm hself) (.ruReport (hself.kept (by simp) (by simp)))
    · exact .of_calm hself
  | slideDone w =>
    simp only [exec, execSlideDone] at he
    split at he <;> injection he with he <;> subst he
    · rename_i p hp
      exact .slideDone hself hp
    · exact .of_calm hself.strayReturn
  | slideFault w =>
    simp only [exec, execSlideFault] at he
    split at he <;> injection he with he <;> subst he
    · exact .of_calm hself.abortToAborting
    · exact .of_calm hself.strayReturn
  | passTimerExpiry =>
    simp only [exec, execPassTimerExpiry] at he
    split at he <;> injection he with he <;> subst he
    · exact .of_calm hself.abortToAborting
    · exact .of_calm hself

/-! ## The obligations -/

/-- Settles O10: every command keeps the form of the queue, and a microsecond leaves the queue as it is. -/
theorem passQueueKeepsItsForm : Obligations.PassQueueKeepsItsForm := by
  intro s t h he
  simp only [step] at he
  split at he
  · exact (exec_conducted _ _ t he).form h
  · injection he with he
    subst he
    exact h

/-- Settles O57: an order CUT_SPEED among those a command gives comes from a pass started on its start conditions. -/
theorem noPassStartsUnready : Obligations.NoPassStartsUnready := by
  intro c s t he hcut
  obtain ⟨l, hl, hstarted⟩ := (exec_conducted c s t he).orders
  rw [hl, State.work, List.drop_left] at hcut
  exact hstarted hcut

end Sys2Proof.Machine

/-! PROOFS. FEED and the feed override, and the watchdog's hold (R153, R155, R186). -/

namespace Sys2Proof.Machine

open Sys2Proof

/-! ## FEED -/

/-- FEED acted on: the value stored, and RATE to the owed slides of an ACTIVE pass (R155). -/
theorem actFeed_accepted (b : Byte) (s : State) (hst : s.vc.state = .ready ∨ s.vc.state = .cutting) :
    actFeed [b] s = { s with
      pc := { s.pc with feed := max 50 (min 120 b.toNat) }
      out := s.out.grewBy
        (((activePass s).toList.flatMap owedSlides).map fun w => Order.rate w (max 50 (min 120 b.toNat)))
        [.ok .feed [BitVec.ofNat 8 (max 50 (min 120 b.toNat))]] } := by
  have hallowed : ¬(s.vc.state ≠ .ready ∧ s.vc.state ≠ .cutting) := by tauto
  have hv : clampTo 50 120 (field [b] 0 1) = max 50 (min 120 b.toNat) := by rw [field_singleton]; rfl
  generalize max 50 (min 120 b.toNat) = v at hv
  have hactive : activePass ((respond (.ok .feed (be1 v)) s).onPC fun c => { c with feed := v }) = activePass s := rfl
  simp only [actFeed, if_neg hallowed, hv, hactive]
  cases activePass s with
  | none => simp [respond, State.onPC, State.onOut, Outputs.grewBy, be1]
  | some p => simp [rateOrder_eq, respond, State.onPC, State.onOut, Outputs.grewBy, be1]

/-- The PASS orders carry the feed override (R145, R155). -/
theorem mem_passOrders {p : Pass} {c : PC} {o : Order} (h : o ∈ passOrders p c) :
    ∃ w, o = .pass w (p.depth.get w) c.chosen c.feed := by
  obtain ⟨w, -, rfl⟩ := List.mem_map.1 h
  exact ⟨w, rfl⟩

/-- A start gives CUT_SPEED and PASS orders alone (R145). -/
theorem startPass_orders {p : Pass} {s : State} {o : Order} (h : o ∈ (startPass p s).out.orders)
    (hnew : o ∉ s.out.orders) (hcut : o ≠ .cutSpeed) : o ∈ passOrders p s.pc := by
  obtain ⟨-, hout⟩ := startPass_spec p s
  simpa [hout, hnew, hcut] using h

/-- A RESUME gives the PASS orders of the ACTIVE pass alone (R154). -/
theorem clearHolds_orders {s : State} {o : Order} (h : o ∈ (clearHolds s).out.orders) (hnew : o ∉ s.out.orders) :
    ∃ p, o ∈ passOrders p s.pc := by
  rw [clearHolds_eq] at h
  rcases List.mem_append.1 h with hold | hgiven
  · exact absurd hold hnew
  · split at hgiven
    · obtain ⟨p, -, hp⟩ := List.mem_flatMap.1 hgiven
      exact ⟨p, hp⟩
    · simp at hgiven

/-- The feed override after a visit end (R137). -/
theorem visitEnd_feed (s : State) : (visitEnd s).pc.feed = 100 := by
  simp [visitEnd, clearVisit, PC.reset]

/-- Settles O28: FEED by the state it finds, the PASS orders of a start and of a RESUME, and what every other command
leaves of the feed override. -/
theorem feedOverride : Obligations.FeedOverride := by
  refine ⟨fun b s hport => ⟨fun hready hcutting => ?refused, fun hst => ?accepted⟩, fun p s o ho hnew hcut => ?start,
    fun s o ho hnew => ?resume, fun c s t he hfeed hwithdraw hrelease hdone hreset hline => ?stands, rfl, visitEnd_feed⟩
  case refused => exact exec_refused (k := .feed) hport rfl (by simp [actCommand, actFeed, hready, hcutting])
  case accepted =>
    rw [show Instr.feed [b] = HostCmd.feed.instr [b] from rfl, exec_hostCommand .feed [b] s hport rfl]
    exact congrArg _ (actFeed_accepted b (commandTaken s) hst)
  case start => exact mem_passOrders (startPass_orders ho hnew hcut)
  case resume =>
    obtain ⟨p, hp⟩ := clearHolds_orders ho hnew
    obtain ⟨w, hw⟩ := mem_passOrders hp
    exact ⟨w, _, hw⟩
  case stands =>
    refine (exec_conducted c s t he).feed ?_
    cases c with
    | feed p => exact absurd rfl (hfeed p)
    | withdraw p => exact absurd rfl (hwithdraw p)
    | release p => exact absurd rfl (hrelease p)
    | settingsWriteDone m => exact absurd rfl (hdone m)
    | reset k p w => exact absurd rfl (hreset k p w)
    | discardedFrame f => exact hline f rfl
    | _ => rfl

/-! ## The watchdog -/

/-- The watchdog EXPIRED and COMM_TIMEOUT latched (R186). -/
def watchdogExpired (s : State) : State :=
  { s with cp := { s.cp with watchdog := .expired, status := latchWord s.cp.status .commTimeout } }

/-- An expiry of the running watchdog, with the hold of an ACTIVE pass (R153, R186). -/
theorem exec_watchdogExpiry {s : State} {k : Nat} (h : s.cp.watchdog = .running k) :
    exec .watchdogExpiry s = .next (if (activePass s).isSome then settle (addHold .watchdog (watchdogExpired s))
      else watchdogExpired s) := by
  simp only [exec, execWatchdogExpiry, h]
  rfl

/-- A hold cause added with a pass ACTIVE: the first one pauses the timer and holds the owed slides (R150, R153). -/
theorem addHold_active {c : HoldCause} {s : State} {p : Pass} (h : activePass s = some p) : addHold c s = { s with
    pc := { s.pc with
      holds := s.pc.holds.add c
      timer := if s.pc.holds = HoldCauses.empty then s.pc.timer.pause else s.pc.timer }
    out := s.out.grewBy (if s.pc.holds = HoldCauses.empty then (owedSlides p).map Order.holdSlide else []) [] } := by
  simp [addHold_eq, h]

/-- Settles O38: an expiry by whether the watchdog runs and a pass is ACTIVE; the hold is settled. -/
theorem watchdogHoldsThePass : Obligations.WatchdogHoldsThePass := by
  refine fun s => ⟨fun hstopped => ?stopped, fun k hrunning => ⟨fun hnone => ?idle, fun p hp => ?held⟩⟩
  case stopped =>
    cases hw : s.cp.watchdog with
    | running k => exact absurd hw (hstopped k)
    | _ => simp [exec, execWatchdogExpiry, hw]
  case idle =>
    rw [exec_watchdogExpiry hrunning, hnone]
    rfl
  case held =>
    refine ⟨settle (addHold .watchdog (watchdogExpired s)), by rw [exec_watchdogExpiry hrunning, hp]; rfl, ?_⟩
    rw [addHold_active (s := watchdogExpired s) hp]
    exact settle_settled _

end Sys2Proof.Machine

/-! PROOFS. The end of the backoff (R163, R166). -/

namespace Sys2Proof.Machine

open Sys2Proof

section
variable {s : State}

/-- The state with the backoff at its end, before the test (R166). -/
def backoffEnded (s : State) : State := { s with scu := { s.scu with slot := .none, backoff := none } }

theorem exec_backoffExpiry (h : s.scu.slot = .backoff) : exec .backoffExpiry s = .next (slotTest (backoffEnded s)) := by
  simp only [exec, execBackoffExpiry, if_pos h]
  rfl

end

/-- Settles O59: the test of R163 on the backoff's end, by ask, room and a CLAIM still queued; and a removal in BACKOFF,
which makes no test. -/
theorem backoffEnds : Obligations.BackoffEnds := by
  intro s
  refine ⟨fun hslot hask => ?noAsk, fun hslot hask hfull => ?full, fun hslot hask hroom hqueued => ?queued,
    fun p rest hslot hask hroom hnone hcutting hq hp => ?arms, fun n hslot => ?removal⟩
  case noAsk =>
    rw [exec_backoffExpiry hslot, slotTest_rests (.inl fun h => absurd h.1 (by simp [backoffEnded, hask]))]
    rfl
  case full =>
    rw [exec_backoffExpiry hslot, slotTest_waits (s := backoffEnded s) ⟨hask, .inl rfl⟩ hfull]
    rfl
  case queued =>
    rw [exec_backoffExpiry hslot, slotTest_rests (s := backoffEnded s) (.inr ⟨hroom, hqueued⟩)]
    rfl
  case arms =>
    have hstart : (backoffEnded s).vc.state ≠ .start := by simp [backoffEnded, hcutting]
    rw [exec_backoffExpiry hslot, slotTest_arms (s := backoffEnded s) ⟨hask, .inl rfl⟩ hroom hnone hstart hq hp]
    rfl
  case removal =>
    rw [removePeerClaim_untested (by simp [hslot])]
    exact ⟨rfl, hslot⟩

end Sys2Proof.Machine

/-! PROOFS. The claim list keeps one entry a station, and the own one only while the slot is HELD: the slots, the plan
and the passes (R159 to R168). -/

namespace Sys2Proof.Machine

open Sys2Proof

section
variable {s t : State}

/-! ## What keeps the list in order -/

/-- A list that only shrinks, the own entry left in it only where the slot is HELD. -/
theorem ClaimsInv.shrinks (h : ClaimsInv s) (hsub : t.scu.claims.Sublist s.scu.claims)
    (hss : t.ss.started = s.ss.started)
    (hheld : ownStation s ∈ t.scu.claims.map (·.station) → t.scu.slot = .held) : ClaimsInv t := by
  obtain ⟨honce, -⟩ := h
  have hown : ownStation t = ownStation s := congrArg (fun x => x.2.1.station) hss
  rw [ClaimsInv, hown]
  exact ⟨honce.sublist (hsub.map _), hheld⟩

/-- The SCU's record and the straps as they were. -/
theorem ClaimsInv.kept (h : ClaimsInv s) (hscu : t.scu = s.scu) (hss : t.ss.started = s.ss.started) : ClaimsInv t := by
  refine h.shrinks (by rw [hscu]) hss ?_
  rw [hscu]
  exact h.2

/-- From any slot state but HELD the slot state may move freely: the own entry is not in the list (R164). -/
theorem ClaimsInv.unheld (h : ClaimsInv s) (hslot : s.scu.slot ≠ .held) (hsub : t.scu.claims.Sublist s.scu.claims)
    (hss : t.ss.started = s.ss.started) : ClaimsInv t := by
  have hout : ownStation s ∉ s.scu.claims.map (·.station) := mt h.2 hslot
  exact h.shrinks hsub hss fun hown => absurd ((hsub.map _).subset hown) hout

theorem not_mem_withoutClaim (n : Fin 16) (cs : List Claim) : n ∉ (withoutClaim n cs).map (·.station) := by
  simp [withoutClaim]

/-- With the own entry out of the list the slot state may move freely (R168). -/
theorem ClaimsInv.withdrawn (h : ClaimsInv s) (hout : t.scu.claims = withoutClaim (ownStation s) s.scu.claims)
    (hss : t.ss.started = s.ss.started) : ClaimsInv t :=
  h.shrinks (hout ▸ List.filter_sublist) hss fun hown => absurd (hout ▸ hown) (not_mem_withoutClaim _ _)

theorem nodup_stations_concat {n : Fin 16} {cs : List Claim} (pass : Option Nat) (h : (cs.map (·.station)).Nodup)
    (hnew : n ∉ cs.map (·.station)) : ((cs ++ [(⟨n, pass⟩ : Claim)]).map (·.station)).Nodup := by
  simpa using h.concat hnew

/-- The entry of another station joins at the tail (R161, R162). -/
theorem ClaimsInv.joined {n : Fin 16} (h : ClaimsInv s) (hn : n ≠ ownStation s)
    (hnew : ¬(s.scu.claims.any fun c => c.station == n) = true) (pass : Option Nat) :
    ClaimsInv (s.onSCU fun u => { u with claims := u.claims ++ [⟨n, pass⟩] }) := by
  obtain ⟨honce, hheld⟩ := h
  refine ⟨nodup_stations_concat pass honce (by simpa using hnew), fun hown => hheld ?_⟩
  have hlisted : ownStation s ∈ (s.scu.claims ++ [(⟨n, pass⟩ : Claim)]).map (·.station) := hown
  simpa [hn.symm] using hlisted

protected theorem ClaimsInv.ite {p : Prop} [Decidable p] (hs : ClaimsInv s) (ht : ClaimsInv t) :
    ClaimsInv (if p then s else t) := by
  split <;> assumption

/-! ## Slots -/

/-- The test of R163 moves the slot from NONE and WAITING alone. -/
protected theorem ClaimsInv.slotTest (h : ClaimsInv s) : ClaimsInv (slotTest s) := by
  by_cases hslot : s.scu.slot = .held
  · rw [slotTest_rests (.inl (by simp [hslot]))]
    exact h
  · exact h.unheld hslot (by simp) (by simp)

protected theorem ClaimsInv.slotAsk (h : ClaimsInv s) : ClaimsInv (slotAsk s) := .ite h (.slotTest h)

protected theorem ClaimsInv.releaseClaim (h : ClaimsInv s) : ClaimsInv (releaseClaim s) := by
  by_cases hslot : s.scu.slot = .held
  · exact h.withdrawn (by simp [Machine.releaseClaim, hslot, removeOwnClaim]) (by simp)
  · exact h.unheld hslot (releaseClaim_claims rfl) (by simp)

protected theorem ClaimsInv.slotHead (h : ClaimsInv s) : ClaimsInv (slotHead s) := .ite h h.releaseClaim

protected theorem ClaimsInv.removePeerClaim {n : Fin 16} (h : ClaimsInv s) : ClaimsInv (removePeerClaim n s) := by
  have hsub : (removePeerClaim n s).scu.claims.Sublist s.scu.claims := by simp [withoutClaim]
  by_cases hslot : s.scu.slot = .held
  · refine h.shrinks hsub (by simp) fun _ => ?_
    rw [removePeerClaim_untested (by simp [hslot])]
    exact hslot
  · exact h.unheld hslot hsub (by simp)

protected theorem ClaimsInv.appendHeldClaim {n : Fin 16} (h : ClaimsInv s) (hn : n ≠ ownStation s) :
    ClaimsInv (appendHeldClaim n s) := by
  simp only [Machine.appendHeldClaim]
  split
  · exact h
  · rename_i hnew
    exact h.joined hn hnew _

/-- A reservation is lost from ARMED alone (R165). -/
protected theorem ClaimsInv.reservationLost (h : ClaimsInv s) : ClaimsInv (reservationLost s) := by
  by_cases hslot : s.scu.slot = .armed
  · have hclaims : (reservationLost s).scu.claims = s.scu.claims := by
      simp only [Machine.reservationLost]
      (repeat' split) <;> simp [toBackoff]
    exact h.unheld (by simp [hslot]) (by rw [hclaims]) (by simp)
  · rw [reservationLost_unarmed hslot]
    exact h

/-- A CLAIM heard renews its sender's entry or adds it (R161). -/
protected theorem ClaimsInv.claimHeard {n : Fin 16} {pass : Nat} (h : ClaimsInv s) (hn : n ≠ ownStation s) :
    ClaimsInv (claimHeard n pass s) := by
  refine .reservationLost ?_
  split
  · have hstations : (s.scu.claims.map fun c => if c.station = n then { c with pass := some pass } else c).map
        (·.station) = s.scu.claims.map (·.station) := by
      simp [apply_ite Claim.station]
    simp only [ClaimsInv, State.onSCU_scu, hstations]
    exact h
  · rename_i hnew
    exact h.joined hn hnew _

/-- The own CLAIM sent joins the list HELD, or its entry leaves it (R164, R168). -/
protected theorem ClaimsInv.ownClaimSent {pass : Nat} {givenUp : Bool} (h : ClaimsInv s) :
    ClaimsInv (ownClaimSent pass givenUp s) := by
  have hout : ClaimsInv (s.onSCU fun u => { u with claims := withoutClaim (ownStation s) s.scu.claims }) :=
    h.withdrawn rfl rfl
  obtain ⟨honce, -⟩ := hout
  refine .ite (.slotTest (h.withdrawn (by simp) (by simp))) (.ite ⟨?_, fun _ => rfl⟩ ?_)
  · exact nodup_stations_concat _ honce (not_mem_withoutClaim _ _)
  · exact h.withdrawn (by simp [toBackoff]) (by simp)

/-! ## The plan, the build and condemnation -/

protected theorem ClaimsInv.enterCondemned (h : ClaimsInv s) : ClaimsInv (enterCondemned s) := by
  have hstopped : ClaimsInv (if s.vc.state = .cutting then
      order .stop ((discardQueue s).onPC fun p => { p with holds := HoldCauses.empty, timer := .stopped })
      else (discardQueue s).onPC fun p => { p with holds := HoldCauses.empty, timer := .stopped }) := .ite h h
  exact hstopped.releaseClaim.kept (by simp [Machine.enterCondemned]) (by simp [apply_ite State.ss])

protected theorem ClaimsInv.condemnationFound (h : ClaimsInv s) : ClaimsInv (condemnationFound s) := by
  simp only [Machine.condemnationFound]
  split
  case h_1 | h_2 | h_3 | h_4 => exact h.enterCondemned
  case h_5 => exact .ite h h.enterCondemned
  case h_6 | h_7 | h_8 | h_9 => exact h

protected theorem ClaimsInv.enterFinished (h : ClaimsInv s) : ClaimsInv (enterFinished s) := by
  have hstopped : ClaimsInv (order .stop (discardQueue s)) := h
  exact hstopped.releaseClaim.kept (by simp [Machine.enterFinished]) (by simp)

protected theorem ClaimsInv.deepToReady (h : ClaimsInv s) : ClaimsInv (deepToReady s) := by
  have hstopped : ClaimsInv (order .stop s) := h
  exact hstopped.releaseClaim.kept (by simp [Machine.deepToReady]) (by simp)

protected theorem ClaimsInv.applyBuild (h : ClaimsInv s) : ClaimsInv (applyBuild s) := by
  have hstored : ClaimsInv (storeOutside (buildResult false s) s) := h.kept (by simp) (by simp)
  have hmoved : ∀ st, ClaimsInv (setEffState st (storeOutside (buildResult false s) s)) := fun st =>
    h.kept (by simp) (by simp)
  simp only [Machine.applyBuild]
  split
  · split
    · exact h
    · exact .enterFinished h
    · exact .deepToReady h
    · exact .slotHead h
  · exact .ite (hmoved _) (.ite (hmoved _) hstored)

protected theorem ClaimsInv.build {fuel : Nat} (h : ClaimsInv s) : ClaimsInv (build fuel s) := by
  induction fuel generalizing s with
  | zero => exact h.applyBuild
  | succ n ih =>
    simp only [Machine.build]
    split
    · exact h.applyBuild
    · rename_i offer _
      have hoffer : ClaimsInv (offerCeiling offer s).1 := h.kept (by simp) (by simp)
      split <;> rename_i heq <;> rw [heq] at hoffer
      · exact hoffer.condemnationFound
      · exact hoffer.applyBuild
      · exact ih (hoffer.kept (by simp) (by simp))

protected theorem ClaimsInv.handTargets {r : State × Bool} (h : ClaimsInv r.1) : ClaimsInv (handTargets r) := by
  refine .ite ?_ h
  simp only [targetsChanged]
  split
  · exact h.build
  · exact .ite (.ite h h.build) h
  · exact .ite h.build h
  · exact h

/-- The agreement findings are no part of the SCU (R131). -/
protected theorem ClaimsInv.agree (h : ClaimsInv s) : ClaimsInv (agree s) := h.kept (by simp) (by simp)

protected theorem ClaimsInv.firstPlan (h : ClaimsInv s) : ClaimsInv (firstPlan s) := h.kept (by simp) (by simp)

protected theorem ClaimsInv.replanned (h : ClaimsInv s) : ClaimsInv (handTargets (replan s)) :=
  .handTargets (h.kept (by simp) (by simp))

protected theorem ClaimsInv.ownCeilingChanged (h : ClaimsInv s) : ClaimsInv (ownCeilingChanged s) :=
  .ite (.ite h.replanned.agree h.firstPlan) h

/-! ## Passes -/

protected theorem ClaimsInv.tryStart (h : ClaimsInv s) : ClaimsInv (tryStart s) := by
  simp only [Machine.tryStart]
  split
  · exact .ite (.ite (h.kept (by simp) (by simp)) h.slotAsk) h
  · exact h

protected theorem ClaimsInv.settle (h : ClaimsInv s) : ClaimsInv (settle s) := h.tryStart

protected theorem ClaimsInv.afterOffer {r : State × OfferResult} (h : ClaimsInv r.1) : ClaimsInv (afterOffer r) := by
  obtain ⟨s, x⟩ := r
  cases x with
  | same => exact h
  | changed => exact h.ownCeilingChanged
  | condemned => exact h.condemnationFound

protected theorem ClaimsInv.completePass {p : Pass} (h : ClaimsInv s) : ClaimsInv (completePass p s) := by
  have hoffered : ClaimsInv (offerCeiling (completionOffer (conf s) p) (completeRecord p s)).1 :=
    h.kept (by simp) (by simp)
  have howed : ClaimsInv (owedBuild (Machine.afterOffer
      (offerCeiling (completionOffer (conf s) p) (completeRecord p s)))) :=
    .ite (.ite (.agree (.build hoffered.afterOffer)) hoffered.afterOffer) hoffered.afterOffer
  exact .ite howed.enterCondemned (.ite (.ite howed.slotHead.enterFinished howed.slotHead.settle) howed)

protected theorem ClaimsInv.abortPass {p : Pass} {why : AbortReason} (h : ClaimsInv s) :
    ClaimsInv (abortPass p why s) := by
  have hafter : ∀ r : State × OfferResult, ClaimsInv r.1 → ClaimsInv (afterAbortOffer r) := fun ⟨t, x⟩ ht => by
    cases x with
    | same => exact ht
    | changed => exact ht.ownCeilingChanged
    | condemned => exact ht
  exact .releaseClaim (hafter _ (h.kept (by simp) (by simp)))

protected theorem ClaimsInv.retractTest (h : ClaimsInv s) : ClaimsInv (retractTest s) :=
  .ite (.ite (.enterCondemned h) (h.kept (by simp) (by simp))) h

protected theorem ClaimsInv.abortToAborting {p : Pass} {why : AbortReason} (h : ClaimsInv s) :
    ClaimsInv (abortToAborting p why s) :=
  .retractTest ((h.abortPass (p := p) (why := why)).kept (by simp) (by simp))

end
end Sys2Proof.Machine

/-! PROOFS. The claim list through the measurement, the visit, the host commands and the line, and so through every command
(R159 to R168). -/

namespace Sys2Proof.Machine

open Sys2Proof

section
variable {s : State}

/-! ## The fit -/

protected theorem ClaimsInv.runFit {worn : LR (List (Option Int))} (h : ClaimsInv s) : ClaimsInv (runFit worn s) := by
  have hend : ∀ r : State × OfferResult, ClaimsInv r.1 → ClaimsInv (endFit r) := fun ⟨t, x⟩ ht => by
    cases x with
    | condemned => exact .enterCondemned (ht.kept (by simp) (by simp))
    | same | changed => exact .firstPlan (ht.kept (by simp) (by simp))
  simp only [Machine.runFit]
  (repeat' split)
  · exact hend _ (h.kept (by simp) (by simp))
  · exact h
  · exact h

protected theorem ClaimsInv.endSweep {w : Wheel} (h : ClaimsInv s) : ClaimsInv (endSweep w s) := by
  simp only [Machine.endSweep]
  (repeat' split)
  · exact h.kept (by simp) (by simp)
  · exact .runFit h
  · exact h.kept (by simp) (by simp)

/-! ## The visit, ESTOP and silence -/

protected theorem ClaimsInv.cutMeasurement {why : Reason} (h : ClaimsInv s) : ClaimsInv (cutMeasurement why s) :=
  h.kept (by simp) (by simp)

protected theorem ClaimsInv.endRun {why : Reason} (h : ClaimsInv s) : ClaimsInv (endRun why s) :=
  h.kept (by simp) (by simp)

protected theorem ClaimsInv.setStation {st : StationState} (h : ClaimsInv s) : ClaimsInv (setStation st s) :=
  h.kept (by simp) (by simp)

protected theorem ClaimsInv.visitEnd (h : ClaimsInv s) : ClaimsInv (visitEnd s) :=
  h.releaseClaim.kept (by simp [Machine.visitEnd]) (by simp)

protected theorem ClaimsInv.estopActive (h : ClaimsInv s) : ClaimsInv (estopActive s) := by
  have hstops : ∀ (old : StationState) (t : State), ClaimsInv t → ClaimsInv (estopStops old t) := fun old t ht => by
    simp only [estopStops]
    (repeat' split)
    · exact ht.cutMeasurement
    · exact ht.abortPass
    · exact .releaseClaim ht
    · exact ht
    · exact ht.endRun
    · exact ht
  simp only [Machine.estopActive]
  split
  · exact h
  · exact h
  · exact h
  · exact hstops _ _ (.setStation h)

protected theorem ClaimsInv.estopInactive (h : ClaimsInv s) : ClaimsInv (estopInactive s) := by
  have hexit : ClaimsInv (exitEstop s) := by
    simp only [exitEstop]
    (repeat' split)
    · exact h.enterCondemned
    · exact h.setStation
    · exact h.setStation
    · exact h.kept (by simp) (by simp)
    · exact h.setStation
    · exact h
  exact .ite hexit h

protected theorem ClaimsInv.listenExpiry (h : ClaimsInv s) : ClaimsInv (listenExpiry s) := by
  have hend : ∀ t : State, ClaimsInv t → ClaimsInv (endStart t) := fun t ht => by
    have hleft : ClaimsInv (if t.result.start.good then setStation .idle t else
        setStation .invalid (latch .settingsInvalid (t.onVC fun v => { v with settingsInvalid := true }))) :=
      .ite ht.setStation (.setStation ht)
    exact .ite hleft.estopActive hleft
  exact .ite (hend _ h) h

protected theorem ClaimsInv.silence (h : ClaimsInv s) : ClaimsInv (silence s) := by
  have hstops : ∀ (old : StationState) (t : State), ClaimsInv t → ClaimsInv (silenceStops old t) := fun old t ht => by
    simp only [silenceStops]
    (repeat' split)
    · exact ht.cutMeasurement
    · exact ht.endRun
    · exact ht.abortPass
    · exact ht
    · exact ht
  exact .releaseClaim (hstops _ _ (.setStation h))

/-! ## Host commands -/

protected theorem ClaimsInv.actWithdraw {p : List Byte} (h : ClaimsInv s) : ClaimsInv (actWithdraw p s) := by
  have hended : ClaimsInv (if s.vc.visitOpen then visitEnd s else s) := .ite h.visitEnd h
  exact .ite h (.ite h (.ite (hended.kept (by simp) (by simp)) (hended.kept (by simp) (by simp))))

protected theorem ClaimsInv.actRelease {p : List Byte} (h : ClaimsInv s) : ClaimsInv (actRelease p s) := by
  have hended : ClaimsInv (visitEnd (accept .release s)) := .visitEnd h
  exact .ite h (.ite h (.ite h hended.setStation))

protected theorem ClaimsInv.actCommand {k : HostCmd} {p : List Byte} {u : UnlockState} (h : ClaimsInv s) :
    ClaimsInv (actCommand k p u s) := by
  cases k with
  | cut => exact .ite h (.ite h (.settle (h.kept (by simp) (by simp))))
  | hold => exact .ite h (.settle (h.kept (by simp) (by simp)))
  | resume => exact .ite h (.ite h (.settle (h.kept (by simp) (by simp))))
  | withdraw => exact h.actWithdraw
  | release => exact h.actRelease
  | visit | measure | feed | calibrate | unlock | writeSettings | readSettings | readStatus | readResult | readPeers
  | readPasses => exact h.kept (by simp [Machine.actCommand]) (by simp)

protected theorem ClaimsInv.takeCommand {k : HostCmd} {p : List Byte} (h : ClaimsInv s) :
    ClaimsInv (takeCommand k p s) :=
  .ite h (.ite h (.actCommand h))

protected theorem ClaimsInv.cpSubmit {k : HostCmd} {p : List Byte} (h : ClaimsInv s) : ClaimsInv (cpSubmit k p s) :=
  .ite (.ite h h) h.takeCommand

protected theorem ClaimsInv.receiveBytes {bs : List Byte} (h : ClaimsInv s) : ClaimsInv (receiveBytes bs s) := by
  simp only [Machine.receiveBytes]
  split
  · exact .cpSubmit h
  · exact .ite h (.ite h h)

protected theorem ClaimsInv.hostWriteEnd {misread : List (Nat × Byte)} (h : ClaimsInv s) :
    ClaimsInv (hostWriteEnd misread s) := by
  have hwaiting : ∀ t : State, ClaimsInv t → ClaimsInv (takeWaiting t) := fun t ht => by
    simp only [takeWaiting]
    split
    · exact .takeCommand ht
    · exact ht
  simp only [Machine.hostWriteEnd]
  split
  · exact hwaiting _ (.ite h h)
  · exact h

/-! ## The line and the inputs -/

/-- A transmission that failed ends a withdrawal that waited: the backoff is taken from ARMED alone (R96, R165). -/
protected theorem ClaimsInv.transmissionFailed (h : ClaimsInv s) : ClaimsInv (transmissionFailed s) := by
  simp only [Machine.transmissionFailed]
  split
  · exact h
  · split
    · rename_i hlost
      have hslot : s.scu.slot = .armed := hlost.2
      exact h.unheld (by simp [hslot]) (by simp [toBackoff]) (by simp)
    · exact .slotTest h

protected theorem ClaimsInv.reportSent {e : QEntry} (h : ClaimsInv s) : ClaimsInv (reportSent e s) := by
  simp only [Machine.reportSent]
  split
  · exact h.ownClaimSent.settle
  · exact h

protected theorem ClaimsInv.ruReport {told : Bool} {before : List ViewEntry} (h : ClaimsInv s) :
    ClaimsInv (ruReport told before s) := by
  have hplans : ClaimsInv (ruPlans before s) := by
    simp only [ruPlans]
    (repeat' split)
    · exact h.firstPlan
    · exact h.replanned
    · exact h
    · exact h
  exact .ite hplans.agree.settle (.ite h.agree.settle h)

protected theorem ClaimsInv.deliverState {n : Fin 16} {p : PeerState} (h : ClaimsInv s) (hn : n ≠ ownStation s) :
    ClaimsInv (deliverState n p s) := by
  have hlatched : ClaimsInv (if mismatchLatches p (entryOf n s) then
      latch .configMismatch (s.onPeers (putPeer (takeState p (entryOf n s))))
      else s.onPeers (putPeer (takeState p (entryOf n s)))) := .ite h h
  have hrestarted := ClaimsInv.ite (p := restartFound (entryOf n s) p.annCeiling = true)
    (hlatched.removePeerClaim (n := n)) hlatched
  refine .ruReport (.ite (hrestarted.appendHeldClaim ?_) hrestarted.removePeerClaim)
  simpa [ownStation, apply_ite State.ss] using hn

/-- A good frame is delivered of another station than the own alone (R98, R99). -/
protected theorem ClaimsInv.receive {k : FrameKind} {f : LinkFrame} {deliver : State → State} (h : ClaimsInv s)
    (hd : f.station ≠ ownStation s → ClaimsInv (deliver s)) : ClaimsInv (receive k f deliver s) := by
  simp only [Machine.receive]
  (repeat' split)
  · exact h
  · exact h
  · exact h.silence
  · rename_i hother
    exact hd hother

protected theorem ClaimsInv.inputChanged {i : Input} {v : Bool} (h : ClaimsInv s) : ClaimsInv (inputChanged i v s) := by
  cases i with
  | clamped =>
    simp only [Machine.inputChanged, clampedChanged]
    (repeat' split)
    · exact h.settle
    · exact h.cutMeasurement
    · exact h.endRun
    · exact h.abortToAborting
    · exact h.settle
    · exact h
  | guardClosed => exact .ite (.settle (h.kept (by simp) (by simp))) h.settle
  | estop => exact .ite h.estopActive h.estopInactive
  | driveAtSpeed => exact .ite (h.kept (by simp) (by simp)) (h.kept (by simp) (by simp))
  | homeL | homeR => exact .ite (.retractTest h) h

end

/-! ## The commands -/

/-- Every command but RESET keeps the claim list in order (R159 to R168). -/
theorem exec_claimsInv (c : Instr) (s t : State) (hc : ∀ k p w, c ≠ .reset k p w) (h : ClaimsInv s)
    (he : exec c s = .next t) : ClaimsInv t := by
  cases c with
  | reset k p w => exact absurd rfl (hc k p w)
  | visit p | measure p | cut p | hold p | resume p | feed p | withdraw p | release p | calibrate p | unlock p
  | writeSettings p | readSettings p | readStatus p | readResult p | readPeers p | readPasses p =>
    injection he with he; subst he
    exact h.cpSubmit
  | discardedFrame frame =>
    injection he with he; subst he
    exact .ite (.ite h h) (.ite h h.receiveBytes)
  | settingsWriteDone m =>
    injection he with he; subst he
    exact h.hostWriteEnd
  | calibrationWriteDone m =>
    injection he with he; subst he
    exact h.kept (by simp) (by simp)
  | unlockTimerExpiry | rawInputChange i v =>
    injection he with he; subst he
    exact h
  | frameGapTimeout | homeTimerExpiry | markLeadingEdge | violationTimerExpiry | peerWaitTimerExpiry | listenOnlyEnd
  | receiveError f =>
    injection he with he; subst he
    exact .ite h h
  | encoderPulse w probe | markTrailingEdge probe | markTimerExpiry | driveTimerExpiry =>
    injection he with he; subst he
    exact .ite (h.kept (by simp) (by simp)) h
  | debounceExpiry i =>
    injection he with he; subst he
    exact .ite (.inputChanged h) h
  | backoffExpiry =>
    by_cases hslot : s.scu.slot = .backoff
    · rw [exec_backoffExpiry hslot] at he
      injection he with he; subst he
      exact .slotTest (h.unheld (by simp [hslot]) (.refl _) rfl)
    · simp only [exec, execBackoffExpiry, if_neg hslot] at he
      injection he with he; subst he
      exact h
  | announceTimerExpiry =>
    simp only [exec, execAnnounceTimerExpiry] at he
    split at he <;> injection he with he <;> subst he
    · exact h
    · exact .ite (.listenExpiry h) (h.kept (by simp) (by simp))
  | watchdogExpiry =>
    simp only [exec, execWatchdogExpiry] at he
    split at he <;> injection he with he <;> subst he
    · exact .ite (.settle (h.kept (by simp) (by simp))) h
    · exact h
  | tracerReading w x r =>
    simp only [exec, execTracerReading] at he
    split at he <;> injection he with he <;> subst he
    · exact .ite h h
    · exact h
  | sweepEnd w =>
    simp only [exec, execSweepEnd] at he
    split at he <;> injection he with he <;> subst he
    · exact .ite h.endSweep h
    · exact h
  | sweepTimerExpiry =>
    simp only [exec, execSweepTimerExpiry] at he
    split at he <;> injection he with he <;> subst he
    · exact h.kept (by simp) (by simp)
    · exact h
  | transmitStart =>
    simp only [exec, execTransmitStart] at he
    split at he <;> injection he with he <;> subst he
    · exact .ite h h
    · exact h
  | arbitrationLost bit =>
    simp only [exec, execArbitrationLost] at he
    split at he <;> injection he with he <;> subst he
    · exact .ite h.transmissionFailed h
    · exact h
  | ownFrameError =>
    simp only [exec, execOwnFrameError] at he
    split at he <;> injection he with he <;> subst he
    · exact h
    · have hfailed : ClaimsInv (transmissionFailed (s.onLC countFrameError)) := .transmissionFailed h
      exact .ite hfailed hfailed
  | frameSent =>
    simp only [exec, execFrameSent] at he
    split at he <;> injection he with he <;> subst he
    · exact .reportSent h
    · exact h
  | stateReceived f =>
    injection he with he; subst he
    refine .receive h fun hother => ?_
    split
    · exact h.deliverState hother
    · exact h
  | ceilingReceived f | intentReceived f =>
    injection he with he; subst he
    refine .receive h fun _ => ?_
    split
    · exact .ruReport h
    · exact h
  | claimReceived f =>
    injection he with he; subst he
    refine .receive h fun hother => ?_
    split
    · exact .ruReport (.claimHeard h hother)
    · exact h
  | releaseReceived f =>
    injection he with he; subst he
    exact .receive h fun _ => .ruReport (.removePeerClaim h)
  | peerAgeExpiry n =>
    simp only [exec, execPeerAgeExpiry] at he
    split at he <;> injection he with he <;> subst he
    · exact .ite h (.ruReport (.removePeerClaim h))
    · exact h
  | slideDone w =>
    simp only [exec, execSlideDone] at he
    split at he <;> injection he with he <;> subst he
    · exact .ite (.ite h.completePass h) h
    · exact h
  | slideFault w =>
    simp only [exec, execSlideFault] at he
    split at he <;> injection he with he <;> subst he
    · exact h.abortToAborting
    · exact h
  | passTimerExpiry =>
    simp only [exec, execPassTimerExpiry] at he
    split at he <;> injection he with he <;> subst he
    · exact h.abortToAborting
    · exact h

/-- The start sequence empties the claim list (R159, R192). -/
theorem start_claimsInv (kind : ResetKind) (straps : Straps) (m : Image) (s : State) :
    ClaimsInv (start kind straps m s) := by
  simp [ClaimsInv, start, SCU.reset]

/-- Settles O9: a reset empties the list, every other command keeps it in order, and a microsecond moves the backoff
alone. -/
theorem claimListKeepsOneEntryAStation : Obligations.ClaimListKeepsOneEntryAStation := by
  intro s t h he
  simp only [step] at he
  split at he
  case h_1 c rest _ =>
    by_cases hc : ∃ k p w, c = .reset k p w
    · obtain ⟨k, p, w, rfl⟩ := hc
      injection he with he; subst he
      exact start_claimsInv _ _ _ _
    · exact exec_claimsInv c { s with pending := rest } t (fun k p w e => hc ⟨k, p, w, e⟩) h he
  case h_2 =>
    injection he with he; subst he
    exact h

end Sys2Proof.Machine

/-! PROOFS. EVENT follows the other flags: what every operation leaves of the status word, and so every step (R183 to
R185, R192). -/

namespace Sys2Proof.Machine

open Sys2Proof

section
variable {s t : State}

/-! ## Flags latched, cleared and kept -/

/-- With a flag latched EVENT is set, and the flag with it, whatever the word held before (R183). -/
theorem eventAgrees_latchWord (w : BitVec 16) (f : Flag) : eventAgrees (latchWord w f) = true := by
  have hevent : (latchWord w f).getLsbD 15 = true := by simp [latchWord, eventWord]
  have hother : latchWord w f &&& 0x7FFF#16 ≠ 0#16 := fun hzero => by
    have hset : (latchWord w f).getLsbD f.bit = true := flagSet_latchWord_same w f
    have hmask : (0x7FFF#16).getLsbD f.bit = true := by cases f <;> decide
    simpa [hset, hmask] using congrArg (·.getLsbD f.bit) hzero
  simp [eventAgrees, hevent, hother]

theorem latch_statusInv (f : Flag) (s : State) : StatusInv (latch f s) := eventAgrees_latchWord _ f

/-- With all sixteen flags cleared none is set (R183). -/
theorem clearStatus_statusInv (s : State) : StatusInv (clearStatus s) := by
  simp [StatusInv, clearStatus, eventAgrees]

/-- The status word as it was. -/
protected theorem StatusInv.kept (h : StatusInv s) (hstatus : t.cp.status = s.cp.status) : StatusInv t := by
  rw [StatusInv, hstatus]
  exact h

protected theorem StatusInv.ite {p : Prop} [Decidable p] (hs : StatusInv s) (ht : StatusInv t) :
    StatusInv (if p then s else t) := by
  split <;> assumption

/-! ## What leaves the status word as it was -/

@[simp] theorem setStation_status (st : StationState) (s : State) : (setStation st s).cp.status = s.cp.status := by
  simp only [setStation]; (repeat' split) <;> simp

@[simp] theorem setEffState_status (st : StationState) (s : State) :
    (setEffState st s).cp.status = s.cp.status := by
  simp only [setEffState]; split <;> simp

@[simp] theorem enterFinished_status (s : State) : (enterFinished s).cp.status = s.cp.status := by
  simp [enterFinished]

@[simp] theorem firstPlan_status (s : State) : (firstPlan s).cp.status = s.cp.status := by
  simp only [firstPlan]; (repeat' split) <;> simp

@[simp] theorem writeResult_status (why : Reason) (s : State) : (writeResult why s).cp.status = s.cp.status := by
  simp [writeResult]

@[simp] theorem endCalibration_status (why : Reason) (r : Response) (s : State) :
    (endCalibration why r s).cp.status = s.cp.status := by
  simp [endCalibration]

@[simp] theorem visitEnd_status (s : State) : (visitEnd s).cp.status = s.cp.status := by
  simp only [visitEnd, clearCeiling]; split <;> simp [clearVisit]

/-! ## The plan, the build and the passes -/

/-- Entry to CONDEMNED latches its flag (R13, R183). -/
theorem enterCondemned_statusInv (s : State) : StatusInv (enterCondemned s) :=
  (latch_statusInv .condemned _).kept (setStation_status .condemned _)

protected theorem StatusInv.condemnationFound (h : StatusInv s) : StatusInv (condemnationFound s) := by
  simp only [Machine.condemnationFound]
  split
  case h_1 | h_2 | h_3 | h_4 => exact enterCondemned_statusInv s
  case h_5 => exact .ite h (enterCondemned_statusInv s)
  case h_6 | h_7 | h_8 | h_9 => exact h

/-- A DEEP build in CUTTING latches RECUT_REQUIRED (R141, R183). -/
theorem deepToReady_statusInv (s : State) : StatusInv (deepToReady s) :=
  (latch_statusInv .recutRequired _).kept (by simp only [deepToReady, storeOutside_frame]; rfl)

protected theorem StatusInv.applyBuild (h : StatusInv s) : StatusInv (applyBuild s) := by
  simp only [Machine.applyBuild]
  split
  · split
    · exact h
    · exact h.kept (by simp)
    · exact deepToReady_statusInv _
    · exact h.kept (by simp)
  · exact .ite (latch_statusInv _ _) (.ite (h.kept (by simp)) (h.kept (by simp)))

protected theorem StatusInv.build {fuel : Nat} (h : StatusInv s) : StatusInv (build fuel s) := by
  induction fuel generalizing s with
  | zero => exact h.applyBuild
  | succ n ih =>
    simp only [Machine.build]
    split
    · exact h.applyBuild
    · rename_i offer _
      have hoffer : StatusInv (offerCeiling offer s).1 := h.kept (by simp)
      split <;> rename_i heq <;> rw [heq] at hoffer
      · exact hoffer.condemnationFound
      · exact hoffer.applyBuild
      · exact ih (hoffer.kept (by simp))

protected theorem StatusInv.handTargets {r : State × Bool} (h : StatusInv r.1) : StatusInv (handTargets r) := by
  refine .ite ?_ h
  simp only [targetsChanged]
  split
  · exact h.build
  · exact .ite (.ite h h.build) h
  · exact .ite h.build h
  · exact h

protected theorem StatusInv.agree (h : StatusInv s) : StatusInv (agree s) := h.kept (by simp)

protected theorem StatusInv.settle (h : StatusInv s) : StatusInv (settle s) := h.kept (by simp)

protected theorem StatusInv.firstPlan (h : StatusInv s) : StatusInv (firstPlan s) := h.kept (by simp)

protected theorem StatusInv.replanned (h : StatusInv s) : StatusInv (handTargets (replan s)) :=
  .handTargets (h.kept (by simp))

protected theorem StatusInv.ownCeilingChanged (h : StatusInv s) : StatusInv (ownCeilingChanged s) :=
  .ite (.ite h.replanned.agree h.firstPlan) h

protected theorem StatusInv.afterOffer {r : State × OfferResult} (h : StatusInv r.1) : StatusInv (afterOffer r) := by
  obtain ⟨s, x⟩ := r
  cases x with
  | same => exact h
  | changed => exact h.ownCeilingChanged
  | condemned => exact h.condemnationFound

protected theorem StatusInv.completePass {p : Pass} (h : StatusInv s) : StatusInv (completePass p s) := by
  have hoffered : StatusInv (Machine.afterOffer (offerCeiling (completionOffer (conf s) p) (completeRecord p s))) :=
    .afterOffer (h.kept (by simp [completeRecord]))
  have howed : StatusInv (owedBuild (Machine.afterOffer
      (offerCeiling (completionOffer (conf s) p) (completeRecord p s)))) :=
    .ite (.ite (.agree (.build hoffered)) hoffered) hoffered
  exact .ite (enterCondemned_statusInv _) (.ite (.ite (howed.kept (by simp)) (howed.kept (by simp))) howed)

/-- An abort latches PASS_ABORTED (R151, R183). -/
theorem abortPass_statusInv (p : Pass) (why : AbortReason) (s : State) : StatusInv (abortPass p why s) :=
  (latch_statusInv .passAborted _).kept (by simp only [abortPass, releaseClaim_frame]; rfl)

protected theorem StatusInv.retractTest (h : StatusInv s) : StatusInv (retractTest s) :=
  .ite (.ite (enterCondemned_statusInv _) (h.kept (by simp))) h

theorem abortToAborting_statusInv (p : Pass) (why : AbortReason) (s : State) :
    StatusInv (abortToAborting p why s) :=
  .retractTest ((abortPass_statusInv p why s).kept (by simp))

/-! ## The measurement and the fit -/

protected theorem StatusInv.measurementFails {why : Reason} (h : StatusInv s) :
    StatusInv (measurementFails why s) := by
  have hlatched : StatusInv (setStation .unmeasured (latch .measureFailed (writeResult why s))) :=
    (latch_statusInv .measureFailed _).kept (setStation_status .unmeasured _)
  have hresult : StatusInv (writeResult why s) := h.kept (by simp)
  cases why with
  | estop | silenced => exact hresult
  | none | slip | markFault | markLost | probeLiftoff | driveTimeout | diameterRange | unclamped | runoutIncomplete
  | traceIncomplete | traceTimeout => exact hlatched

protected theorem StatusInv.runFit {worn : LR (List (Option Int))} (h : StatusInv s) : StatusInv (runFit worn s) := by
  have hend : ∀ r : State × OfferResult, StatusInv r.1 → StatusInv (endFit r) := fun ⟨t, x⟩ ht => by
    cases x with
    | condemned => exact enterCondemned_statusInv _
    | same | changed => exact ht.kept (by simp [endFit])
  simp only [Machine.runFit]
  (repeat' split)
  · exact hend _ (h.kept (by simp))
  · exact h
  · exact h

protected theorem StatusInv.endSweep {w : Wheel} (h : StatusInv s) : StatusInv (endSweep w s) := by
  simp only [Machine.endSweep]
  (repeat' split)
  · exact h.kept (by simp)
  · exact .runFit h
  · exact .measurementFails (h.kept (by simp))

protected theorem StatusInv.calibrationFails {why : Reason} (h : StatusInv s) :
    StatusInv (calibrationFails why s) := by
  simp only [Machine.calibrationFails]
  (repeat' split)
  · exact h.kept (by simp)
  · exact latch_statusInv _ _
  · exact latch_statusInv _ _
  · exact h

protected theorem StatusInv.endRun {why : Reason} (h : StatusInv s) : StatusInv (endRun why s) := by
  simp only [Machine.endRun]
  split
  · exact .measurementFails (h.kept (by simp))
  · exact .calibrationFails (h.kept (by simp))
  · exact h

protected theorem StatusInv.endAttempt {why : Reason} (h : StatusInv s) : StatusInv (endAttempt why s) :=
  .ite (h.kept (by simp)) h.endRun

protected theorem StatusInv.cutMeasurement {why : Reason} (h : StatusInv s) : StatusInv (cutMeasurement why s) :=
  .ite h.endRun (.measurementFails (h.kept (by simp)))

protected theorem StatusInv.measureClosed {total : LR Nat} (h : StatusInv s) :
    StatusInv (measureClosed total s) := by
  have hrcu : ∀ t : State, StatusInv t → StatusInv (closeRcu t) := fun t ht =>
    .ite (ht.kept (by simp)) (.measurementFails (ht.kept (by simp)))
  exact .ite (hrcu _ (h.kept (by simp))) (.endRun h)

protected theorem StatusInv.calibrateClosed {c : CalRun} {total : Nat} (h : StatusInv s) :
    StatusInv (calibrateClosed c total s) :=
  .ite (h.kept (by simp)) (h.kept (by simp))

protected theorem StatusInv.closeAttempt (h : StatusInv s) : StatusInv (closeAttempt s) := by
  simp only [Machine.closeAttempt]
  split
  · exact .ite (.calibrateClosed h) (.endAttempt h)
  · exact .ite (.measureClosed h) (.endAttempt h)

protected theorem StatusInv.supply {w : Wheel} {probe : Int} (h : StatusInv s) : StatusInv (supply w probe s) := by
  have hbin : StatusInv (computeBin w s) := h.kept (by simp)
  refine .ite ?_ h
  simp only [supplyBin]
  split
  · exact .ite (.ite (.endAttempt hbin) hbin) hbin
  · exact hbin

protected theorem StatusInv.supplyBins {probe : LR Int} (h : StatusInv s) : StatusInv (supplyBins probe s) :=
  h.supply.supply

protected theorem StatusInv.encoderPulse {w : Wheel} {probe : Int} (h : StatusInv s) :
    StatusInv (encoderPulse w probe s) :=
  .ite (.ite (.endAttempt h) h) (.supply h)

protected theorem StatusInv.validMark {probe : LR Int} (h : StatusInv s) : StatusInv (validMark probe s) := by
  have hrevolution : StatusInv (newRevolution s) := .ite h h
  have hrestarted : StatusInv (restartWindows (newRevolution s)) := hrevolution.kept (by simp)
  exact .ite (.ite (.ite hrestarted.endAttempt hrestarted) (.ite (.closeAttempt hrevolution) (.supplyBins hrevolution)))
    hrevolution

protected theorem StatusInv.markPulseEnd {probe : LR Int} (h : StatusInv s) : StatusInv (markPulseEnd probe s) :=
  .ite (.supplyBins h) (.validMark h)

protected theorem StatusInv.driveLost (h : StatusInv s) : StatusInv (driveLost s) := by
  have hrestarted : StatusInv (restartWindows (s.onRTU fun u =>
      { u with markTimer := none, driveTimer := some Config.driveTime, pulseOn := false, firstMark := false })) :=
    h.kept (by simp)
  exact .ite (.ite hrestarted.endAttempt hrestarted) h

/-! ## The visit, ESTOP and silence -/

/-- Entry to ESTOP latches ESTOP_SEEN; in SILENCED the flag alone is latched (R17, R176, R183). -/
protected theorem StatusInv.estopActive (h : StatusInv s) : StatusInv (estopActive s) := by
  have hstops : ∀ (old : StationState) (t : State), StatusInv t → StatusInv (estopStops old t) := fun old t ht => by
    simp only [estopStops]
    (repeat' split)
    · exact ht.cutMeasurement
    · exact abortPass_statusInv _ _ t
    · exact ht.kept (by simp)
    · exact ht
    · exact ht.endRun
    · exact ht
  simp only [Machine.estopActive]
  split
  · exact h
  · exact latch_statusInv _ s
  · exact h
  · exact hstops _ _ ((latch_statusInv .estopSeen _).kept (setStation_status .estop _))

protected theorem StatusInv.estopInactive (h : StatusInv s) : StatusInv (estopInactive s) := by
  have hexit : StatusInv (exitEstop s) := by
    simp only [exitEstop]
    (repeat' split)
    · exact enterCondemned_statusInv s
    · exact h.kept (by simp)
    · exact h.kept (by simp)
    · exact h.kept (by simp [estopToAborted])
    · exact h.kept (by simp)
    · exact h
  exact .ite hexit h

/-- The end of START latches SETTINGS_INVALID where the start found the image bad (R3, R183). -/
protected theorem StatusInv.listenExpiry (h : StatusInv s) : StatusInv (listenExpiry s) := by
  have hend : ∀ t : State, StatusInv t → StatusInv (endStart t) := fun t ht => by
    have hleft : StatusInv (if t.result.start.good then setStation .idle t else
        setStation .invalid (latch .settingsInvalid (t.onVC fun v => { v with settingsInvalid := true }))) :=
      .ite (ht.kept (by simp)) ((latch_statusInv .settingsInvalid _).kept (setStation_status .invalid _))
    exact .ite hleft.estopActive hleft
  exact .ite (hend _ h) h

/-- A duplicate station number latches its flag (R99, R183). -/
theorem silence_statusInv (s : State) : StatusInv (silence s) := by
  have hstops : ∀ (old : StationState) (t : State), StatusInv t → StatusInv (silenceStops old t) := fun old t ht => by
    simp only [silenceStops]
    (repeat' split)
    · exact ht.cutMeasurement
    · exact ht.endRun
    · exact abortPass_statusInv _ _ t
    · exact ht
    · exact ht
  have hlatched : StatusInv (setStation .silenced ((latch .duplicateId s).onLC fun c =>
      { c with queue := [], overflow := none, onLine := none, announce := none, silenced := true })) :=
    (latch_statusInv .duplicateId s).kept (setStation_status .silenced _)
  exact (hstops s.vc.state _ hlatched).kept (by simp only [dropPlan_frame, releaseClaim_frame, silence])

/-! ## Host commands -/

protected theorem StatusInv.actWithdraw {p : List Byte} (h : StatusInv s) : StatusInv (actWithdraw p s) := by
  have hended : StatusInv (if s.vc.visitOpen then visitEnd s else s) := .ite (h.kept (by simp)) h
  exact .ite h (.ite h (.ite (hended.kept (by simp)) (hended.kept (by simp))))

/-- READ_STATUS clears the flags; READ_RESULT latches OLD_RESULT where the result was read before (R183, R185). -/
protected theorem StatusInv.actCommand {k : HostCmd} {p : List Byte} {u : UnlockState} (h : StatusInv s) :
    StatusInv (actCommand k p u s) := by
  cases k with
  | visit => exact .ite h (.ite h (.ite h (h.kept (by simp))))
  | measure => exact .ite h (.ite h (h.kept (by simp)))
  | cut => exact .ite h (.ite h (.settle (h.kept (by simp))))
  | withdraw => exact h.actWithdraw
  | release => exact .ite h (.ite h (.ite h (h.kept (by simp))))
  | readStatus => exact clearStatus_statusInv _
  | readResult => exact .ite h (latch_statusInv _ _)
  | unlock =>
    simp only [Machine.actCommand, actUnlock]
    (repeat' split) <;> exact h
  | hold | resume | feed | calibrate | writeSettings | readSettings | readPeers | readPasses =>
    exact h.kept (by simp [Machine.actCommand])

protected theorem StatusInv.takeCommand {k : HostCmd} {p : List Byte} (h : StatusInv s) :
    StatusInv (takeCommand k p s) :=
  .ite (clearStatus_statusInv _) (.ite h (.actCommand h))

protected theorem StatusInv.cpSubmit {k : HostCmd} {p : List Byte} (h : StatusInv s) : StatusInv (cpSubmit k p s) :=
  .ite (.ite (latch_statusInv _ _) h) h.takeCommand

protected theorem StatusInv.receiveBytes {bs : List Byte} (h : StatusInv s) : StatusInv (receiveBytes bs s) := by
  simp only [Machine.receiveBytes]
  split
  · exact .cpSubmit h
  · exact .ite (latch_statusInv _ _) (.ite h h)

protected theorem StatusInv.hostWriteEnd {misread : List (Nat × Byte)} (h : StatusInv s) :
    StatusInv (hostWriteEnd misread s) := by
  have hwaiting : ∀ t : State, StatusInv t → StatusInv (takeWaiting t) := fun t ht => by
    simp only [takeWaiting]
    split
    · exact .takeCommand ht
    · exact ht
  simp only [Machine.hostWriteEnd]
  split
  · exact hwaiting _ (.ite h h)
  · exact h

protected theorem StatusInv.calWriteEnd {misread : List (Nat × Byte)} (h : StatusInv s) :
    StatusInv (calWriteEnd misread s) := by
  simp only [Machine.calWriteEnd]
  split
  · exact .ite (h.kept (by simp)) (h.kept (by simp))
  · exact h

/-! ## The line and the inputs -/

protected theorem StatusInv.removePeerClaim {n : Fin 16} (h : StatusInv s) : StatusInv (removePeerClaim n s) :=
  h.kept (by simp)

protected theorem StatusInv.ruReport {told : Bool} {before : List ViewEntry} (h : StatusInv s) :
    StatusInv (ruReport told before s) := by
  have hplans : StatusInv (ruPlans before s) := by
    simp only [ruPlans]
    (repeat' split)
    · exact h.firstPlan
    · exact h.replanned
    · exact h
    · exact h
  exact .ite hplans.agree.settle (.ite h.agree.settle h)

protected theorem StatusInv.deliverState {n : Fin 16} {p : PeerState} (h : StatusInv s) :
    StatusInv (deliverState n p s) := by
  have hlatched : StatusInv (if mismatchLatches p (entryOf n s) then
      latch .configMismatch (s.onPeers (putPeer (takeState p (entryOf n s))))
      else s.onPeers (putPeer (takeState p (entryOf n s)))) := .ite (latch_statusInv _ _) h
  have hrestarted := StatusInv.ite (p := restartFound (entryOf n s) p.annCeiling = true)
    (hlatched.removePeerClaim (n := n)) hlatched
  exact .ruReport (.ite (hrestarted.kept (by simp)) hrestarted.removePeerClaim)

protected theorem StatusInv.receive {k : FrameKind} {f : LinkFrame} {deliver : State → State} (h : StatusInv s)
    (hd : StatusInv (deliver s)) : StatusInv (receive k f deliver s) :=
  .ite h (.ite (.ite h (silence_statusInv s)) hd)

protected theorem StatusInv.inputChanged {i : Input} {v : Bool} (h : StatusInv s) : StatusInv (inputChanged i v s) := by
  cases i with
  | clamped =>
    simp only [Machine.inputChanged, clampedChanged]
    (repeat' split)
    · exact h.settle
    · exact h.cutMeasurement
    · exact h.endRun
    · exact abortToAborting_statusInv _ _ s
    · exact h.settle
    · exact h
  | guardClosed => exact h.kept (by simp [Machine.inputChanged])
  | estop => exact .ite h.estopActive h.estopInactive
  | driveAtSpeed => exact .ite (.ite h h) h.driveLost
  | homeL | homeR => exact .ite (.retractTest h) h

end

/-! ## The commands -/

/-- Every command keeps EVENT in step with the other flags (R183 to R185, R192). -/
theorem exec_statusInv (c : Instr) (s t : State) (h : StatusInv s) (he : exec c s = .next t) : StatusInv t := by
  cases c with
  | reset k p w =>
    injection he with he; subst he
    exact eventAgrees_latchWord 0#16 .restarted
  | visit p | measure p | cut p | hold p | resume p | feed p | withdraw p | release p | calibrate p | unlock p
  | writeSettings p | readSettings p | readStatus p | readResult p | readPeers p | readPasses p =>
    injection he with he; subst he
    exact h.cpSubmit
  | discardedFrame frame =>
    injection he with he; subst he
    exact .ite (.ite (latch_statusInv _ _) h) (.ite h h.receiveBytes)
  | settingsWriteDone m =>
    injection he with he; subst he
    exact h.hostWriteEnd
  | calibrationWriteDone m =>
    injection he with he; subst he
    exact h.calWriteEnd
  | unlockTimerExpiry | rawInputChange i v =>
    injection he with he; subst he
    exact h
  | frameGapTimeout | violationTimerExpiry | peerWaitTimerExpiry =>
    injection he with he; subst he
    exact .ite (latch_statusInv _ _) h
  | homeTimerExpiry | markLeadingEdge | listenOnlyEnd | receiveError f =>
    injection he with he; subst he
    exact .ite h h
  | encoderPulse w probe =>
    injection he with he; subst he
    exact .ite h.encoderPulse h
  | markTrailingEdge probe =>
    injection he with he; subst he
    exact .ite h.markPulseEnd h
  | markTimerExpiry =>
    injection he with he; subst he
    exact .ite h.endAttempt h
  | driveTimerExpiry =>
    injection he with he; subst he
    exact .ite h.endRun h
  | debounceExpiry i =>
    injection he with he; subst he
    exact .ite (.inputChanged h) h
  | backoffExpiry =>
    injection he with he; subst he
    exact .ite (h.kept (by simp)) h
  | announceTimerExpiry =>
    simp only [exec, execAnnounceTimerExpiry] at he
    split at he <;> injection he with he <;> subst he
    · exact h
    · exact .ite (.listenExpiry h) (h.kept (by simp))
  | watchdogExpiry =>
    simp only [exec, execWatchdogExpiry] at he
    split at he <;> injection he with he <;> subst he
    · have hexpired := latch_statusInv .commTimeout (s.onCP fun c => { c with watchdog := .expired })
      exact .ite (hexpired.kept (by simp)) hexpired
    · exact h
  | tracerReading w x r =>
    simp only [exec, execTracerReading] at he
    split at he <;> injection he with he <;> subst he
    · exact .ite h h
    · exact h
  | sweepEnd w =>
    simp only [exec, execSweepEnd] at he
    split at he <;> injection he with he <;> subst he
    · exact .ite h.endSweep h
    · exact h
  | sweepTimerExpiry =>
    simp only [exec, execSweepTimerExpiry] at he
    split at he <;> injection he with he <;> subst he
    · exact .measurementFails h
    · exact h
  | transmitStart =>
    simp only [exec, execTransmitStart] at he
    split at he <;> injection he with he <;> subst he
    · exact .ite h h
    · exact h
  | arbitrationLost bit =>
    simp only [exec, execArbitrationLost] at he
    split at he <;> injection he with he <;> subst he
    · exact .ite (h.kept (by simp)) h
    · exact h
  | ownFrameError =>
    simp only [exec, execOwnFrameError] at he
    split at he <;> injection he with he <;> subst he
    · exact h
    · exact .ite (latch_statusInv _ _) (h.kept (by simp))
  | frameSent =>
    simp only [exec, execFrameSent] at he
    split at he <;> injection he with he <;> subst he
    · exact h.kept (by simp)
    · exact h
  | stateReceived f =>
    injection he with he; subst he
    refine .receive h ?_
    split
    · exact h.deliverState
    · exact h
  | ceilingReceived f | intentReceived f =>
    injection he with he; subst he
    refine .receive h ?_
    split
    · exact .ruReport h
    · exact h
  | claimReceived f =>
    injection he with he; subst he
    refine .receive h ?_
    split
    · exact .ruReport (h.kept (by simp))
    · exact h
  | releaseReceived f =>
    injection he with he; subst he
    exact .receive h (.ruReport (.removePeerClaim h))
  | peerAgeExpiry n =>
    simp only [exec, execPeerAgeExpiry] at he
    split at he <;> injection he with he <;> subst he
    · exact .ite h (.ruReport (.removePeerClaim h))
    · exact h
  | slideDone w =>
    simp only [exec, execSlideDone] at he
    split at he <;> injection he with he <;> subst he
    · exact .ite (.ite h.completePass h) h
    · exact h
  | slideFault w =>
    simp only [exec, execSlideFault] at he
    split at he <;> injection he with he <;> subst he
    · exact abortToAborting_statusInv _ _ s
    · exact h
  | passTimerExpiry =>
    simp only [exec, execPassTimerExpiry] at he
    split at he <;> injection he with he <;> subst he
    · exact abortToAborting_statusInv _ _ s
    · exact h

/-- Settles O5: every command keeps EVENT in step, a reset with RESTARTED among them, and a microsecond leaves the
status word alone. -/
theorem eventFlagFollowsTheOthers : Obligations.EventFlagFollowsTheOthers := by
  intro s t h he
  simp only [step] at he
  split at he
  case h_1 c rest _ => exact exec_statusInv c { s with pending := rest } t h he
  case h_2 =>
    injection he with he; subst he
    exact h

end Sys2Proof.Machine

/-! PROOFS. The image keeps its canonical form: which operations write the store, and so every step (R187, R190 to
R192). -/

namespace Sys2Proof.Machine

open Sys2Proof

/-! ## What the store's writes are kept by -/

/-- The image and the two writes that may be in progress (R190, R191). -/
def SS.stored (t : SS) : Image × Option StoreWrite × Option StoreWrite := (t.image, t.hostWrite, t.calWrite)

/-- The calibration in progress is no part of what is stored. -/
@[simp] theorem SS.stored_calRun (t : SS) (r : Option CalRun) : ({ t with calRun := r } : SS).stored = t.stored := rfl

@[simp] theorem endCalibration_stored (why : Reason) (r : Response) (s : State) :
    (endCalibration why r s).ss.stored = s.ss.stored := by
  simp [endCalibration]

@[simp] theorem endRun_stored (why : Reason) (s : State) : (endRun why s).ss.stored = s.ss.stored := by
  simp only [endRun, calibrationFails]; (repeat' split) <;> simp

@[simp] theorem endAttempt_stored (why : Reason) (s : State) : (endAttempt why s).ss.stored = s.ss.stored := by
  simp only [endAttempt]; split <;> simp

@[simp] theorem cutMeasurement_stored (why : Reason) (s : State) :
    (cutMeasurement why s).ss.stored = s.ss.stored := by
  simp only [cutMeasurement]; split <;> simp

@[simp] theorem measureClosed_stored (total : LR Nat) (s : State) :
    (measureClosed total s).ss.stored = s.ss.stored := by
  simp only [measureClosed]; split <;> simp

@[simp] theorem supply_stored (w : Wheel) (probe : Int) (s : State) :
    (supply w probe s).ss.stored = s.ss.stored := by
  simp only [supply, supplyBin]; (repeat' split) <;> simp

@[simp] theorem supplyBins_stored (probe : LR Int) (s : State) : (supplyBins probe s).ss.stored = s.ss.stored := by
  simp [supplyBins]

@[simp] theorem encoderPulse_stored (w : Wheel) (probe : Int) (s : State) :
    (encoderPulse w probe s).ss.stored = s.ss.stored := by
  simp only [encoderPulse]; (repeat' split) <;> simp

@[simp] theorem driveLost_stored (s : State) : (driveLost s).ss.stored = s.ss.stored := by
  simp only [driveLost]; (repeat' split) <;> simp

@[simp] theorem estopActive_stored (s : State) : (estopActive s).ss.stored = s.ss.stored := by
  simp only [estopActive, enterEstop, estopStops]; (repeat' split) <;> simp

@[simp] theorem listenExpiry_stored (s : State) : (listenExpiry s).ss.stored = s.ss.stored := by
  simp only [listenExpiry, endStart]; (repeat' split) <;> simp

@[simp] theorem silence_stored (s : State) : (silence s).ss.stored = s.ss.stored := by
  simp only [silence, silenceStops]; (repeat' split) <;> simp

@[simp] theorem inputChanged_stored (i : Input) (v : Bool) (s : State) :
    (inputChanged i v s).ss.stored = s.ss.stored := by
  cases i with
  | clamped => simp only [inputChanged, clampedChanged]; (repeat' split) <;> simp
  | guardClosed => simp [inputChanged]
  | estop | homeL | homeR => simp only [inputChanged, homeEdge]; split <;> simp
  | driveAtSpeed => simp only [inputChanged, driveAtSpeed]; (repeat' split) <;> simp

/-- No host command but WRITE_SETTINGS begins a write at once (R190). -/
theorem actCommand_stored (k : HostCmd) (p : List Byte) (u : UnlockState) (s : State) (h : k ≠ .writeSettings) :
    (actCommand k p u s).ss.stored = s.ss.stored := by
  cases k with
  | writeSettings => exact absurd rfl h
  | calibrate => simp only [actCommand, actCalibrate]; (repeat' split) <;> simp
  | visit | measure | cut | hold | resume | feed | withdraw | release | unlock | readSettings | readStatus | readResult
  | readPeers | readPasses => simp [actCommand]

section
variable {s t : State}

/-! ## The operations that write the store -/

/-- What is stored as it was. -/
protected theorem ImagesInv.kept (h : ImagesInv s) (hss : t.ss.stored = s.ss.stored) : ImagesInv t := by
  obtain ⟨himage, hhost, hcal⟩ : _ ∧ _ ∧ _ := by simpa only [SS.stored, Prod.mk.injEq] using hss
  rw [ImagesInv, himage, hhost, hcal]
  exact h

protected theorem ImagesInv.ite {p : Prop} [Decidable p] (hs : ImagesInv s) (ht : ImagesInv t) :
    ImagesInv (if p then s else t) := by
  split <;> assumption

/-- A write of the host begun: its image is in form, and the image it began from was (R190). -/
theorem ImagesInv.hostWriteBegun (h : ImagesInv s) (off : Nat) (data : List Byte) :
    ImagesInv (s.onSS fun t => { t with
      image := (beginWrite s.ss.image off data).1, hostWrite := some (beginWrite s.ss.image off data).2 }) := by
  obtain ⟨himage, -, hcal⟩ := h
  obtain ⟨hwritten, hbefore⟩ := imageWf_beginWrite s.ss.image off data himage
  exact ⟨hwritten, by rintro _ ⟨⟩; exact hbefore ▸ himage, hcal⟩

/-- A calibration write begun (R191). -/
theorem ImagesInv.calWriteBegun (h : ImagesInv s) (off : Nat) (data : List Byte) (r : Option CalRun) :
    ImagesInv (s.onSS fun t => { t with
      image := (beginWrite s.ss.image off data).1, calWrite := some (beginWrite s.ss.image off data).2
      calRun := r }) := by
  obtain ⟨himage, hhost, -⟩ := h
  obtain ⟨hwritten, hbefore⟩ := imageWf_beginWrite s.ss.image off data himage
  exact ⟨hwritten, hhost, by rintro _ ⟨⟩; exact hbefore ▸ himage⟩

protected theorem ImagesInv.closeAttempt (h : ImagesInv s) : ImagesInv (closeAttempt s) := by
  have hcalibrate : ∀ (c : CalRun) (total : Nat) (t : State), ImagesInv t → ImagesInv (calibrateClosed c total t) :=
    fun c total t ht => .ite (ImagesInv.calWriteBegun (s := leaveRun .none t) ht _ _ _) (ht.kept (by simp))
  simp only [Machine.closeAttempt]
  split
  · exact .ite (hcalibrate _ _ _ h) (h.kept (by simp))
  · exact .ite (h.kept (by simp)) (h.kept (by simp))

protected theorem ImagesInv.validMark {probe : LR Int} (h : ImagesInv s) : ImagesInv (validMark probe s) := by
  have hrevolution : ImagesInv (newRevolution s) := .ite h h
  have hrestarted : ImagesInv (restartWindows (newRevolution s)) := hrevolution.kept (by simp)
  exact .ite (.ite (.ite (hrestarted.kept (by simp)) hrestarted)
    (.ite (.closeAttempt hrevolution) (hrevolution.kept (by simp)))) hrevolution

/-- The mark that closes a calibration begins its write (R36, R191). -/
protected theorem ImagesInv.markPulseEnd {probe : LR Int} (h : ImagesInv s) : ImagesInv (markPulseEnd probe s) :=
  .ite (h.kept (by simp)) (.validMark h)

protected theorem ImagesInv.takeCommand {k : HostCmd} {p : List Byte} (h : ImagesInv s) :
    ImagesInv (takeCommand k p s) := by
  refine .ite h (.ite h ?_)
  by_cases hk : k = .writeSettings
  · subst hk
    simp only [actCommand, actWriteSettings]
    (repeat' split)
    · exact h
    · exact h
    · exact h
    · exact h
    · exact ImagesInv.hostWriteBegun (s := commandTaken s) h _ _
  · exact h.kept (by simp [actCommand_stored _ _ _ _ hk])

protected theorem ImagesInv.cpSubmit {k : HostCmd} {p : List Byte} (h : ImagesInv s) : ImagesInv (cpSubmit k p s) :=
  .ite (.ite h h) h.takeCommand

protected theorem ImagesInv.receiveBytes {bs : List Byte} (h : ImagesInv s) : ImagesInv (receiveBytes bs s) := by
  simp only [Machine.receiveBytes]
  split
  · exact .cpSubmit h
  · exact .ite h (.ite h h)

/-- A readback leaves the image in form, the write no longer in progress (R190). -/
protected theorem ImagesInv.hostWriteEnd {misread : List (Nat × Byte)} (h : ImagesInv s) :
    ImagesInv (hostWriteEnd misread s) := by
  have hwaiting : ∀ t : State, ImagesInv t → ImagesInv (takeWaiting t) := fun t ht => by
    simp only [takeWaiting]
    split
    · exact .takeCommand ht
    · exact ht
  simp only [Machine.hostWriteEnd]
  split
  · rename_i w _
    obtain ⟨himage, -, hcal⟩ := h
    have hread : ImagesInv (s.onSS fun t => { t with image := afterReadback t.image w misread, hostWrite := none }) :=
      ⟨imageWf_afterReadback _ w misread himage, nofun, hcal⟩
    exact hwaiting _ (.ite hread hread)
  · exact h

protected theorem ImagesInv.calWriteEnd {misread : List (Nat × Byte)} (h : ImagesInv s) :
    ImagesInv (calWriteEnd misread s) := by
  simp only [Machine.calWriteEnd]
  split
  · rename_i w c _ _
    obtain ⟨himage, hhost, -⟩ := h
    have hread : ImagesInv (s.onSS fun t => { t with image := afterReadback t.image w misread, calWrite := none }) :=
      ⟨imageWf_afterReadback _ w misread himage, hhost, nofun⟩
    exact .ite (hread.kept (by simp)) (hread.kept (by simp))
  · exact h

/-- The start sequence takes up the image, or as much of a write in progress as had reached the store (R190 to
R192). -/
protected theorem ImagesInv.start {kind : ResetKind} {straps : Straps} {written : Nat} (h : ImagesInv s) :
    ImagesInv (start kind straps (imageAtReset written s.ss) s) := by
  obtain ⟨himage, hhost, hcal⟩ := h
  refine ⟨?_, nofun, nofun⟩
  show imageWf (imageAtReset written s.ss) = true
  simp only [imageAtReset]
  split
  · rename_i w hw
    exact imageWf_interruptedWrite w written (hhost w hw)
  · rename_i w _ hw
    exact imageWf_interruptedWrite w written (hcal w hw)
  · exact himage

end

/-! ## The commands -/

/-- A frame received, given what its delivery leaves stored (R97 to R99). -/
theorem receive_stored {k : FrameKind} {f : LinkFrame} {deliver : State → State} {s : State}
    (hd : (deliver s).ss.stored = s.ss.stored) : (receive k f deliver s).ss.stored = s.ss.stored := by
  simp only [receive]; (repeat' split) <;> simp [hd]

/-- Every command keeps the images in form (R187, R190 to R192). -/
theorem exec_imagesInv (c : Instr) (s t : State) (h : ImagesInv s) (he : exec c s = .next t) : ImagesInv t := by
  cases c with
  | reset k p w =>
    injection he with he; subst he
    exact h.start
  | visit p | measure p | cut p | hold p | resume p | feed p | withdraw p | release p | calibrate p | unlock p
  | writeSettings p | readSettings p | readStatus p | readResult p | readPeers p | readPasses p =>
    injection he with he; subst he
    exact h.cpSubmit
  | discardedFrame frame =>
    injection he with he; subst he
    exact .ite (.ite h h) (.ite h h.receiveBytes)
  | settingsWriteDone m =>
    injection he with he; subst he
    exact h.hostWriteEnd
  | calibrationWriteDone m =>
    injection he with he; subst he
    exact h.calWriteEnd
  | markTrailingEdge probe =>
    injection he with he; subst he
    exact .ite h.markPulseEnd h
  | unlockTimerExpiry | rawInputChange i v =>
    injection he with he; subst he
    exact h
  | frameGapTimeout | homeTimerExpiry | encoderPulse | markLeadingEdge | markTimerExpiry | driveTimerExpiry
  | debounceExpiry | listenOnlyEnd | receiveError | violationTimerExpiry | peerWaitTimerExpiry | backoffExpiry =>
    injection he with he; subst he
    exact .ite (h.kept (by simp)) (h.kept (by simp))
  | announceTimerExpiry =>
    simp only [exec, execAnnounceTimerExpiry] at he
    split at he <;> injection he with he <;> subst he
    · exact h
    · exact .ite (h.kept (by simp)) (h.kept (by simp))
  | watchdogExpiry =>
    simp only [exec, execWatchdogExpiry] at he
    split at he <;> injection he with he <;> subst he
    · exact .ite (h.kept (by simp)) h
    · exact h
  | tracerReading w x r | sweepEnd w =>
    simp only [exec, execTracerReading, execSweepEnd] at he
    split at he <;> injection he with he <;> subst he
    · exact .ite (h.kept (by simp)) h
    · exact h
  | sweepTimerExpiry =>
    simp only [exec, execSweepTimerExpiry] at he
    split at he <;> injection he with he <;> subst he
    · exact h.kept (by simp)
    · exact h
  | transmitStart =>
    simp only [exec, execTransmitStart] at he
    split at he <;> injection he with he <;> subst he
    · exact .ite h h
    · exact h
  | arbitrationLost bit =>
    simp only [exec, execArbitrationLost] at he
    split at he <;> injection he with he <;> subst he
    · exact .ite (h.kept (by simp)) h
    · exact h
  | ownFrameError =>
    simp only [exec, execOwnFrameError] at he
    split at he <;> injection he with he <;> subst he
    · exact h
    · exact .ite (h.kept (by simp)) (h.kept (by simp))
  | frameSent =>
    simp only [exec, execFrameSent] at he
    split at he <;> injection he with he <;> subst he
    · exact h.kept (by simp)
    · exact h
  | stateReceived f | ceilingReceived f | intentReceived f | claimReceived f =>
    injection he with he; subst he
    refine h.kept (receive_stored ?_)
    split <;> simp
  | releaseReceived f =>
    injection he with he; subst he
    exact h.kept (receive_stored (by simp))
  | peerAgeExpiry n =>
    simp only [exec, execPeerAgeExpiry] at he
    split at he <;> injection he with he <;> subst he
    · exact .ite h (h.kept (by simp))
    · exact h
  | slideDone w =>
    simp only [exec, execSlideDone] at he
    split at he <;> injection he with he <;> subst he
    · exact .ite (.ite (h.kept (by simp)) h) h
    · exact h
  | slideFault w =>
    simp only [exec, execSlideFault] at he
    split at he <;> injection he with he <;> subst he
    · exact h.kept (by simp)
    · exact h
  | passTimerExpiry =>
    simp only [exec, execPassTimerExpiry] at he
    split at he <;> injection he with he <;> subst he
    · exact h.kept (by simp)
    · exact h

/-- Settles O6: every command keeps the image and both before-images in form, and a microsecond leaves the store
alone. -/
theorem imageKeepsItsForm : Obligations.ImageKeepsItsForm := by
  intro s t h he
  simp only [step] at he
  split at he
  case h_1 c rest _ => exact exec_imagesInv c { s with pending := rest } t h he
  case h_2 =>
    injection he with he; subst he
    exact h

end Sys2Proof.Machine

/-! PROOFS. A host command at the port: what is done with it before it is acted on, and the settings commands UNLOCK,
WRITE_SETTINGS and READ_SETTINGS (R181, R182, R184, R187 to R190). -/

namespace Sys2Proof.Machine

open Sys2Proof

/-! ## Before a command is acted on -/

/-- A critical flag answers any command but READ_STATUS (R184). -/
theorem takeCommand_critical {k : HostCmd} {p : List Byte} {s : State} (hk : k ≠ .readStatus)
    (hcritical : anyCritical s.cp.status = true) :
    takeCommand k p s = clearStatus (respond (.status k s.cp.status) (commandTaken s)) :=
  if_pos ⟨hk, hcritical⟩

/-- A payload of a length that the command does not take (R182). -/
theorem takeCommand_badLength {k : HostCmd} {p : List Byte} {s : State}
    (hclear : k = .readStatus ∨ anyCritical s.cp.status = false) (hlength : lengthFits k p.length = false) :
    takeCommand k p s = refusal k .badArgument s := by
  have hdata : ¬(k ≠ .readStatus ∧ anyCritical s.cp.status = true) := by
    rintro ⟨hk, hcritical⟩
    rcases hclear with rfl | hclear
    · exact hk rfl
    · simp [hclear] at hcritical
  simp only [takeCommand, if_neg hdata, hlength, if_true, refuse_commandTaken]

/-- Settles O23: a command that finds a WRITE_SETTINGS being taken waits or is lost; any other is taken, and a critical
flag is tested before the length. -/
theorem portBeforeAction : Obligations.PortBeforeAction := by
  intro k p s
  refine ⟨fun hwrite hwaiting => ?waits, fun hwrite hwaiting => ?discarded, fun hwrite hk hcritical => ?status,
    fun hwrite hclear hlength => ?badLength⟩
  case waits =>
    rw [exec_instr, cpSubmit, if_pos (Option.isSome_iff_ne_none.2 hwrite), if_neg (by simp [hwaiting])]
    rfl
  case discarded =>
    rw [exec_instr, cpSubmit, if_pos (Option.isSome_iff_ne_none.2 hwrite),
      if_pos (Option.isSome_iff_ne_none.2 hwaiting)]
    rfl
  case status =>
    rw [exec_instr_taken k p s hwrite, takeCommand_critical hk hcritical]
    simp only [respond, State.onOut, commandTaken_frame, Outputs.grewBy, List.append_nil]
    rfl
  case badLength => rw [exec_instr_taken k p s hwrite, takeCommand_badLength hclear hlength]

/-! ## UNLOCK -/

/-- IDLE or INVALID with no calibration (R4, R189, R190). -/
theorem freeOpen_iff (s : State) :
    freeOpen s = true ↔ (s.vc.state = .idle ∨ s.vc.state = .invalid) ∧ s.vc.calRunning = false := by
  simp [freeOpen, isOpenState]

/-- The areas that an area byte names (R198). -/
theorem areaOf_eq_some {n : Nat} {a : Area} :
    areaOf n = some a ↔ (n = 1 ∧ a = .general) ∨ (n = 2 ∧ a = .variants) := by
  unfold areaOf
  split <;> simp_all [eq_comm]

theorem actUnlock_accepted {p : List Byte} {s : State} {a : Area} (hfree : freeOpen s = true)
    (ha : areaOf (field p 0 1) = some a) :
    actUnlock p s = accept .unlock (s.onCP fun c => { c with unlock := .opened a Config.unlockTime }) := by
  simp only [actUnlock, hfree, Bool.true_eq_false, if_false, ha]

/-- Settles O32. -/
theorem unlockOpensAnArea : Obligations.UnlockOpensAnArea := by
  intro b s free
  have hfree : freeOpen (commandTaken s) = true ↔ free := freeOpen_iff s
  have hrefused : ∀ {why}, PortFree s → actUnlock [b] (commandTaken s) = refuse .unlock why (commandTaken s) →
      exec (.unlock [b]) s = .next (refusal .unlock why s) := fun hport h =>
    exec_refused (k := .unlock) hport rfl h
  refine ⟨fun hport hbusy => hrefused hport ?state, fun hport hok h1 h2 => hrefused hport ?area,
    fun hport hok hb => ?accepted, rfl⟩
  case state =>
    have hno : freeOpen (commandTaken s) = false := by simpa using mt hfree.1 hbusy
    simp only [actUnlock, hno, if_true]
  case area =>
    have hnone : areaOf (field [b] 0 1) = none := by
      rw [Option.eq_none_iff_forall_ne_some]
      intro a ha
      rcases areaOf_eq_some.1 ha with ⟨hb, -⟩ | ⟨hb, -⟩ <;> rw [field_singleton] at hb
      · exact h1 (BitVec.eq_of_toNat_eq hb)
      · exact h2 (BitVec.eq_of_toNat_eq hb)
    simp only [actUnlock, hfree.2 hok, Bool.true_eq_false, if_false, hnone]
  case accepted =>
    have hsome : areaOf (field [b] 0 1) = some (if b = 1#8 then .general else .variants) := by
      rcases hb with rfl | rfl <;> rfl
    rw [show Instr.unlock [b] = HostCmd.unlock.instr [b] from rfl, exec_hostCommand .unlock [b] s hport rfl, actCommand,
      actUnlock_accepted (hfree.2 hok) hsome]
    simp only [accept, respond, State.onOut, Outputs.grewBy, List.append_nil]
    rfl

/-! ## WRITE_SETTINGS -/

/-- The unlock is open for the area (R189). -/
theorem unlockedFor_iff {a : Area} {u : UnlockState} : unlockedFor a u = true ↔ ∃ k, u = .opened a k := by
  cases u <;> simp [unlockedFor]

/-- Data that fit their area, by the area's number and its size (R187, R190). -/
theorem writeFits_iff {n last : Nat} :
    (n = 1 ∧ last ≤ 48) ∨ (n = 2 ∧ last ≤ 976) ↔ ∃ a, areaOf n = some a ∧ last ≤ areaSize a := by
  simp [areaOf_eq_some, or_and_right, exists_or, and_assoc, areaSize]

/-- The unlock is open for the area that a number names (R189). -/
theorem unlockOpen_iff {n : Nat} {a : Area} {u : UnlockState} (ha : areaOf n = some a) :
    (n = 1 ∧ ∃ k, u = .opened .general k) ∨ (n = 2 ∧ ∃ k, u = .opened .variants k) ↔ unlockedFor a u = true := by
  rcases areaOf_eq_some.1 ha with ⟨rfl, rfl⟩ | ⟨rfl, rfl⟩ <;> simp [unlockedFor_iff]

/-- Where an area begins in the image (R200). -/
theorem areaBase_of_areaOf {n : Nat} {a : Area} (ha : areaOf n = some a) : areaBase a = if n = 1 then 0 else 48 := by
  rcases areaOf_eq_some.1 ha with ⟨rfl, rfl⟩ | ⟨rfl, rfl⟩ <;> rfl

/-- Settles O33. -/
theorem writeSettingsBegins : Obligations.WriteSettingsBegins := by
  intro p s hport hmin hmax free a off data fits isOpen w
  have hlength : lengthFits .writeSettings p.length = true := by simp [lengthFits, hmin, hmax]
  have hfree : freeOpen (commandTaken s) = true ↔ free := freeOpen_iff s
  have hdata : data ≠ [] ∧ data.length ≤ 244 := by
    rw [← List.length_pos_iff, List.length_drop]
    omega
  have hrefused : ∀ {why}, actWriteSettings s.cp.unlock p (commandTaken s) =
      refuse .writeSettings why (commandTaken s) → exec (.writeSettings p) s = .next (refusal .writeSettings why s) :=
    fun h => exec_refused (k := .writeSettings) hport hlength h
  have hargument : ∀ {area}, off + data.length ≤ areaSize area →
      ¬(data = [] ∨ 244 < data.length ∨ areaSize area < off + data.length) := fun hsize => by
    rintro (h | h | h)
    · exact hdata.1 h
    · exact absurd hdata.2 (not_le.2 h)
    · exact absurd hsize (not_le.2 h)
  refine ⟨fun hbusy => hrefused ?state, fun hok hout => hrefused ?argument, fun hok hfits hshut => hrefused ?locked,
    fun hok hfits hopen => ?accepted⟩
  case state =>
    have hno : freeOpen (commandTaken s) = false := by simpa using mt hfree.1 hbusy
    simp only [actWriteSettings, hno, if_true]
  case argument =>
    simp only [actWriteSettings, hfree.2 hok, Bool.true_eq_false, if_false]
    split
    · rfl
    · rename_i area harea
      have hbeyond : ¬off + data.length ≤ areaSize area := fun hsize => hout (writeFits_iff.2 ⟨area, harea, hsize⟩)
      exact if_pos (.inr (.inr (not_le.1 hbeyond)))
  case locked =>
    obtain ⟨area, harea, hsize⟩ := writeFits_iff.1 hfits
    have hclosed : unlockedFor area s.cp.unlock = false := by simpa using mt (unlockOpen_iff harea).2 hshut
    simp only [actWriteSettings, hfree.2 hok, Bool.true_eq_false, if_false, harea, a]
    rw [if_neg (hargument hsize), if_pos hclosed]
  case accepted =>
    obtain ⟨area, harea, hsize⟩ := writeFits_iff.1 hfits
    rw [show Instr.writeSettings p = HostCmd.writeSettings.instr p from rfl,
      exec_hostCommand .writeSettings p s hport hlength]
    simp only [actCommand, actWriteSettings, hfree.2 hok, Bool.true_eq_false, if_false, harea, a]
    rw [if_neg (hargument hsize), if_neg (by simp [(unlockOpen_iff harea).1 hopen]), areaBase_of_areaOf harea]
    rfl

/-! ## READ_SETTINGS -/

/-- The sources that a source byte names (R198). -/
theorem readSourceOf_eq_some {n : Nat} {x : ReadSource} :
    readSourceOf n = some x ↔ (n = 1 ∧ x = .image) ∨ (n = 2 ∧ x = .inForce) := by
  unfold readSourceOf
  split <;> simp_all [eq_comm]

/-- The areas that an area byte names for a read (R198). -/
theorem readAreaOf_eq_some {n : Nat} {a : ReadArea} :
    readAreaOf n = some a ↔ (n = 1 ∧ a = .general) ∨ (n = 2 ∧ a = .variants) ∨ (n = 3 ∧ a = .checksum) := by
  unfold readAreaOf
  split <;> simp_all [eq_comm]

/-- Where an area begins in the image, and its size (R188, R200). -/
theorem readAreaPlace_of_readAreaOf {n : Nat} {a : ReadArea} (ha : readAreaOf n = some a) :
    readAreaPlace a =
      (if n = 1 then 0 else if n = 2 then 48 else 1024, if n = 1 then 48 else if n = 2 then 976 else 2) := by
  rcases readAreaOf_eq_some.1 ha with ⟨rfl, rfl⟩ | ⟨rfl, rfl⟩ | ⟨rfl, rfl⟩ <;> rfl

/-- The general block in its byte layout fills the area (R200). -/
theorem Settings.bytes_length (g : Settings) : g.bytes.length = 48 := by
  unfold Settings.bytes
  simp only [List.length_append, be1_length, be2_length, be4_length]

/-- A variant of 120 heights in its byte layout fills its block (R200). -/
theorem Variant.bytes_length {v : Variant} (h : v.heights.length = 120) : v.bytes.length = 244 := by
  have hheights : (v.heights.flatMap sbe2).length = 2 * v.heights.length := flatMap_length (fun i => be2_length _) _
  simp [Variant.bytes, hheights, h]

/-- Four variants of 120 heights fill the variant area (R67, R200). -/
theorem variantBytes_length {vs : List Variant} (hfour : vs.length = 4) (h : ∀ v ∈ vs, v.heights.length = 120) :
    (vs.flatMap Variant.bytes).length = 976 := by
  have hblocks : vs.map (fun v => v.bytes.length) = List.replicate 4 244 :=
    List.eq_replicate_iff.2 ⟨by simpa using hfour, by
      simpa using fun v hv => Variant.bytes_length (h v hv)⟩
  rw [List.length_flatMap, hblocks]
  rfl

/-- Each source fills each area, given a variant table of four variants of 120 heights (R67, R187, R188). -/
theorem areaBytes_length (src : ReadSource) (a : ReadArea) {s : State} (hfour : s.fe.variants.length = 4)
    (h : ∀ v ∈ s.fe.variants, v.heights.length = 120) : (areaBytes src a s).length = (readAreaPlace a).2 := by
  cases src with
  | image => simp [areaBytes]
  | inForce =>
    cases a with
    | general => exact Settings.bytes_length _
    | variants => exact variantBytes_length hfour h
    | checksum => rfl

/-- Settles O35. -/
theorem readSettingsReturnsBytes : Obligations.ReadSettingsReturnsBytes := by
  intro p s hport hlen src a off count base size fits variant area
  have hlength : lengthFits .readSettings p.length = true := by simp [lengthFits, hlen]
  have hrefused : ∀ {why}, actReadSettings p (commandTaken s) = refuse .readSettings why (commandTaken s) →
      exec (.readSettings p) s = .next (refusal .readSettings why s) :=
    fun h => exec_refused (k := .readSettings) hport hlength h
  have hplaced : ∀ {x ra}, readSourceOf src = some x → readAreaOf a = some ra →
      readAreaPlace ra = (base, size) ∧ areaBytes x ra s = area := fun hx hra => by
    have hplace := readAreaPlace_of_readAreaOf hra
    refine ⟨hplace, ?_⟩
    rcases readSourceOf_eq_some.1 hx with ⟨hsrc, rfl⟩ | ⟨hsrc, rfl⟩
    · simp only [areaBytes, hplace, area, hsrc, if_true]
      rfl
    · rcases readAreaOf_eq_some.1 hra with ⟨ha, rfl⟩ | ⟨ha, rfl⟩ | ⟨ha, rfl⟩ <;> simp only [area, hsrc, ha] <;> rfl
  have hnamed : (∃ x, readSourceOf src = some x) ∧ (∃ ra, readAreaOf a = some ra) ↔
      (src = 1 ∨ src = 2) ∧ (a = 1 ∨ a = 2 ∨ a = 3) := by
    simp [readSourceOf_eq_some, readAreaOf_eq_some, exists_or]
  refine ⟨fun hcal => hrefused ?state, fun hcal hout => hrefused ?argument, fun hcal hfits => ?accepted,
    fun hfits hfour hheights => ?length⟩
  case state => exact if_pos (Option.isSome_iff_ne_none.2 hcal)
  case argument =>
    simp only [actReadSettings, commandTaken_frame, hcal, Option.isSome_none, Bool.false_eq_true, if_false]
    split
    · rename_i x ra hx hra
      obtain ⟨hsrc, ha⟩ := hnamed.1 ⟨⟨x, hx⟩, ra, hra⟩
      refine if_pos ?_
      rw [(hplaced hx hra).1]
      by_contra hgood
      exact hout ⟨hsrc, ha, by omega, by omega, by omega⟩
    · rfl
  case accepted =>
    obtain ⟨hsrc, ha, hmin, hmax, hend⟩ := hfits
    obtain ⟨⟨x, hx⟩, ra, hra⟩ := hnamed.2 ⟨hsrc, ha⟩
    obtain ⟨hplace, hbytes⟩ := hplaced hx hra
    have hgood : ¬(count = 0 ∨ 244 < count ∨ (readAreaPlace ra).2 < off + count) := by
      rw [hplace]
      omega
    have htaken : areaBytes x ra (commandTaken s) = area := hbytes
    rw [show Instr.readSettings p = HostCmd.readSettings.instr p from rfl,
      exec_hostCommand .readSettings p s hport hlength]
    simp only [actCommand, actReadSettings, commandTaken_frame, hcal, Option.isSome_none, Bool.false_eq_true, if_false,
      hx, hra, src, a]
    rw [if_neg hgood, htaken]
    simp only [respond, State.onOut, commandTaken_frame, Outputs.grewBy, List.append_nil]
    rfl
  case length =>
    obtain ⟨hsrc, ha, hmin, hmax, hend⟩ := hfits
    obtain ⟨⟨x, hx⟩, ra, hra⟩ := hnamed.2 ⟨hsrc, ha⟩
    obtain ⟨hplace, hbytes⟩ := hplaced hx hra
    have hfull : area.length = size := by
      rw [← hbytes, areaBytes_length x ra hfour hheights, hplace]
    rw [List.length_take, List.length_drop, hfull]
    omega

end Sys2Proof.Machine

/-! PROOFS. The frame of a host command reads back as it was written (R180, R195, R196, R198). -/

namespace Sys2Proof.Machine

open Sys2Proof

theorem ofBytes_be2 (n : Nat) : ofBytes (be2 n) = n % 65536 := by
  simp [ofBytes, be2]
  omega

/-- The two check bytes read back as the check (R196). -/
theorem ofBytes_crcBytes (bs : List Byte) : ofBytes (crcBytes bs) = (crc16 bs).toNat := by
  rw [crcBytes, ofBytes_be2, Nat.mod_eq_of_lt (crc16 bs).isLt]

/-- The command byte names its command (R198). -/
theorem hostCmdOf_code (c : HostCmd) : hostCmdOf (c.code % 256) = some c := by
  cases c <;> rfl

/-- The check of bytes followed by their own check matches (R180, R196). -/
theorem cellCheckOk_append_crcBytes (bs : List Byte) : cellCheckOk (bs ++ crcBytes bs) = true := by
  have hlength : (bs ++ crcBytes bs).length - 2 = bs.length := by simp [crcBytes]
  simp only [cellCheckOk, hlength, List.take_left, List.drop_left, ofBytes_crcBytes, decide_true]

/-- The frame of a host command, byte by byte: command, length, payload, check (R198). -/
theorem cellFrame_eq (c : HostCmd) (p : List Byte) :
    cellFrame c p = BitVec.ofNat 8 c.code :: BitVec.ofNat 8 p.length ::
      (p ++ crcBytes (be1 c.code ++ be1 p.length ++ p)) := rfl

theorem cellFrame_length (c : HostCmd) (p : List Byte) : (cellFrame c p).length = p.length + 4 := by
  simp [cellFrame_eq, crcBytes]

/-- The length byte of a frame with at most 255 bytes of payload tells where it ends (R180). -/
theorem cellComplete_cellFrame (c : HostCmd) {p : List Byte} (h : p.length ≤ 255) :
    cellComplete (cellFrame c p) = true := by
  have hbyte : ((cellFrame c p).getD 1 0#8).toNat = p.length := by
    simp [cellFrame_eq]
    omega
  simp only [cellComplete, hbyte, cellFrame_length]
  simp

/-- Settles O15: the frame is complete, its check matches, its command byte names the command, and the payload is what
stands between the length byte and the check. -/
theorem cellFramesReadBack : Obligations.CellFramesReadBack := by
  intro c p h
  have hcheck : cellCheckOk (cellFrame c p) = true := cellCheckOk_append_crcBytes _
  have hcommand : hostCmdOf ((cellFrame c p).getD 0 0#8).toNat = some c := by
    simp [cellFrame_eq, hostCmdOf_code]
  have hpayload : ((cellFrame c p).drop 2).take ((cellFrame c p).length - 4) = p := by
    rw [cellFrame_length, Nat.add_sub_cancel, cellFrame_eq]
    exact List.take_left
  rw [cellCommand, cellComplete_cellFrame c h, hcheck, hcommand, hpayload]
  rfl

end Sys2Proof.Machine

/-! PROOFS. A write of the store stores its data and makes the checksum good (R187, R190). -/

namespace Sys2Proof.Machine

open Sys2Proof

/-- The byte that a write lays down at an offset: a spare byte is stored as 0 (R187, R190). -/
def storedByte (a : Nat) (b : Byte) : Byte := if isSpare a then 0#8 else b

/-- The bytes that data lay down from an offset on, the checksum apart (R190). -/
def dataBytes (off : Nat) (data : List Byte) : List (Nat × Byte) :=
  data.zipIdx.map fun d => (off + d.2, storedByte (off + d.2) d.1)

theorem dataBytes_cons (off : Nat) (b : Byte) (data : List Byte) :
    dataBytes off (b :: data) = (off, storedByte off b) :: dataBytes (off + 1) data := by
  simp only [dataBytes, List.zipIdx_cons', List.map_cons, List.map_map, Nat.add_zero]
  congr 2
  funext d
  simp [Prod.map, Nat.add_assoc, Nat.add_comm 1]

/-- The offsets that data are laid down at. -/
theorem mem_dataBytes {off : Nat} {data : List Byte} {w : Nat × Byte} (h : w ∈ dataBytes off data) :
    off ≤ w.1 ∧ w.1 < off + data.length := by
  induction data generalizing off with
  | nil => simp [dataBytes] at h
  | cons b data ih =>
    rw [dataBytes_cons] at h
    rw [List.length_cons]
    rcases List.mem_cons.1 h with rfl | h
    · exact ⟨le_refl _, by omega⟩
    · obtain ⟨hlow, hhigh⟩ := ih h
      omega

/-- Data laid down in the image stand at their offsets. -/
theorem imageGet_dataBytes {m : Image} {off : Nat} {data : List Byte} (hm : imageWf m = true)
    (hend : off + data.length ≤ imageSize) (i : Nat) (hi : i < data.length) :
    imageGet (imagePutAll m (dataBytes off data)) (off + i) = storedByte (off + i) data[i] := by
  induction data generalizing m off i with
  | nil => simp at hi
  | cons b data ih =>
    rw [List.length_cons] at hend
    have hput : imageWf (imagePut m off (storedByte off b)) = true := imageWf_imagePut m off _ hm
    rw [dataBytes_cons]
    show imageGet (imagePutAll (imagePut m off (storedByte off b)) (dataBytes (off + 1) data)) (off + i) = _
    cases i with
    | zero =>
      have hlater : ∀ w ∈ dataBytes (off + 1) data, w.1 ≠ off := fun w hw => by
        have hlow := (mem_dataBytes hw).1
        omega
      show imageGet (imagePutAll (imagePut m off (storedByte off b)) (dataBytes (off + 1) data)) off = storedByte off b
      rw [imageGet_imagePutAll_other _ _ _ hput hlater, imageGet_imagePut m off off _ hm, if_pos ⟨rfl, by omega⟩]
    | succ i =>
      have hnext := ih (off := off + 1) hput (by omega) i (by simpa using hi)
      rw [Nat.add_assoc, Nat.add_comm 1] at hnext
      exact hnext

/-- The sums read no checksum byte (R187). -/
theorem imageSum_congr {m n : Image} {odd : Nat} (hodd : odd ≤ 1) (h : ∀ a, a < 1024 → imageGet m a = imageGet n a) :
    imageSum m odd = imageSum n odd := by
  refine congrArg (· % 256) (List.foldl_ext _ _ _ fun acc i hi => ?_)
  have hi' := List.mem_range.1 hi
  rw [h _ (by omega)]

/-- A sum fits its checksum byte (R187). -/
theorem imageSum_lt (m : Image) (odd : Nat) : imageSum m odd < 256 := Nat.mod_lt _ (by decide)

/-- The two checksum bytes of the sums over an image (R187, R190). -/
def sumBytes (m : Image) : List (Nat × Byte) :=
  [(1024, BitVec.ofNat 8 (imageSum m 0)), (1025, BitVec.ofNat 8 (imageSum m 1))]

/-- The image with its two checksum bytes laid down: they hold the sums, and every other byte is as it was. -/
theorem imageGet_sumBytes {m : Image} (hm : imageWf m = true) (a : Nat) :
    imageGet (imagePutAll m (sumBytes m)) a =
      if a = 1025 then BitVec.ofNat 8 (imageSum m 1) else if a = 1024 then BitVec.ofNat 8 (imageSum m 0)
      else imageGet m a := by
  have hfirst := imageWf_imagePut m 1024 (BitVec.ofNat 8 (imageSum m 0)) hm
  show imageGet (imagePut (imagePut m 1024 _) 1025 _) a = _
  rw [imageGet_imagePut _ _ _ _ hfirst, imageGet_imagePut _ _ _ _ hm]
  simp [imageSize]

/-- The image with its two checksum bytes laid down is good (R187). -/
theorem imageGood_sumBytes {m : Image} (hm : imageWf m = true) :
    imageGood (imagePutAll m (sumBytes m)) = true := by
  have hsum : ∀ odd, odd ≤ 1 → imageSum (imagePutAll m (sumBytes m)) odd = imageSum m odd := fun odd hodd =>
    imageSum_congr hodd fun a ha => by
      rw [imageGet_sumBytes hm, if_neg (by omega), if_neg (by omega)]
  simp [imageGood, imageGet_sumBytes hm, hsum, Nat.mod_eq_of_lt (imageSum_lt m _)]

/-- A write of the store is its data laid down, then the checksum of the image that this leaves (R190). -/
theorem beginWrite_image (m : Image) (off : Nat) (data : List Byte) :
    (beginWrite m off data).1 =
      imagePutAll (imagePutAll m (dataBytes off data)) (sumBytes (imagePutAll m (dataBytes off data))) :=
  List.foldl_append

/-- Settles O17: the data laid down stand at their offsets, nothing else below the checksum changes, and the checksum
laid down after them reads none of its own bytes. -/
theorem writtenImageIsGood : Obligations.WrittenImageIsGood := by
  intro m off data hm hend
  have hlaid : imageWf (imagePutAll m (dataBytes off data)) = true := imageWf_imagePutAll _ m hm
  have hbelow : ∀ a, a < 1024 →
      imageGet (beginWrite m off data).1 a = imageGet (imagePutAll m (dataBytes off data)) a := fun a ha => by
    rw [beginWrite_image, imageGet_sumBytes hlaid, if_neg (by omega), if_neg (by omega)]
  refine ⟨?good, (imageWf_beginWrite m off data hm).1, fun i hi => ?stored, fun a ha hout => ?other⟩
  case good =>
    rw [beginWrite_image]
    exact imageGood_sumBytes hlaid
  case stored =>
    rw [hbelow _ (by omega)]
    exact imageGet_dataBytes hm (by simp only [imageSize]; omega) i hi
  case other =>
    rw [hbelow a ha]
    refine imageGet_imagePutAll_other _ m a hm fun w hw => ?_
    obtain ⟨hlow, hhigh⟩ := mem_dataBytes hw
    omega

end Sys2Proof.Machine

/-! PROOFS. Every command answers a next state, and the queue of waiting commands stays as it was (R181, R183). -/

namespace Sys2Proof.Machine

open Sys2Proof

/-- An answer that is a next state with the queue of waiting commands as it was. -/
def AnswersNext (r : Result) (s : State) : Prop := ∃ t, r = .next t ∧ t.pending = s.pending

theorem answersNext_next {s t : State} (h : t.pending = s.pending) : AnswersNext (.next t) s := ⟨t, rfl, h⟩

/-- A command that changes nothing. -/
theorem answersNext_same (s : State) : AnswersNext (.next s) s := answersNext_next rfl

theorem answersNext_ite {p : Prop} [Decidable p] {s a b : State} (ha : a.pending = s.pending)
    (hb : b.pending = s.pending) : AnswersNext (.next (if p then a else b)) s :=
  answersNext_next (by split <;> assumption)

@[simp] theorem receiveBytes_pending (bs : List Byte) (s : State) : (receiveBytes bs s).pending = s.pending := by
  simp only [receiveBytes]; (repeat' split) <;> simp

/-- A frame received, given what its delivery leaves of the queue (R97 to R99). -/
theorem receive_pending {k : FrameKind} {f : LinkFrame} {deliver : State → State} {s : State}
    (hd : (deliver s).pending = s.pending) : (receive k f deliver s).pending = s.pending := by
  simp only [receive]; (repeat' split) <;> simp [hd]

/-- Every command answers next and leaves the queue (R181, R183). -/
theorem exec_answersNext (c : Instr) (s : State) : AnswersNext (exec c s) s := by
  cases c with
  | reset k p w => exact answersNext_next rfl
  | visit p | measure p | cut p | hold p | resume p | feed p | withdraw p | release p | calibrate p | unlock p
  | writeSettings p | readSettings p | readStatus p | readResult p | readPeers p | readPasses p =>
    exact answersNext_next (cpSubmit_frame _ p s).1
  | discardedFrame frame =>
    exact answersNext_ite (by split <;> simp) (by split <;> simp)
  | settingsWriteDone m | calibrationWriteDone m | unlockTimerExpiry | rawInputChange i v =>
    exact answersNext_next (by simp)
  | frameGapTimeout | homeTimerExpiry | encoderPulse | markLeadingEdge | markTrailingEdge | markTimerExpiry
  | driveTimerExpiry | debounceExpiry | listenOnlyEnd | receiveError | violationTimerExpiry | peerWaitTimerExpiry
  | backoffExpiry =>
    exact answersNext_ite (by simp) (by simp)
  | announceTimerExpiry =>
    simp only [exec, execAnnounceTimerExpiry]
    split
    · exact answersNext_same s
    · exact answersNext_ite (by simp) (by simp)
  | watchdogExpiry =>
    simp only [exec, execWatchdogExpiry]
    split
    · exact answersNext_ite (by simp) (by simp)
    · exact answersNext_same s
  | tracerReading w x r | sweepEnd w | transmitStart | arbitrationLost bit | peerAgeExpiry n =>
    simp only [exec, execTracerReading, execSweepEnd, execTransmitStart, execArbitrationLost, execPeerAgeExpiry]
    split
    · exact answersNext_ite (by simp) (by simp)
    · exact answersNext_same s
  | ownFrameError =>
    simp only [exec, execOwnFrameError]
    split
    · exact answersNext_same s
    · exact answersNext_ite (by simp) (by simp)
  | sweepTimerExpiry | frameSent | passTimerExpiry =>
    simp only [exec, execSweepTimerExpiry, execFrameSent, execPassTimerExpiry]
    split
    · exact answersNext_next (by simp)
    · exact answersNext_same s
  | stateReceived f | ceilingReceived f | intentReceived f | claimReceived f =>
    refine answersNext_next (receive_pending ?_)
    split <;> simp
  | releaseReceived f => exact answersNext_next (receive_pending (by simp))
  | slideDone w =>
    simp only [exec, execSlideDone]
    split
    · exact answersNext_ite (by split <;> simp) (by simp)
    · exact answersNext_next (by simp)
  | slideFault w =>
    simp only [exec, execSlideFault]
    split <;> exact answersNext_next (by simp)

/-- Settles O3. -/
theorem everyCommandAnswersNext : Obligations.EveryCommandAnswersNext := exec_answersNext

end Sys2Proof.Machine

/-! PROOFS. A step takes the command at the front of the queue. -/

namespace Sys2Proof.Machine

open Sys2Proof

/-- With a command waiting, a step is that command's `exec` on the state left when it is taken off the queue. -/
theorem step_of_pending_cons {c : Instr} {rest : List Instr} {s : State} (h : s.pending = c :: rest) :
    step s = exec c { s with pending := rest } := by
  simp only [step, h]

/-- Settles O1. -/
theorem stepTakesFrontCommand : Obligations.StepTakesFrontCommand :=
  fun _ _ _ => step_of_pending_cons rfl

end Sys2Proof.Machine
